-- ==== Sys2Proof/Word.lean ====
section
/-! DEFINITION. The word types of the MC68EC040 and the plainest pieces of them (00_scope 5.1, 30_encoding R144). -/

namespace Sys2Proof

/-- A byte, `.B`. -/
abbrev Byte := BitVec 8

/-- A 16-bit word, `.W`: the unit of the instruction stream. -/
abbrev Word := BitVec 16

/-- A 32-bit long word, `.L`: general registers and addresses. -/
abbrev Long := BitVec 32

/-- The 3-bit number of a data or address register in an instruction field. -/
abbrev Reg := BitVec 3

/-- The 4-bit number `i` of `R[i]` (00_scope 5.2): `D[i]` below 8, `A[i-8]` otherwise. -/
abbrev GReg := BitVec 4

/-- The operand sizes of 30_encoding R144. -/
inductive Size where
  | byte | word | long
  deriving DecidableEq, Repr

/-- The operand sizes of an instruction with a one-bit size field (30_encoding R144). -/
inductive SizeWL where
  | w | l
  deriving DecidableEq, Repr

/-- Width in bits, `N = 8*sz`. -/
abbrev Size.bits : Size → Nat
  | .byte => 8
  | .word => 16
  | .long => 32

/-- Width in bytes, `sz`. -/
abbrev Size.bytes : Size → Nat
  | .byte => 1
  | .word => 2
  | .long => 4

/-- The size a one-bit field names. -/
abbrev SizeWL.size : SizeWL → Size
  | .w => .word
  | .l => .long

/-- `msb(v)`, the most significant bit of an operand. -/
abbrev msb {n : Nat} (v : BitVec n) : Bool := v.msb

/-- The high-order word of a long word. -/
abbrev hiWord (v : Long) : Word := v.extractLsb' 16 16

/-- The low-order word of a long word. -/
abbrev loWord (v : Long) : Word := v.extractLsb' 0 16

end Sys2Proof
end

