-- ==== Sys2Proof/Syntax.lean ====
section
/-! DEFINITION. The instructions of the MC68EC040: one constructor of `Instr` for each row of spec/opcode_table.json,
with the operands of its encoding (30_encoding, 40 to 49). -/

namespace Sys2Proof

/-- A displacement of the full extension word: null, word or long (30_encoding R148). -/
inductive Disp where
  | null
  | word (d : Word)
  | long (d : Long)
  deriving DecidableEq, Repr

/-- The index operand of an extension word: register, W/L and scale (30_encoding R147). -/
structure IndexReg where
  reg : GReg
  long : Bool
  scale : BitVec 2
  deriving DecidableEq, Repr

/-- Memory indirection of a full extension word (30_encoding R148): none, preindexed or postindexed with its outer
displacement. With the index suppressed the memory-indirect codes are `pre`. -/
inductive Indirect where
  | none
  | pre (od : Disp)
  | post (od : Disp)
  deriving DecidableEq, Repr

/-- The brief and the full extension word (30_encoding R147, R148). -/
inductive Index where
  | brief (x : IndexReg) (d8 : Byte)
  | full (x : IndexReg) (baseSuppress indexSuppress : Bool) (bd : Disp) (ind : Indirect)
  deriving DecidableEq, Repr

/-- The twelve addressing modes of 30_encoding R145, with their extension words. An immediate is held in 32 bits and
fits its operand size. -/
inductive Ea where
  | dn (r : Reg)
  | an (r : Reg)
  | ind (r : Reg)
  | postInc (r : Reg)
  | preDec (r : Reg)
  | disp (r : Reg) (d : Word)
  | idx (r : Reg) (x : Index)
  | absW (a : Word)
  | absL (a : Long)
  | pcDisp (d : Word)
  | pcIdx (x : Index)
  | imm (v : Long)
  deriving DecidableEq, Repr

/-- The sixteen conditions of 30_encoding R165, in the order of their codes. -/
inductive Cond where
  | t | f | hi | ls | cc | cs | ne | eq | vc | vs | pl | mi | ge | lt | gt | le
  deriving DecidableEq, Repr

/-- The displacement of Bcc, BRA and BSR (47_program_control R351). -/
inductive BranchDisp where
  | byte (d : Byte)
  | word (d : Word)
  | long (d : Long)
  deriving DecidableEq, Repr

/-- The operand TRAPcc skips (48_system_control R407). -/
inductive TrapOperand where
  | none
  | word (v : Word)
  | long (v : Long)
  deriving DecidableEq, Repr

/-- The count of a register shift: an immediate field (000 is 8) or a data register (43_shift_rotate R290). -/
inductive ShiftCount where
  | imm (c : BitVec 3)
  | reg (r : Reg)
  deriving DecidableEq, Repr

/-- Offset or width of a bit field: an immediate or a data register (45_bit_field R320). -/
inductive BfArg where
  | imm (v : BitVec 5)
  | reg (r : Reg)
  deriving DecidableEq, Repr

/-- Offset and width of a bit field (45_bit_field R320). -/
structure BitField where
  offset : BfArg
  width : BfArg
  deriving DecidableEq, Repr

/-- Direction and size of MOVEP, in the order of its code (40_data_movement R206). -/
inductive MovepOp where
  | wordToReg | longToReg | wordToMem | longToMem
  deriving DecidableEq, Repr

/-- The absolute forms of MOVE16, in the order of their code (40_data_movement R209). -/
inductive Move16Op where
  | postIncToAbs | absToPostInc | indToAbs | absToInd
  deriving DecidableEq, Repr

/-- The cache selector of CINV and CPUSH, in the order of its code (49 R435). -/
inductive CacheSel where
  | none | data | instr | both
  deriving DecidableEq, Repr

/-- The scope of CINV and CPUSH; code 00 is no CINV or CPUSH (49 R435). -/
inductive CacheScope where
  | line | page | all
  deriving DecidableEq, Repr

/-- One extension word of CAS2 (49 R432). -/
structure Cas2Operand where
  rn : GReg
  du : Reg
  dc : Reg
  deriving DecidableEq, Repr

/-- The instructions, in the order of the rows of spec/opcode_table.json. -/
inductive Instr where
  | ori (sz : Size) (imm : Long) (ea : Ea)
  | oriCcr (imm : Byte)
  | oriSr (imm : Word)
  | andi (sz : Size) (imm : Long) (ea : Ea)
  | andiCcr (imm : Byte)
  | andiSr (imm : Word)
  | subi (sz : Size) (imm : Long) (ea : Ea)
  | addi (sz : Size) (imm : Long) (ea : Ea)
  | eori (sz : Size) (imm : Long) (ea : Ea)
  | eoriCcr (imm : Byte)
  | eoriSr (imm : Word)
  | cmpi (sz : Size) (imm : Long) (ea : Ea)
  | btstImm (n : Byte) (ea : Ea)
  | btstReg (dn : Reg) (ea : Ea)
  | bchgImm (n : Byte) (ea : Ea)
  | bchgReg (dn : Reg) (ea : Ea)
  | bclrImm (n : Byte) (ea : Ea)
  | bclrReg (dn : Reg) (ea : Ea)
  | bsetImm (n : Byte) (ea : Ea)
  | bsetReg (dn : Reg) (ea : Ea)
  | movep (op : MovepOp) (dx ay : Reg) (d : Word)
  | cmp2 (sz : Size) (rn : GReg) (ea : Ea)
  | chk2 (sz : Size) (rn : GReg) (ea : Ea)
  | cas (sz : Size) (dc du : Reg) (ea : Ea)
  | cas2 (sz : SizeWL) (o1 o2 : Cas2Operand)
  | moves (sz : Size) (toMem : Bool) (rn : GReg) (ea : Ea)
  | move (sz : Size) (src dst : Ea)
  | movea (sz : SizeWL) (an : Reg) (src : Ea)
  | negx (sz : Size) (ea : Ea)
  | clr (sz : Size) (ea : Ea)
  | neg (sz : Size) (ea : Ea)
  | not (sz : Size) (ea : Ea)
  | moveFromSr (ea : Ea)
  | moveFromCcr (ea : Ea)
  | moveToCcr (ea : Ea)
  | moveToSr (ea : Ea)
  | nbcd (ea : Ea)
  | linkL (an : Reg) (d : Long)
  | swap (dn : Reg)
  | bkpt (v : BitVec 3)
  | pea (ea : Ea)
  | extW (dn : Reg)
  | extL (dn : Reg)
  | extbL (dn : Reg)
  | movemToMem (sz : SizeWL) (mask : Word) (ea : Ea)
  | movemToReg (sz : SizeWL) (mask : Word) (ea : Ea)
  | tst (sz : Size) (ea : Ea)
  | tas (ea : Ea)
  | illegal
  | muluL (dl dh : Reg) (wide : Bool) (ea : Ea)
  | mulsL (dl dh : Reg) (wide : Bool) (ea : Ea)
  | divuL (dq dr : Reg) (wide : Bool) (ea : Ea)
  | divsL (dq dr : Reg) (wide : Bool) (ea : Ea)
  | trap (n : BitVec 4)
  | linkW (an : Reg) (d : Word)
  | unlk (an : Reg)
  | moveToUsp (an : Reg)
  | moveFromUsp (an : Reg)
  | reset
  | nop
  | stop (imm : Word)
  | rte
  | rtd (d : Word)
  | rts
  | trapv
  | rtr
  | movecFrom (rn : GReg) (code : BitVec 12)
  | movecTo (rn : GReg) (code : BitVec 12)
  | jsr (ea : Ea)
  | jmp (ea : Ea)
  | chkW (dn : Reg) (ea : Ea)
  | chkL (dn : Reg) (ea : Ea)
  | lea (an : Reg) (ea : Ea)
  | addq (sz : Size) (q : BitVec 3) (ea : Ea)
  | subq (sz : Size) (q : BitVec 3) (ea : Ea)
  | scc (c : Cond) (ea : Ea)
  | dbcc (c : Cond) (dn : Reg) (d : Word)
  | trapcc (c : Cond) (op : TrapOperand)
  | bra (d : BranchDisp)
  | bsr (d : BranchDisp)
  | bcc (c : Cond) (d : BranchDisp)
  | moveq (dn : Reg) (d : Byte)
  | orEaDnB (dn : Reg) (ea : Ea)
  | orEaDnW (dn : Reg) (ea : Ea)
  | orEaDnL (dn : Reg) (ea : Ea)
  | orDnEaB (dn : Reg) (ea : Ea)
  | orDnEaW (dn : Reg) (ea : Ea)
  | orDnEaL (dn : Reg) (ea : Ea)
  | divuW (dn : Reg) (ea : Ea)
  | divsW (dn : Reg) (ea : Ea)
  | sbcd (mem : Bool) (x y : Reg)
  | pack (mem : Bool) (x y : Reg) (adj : Word)
  | unpk (mem : Bool) (x y : Reg) (adj : Word)
  | subEaDnB (dn : Reg) (ea : Ea)
  | subEaDnW (dn : Reg) (ea : Ea)
  | subEaDnL (dn : Reg) (ea : Ea)
  | subDnEaB (dn : Reg) (ea : Ea)
  | subDnEaW (dn : Reg) (ea : Ea)
  | subDnEaL (dn : Reg) (ea : Ea)
  | suba (sz : SizeWL) (an : Reg) (ea : Ea)
  | subx (sz : Size) (mem : Bool) (x y : Reg)
  | aline (w : BitVec 12)
  | cmpB (dn : Reg) (ea : Ea)
  | cmpW (dn : Reg) (ea : Ea)
  | cmpL (dn : Reg) (ea : Ea)
  | cmpa (sz : SizeWL) (an : Reg) (ea : Ea)
  | eorB (dn : Reg) (ea : Ea)
  | eorW (dn : Reg) (ea : Ea)
  | eorL (dn : Reg) (ea : Ea)
  | cmpm (sz : Size) (x y : Reg)
  | andEaDnB (dn : Reg) (ea : Ea)
  | andEaDnW (dn : Reg) (ea : Ea)
  | andEaDnL (dn : Reg) (ea : Ea)
  | andDnEaB (dn : Reg) (ea : Ea)
  | andDnEaW (dn : Reg) (ea : Ea)
  | andDnEaL (dn : Reg) (ea : Ea)
  | muluW (dn : Reg) (ea : Ea)
  | mulsW (dn : Reg) (ea : Ea)
  | abcd (mem : Bool) (x y : Reg)
  | exgDD (x y : Reg)
  | exgAA (x y : Reg)
  | exgDA (x y : Reg)
  | addEaDnB (dn : Reg) (ea : Ea)
  | addEaDnW (dn : Reg) (ea : Ea)
  | addEaDnL (dn : Reg) (ea : Ea)
  | addDnEaB (dn : Reg) (ea : Ea)
  | addDnEaW (dn : Reg) (ea : Ea)
  | addDnEaL (dn : Reg) (ea : Ea)
  | adda (sz : SizeWL) (an : Reg) (ea : Ea)
  | addx (sz : Size) (mem : Bool) (x y : Reg)
  | aslReg (sz : Size) (count : ShiftCount) (dy : Reg)
  | aslMem (ea : Ea)
  | asrReg (sz : Size) (count : ShiftCount) (dy : Reg)
  | asrMem (ea : Ea)
  | lslReg (sz : Size) (count : ShiftCount) (dy : Reg)
  | lslMem (ea : Ea)
  | lsrReg (sz : Size) (count : ShiftCount) (dy : Reg)
  | lsrMem (ea : Ea)
  | roxlReg (sz : Size) (count : ShiftCount) (dy : Reg)
  | roxlMem (ea : Ea)
  | roxrReg (sz : Size) (count : ShiftCount) (dy : Reg)
  | roxrMem (ea : Ea)
  | rolReg (sz : Size) (count : ShiftCount) (dy : Reg)
  | rolMem (ea : Ea)
  | rorReg (sz : Size) (count : ShiftCount) (dy : Reg)
  | rorMem (ea : Ea)
  | bftst (bf : BitField) (ea : Ea)
  | bfextu (dn : Reg) (bf : BitField) (ea : Ea)
  | bfchg (bf : BitField) (ea : Ea)
  | bfexts (dn : Reg) (bf : BitField) (ea : Ea)
  | bfclr (bf : BitField) (ea : Ea)
  | bfffo (dn : Reg) (bf : BitField) (ea : Ea)
  | bfset (bf : BitField) (ea : Ea)
  | bfins (dn : Reg) (bf : BitField) (ea : Ea)
  | cinv (sel : CacheSel) (scope : CacheScope) (an : Reg)
  | cpush (sel : CacheSel) (scope : CacheScope) (an : Reg)
  | pflush (op : BitVec 2) (an : Reg)
  | ptest (read : Bool) (an : Reg)
  | move16Abs (op : Move16Op) (ay : Reg) (addr : Long)
  | move16Pi (ax ay : Reg)
  | fpLine (w : BitVec 9)
  | fline (w : BitVec 12)
  deriving DecidableEq, Repr

end Sys2Proof
end

