-- ==== Sys2Proof/WellFormed.lean ====
section
/-! DEFINITION. Which terms of `Instr` are instructions: operands in the categories of addressing modes their rules
name, immediates that fit, forms their rows do not give to another instruction (30_encoding R146, R171). -/

namespace Sys2Proof

/-- The twelve addressing modes without their operands (30_encoding R145). -/
inductive EaKind where
  | dn | an | ind | postInc | preDec | disp | idx | absW | absL | pcDisp | pcIdx | imm
  deriving DecidableEq, Repr

/-- The mode of an operand. -/
def Ea.kind : Ea → EaKind
  | .dn _ => .dn
  | .an _ => .an
  | .ind _ => .ind
  | .postInc _ => .postInc
  | .preDec _ => .preDec
  | .disp _ _ => .disp
  | .idx _ _ => .idx
  | .absW _ => .absW
  | .absL _ => .absL
  | .pcDisp _ => .pcDisp
  | .pcIdx _ => .pcIdx
  | .imm _ => .imm

/-- The categories of 30_encoding R146. -/
inductive Cat where
  | all | data | ctl | alt | dalt | malt | dataNoImm | caltPd | ctlPi | dnCtl | dnCalt
  deriving DecidableEq, Repr

/-- `ea_allowed`: the modes of a category (30_encoding R146). -/
def Cat.allows : Cat → EaKind → Bool
  | .all, _ => true
  | .data, k => k != .an
  | .dataNoImm, k => k != .an && k != .imm
  | .alt, k => k != .pcDisp && k != .pcIdx && k != .imm
  | .dalt, k => k != .an && k != .pcDisp && k != .pcIdx && k != .imm
  | .malt, k => k != .dn && k != .an && k != .pcDisp && k != .pcIdx && k != .imm
  | .ctl, k => k == .ind || k == .disp || k == .idx || k == .absW || k == .absL || k == .pcDisp || k == .pcIdx
  | .ctlPi, k => k == .ind || k == .postInc || k == .disp || k == .idx || k == .absW || k == .absL || k == .pcDisp || k == .pcIdx
  | .caltPd, k => k == .ind || k == .preDec || k == .disp || k == .idx || k == .absW || k == .absL
  | .dnCtl, k => k == .dn || k == .ind || k == .disp || k == .idx || k == .absW || k == .absL || k == .pcDisp || k == .pcIdx
  | .dnCalt, k => k == .dn || k == .ind || k == .disp || k == .idx || k == .absW || k == .absL

/-- An instruction of size `sz` with operands of category `c` takes mode `k`: address registers are never bytes
(30_encoding R146). -/
def modeOk (c : Cat) (sz : Size) (k : EaKind) : Bool :=
  c.allows k && !(sz == .byte && k == .an)

/-- An immediate held in 32 bits fits the operand size (30_encoding R143). -/
def immFits (sz : Size) (v : Long) : Bool :=
  decide (v.toNat < 2 ^ sz.bits)

/-- With the index suppressed there is no postindexed form (30_encoding R148). -/
def Index.wf : Index → Bool
  | .brief _ _ => true
  | .full _ _ is _ ind =>
    match ind with
    | .post _ => !is
    | _ => true

/-- The operand's own extension words are ones 30_encoding R143 and R148 define. -/
def Ea.wf (sz : Size) : Ea → Bool
  | .idx _ x => x.wf
  | .pcIdx x => x.wf
  | .imm v => immFits sz v
  | _ => true

/-- An operand of size `sz` and category `c`. -/
def eaOk (c : Cat) (sz : Size) (e : Ea) : Bool :=
  modeOk c sz e.kind && e.wf sz

/-- `d8` = $00 and $FF select the longer forms (47_program_control R351). -/
def BranchDisp.wf : BranchDisp → Bool
  | .byte d => d != 0 && d != 0xFF
  | _ => true

/-- Whether a row above the last one owns the F-line word with these low twelve bits (48_system_control R411): CINV and
CPUSH with a scope, PFLUSH, PTEST, MOVE16, or the floating-point words. -/
def flineOwned (w : BitVec 12) : Bool :=
  let a := w.extractLsb' 9 3
  let b := w.extractLsb' 6 3
  let m := w.extractLsb' 3 3
  a == 1
    || (a == 2 && b.extractLsb' 2 1 == 0 && m.extractLsb' 0 2 != 0)
    || (a == 2 && b == 4 && m.extractLsb' 2 1 == 0)
    || (a == 2 && b == 5 && (m == 1 || m == 5))
    || (a == 3 && b == 0 && m.extractLsb' 2 1 == 0)
    || (a == 3 && b == 0 && m == 4)

/-- The well-formed instructions. -/
def Instr.wf : Instr → Bool
  | .ori sz v e | .andi sz v e | .subi sz v e | .addi sz v e | .eori sz v e => immFits sz v && eaOk .dalt sz e
  | .cmpi sz v e => immFits sz v && eaOk .dataNoImm sz e
  | .btstImm _ e => eaOk .dataNoImm .byte e
  | .btstReg _ e => eaOk .data .byte e
  | .bchgImm _ e | .bclrImm _ e | .bsetImm _ e => eaOk .dalt .byte e
  | .bchgReg _ e | .bclrReg _ e | .bsetReg _ e => eaOk .dalt .byte e
  | .cmp2 sz _ e | .chk2 sz _ e => eaOk .ctl sz e
  | .cas sz _ _ e => eaOk .malt sz e
  | .moves sz _ _ e => eaOk .malt sz e
  | .move sz src dst => eaOk .all sz src && eaOk .dalt sz dst
  | .movea sz _ e | .suba sz _ e | .cmpa sz _ e | .adda sz _ e => eaOk .all sz.size e
  | .negx sz e | .clr sz e | .neg sz e | .not sz e => eaOk .dalt sz e
  | .moveFromSr e | .moveFromCcr e => eaOk .dalt .word e
  | .moveToCcr e | .moveToSr e => eaOk .data .word e
  | .nbcd e | .tas e | .scc _ e => eaOk .dalt .byte e
  | .pea e | .jsr e | .jmp e | .lea _ e => eaOk .ctl .long e
  | .movemToMem sz _ e => eaOk .caltPd sz.size e
  | .movemToReg sz _ e => eaOk .ctlPi sz.size e
  | .tst sz e => eaOk .all sz e
  | .muluL _ _ _ e | .mulsL _ _ _ e | .divuL _ _ _ e | .divsL _ _ _ e => eaOk .data .long e
  | .chkW _ e => eaOk .data .word e
  | .chkL _ e => eaOk .data .long e
  | .addq sz _ e | .subq sz _ e => eaOk .alt sz e
  | .bra d | .bsr d => d.wf
  | .bcc c d => c != .t && c != .f && d.wf
  | .orEaDnB _ e | .andEaDnB _ e => eaOk .data .byte e
  | .orEaDnW _ e | .andEaDnW _ e => eaOk .data .word e
  | .orEaDnL _ e | .andEaDnL _ e => eaOk .data .long e
  | .orDnEaB _ e | .andDnEaB _ e | .subDnEaB _ e | .addDnEaB _ e => eaOk .malt .byte e
  | .orDnEaW _ e | .andDnEaW _ e | .subDnEaW _ e | .addDnEaW _ e => eaOk .malt .word e
  | .orDnEaL _ e | .andDnEaL _ e | .subDnEaL _ e | .addDnEaL _ e => eaOk .malt .long e
  | .subEaDnB _ e | .addEaDnB _ e | .cmpB _ e => eaOk .all .byte e
  | .subEaDnW _ e | .addEaDnW _ e | .cmpW _ e => eaOk .all .word e
  | .subEaDnL _ e | .addEaDnL _ e | .cmpL _ e => eaOk .all .long e
  | .divuW _ e | .divsW _ e | .muluW _ e | .mulsW _ e => eaOk .data .word e
  | .eorB _ e => eaOk .dalt .byte e
  | .eorW _ e => eaOk .dalt .word e
  | .eorL _ e => eaOk .dalt .long e
  | .aslMem e | .asrMem e | .lslMem e | .lsrMem e | .roxlMem e | .roxrMem e | .rolMem e | .rorMem e => eaOk .malt .word e
  | .bftst _ e | .bfextu _ _ e | .bfexts _ _ e | .bfffo _ _ e => eaOk .dnCtl .byte e
  | .bfchg _ e | .bfclr _ e | .bfset _ e | .bfins _ _ e => eaOk .dnCalt .byte e
  | .fline w => !flineOwned w
  | .oriCcr _ | .oriSr _ | .andiCcr _ | .andiSr _ | .eoriCcr _ | .eoriSr _ | .movep _ _ _ _ | .cas2 _ _ _ | .linkL _ _
  | .swap _ | .bkpt _ | .extW _ | .extL _ | .extbL _ | .illegal | .trap _ | .linkW _ _ | .unlk _ | .moveToUsp _
  | .moveFromUsp _ | .reset | .nop | .stop _ | .rte | .rtd _ | .rts | .trapv | .rtr | .movecFrom _ _ | .movecTo _ _
  | .dbcc _ _ _ | .trapcc _ _ | .moveq _ _ | .sbcd _ _ _ | .pack _ _ _ _ | .unpk _ _ _ _ | .subx _ _ _ _ | .aline _
  | .cmpm _ _ _ | .abcd _ _ _ | .exgDD _ _ | .exgAA _ _ | .exgDA _ _ | .addx _ _ _ _ | .aslReg _ _ _ | .asrReg _ _ _
  | .lslReg _ _ _ | .lsrReg _ _ _ | .roxlReg _ _ _ | .roxrReg _ _ _ | .rolReg _ _ _ | .rorReg _ _ _ | .cinv _ _ _
  | .cpush _ _ _ | .pflush _ _ | .ptest _ _ | .move16Abs _ _ _ | .move16Pi _ _ | .fpLine _ => true

end Sys2Proof
end

