-- ==== Sys2Proof/Decode.lean ====
section
/-! DEFINITION. The decoder, total on every list of words and rejecting by name, and after it the encoder (30_encoding,
spec/opcode_table.json). An operation word is read as its five fields: bits 15-12, 11-9, 8-6, 5-3 and 2-0. -/

namespace Sys2Proof

/-! ## Parsing extension words -/

/-- Why words are no instruction: they match no row (30_encoding R176), a reserved field of an extension word is not
zero (93 U7), or they end too early. -/
inductive DecErr where
  | illegal
  | reserved
  | truncated
  deriving DecidableEq, Repr

/-- A parser of the words that follow the operation word. -/
abbrev Dec := EStateM DecErr (List Word)

/-- The decoder's answer for a list of words. -/
inductive Decoded where
  | ok (i : Instr)
  | illegal
  | reserved
  | truncated
  deriving DecidableEq, Repr

/-- The next extension word, `xw()` of 30_encoding R150. -/
def nextWord : Dec Word := fun ws =>
  match ws with
  | [] => .error .truncated []
  | w :: rest => .ok w rest

/-- Two extension words, the high-order word first (30_encoding R143). -/
def nextLong : Dec Long := do
  let h ← nextWord
  let l ← nextWord
  return h ++ l

/-- No row matches (30_encoding R176). -/
def notARow {α : Type} : Dec α := throw .illegal

/-- A reserved field must be zero (93 U7). -/
def mustBe (ok : Bool) : Dec Unit := if ok then return () else throw .reserved

/-- An immediate operand, held in 32 bits; the high byte of a byte immediate is not used (30_encoding R143). -/
def nextImm : Size → Dec Long
  | .byte => return (← nextWord).setWidth 8 |>.setWidth 32
  | .word => return (← nextWord).setWidth 32
  | .long => nextLong

/-! ## Addressing modes -/

/-- The mode an effective-address field names (30_encoding R145). -/
def eaKind (m x : BitVec 3) : Option EaKind :=
  match m.toNat with
  | 0 => some .dn
  | 1 => some .an
  | 2 => some .ind
  | 3 => some .postInc
  | 4 => some .preDec
  | 5 => some .disp
  | 6 => some .idx
  | _ =>
    match x.toNat with
    | 0 => some .absW
    | 1 => some .absL
    | 2 => some .pcDisp
    | 3 => some .pcIdx
    | 4 => some .imm
    | _ => none

/-- The mode of an effective-address field, when the instruction takes it (30_encoding R146, R171). -/
def eaMode (c : Cat) (sz : Size) (m x : BitVec 3) : Dec EaKind :=
  match eaKind m x with
  | none => notARow
  | some k => if modeOk c sz k then return k else notARow

/-- A displacement of the size a full extension word names: 1 null, 2 word, 3 long, 0 reserved (30_encoding R148). -/
def nextDisp (sz : BitVec 2) : Dec Disp :=
  match sz.toNat with
  | 1 => return .null
  | 2 => return .word (← nextWord)
  | 3 => return .long (← nextLong)
  | _ => throw .reserved

/-- The index register of an extension word (30_encoding R147). -/
def indexReg (w : Word) : IndexReg :=
  { reg := w.extractLsb' 12 4, long := w.getLsbD 11, scale := w.extractLsb' 9 2 }

/-- Whether bits 2-0 with the IS bit are an operation of 30_encoding R148. -/
def iisOk (is : Bool) (iis : BitVec 3) : Bool :=
  if is then iis.toNat < 4 else iis != 4

/-- The full format after its first word: base displacement, then outer displacement (30_encoding R148, R156). -/
def nextFull (w : Word) : Dec Index := do
  let is := w.getLsbD 6
  let iis : BitVec 3 := w.extractLsb' 0 3
  mustBe (!w.getLsbD 3 && w.extractLsb' 4 2 != 0 && iisOk is iis)
  let bd ← nextDisp (w.extractLsb' 4 2)
  let ind ← if iis == 0 then pure Indirect.none else do
    let od ← nextDisp (iis.extractLsb' 0 2)
    pure (if iis.getLsbD 2 then Indirect.post od else Indirect.pre od)
  return .full (indexReg w) (w.getLsbD 7) is bd ind

/-- An index extension word: bit 8 tells the brief from the full format (30_encoding R147, R148). -/
def nextIndex : Dec Index := do
  let w ← nextWord
  if w.getLsbD 8 then nextFull w else return .brief (indexReg w) (w.setWidth 8)

/-- An operand of a mode: its extension words (30_encoding R145). -/
def eaTail (k : EaKind) (sz : Size) (x : Reg) : Dec Ea :=
  match k with
  | .dn => return .dn x
  | .an => return .an x
  | .ind => return .ind x
  | .postInc => return .postInc x
  | .preDec => return .preDec x
  | .disp => return .disp x (← nextWord)
  | .idx => return .idx x (← nextIndex)
  | .absW => return .absW (← nextWord)
  | .absL => return .absL (← nextLong)
  | .pcDisp => return .pcDisp (← nextWord)
  | .pcIdx => return .pcIdx (← nextIndex)
  | .imm => return .imm (← nextImm sz)

/-- An operand whose words follow at once. -/
def nextEa (c : Cat) (sz : Size) (m x : BitVec 3) : Dec Ea := do
  let k ← eaMode c sz m x
  eaTail k sz x

/-- The instruction's own immediate, then the operand's words (30_encoding R142). -/
def immThenEa (c : Cat) (sz : Size) (m x : BitVec 3) (mk : Long → Ea → Instr) : Dec Instr := do
  let k ← eaMode c sz m x
  let v ← nextImm sz
  let e ← eaTail k sz x
  return mk v e

/-- The instruction's own extension word, then the operand's words (30_encoding R142). -/
def wordThenEa {α : Type} (c : Cat) (sz : Size) (m x : BitVec 3) (own : Word → Dec α) (mk : α → Ea → Instr) :
    Dec Instr := do
  let k ← eaMode c sz m x
  let v ← own (← nextWord)
  let e ← eaTail k sz x
  return mk v e

/-- An operand and nothing else. -/
def onlyEa (c : Cat) (sz : Size) (m x : BitVec 3) (mk : Ea → Instr) : Dec Instr := do
  let e ← nextEa c sz m x
  return mk e

/-- The general two-bit size field in the low bits of bits 8-6 (30_encoding R144). -/
def sizeOf2 (b : BitVec 3) : Option Size :=
  match (b.extractLsb' 0 2 : BitVec 2).toNat with
  | 0 => some .byte
  | 1 => some .word
  | 2 => some .long
  | _ => none

/-- An instruction with the general size field. -/
def withSize (b : BitVec 3) (f : Size → Dec Instr) : Dec Instr :=
  match sizeOf2 b with
  | none => notARow
  | some sz => f sz

/-- A one-bit size field: 0 word, 1 long (30_encoding R144). -/
def sizeWL (l : Bool) : SizeWL := if l then .l else .w

/-- The condition with code `n` (30_encoding R165). -/
def condOf (n : BitVec 4) : Cond :=
  match n.toNat with
  | 0 => .t
  | 1 => .f
  | 2 => .hi
  | 3 => .ls
  | 4 => .cc
  | 5 => .cs
  | 6 => .ne
  | 7 => .eq
  | 8 => .vc
  | 9 => .vs
  | 10 => .pl
  | 11 => .mi
  | 12 => .ge
  | 13 => .lt
  | 14 => .gt
  | _ => .le

/-! ## Own extension words -/

/-- Bits 15-12 name a register and the other bits but bit 11 are zero (CMP2, CHK2, MOVES: 41 R248, 48 R404, R396). -/
def regAndFlag (w : Word) : Dec (GReg × Bool) := do
  mustBe (w.extractLsb' 0 11 == 0)
  return (w.extractLsb' 12 4, w.getLsbD 11)

/-- The update and compare registers of CAS (49 R431). -/
def casWord (w : Word) : Dec (Reg × Reg) := do
  mustBe (w.extractLsb' 9 7 == 0 && w.extractLsb' 3 3 == 0)
  return (w.extractLsb' 0 3, w.extractLsb' 6 3)

/-- One operand of CAS2 (49 R432). -/
def cas2Word (w : Word) : Dec Cas2Operand := do
  mustBe (w.extractLsb' 9 3 == 0 && w.extractLsb' 3 3 == 0)
  return { rn := w.extractLsb' 12 4, du := w.extractLsb' 6 3, dc := w.extractLsb' 0 3 }

/-- The word of MULx.L and DIVx.L: first register, second register, 64-bit form, signed form (41 R254, R258). -/
def mulDivWord (w : Word) : Dec (Reg × Reg × Bool × Bool) := do
  mustBe (!w.getLsbD 15 && w.extractLsb' 3 7 == 0)
  return (w.extractLsb' 12 3, w.extractLsb' 0 3, w.getLsbD 10, w.getLsbD 11)

/-- An offset or width field: its register flag and five bits, of which a register takes three (45 R320). -/
def bfArg (isReg : Bool) (v : BitVec 5) : Dec BfArg :=
  if isReg then do
    mustBe (v.extractLsb' 3 2 == 0)
    return .reg (v.extractLsb' 0 3)
  else return .imm v

/-- The word of a bit-field instruction: its data register, offset and width (45 R320). -/
def bfWord (hasDn : Bool) (w : Word) : Dec (Reg × BitField) := do
  mustBe (!w.getLsbD 15 && (hasDn || w.extractLsb' 12 3 == 0))
  let o ← bfArg (w.getLsbD 11) (w.extractLsb' 6 5)
  let n ← bfArg (w.getLsbD 5) (w.extractLsb' 0 5)
  return (w.extractLsb' 12 3, { offset := o, width := n })

/-! ## The sixteen lines (30_encoding R172) -/

/-- ORI, ANDI, SUBI, ADDI, the static bit instructions, EORI, CMPI and MOVES by bits 11-9; for the first six the size
is `sz`. -/
def decodeImm (a m x : BitVec 3) (sz : Size) : Dec Instr :=
  match a.toNat with
  | 0 => if sz == .byte && m == 7 && x == 4 then return .oriCcr ((← nextWord).setWidth 8)
         else if sz == .word && m == 7 && x == 4 then return .oriSr (← nextWord)
         else immThenEa .dalt sz m x (.ori sz)
  | 1 => if sz == .byte && m == 7 && x == 4 then return .andiCcr ((← nextWord).setWidth 8)
         else if sz == .word && m == 7 && x == 4 then return .andiSr (← nextWord)
         else immThenEa .dalt sz m x (.andi sz)
  | 2 => immThenEa .dalt sz m x (.subi sz)
  | 3 => immThenEa .dalt sz m x (.addi sz)
  | 5 => if sz == .byte && m == 7 && x == 4 then return .eoriCcr ((← nextWord).setWidth 8)
         else if sz == .word && m == 7 && x == 4 then return .eoriSr (← nextWord)
         else immThenEa .dalt sz m x (.eori sz)
  | 6 => immThenEa .dataNoImm sz m x (.cmpi sz)
  | _ => wordThenEa .malt sz m x regAndFlag (fun (rn, t) e => .moves sz t rn e)

/-- A static bit instruction: the low byte of its word is the bit number (44 R310). -/
def decodeStaticBit (c : Cat) (m x : BitVec 3) (mk : Byte → Ea → Instr) : Dec Instr :=
  wordThenEa c .byte m x (fun w => return w.setWidth 8) mk

/-- CMP2 and CHK2, told apart by bit 11 of the extension word (30_encoding R171). -/
def decodeCmp2 (sz : Size) (m x : BitVec 3) : Dec Instr :=
  wordThenEa .ctl sz m x regAndFlag (fun (rn, chk) e => if chk then .chk2 sz rn e else .cmp2 sz rn e)

/-- CAS (49 R431). -/
def decodeCas (sz : Size) (m x : BitVec 3) : Dec Instr :=
  wordThenEa .malt sz m x casWord (fun (dc, du) e => .cas sz dc du e)

/-- CAS2 (49 R432). -/
def decodeCas2 (sz : SizeWL) : Dec Instr := do
  let o1 ← cas2Word (← nextWord)
  let o2 ← cas2Word (← nextWord)
  return .cas2 sz o1 o2

/-- Line 0 with bits 8-6 = 011. -/
def decodeLine0Size3 (a m x : BitVec 3) : Dec Instr :=
  match a.toNat with
  | 0 => decodeCmp2 .byte m x
  | 1 => decodeCmp2 .word m x
  | 2 => decodeCmp2 .long m x
  | 3 => notARow
  | 4 => decodeStaticBit .dalt m x .bsetImm
  | 5 => decodeCas .byte m x
  | 6 => if m == 7 && x == 4 then decodeCas2 .w else decodeCas .word m x
  | _ => if m == 7 && x == 4 then decodeCas2 .l else decodeCas .long m x

/-- The direction and size of MOVEP (40 R206). -/
def movepOp (b : BitVec 3) : MovepOp :=
  match (b.extractLsb' 0 2 : BitVec 2).toNat with
  | 0 => .wordToReg
  | 1 => .longToReg
  | 2 => .wordToMem
  | _ => .longToMem

/-- Line 0: immediate and bit instructions, MOVEP, CMP2, CHK2, CAS, CAS2, MOVES. -/
def decodeLine0 (a b m x : BitVec 3) : Dec Instr :=
  match b.toNat with
  | 0 => if a == 4 then decodeStaticBit .dataNoImm m x .btstImm else decodeImm a m x .byte
  | 1 => if a == 4 then decodeStaticBit .dalt m x .bchgImm else decodeImm a m x .word
  | 2 => if a == 4 then decodeStaticBit .dalt m x .bclrImm else decodeImm a m x .long
  | 3 => decodeLine0Size3 a m x
  | n =>
    if m == 1 then return .movep (movepOp b) a x (← nextWord)
    else match n with
      | 4 => onlyEa .data .byte m x (.btstReg a)
      | 5 => onlyEa .dalt .byte m x (.bchgReg a)
      | 6 => onlyEa .dalt .byte m x (.bclrReg a)
      | _ => onlyEa .dalt .byte m x (.bsetReg a)

/-- Lines 1, 2, 3: MOVE and MOVEA; the destination's register precedes its mode (40 R201, R202). -/
def decodeMove (sz : Size) (a b m x : BitVec 3) : Dec Instr :=
  if b == 1 then
    match sz with
    | .byte => notARow
    | .word => onlyEa .all .word m x (.movea .w a)
    | .long => onlyEa .all .long m x (.movea .l a)
  else do
    let ks ← eaMode .all sz m x
    let kd ← eaMode .dalt sz b a
    let src ← eaTail ks sz x
    let dst ← eaTail kd sz a
    return .move sz src dst

/-- MULU.L and MULS.L, told apart by bit 11 of the extension word (30_encoding R171). -/
def decodeMulL (m x : BitVec 3) : Dec Instr :=
  wordThenEa .data .long m x mulDivWord
    (fun (dl, dh, wide, sgn) e => if sgn then .mulsL dl dh wide e else .muluL dl dh wide e)

/-- DIVU.L and DIVS.L, told apart by bit 11 of the extension word (30_encoding R171). -/
def decodeDivL (m x : BitVec 3) : Dec Instr :=
  wordThenEa .data .long m x mulDivWord
    (fun (dq, dr, wide, sgn) e => if sgn then .divsL dq dr wide e else .divuL dq dr wide e)

/-- A MOVEM: its mask, then its operand (40 R204, R205). -/
def decodeMovem (c : Cat) (sz : SizeWL) (m x : BitVec 3) (mk : Word → Ea → Instr) : Dec Instr :=
  wordThenEa c sz.size m x (fun w => return w) mk

/-- MOVEC (48 R394). -/
def decodeMovec (mk : GReg → BitVec 12 → Instr) : Dec Instr := do
  let w ← nextWord
  return mk (w.extractLsb' 12 4) (w.setWidth 12)

/-- $4E40 to $4E7F: TRAP, LINK.W, UNLK, MOVE USP and the words without operand field. -/
def decodeLine4Misc (m x : BitVec 3) : Dec Instr :=
  match m.toNat with
  | 0 => return .trap ((0 : BitVec 1) ++ x)
  | 1 => return .trap ((1 : BitVec 1) ++ x)
  | 2 => return .linkW x (← nextWord)
  | 3 => return .unlk x
  | 4 => return .moveToUsp x
  | 5 => return .moveFromUsp x
  | 6 =>
    match x.toNat with
    | 0 => return .reset
    | 1 => return .nop
    | 2 => return .stop (← nextWord)
    | 3 => return .rte
    | 4 => return .rtd (← nextWord)
    | 5 => return .rts
    | 6 => return .trapv
    | _ => return .rtr
  | _ =>
    match x.toNat with
    | 2 => decodeMovec .movecFrom
    | 3 => decodeMovec .movecTo
    | _ => notARow

/-- Line 4 with bits 8-6 below 4, by bits 11-9. -/
def decodeLine4Low (a b m x : BitVec 3) : Dec Instr :=
  match a.toNat with
  | 0 => if b == 3 then onlyEa .dalt .word m x .moveFromSr
         else withSize b fun sz => onlyEa .dalt sz m x (.negx sz)
  | 1 => if b == 3 then onlyEa .dalt .word m x .moveFromCcr
         else withSize b fun sz => onlyEa .dalt sz m x (.clr sz)
  | 2 => if b == 3 then onlyEa .data .word m x .moveToCcr
         else withSize b fun sz => onlyEa .dalt sz m x (.neg sz)
  | 3 => if b == 3 then onlyEa .data .word m x .moveToSr
         else withSize b fun sz => onlyEa .dalt sz m x (.not sz)
  | 4 =>
    match b.toNat with
    | 0 => if m == 1 then return .linkL x (← nextLong) else onlyEa .dalt .byte m x .nbcd
    | 1 => if m == 0 then return .swap x
           else if m == 1 then return .bkpt x
           else onlyEa .ctl .long m x .pea
    | 2 => if m == 0 then return .extW x else decodeMovem .caltPd .w m x (.movemToMem .w)
    | _ => if m == 0 then return .extL x else decodeMovem .caltPd .l m x (.movemToMem .l)
  | 5 => if b == 3 then
           if m == 7 && x == 4 then return .illegal else onlyEa .dalt .byte m x .tas
         else withSize b fun sz => onlyEa .all sz m x (.tst sz)
  | 6 =>
    match b.toNat with
    | 0 => decodeMulL m x
    | 1 => decodeDivL m x
    | 2 => decodeMovem .ctlPi .w m x (.movemToReg .w)
    | _ => decodeMovem .ctlPi .l m x (.movemToReg .l)
  | _ =>
    match b.toNat with
    | 0 => notARow
    | 1 => decodeLine4Misc m x
    | 2 => onlyEa .ctl .long m x .jsr
    | _ => onlyEa .ctl .long m x .jmp

/-- Line 4. -/
def decodeLine4 (a b m x : BitVec 3) : Dec Instr :=
  match b.toNat with
  | 4 => onlyEa .data .long m x (.chkL a)
  | 5 => notARow
  | 6 => onlyEa .data .word m x (.chkW a)
  | 7 => if a == 4 && m == 0 then return .extbL x else onlyEa .ctl .long m x (.lea a)
  | _ => decodeLine4Low a b m x

/-- Line 5: ADDQ, SUBQ, Scc, DBcc, TRAPcc. -/
def decodeLine5 (a b m x : BitVec 3) : Dec Instr :=
  if b == 3 || b == 7 then
    let c := condOf (a ++ (b.extractLsb' 2 1 : BitVec 1))
    if m == 1 then return .dbcc c x (← nextWord)
    else if m == 7 && x == 2 then return .trapcc c (.word (← nextWord))
    else if m == 7 && x == 3 then return .trapcc c (.long (← nextLong))
    else if m == 7 && x == 4 then return .trapcc c .none
    else onlyEa .dalt .byte m x (.scc c)
  else withSize b fun sz =>
    if b.getLsbD 2 then onlyEa .alt sz m x (.subq sz a) else onlyEa .alt sz m x (.addq sz a)

/-- The displacement of a branch: bits 7-0, or the words they call for (47 R351). -/
def nextBranchDisp (d : Byte) : Dec BranchDisp :=
  if d == 0 then return .word (← nextWord)
  else if d == 0xFF then return .long (← nextLong)
  else return .byte d

/-- Line 6: BRA, BSR, Bcc. -/
def decodeLine6 (a b m x : BitVec 3) : Dec Instr := do
  let d ← nextBranchDisp ((b.extractLsb' 0 2 : BitVec 2) ++ m ++ x)
  match condOf (a ++ (b.extractLsb' 2 1 : BitVec 1)) with
  | .t => return .bra d
  | .f => return .bsr d
  | c => return .bcc c d

/-- Line 7: MOVEQ. -/
def decodeLine7 (a b m x : BitVec 3) : Dec Instr :=
  if b.getLsbD 2 then notARow else return .moveq a ((b.extractLsb' 0 2 : BitVec 2) ++ m ++ x)

/-- Line 8: OR, DIVU.W, DIVS.W, SBCD, PACK, UNPK. -/
def decodeLine8 (a b m x : BitVec 3) : Dec Instr :=
  match b.toNat with
  | 0 => onlyEa .data .byte m x (.orEaDnB a)
  | 1 => onlyEa .data .word m x (.orEaDnW a)
  | 2 => onlyEa .data .long m x (.orEaDnL a)
  | 3 => onlyEa .data .word m x (.divuW a)
  | 4 => if m.toNat < 2 then return .sbcd (m == 1) a x else onlyEa .malt .byte m x (.orDnEaB a)
  | 5 => if m.toNat < 2 then return .pack (m == 1) a x (← nextWord) else onlyEa .malt .word m x (.orDnEaW a)
  | 6 => if m.toNat < 2 then return .unpk (m == 1) a x (← nextWord) else onlyEa .malt .long m x (.orDnEaL a)
  | _ => onlyEa .data .word m x (.divsW a)

/-- Line 9: SUB, SUBA, SUBX. -/
def decodeLine9 (a b m x : BitVec 3) : Dec Instr :=
  match b.toNat with
  | 0 => onlyEa .all .byte m x (.subEaDnB a)
  | 1 => onlyEa .all .word m x (.subEaDnW a)
  | 2 => onlyEa .all .long m x (.subEaDnL a)
  | 3 => onlyEa .all .word m x (.suba .w a)
  | 4 => if m.toNat < 2 then return .subx .byte (m == 1) a x else onlyEa .malt .byte m x (.subDnEaB a)
  | 5 => if m.toNat < 2 then return .subx .word (m == 1) a x else onlyEa .malt .word m x (.subDnEaW a)
  | 6 => if m.toNat < 2 then return .subx .long (m == 1) a x else onlyEa .malt .long m x (.subDnEaL a)
  | _ => onlyEa .all .long m x (.suba .l a)

/-- Line B: CMP, CMPA, EOR, CMPM. -/
def decodeLineB (a b m x : BitVec 3) : Dec Instr :=
  match b.toNat with
  | 0 => onlyEa .all .byte m x (.cmpB a)
  | 1 => onlyEa .all .word m x (.cmpW a)
  | 2 => onlyEa .all .long m x (.cmpL a)
  | 3 => onlyEa .all .word m x (.cmpa .w a)
  | 4 => if m == 1 then return .cmpm .byte a x else onlyEa .dalt .byte m x (.eorB a)
  | 5 => if m == 1 then return .cmpm .word a x else onlyEa .dalt .word m x (.eorW a)
  | 6 => if m == 1 then return .cmpm .long a x else onlyEa .dalt .long m x (.eorL a)
  | _ => onlyEa .all .long m x (.cmpa .l a)

/-- Line C: AND, MULU.W, MULS.W, ABCD, EXG. -/
def decodeLineC (a b m x : BitVec 3) : Dec Instr :=
  match b.toNat with
  | 0 => onlyEa .data .byte m x (.andEaDnB a)
  | 1 => onlyEa .data .word m x (.andEaDnW a)
  | 2 => onlyEa .data .long m x (.andEaDnL a)
  | 3 => onlyEa .data .word m x (.muluW a)
  | 4 => if m.toNat < 2 then return .abcd (m == 1) a x else onlyEa .malt .byte m x (.andDnEaB a)
  | 5 => if m == 0 then return .exgDD a x
         else if m == 1 then return .exgAA a x
         else onlyEa .malt .word m x (.andDnEaW a)
  | 6 => if m == 1 then return .exgDA a x else onlyEa .malt .long m x (.andDnEaL a)
  | _ => onlyEa .data .word m x (.mulsW a)

/-- Line D: ADD, ADDA, ADDX. -/
def decodeLineD (a b m x : BitVec 3) : Dec Instr :=
  match b.toNat with
  | 0 => onlyEa .all .byte m x (.addEaDnB a)
  | 1 => onlyEa .all .word m x (.addEaDnW a)
  | 2 => onlyEa .all .long m x (.addEaDnL a)
  | 3 => onlyEa .all .word m x (.adda .w a)
  | 4 => if m.toNat < 2 then return .addx .byte (m == 1) a x else onlyEa .malt .byte m x (.addDnEaB a)
  | 5 => if m.toNat < 2 then return .addx .word (m == 1) a x else onlyEa .malt .word m x (.addDnEaW a)
  | 6 => if m.toNat < 2 then return .addx .long (m == 1) a x else onlyEa .malt .long m x (.addDnEaL a)
  | _ => onlyEa .all .long m x (.adda .l a)

/-- A register shift or rotate: type by bits 4-3, direction by bit 8 (43 R290). -/
def shiftReg (left : Bool) (tt : BitVec 2) (sz : Size) (n : ShiftCount) (y : Reg) : Instr :=
  match tt.toNat, left with
  | 0, true => .aslReg sz n y
  | 0, false => .asrReg sz n y
  | 1, true => .lslReg sz n y
  | 1, false => .lsrReg sz n y
  | 2, true => .roxlReg sz n y
  | 2, false => .roxrReg sz n y
  | _, true => .rolReg sz n y
  | _, false => .rorReg sz n y

/-- A memory shift or rotate: type by bits 10-9, direction by bit 8 (43 R290). -/
def shiftMem (left : Bool) (tt : BitVec 2) (e : Ea) : Instr :=
  match tt.toNat, left with
  | 0, true => .aslMem e
  | 0, false => .asrMem e
  | 1, true => .lslMem e
  | 1, false => .lsrMem e
  | 2, true => .roxlMem e
  | 2, false => .roxrMem e
  | _, true => .rolMem e
  | _, false => .rorMem e

/-- A bit-field instruction by its three-bit code (45 R320). -/
def decodeBitField (o m x : BitVec 3) : Dec Instr :=
  match o.toNat with
  | 0 => wordThenEa .dnCtl .byte m x (bfWord false) (fun (_, f) e => .bftst f e)
  | 1 => wordThenEa .dnCtl .byte m x (bfWord true) (fun (d, f) e => .bfextu d f e)
  | 2 => wordThenEa .dnCalt .byte m x (bfWord false) (fun (_, f) e => .bfchg f e)
  | 3 => wordThenEa .dnCtl .byte m x (bfWord true) (fun (d, f) e => .bfexts d f e)
  | 4 => wordThenEa .dnCalt .byte m x (bfWord false) (fun (_, f) e => .bfclr f e)
  | 5 => wordThenEa .dnCtl .byte m x (bfWord true) (fun (d, f) e => .bfffo d f e)
  | 6 => wordThenEa .dnCalt .byte m x (bfWord false) (fun (_, f) e => .bfset f e)
  | _ => wordThenEa .dnCalt .byte m x (bfWord true) (fun (d, f) e => .bfins d f e)

/-- Line E: shifts, rotates and bit fields. -/
def decodeLineE (a b m x : BitVec 3) : Dec Instr :=
  match sizeOf2 b with
  | some sz =>
    let n : ShiftCount := if m.getLsbD 2 then .reg a else .imm a
    return shiftReg (b.getLsbD 2) (m.extractLsb' 0 2) sz n x
  | none =>
    if a.getLsbD 2 then decodeBitField ((a.extractLsb' 0 2 : BitVec 2) ++ (b.extractLsb' 2 1 : BitVec 1)) m x
    else onlyEa .malt .word m x (shiftMem (b.getLsbD 2) (a.extractLsb' 0 2))

/-- The cache selector of CINV and CPUSH (49 R435). -/
def cacheSel (n : BitVec 2) : CacheSel :=
  match n.toNat with
  | 0 => .none
  | 1 => .data
  | 2 => .instr
  | _ => .both

/-- The scope of CINV and CPUSH (49 R435). -/
def cacheScope (n : BitVec 2) : Option CacheScope :=
  match n.toNat with
  | 0 => none
  | 1 => some .line
  | 2 => some .page
  | _ => some .all

/-- The absolute forms of MOVE16 (40 R209). -/
def move16Op (n : BitVec 2) : Move16Op :=
  match n.toNat with
  | 0 => .postIncToAbs
  | 1 => .absToPostInc
  | 2 => .indToAbs
  | _ => .absToInd

/-- MOVE16 (Ax)+,(Ay)+: bit 15 of its word is 1 and bits 11-0 are 0 (40 R209). The spec does not say what another word there
does; it is taken as a reserved extension (DESIGN CHOICE, log 22). -/
def decodeMove16Pi (x : Reg) : Dec Instr := do
  let w ← nextWord
  mustBe (w.getLsbD 15 && w.extractLsb' 0 12 == 0)
  return .move16Pi x (w.extractLsb' 12 3)

/-- Line F: CINV, CPUSH, PFLUSH, PTEST, MOVE16, the floating-point words, and every other word (30_encoding R178). -/
def decodeLineF (a b m x : BitVec 3) : Dec Instr :=
  let other : Dec Instr := return .fline (a ++ b ++ m ++ x)
  match a.toNat with
  | 1 => return .fpLine (b ++ m ++ x)
  | 2 =>
    if b.toNat < 4 then
      match cacheScope (m.extractLsb' 0 2) with
      | none => other
      | some sc =>
        if m.getLsbD 2 then return .cpush (cacheSel (b.extractLsb' 0 2)) sc x
        else return .cinv (cacheSel (b.extractLsb' 0 2)) sc x
    else if b == 4 && m.toNat < 4 then return .pflush (m.extractLsb' 0 2) x
    else if b == 5 && m == 1 then return .ptest false x
    else if b == 5 && m == 5 then return .ptest true x
    else other
  | 3 =>
    if b == 0 && m.toNat < 4 then return .move16Abs (move16Op (m.extractLsb' 0 2)) x (← nextLong)
    else if b == 0 && m == 4 then decodeMove16Pi x
    else other
  | _ => other

/-- The instruction of an operation word given by its fields (30_encoding R171). -/
def decodeFields (l : BitVec 4) (a b m x : BitVec 3) : Dec Instr :=
  match l.toNat with
  | 0 => decodeLine0 a b m x
  | 1 => decodeMove .byte a b m x
  | 2 => decodeMove .long a b m x
  | 3 => decodeMove .word a b m x
  | 4 => decodeLine4 a b m x
  | 5 => decodeLine5 a b m x
  | 6 => decodeLine6 a b m x
  | 7 => decodeLine7 a b m x
  | 8 => decodeLine8 a b m x
  | 9 => decodeLine9 a b m x
  | 10 => return .aline (a ++ b ++ m ++ x)
  | 11 => decodeLineB a b m x
  | 12 => decodeLineC a b m x
  | 13 => decodeLineD a b m x
  | 14 => decodeLineE a b m x
  | _ => decodeLineF a b m x

/-- The instruction of an operation word. -/
def decodeOp (w : Word) : Dec Instr :=
  decodeFields (w.extractLsb' 12 4) (w.extractLsb' 9 3) (w.extractLsb' 6 3) (w.extractLsb' 3 3) (w.extractLsb' 0 3)

/-- The instruction at the head of a list of words and the words after it. -/
def decodeWords : Dec Instr := do
  let w ← nextWord
  decodeOp w

/-- The decoder: words after the instruction are not looked at. -/
def decode (ws : List Word) : Decoded :=
  match decodeWords ws with
  | .ok i _ => .ok i
  | .error .illegal _ => .illegal
  | .error .reserved _ => .reserved
  | .error .truncated _ => .truncated

/-- Whether an operation word whose further words may be unreadable or reserved is a privileged instruction: its
privilege is checked before anything else it does (48 R380, 60_exceptions R548). -/
def privilegedWord (w : Word) : Bool :=
  w == 0x007C || w == 0x027C || w == 0x0A7C || w == 0x4E72
    || w == 0x4E7A || w == 0x4E7B
    || (w.extractLsb' 8 8 == 0x0E && w.extractLsb' 6 2 != 3)
    || w.extractLsb' 6 10 == 0x103 || w.extractLsb' 6 10 == 0x11B

/-! ## The encoder -/

/-- An operation word from its fields. -/
def opword (l : BitVec 4) (a b m x : BitVec 3) : Word := l ++ a ++ b ++ m ++ x

/-- The mode field of an operand (30_encoding R145). -/
def Ea.mode : Ea → BitVec 3
  | .dn _ => 0
  | .an _ => 1
  | .ind _ => 2
  | .postInc _ => 3
  | .preDec _ => 4
  | .disp _ _ => 5
  | .idx _ _ => 6
  | .absW _ | .absL _ | .pcDisp _ | .pcIdx _ | .imm _ => 7

/-- The register field of an operand (30_encoding R145). -/
def Ea.reg : Ea → BitVec 3
  | .dn r | .an r | .ind r | .postInc r | .preDec r | .disp r _ | .idx r _ => r
  | .absW _ => 0
  | .absL _ => 1
  | .pcDisp _ => 2
  | .pcIdx _ => 3
  | .imm _ => 4

/-- A long word as two extension words. -/
def longWords (v : Long) : List Word := [hiWord v, loWord v]

/-- The words of an immediate of a size; the unused high byte is written zero (30_encoding R143). -/
def immWords : Size → Long → List Word
  | .byte, v => [(v.setWidth 8).setWidth 16]
  | .word, v => [loWord v]
  | .long, v => longWords v

/-- The words of a displacement. -/
def Disp.words : Disp → List Word
  | .null => []
  | .word d => [d]
  | .long d => longWords d

/-- The size code of a displacement (30_encoding R148). -/
def Disp.code : Disp → BitVec 2
  | .null => 1
  | .word _ => 2
  | .long _ => 3

/-- One bit of a field. -/
def bit (b : Bool) : BitVec 1 := BitVec.ofBool b

/-- Bits 15-9 of an extension word that names an index. -/
def IndexReg.bits (x : IndexReg) : BitVec 7 := x.reg ++ bit x.long ++ x.scale

/-- The I/IS field of memory indirection (30_encoding R148). -/
def Indirect.code : Indirect → BitVec 3
  | .none => 0
  | .pre od => (0 : BitVec 1) ++ od.code
  | .post od => (1 : BitVec 1) ++ od.code

/-- The words of the outer displacement. -/
def Indirect.words : Indirect → List Word
  | .none => []
  | .pre od | .post od => od.words

/-- The words of an index operand (30_encoding R147, R148). -/
def Index.words : Index → List Word
  | .brief x d8 => [x.bits ++ (0 : BitVec 1) ++ d8]
  | .full x bs is bd ind =>
    (x.bits ++ (1 : BitVec 1) ++ bit bs ++ bit is ++ bd.code ++ (0 : BitVec 1) ++ ind.code) :: bd.words ++ ind.words

/-- The extension words of an operand of a size (30_encoding R145). -/
def Ea.words (sz : Size) : Ea → List Word
  | .dn _ | .an _ | .ind _ | .postInc _ | .preDec _ => []
  | .disp _ d => [d]
  | .idx _ x => x.words
  | .absW a => [a]
  | .absL a => longWords a
  | .pcDisp d => [d]
  | .pcIdx x => x.words
  | .imm v => immWords sz v

/-- The code of a size in the general field (30_encoding R144). -/
def Size.code : Size → BitVec 2
  | .byte => 0
  | .word => 1
  | .long => 2

/-- The code of a one-bit size field (30_encoding R144). -/
def SizeWL.code : SizeWL → BitVec 1
  | .w => 0
  | .l => 1

/-- The code of a condition (30_encoding R165). -/
def Cond.code : Cond → BitVec 4
  | .t => 0
  | .f => 1
  | .hi => 2
  | .ls => 3
  | .cc => 4
  | .cs => 5
  | .ne => 6
  | .eq => 7
  | .vc => 8
  | .vs => 9
  | .pl => 10
  | .mi => 11
  | .ge => 12
  | .lt => 13
  | .gt => 14
  | .le => 15

/-- Bits 8-6 of an instruction with the general size field in their low bits. -/
def sizeField (hi : BitVec 1) (sz : Size) : BitVec 3 := hi ++ sz.code

/-- An operation word that ends in an operand's mode and register. -/
def opEa (l : BitVec 4) (a b : BitVec 3) (e : Ea) : Word := opword l a b e.mode e.reg

/-- An operation word with an operand, and the operand's words. -/
def withEa (l : BitVec 4) (a b : BitVec 3) (sz : Size) (e : Ea) : List Word := opEa l a b e :: e.words sz

/-- The bits 8-6 of MOVEP (40 R206). -/
def MovepOp.code : MovepOp → BitVec 3
  | .wordToReg => 4
  | .longToReg => 5
  | .wordToMem => 6
  | .longToMem => 7

/-- A register number and bit 11 (CMP2, CHK2, MOVES). -/
def regFlagWord (rn : GReg) (f : Bool) : Word := rn ++ bit f ++ (0 : BitVec 11)

/-- One word of CAS2 (49 R432). -/
def Cas2Operand.encode (o : Cas2Operand) : Word := o.rn ++ (0 : BitVec 3) ++ o.du ++ (0 : BitVec 3) ++ o.dc

/-- The word of MULx.L and DIVx.L (41 R254). -/
def mulDivExt (r1 r2 : Reg) (wide sgn : Bool) : Word := (0 : BitVec 1) ++ r1 ++ bit sgn ++ bit wide ++ (0 : BitVec 7) ++ r2

/-- The six bits of an offset or width (45 R320). -/
def BfArg.bits : BfArg → BitVec 6
  | .imm v => (0 : BitVec 1) ++ v
  | .reg r => (1 : BitVec 1) ++ (0 : BitVec 2) ++ r

/-- The word of a bit-field instruction (45 R320). -/
def BitField.encode (f : BitField) (dn : Reg) : Word := (0 : BitVec 1) ++ dn ++ f.offset.bits ++ f.width.bits

/-- The bits 8-6 and 5-3 of a register shift: direction, size, count kind and type (43 R290). -/
def shiftWords (left : BitVec 1) (tt : BitVec 2) (sz : Size) (n : ShiftCount) (y : Reg) : List Word :=
  match n with
  | .imm c => [opword 14 c (left ++ sz.code) ((0 : BitVec 1) ++ tt) y]
  | .reg r => [opword 14 r (left ++ sz.code) ((1 : BitVec 1) ++ tt) y]

/-- The words of a memory shift (43 R290). -/
def shiftMemWords (left : BitVec 1) (tt : BitVec 2) (e : Ea) : List Word :=
  withEa 14 ((0 : BitVec 1) ++ tt) (left ++ (3 : BitVec 2)) .word e

/-- The words of a bit-field instruction (45 R320). -/
def bfWords (o : BitVec 3) (dn : Reg) (f : BitField) (e : Ea) : List Word :=
  opEa 14 ((1 : BitVec 1) ++ (o.extractLsb' 1 2 : BitVec 2)) ((o.extractLsb' 0 1 : BitVec 1) ++ (3 : BitVec 2)) e
    :: f.encode dn :: e.words .byte

/-- The code of a cache selector (49 R435). -/
def CacheSel.code : CacheSel → BitVec 2
  | .none => 0
  | .data => 1
  | .instr => 2
  | .both => 3

/-- The code of a scope (49 R435). -/
def CacheScope.code : CacheScope → BitVec 2
  | .line => 1
  | .page => 2
  | .all => 3

/-- The code of an absolute form of MOVE16 (40 R209). -/
def Move16Op.code : Move16Op → BitVec 2
  | .postIncToAbs => 0
  | .absToPostInc => 1
  | .indToAbs => 2
  | .absToInd => 3

/-- A branch: condition code and displacement (47 R351). -/
def branchWords (cc : BitVec 4) (d : BranchDisp) : List Word :=
  let op (v : Byte) : Word := (6 : BitVec 4) ++ cc ++ v
  match d with
  | .byte v => [op v]
  | .word w => [op 0, w]
  | .long w => op 0xFF :: longWords w

/-- Bits 11-9 of an instruction with a condition. -/
def Cond.hi3 (c : Cond) : BitVec 3 := c.code.extractLsb' 1 3

/-- Bits 8-6 of Scc, DBcc and TRAPcc. -/
def Cond.lo3 (c : Cond) : BitVec 3 := (c.code.extractLsb' 0 1 : BitVec 1) ++ (3 : BitVec 2)

/-- A two-register form of lines 8, 9, B, C, D: memory flag in bit 3. -/
def regPair (l : BitVec 4) (x b : BitVec 3) (mem : Bool) (y : Reg) : Word := opword l x b ((0 : BitVec 2) ++ bit mem) y

/-- The encoder: the words of an instruction (spec/opcode_table.json; the mnemonic of each row stands beside it). -/
def encode : Instr → List Word
  | .ori sz v e => opEa 0 0 (sizeField 0 sz) e :: immWords sz v ++ e.words sz
  | .oriCcr v => [0x003C, v.setWidth 16]
  | .oriSr v => [0x007C, v]
  | .andi sz v e => opEa 0 1 (sizeField 0 sz) e :: immWords sz v ++ e.words sz
  | .andiCcr v => [0x023C, v.setWidth 16]
  | .andiSr v => [0x027C, v]
  | .subi sz v e => opEa 0 2 (sizeField 0 sz) e :: immWords sz v ++ e.words sz
  | .addi sz v e => opEa 0 3 (sizeField 0 sz) e :: immWords sz v ++ e.words sz
  | .eori sz v e => opEa 0 5 (sizeField 0 sz) e :: immWords sz v ++ e.words sz
  | .eoriCcr v => [0x0A3C, v.setWidth 16]
  | .eoriSr v => [0x0A7C, v]
  | .cmpi sz v e => opEa 0 6 (sizeField 0 sz) e :: immWords sz v ++ e.words sz
  | .btstImm n e => opEa 0 4 0 e :: n.setWidth 16 :: e.words .byte
  | .btstReg d e => withEa 0 d 4 .byte e
  | .bchgImm n e => opEa 0 4 1 e :: n.setWidth 16 :: e.words .byte
  | .bchgReg d e => withEa 0 d 5 .byte e
  | .bclrImm n e => opEa 0 4 2 e :: n.setWidth 16 :: e.words .byte
  | .bclrReg d e => withEa 0 d 6 .byte e
  | .bsetImm n e => opEa 0 4 3 e :: n.setWidth 16 :: e.words .byte
  | .bsetReg d e => withEa 0 d 7 .byte e
  | .movep op dx ay d => [opword 0 dx op.code 1 ay, d]
  | .cmp2 sz rn e => opEa 0 ((0 : BitVec 1) ++ sz.code) 3 e :: regFlagWord rn false :: e.words sz
  | .chk2 sz rn e => opEa 0 ((0 : BitVec 1) ++ sz.code) 3 e :: regFlagWord rn true :: e.words sz
  | .cas sz dc du e =>
    opEa 0 ((1 : BitVec 1) ++ (sz.code + 1)) 3 e
      :: ((0 : BitVec 7) ++ du ++ (0 : BitVec 3) ++ dc) :: e.words sz
  | .cas2 sz o1 o2 => [opword 0 ((3 : BitVec 2) ++ sz.code) 3 7 4, o1.encode, o2.encode]
  | .moves sz t rn e => opEa 0 7 (sizeField 0 sz) e :: regFlagWord rn t :: e.words sz
  | .move sz src dst =>
    let l : BitVec 4 := match sz with
      | .byte => 1
      | .word => 3
      | .long => 2
    opword l dst.reg dst.mode src.mode src.reg :: src.words sz ++ dst.words sz
  | .movea .w a e => withEa 3 a 1 .word e
  | .movea .l a e => withEa 2 a 1 .long e
  | .negx sz e => withEa 4 0 (sizeField 0 sz) sz e
  | .clr sz e => withEa 4 1 (sizeField 0 sz) sz e
  | .neg sz e => withEa 4 2 (sizeField 0 sz) sz e
  | .not sz e => withEa 4 3 (sizeField 0 sz) sz e
  | .moveFromSr e => withEa 4 0 3 .word e
  | .moveFromCcr e => withEa 4 1 3 .word e
  | .moveToCcr e => withEa 4 2 3 .word e
  | .moveToSr e => withEa 4 3 3 .word e
  | .nbcd e => withEa 4 4 0 .byte e
  | .linkL a d => opword 4 4 0 1 a :: longWords d
  | .swap d => [opword 4 4 1 0 d]
  | .bkpt v => [opword 4 4 1 1 v]
  | .pea e => withEa 4 4 1 .long e
  | .extW d => [opword 4 4 2 0 d]
  | .extL d => [opword 4 4 3 0 d]
  | .extbL d => [opword 4 4 7 0 d]
  | .movemToMem sz mask e => opEa 4 4 ((1 : BitVec 2) ++ sz.code) e :: mask :: e.words sz.size
  | .movemToReg sz mask e => opEa 4 6 ((1 : BitVec 2) ++ sz.code) e :: mask :: e.words sz.size
  | .tst sz e => withEa 4 5 (sizeField 0 sz) sz e
  | .tas e => withEa 4 5 3 .byte e
  | .illegal => [0x4AFC]
  | .muluL dl dh wide e => opEa 4 6 0 e :: mulDivExt dl dh wide false :: e.words .long
  | .mulsL dl dh wide e => opEa 4 6 0 e :: mulDivExt dl dh wide true :: e.words .long
  | .divuL dq dr wide e => opEa 4 6 1 e :: mulDivExt dq dr wide false :: e.words .long
  | .divsL dq dr wide e => opEa 4 6 1 e :: mulDivExt dq dr wide true :: e.words .long
  | .trap n => [(0x4E4 : BitVec 12) ++ n]
  | .linkW a d => [opword 4 7 1 2 a, d]
  | .unlk a => [opword 4 7 1 3 a]
  | .moveToUsp a => [opword 4 7 1 4 a]
  | .moveFromUsp a => [opword 4 7 1 5 a]
  | .reset => [0x4E70]
  | .nop => [0x4E71]
  | .stop v => [0x4E72, v]
  | .rte => [0x4E73]
  | .rtd d => [0x4E74, d]
  | .rts => [0x4E75]
  | .trapv => [0x4E76]
  | .rtr => [0x4E77]
  | .movecFrom rn c => [0x4E7A, rn ++ c]
  | .movecTo rn c => [0x4E7B, rn ++ c]
  | .jsr e => withEa 4 7 2 .long e
  | .jmp e => withEa 4 7 3 .long e
  | .chkW d e => withEa 4 d 6 .word e
  | .chkL d e => withEa 4 d 4 .long e
  | .lea a e => withEa 4 a 7 .long e
  | .addq sz q e => withEa 5 q (sizeField 0 sz) sz e
  | .subq sz q e => withEa 5 q (sizeField 1 sz) sz e
  | .scc c e => withEa 5 c.hi3 c.lo3 .byte e
  | .dbcc c d w => [opword 5 c.hi3 c.lo3 1 d, w]
  | .trapcc c .none => [opword 5 c.hi3 c.lo3 7 4]
  | .trapcc c (.word v) => [opword 5 c.hi3 c.lo3 7 2, v]
  | .trapcc c (.long v) => opword 5 c.hi3 c.lo3 7 3 :: longWords v
  | .bra d => branchWords 0 d
  | .bsr d => branchWords 1 d
  | .bcc c d => branchWords c.code d
  | .moveq d v => [(7 : BitVec 4) ++ d ++ (0 : BitVec 1) ++ v]
  | .orEaDnB d e => withEa 8 d 0 .byte e
  | .orEaDnW d e => withEa 8 d 1 .word e
  | .orEaDnL d e => withEa 8 d 2 .long e
  | .orDnEaB d e => withEa 8 d 4 .byte e
  | .orDnEaW d e => withEa 8 d 5 .word e
  | .orDnEaL d e => withEa 8 d 6 .long e
  | .divuW d e => withEa 8 d 3 .word e
  | .divsW d e => withEa 8 d 7 .word e
  | .sbcd mem x y => [regPair 8 x 4 mem y]
  | .pack mem x y adj => [regPair 8 x 5 mem y, adj]
  | .unpk mem x y adj => [regPair 8 x 6 mem y, adj]
  | .subEaDnB d e => withEa 9 d 0 .byte e
  | .subEaDnW d e => withEa 9 d 1 .word e
  | .subEaDnL d e => withEa 9 d 2 .long e
  | .subDnEaB d e => withEa 9 d 4 .byte e
  | .subDnEaW d e => withEa 9 d 5 .word e
  | .subDnEaL d e => withEa 9 d 6 .long e
  | .suba sz a e => withEa 9 a (sz.code ++ (3 : BitVec 2)) sz.size e
  | .subx sz mem x y => [regPair 9 x (sizeField 1 sz) mem y]
  | .aline w => [(10 : BitVec 4) ++ w]
  | .cmpB d e => withEa 11 d 0 .byte e
  | .cmpW d e => withEa 11 d 1 .word e
  | .cmpL d e => withEa 11 d 2 .long e
  | .cmpa sz a e => withEa 11 a (sz.code ++ (3 : BitVec 2)) sz.size e
  | .eorB d e => withEa 11 d 4 .byte e
  | .eorW d e => withEa 11 d 5 .word e
  | .eorL d e => withEa 11 d 6 .long e
  | .cmpm sz x y => [opword 11 x (sizeField 1 sz) 1 y]
  | .andEaDnB d e => withEa 12 d 0 .byte e
  | .andEaDnW d e => withEa 12 d 1 .word e
  | .andEaDnL d e => withEa 12 d 2 .long e
  | .andDnEaB d e => withEa 12 d 4 .byte e
  | .andDnEaW d e => withEa 12 d 5 .word e
  | .andDnEaL d e => withEa 12 d 6 .long e
  | .muluW d e => withEa 12 d 3 .word e
  | .mulsW d e => withEa 12 d 7 .word e
  | .abcd mem x y => [regPair 12 x 4 mem y]
  | .exgDD x y => [opword 12 x 5 0 y]
  | .exgAA x y => [opword 12 x 5 1 y]
  | .exgDA x y => [opword 12 x 6 1 y]
  | .addEaDnB d e => withEa 13 d 0 .byte e
  | .addEaDnW d e => withEa 13 d 1 .word e
  | .addEaDnL d e => withEa 13 d 2 .long e
  | .addDnEaB d e => withEa 13 d 4 .byte e
  | .addDnEaW d e => withEa 13 d 5 .word e
  | .addDnEaL d e => withEa 13 d 6 .long e
  | .adda sz a e => withEa 13 a (sz.code ++ (3 : BitVec 2)) sz.size e
  | .addx sz mem x y => [regPair 13 x (sizeField 1 sz) mem y]
  | .aslReg sz n y => shiftWords 1 0 sz n y
  | .aslMem e => shiftMemWords 1 0 e
  | .asrReg sz n y => shiftWords 0 0 sz n y
  | .asrMem e => shiftMemWords 0 0 e
  | .lslReg sz n y => shiftWords 1 1 sz n y
  | .lslMem e => shiftMemWords 1 1 e
  | .lsrReg sz n y => shiftWords 0 1 sz n y
  | .lsrMem e => shiftMemWords 0 1 e
  | .roxlReg sz n y => shiftWords 1 2 sz n y
  | .roxlMem e => shiftMemWords 1 2 e
  | .roxrReg sz n y => shiftWords 0 2 sz n y
  | .roxrMem e => shiftMemWords 0 2 e
  | .rolReg sz n y => shiftWords 1 3 sz n y
  | .rolMem e => shiftMemWords 1 3 e
  | .rorReg sz n y => shiftWords 0 3 sz n y
  | .rorMem e => shiftMemWords 0 3 e
  | .bftst f e => bfWords 0 0 f e
  | .bfextu d f e => bfWords 1 d f e
  | .bfchg f e => bfWords 2 0 f e
  | .bfexts d f e => bfWords 3 d f e
  | .bfclr f e => bfWords 4 0 f e
  | .bfffo d f e => bfWords 5 d f e
  | .bfset f e => bfWords 6 0 f e
  | .bfins d f e => bfWords 7 d f e
  | .cinv sel sc a => [opword 15 2 ((0 : BitVec 1) ++ sel.code) ((0 : BitVec 1) ++ sc.code) a]
  | .cpush sel sc a => [opword 15 2 ((0 : BitVec 1) ++ sel.code) ((1 : BitVec 1) ++ sc.code) a]
  | .pflush op a => [opword 15 2 4 ((0 : BitVec 1) ++ op) a]
  | .ptest rd a => [opword 15 2 5 (bit rd ++ (1 : BitVec 2)) a]
  | .move16Abs op a addr => opword 15 3 0 ((0 : BitVec 1) ++ op.code) a :: longWords addr
  | .move16Pi ax ay => [opword 15 3 0 4 ax, (1 : BitVec 1) ++ ay ++ (0 : BitVec 12)]
  | .fpLine w => [(0x79 : BitVec 7) ++ w]
  | .fline w => [(15 : BitVec 4) ++ w]

/-- The length of an instruction in bytes (30_encoding R141). -/
def Instr.bytes (i : Instr) : Nat := 2 * (encode i).length

/-! ## The table's numbering -/

/-- The longest instruction in words (30_encoding R141). -/
def maxWords : Nat := 11

/-- The words of an instruction whose bits are `w`, the first word in the low bits, with zeros above `nbits`. -/
def tableWords (nbits w : Nat) : List Word :=
  (List.range maxWords).map fun k => BitVec.ofNat 16 ((w % 2 ^ nbits) >>> (16 * k))

/-- What the decoder reads from an instruction whose bits are `w` in the numbering of spec/opcode_table.json. -/
def decodeTableWord (nbits w : Nat) : Option Instr :=
  match decode (tableWords nbits w) with
  | .ok i => some i
  | _ => none

end Sys2Proof
end

