-- ==== Sys2Proof/Config.lean ====
section
/-! DEFINITION. What an implementation fixes, and the free values: constants without a body, of which nothing can be
proved but that they are some value (00_scope 5.5 "draw", 93_implementation_defined). -/

namespace Sys2Proof.Machine

/-- An output event for the host (10_state R56, 92 D5, D21, D22). -/
inductive HostEvent where
  | rsto
  | breakpointAck
  | interruptAck (level : BitVec 3)
  deriving DecidableEq, Repr

/-- One bus cycle answered by a device of the platform (92 D4): the space, the address, how many bytes, the data of a
write or none for a read, and how many output events came before it. -/
structure BusAccess where
  fc : BitVec 3
  addr : BitVec 32
  bytes : Nat
  data : Option (BitVec 128)
  after : Nat
  deriving DecidableEq, Repr

end Sys2Proof.Machine

namespace Sys2Proof.Config

/-- DESIGN CHOICE (log 2), unsafe: what a byte of memory reads as when nothing has written it. The platform's `mem` is
open (92 D4). -/
def unlisted : Byte := 0

/-- The `n`-th free bit: an undefined flag, an undetermined bit of a frame, a choice the spec leaves open (log 7). -/
opaque freeBit (n : Nat) : Bool

/-- The `n`-th free byte (93 U12; log 7). -/
opaque freeByte (n : Nat) : Byte

/-- The `n`-th free long word (93 U5, U17; log 7). -/
opaque freeLong (n : Nat) : Long

/-- Which of WB1, WB2, WB3 records a faulted write at the `n`-th draw: 0 is WB1, 1 is WB2, any other value WB3
(93 U18; log 15). -/
opaque freeSlot (n : Nat) : BitVec 2

/-- Whether the data cache has already written the dirty line with number `line` back to memory and given it up, at the
`n`-th draw (20_memory R106; log 8). -/
opaque linePushed (n : Nat) (line : Nat) : Bool

/-- Which of the values the byte with key `key` has had since its last known push memory holds, at the `n`-th draw
(20_memory R106, 49 R436, 93 U15; log 8); for a byte of read-only memory, which of them its cached line holds (log 47). -/
opaque heldByte (n : Nat) (key : Nat) : Nat

/-- Which of these values memory holds when the byte is fetched, at the `n`-th draw (20_memory R106; log 9). -/
opaque fetchedByte (n : Nat) (key : Nat) : Nat

/-- The dirty bytes, key and value, that the data cache holds at power-on (70_reset R632; log 10). -/
opaque powerOnDirty : List Host.Cell

/-- What a device answers (92 D4, 60_exceptions R597; log 47): the data of a read, right-aligned, or any value for a write
it takes; none is TEA. It may depend on the output events, on every earlier access, on the access itself, and with `n`
on all else. -/
opaque deviceAnswer (n : Nat) (outputs : List Machine.HostEvent) (earlier : List Machine.BusAccess)
  (x : Machine.BusAccess) : Option (BitVec 128)

/-- What MOVEC reads from the ACU status register holding `stored`, at the `n`-th draw (10_state R47, 93 U5; log 28). -/
opaque acuStatusRead (stored : Long) (n : Nat) : Long

/-- What MOVEC reads from the ACU translation control register holding `stored`, at the `n`-th draw (10_state R47,
93 U5; log 28). -/
opaque acuTcrRead (stored : Word) (n : Nat) : Long

/-- The answer of `fp_legal` for a legal floating-point instruction (48_system_control R412): its length in bytes, and
the size in bytes of its memory operand when it has one. -/
structure FpShape where
  bytes : Nat
  memory : Option Nat
  deriving DecidableEq, Repr, Inhabited

/-- `fp_legal` (92 D10, log 18): whether an operation word and the words that follow it are a legal MC68040 or
MC68881/MC68882 floating-point instruction. The source enumerates no such words: a parameter of the implementation. -/
opaque fpLegal (words : List Word) : Option FpShape

end Sys2Proof.Config
end

