-- ==== Sys2Proof/Machine/State.lean ====
section
/-! DEFINITION. The state of the MC68EC040: every piece the spec gives the machine, as plain data (10_state), the
reasons a step stops, and the state after reset. The operations over it stand in Machine/Ops.lean. -/

namespace Sys2Proof.Machine

/-- The processor's run state (10_state R50). `inReset`: RSTI is asserted, or the reset exception has not run yet. -/
inductive RunState where
  | running | stopped | halted | inReset
  deriving DecidableEq, Repr

/-- What is known of a cache's lines (70_reset R632, log 10): nothing since power-on or since the platform last gave
addresses another content; that it holds none; or that it may hold lines filled since it was last wholly invalidated. -/
inductive CacheState where
  | unknown | empty | live
  deriving DecidableEq, Repr

/-- The platform's answer to an interrupt acknowledge cycle (60_exceptions R566, 92 D5). -/
inductive IackAnswer where
  | vector (n : BitVec 8)
  | autovector
  | busError
  deriving DecidableEq, Repr

/-- Addresses `lo` to `hi` whose reads or writes end in TEA, in one space or in every space (92 D4, log 3). -/
structure ErrorRange where
  fc : Option (BitVec 3)
  lo : BitVec 32
  hi : BitVec 32
  onRead : Bool
  onWrite : Bool
  deriving DecidableEq, Repr

/-- Addresses `lo` to `hi` of one space or of every space (92 D4). -/
structure Window where
  fc : Option (BitVec 3)
  lo : BitVec 32
  hi : BitVec 32
  deriving DecidableEq, Repr

/-- The platform: which bank of memory each function code selects, which accesses end in TEA, which addresses are
read-only memory, which are devices, and the answer at each interrupt level (00_scope R8 `mem` and `iack`; log 3, 47). -/
structure Platform where
  bank : Vector (BitVec 3) 8
  errors : List ErrorRange
  roms : List Window
  devices : List Window
  iack : Vector IackAnswer 8
  deriving DecidableEq, Repr

/-- The machine. Memory is a list of bytes by key `bank * 2^32 + address`. -/
structure State where
  d : Vector Long 8
  a : Vector Long 7
  usp : Long
  isp : Long
  msp : Long
  pc : Long
  sr : Word
  vbr : Long
  sfc : BitVec 3
  dfc : BitVec 3
  cacr : Long
  iacr0 : Long
  iacr1 : Long
  dacr0 : Long
  dacr1 : Long
  acuStatus : Long
  acuTcr : Word
  mem : List Host.Cell
  run : RunState
  ipl : BitVec 3
  iplPrev : BitVec 3
  pending : Option (BitVec 3)
  movemEa : Option Long
  icache : CacheState
  dcache : CacheState
  purged : List (CacheScope × Long)
  dirty : List Host.Cell
  romCells : List Host.Cell
  unpushed : List Nat
  staleData : List Nat
  staleInstr : List Nat
  stalePipe : List Nat
  cdis : Bool
  outputs : List HostEvent
  bus : List BusAccess
  platform : Platform
  draws : Nat
  deriving DecidableEq, Repr

/-- Why the machine stops with a fault. -/
inductive Fault where
  /-- Raised by RTE when more throwaway frames follow one another than there are places of three stack pointers and
  values of SR (48 R398, 60_exceptions R582; log 30): the hardware goes on for ever. Safe: no state is claimed. -/
  | rteNeverEnds
  deriving DecidableEq, Repr

/-- Why a step has no meaning. Every one is safe: no state is claimed. -/
inductive Refusal where
  /-- No meaning yet. -/
  | notModelled (mnemonic : String)
  /-- An SR with T1 = T0 = 1 (93 U1); raised by every step from such a state and by every write of one. -/
  | reservedTraceMode
  /-- A reserved field of an extension word is not zero (93 U7); raised by the step when it decodes. -/
  | reservedExtension
  /-- PFLUSH: "indeterminate results" (93 U6). -/
  | pflush
  /-- PTEST: "random bus cycles" (93 U6). -/
  | ptest
  /-- MOVEC to or from URP or SRP (93 U4). -/
  | urpSrp
  /-- MOVE16 (Ax)+,(Ay)+ with x = y (93 U9). -/
  | move16SameRegister
  /-- LINK A7 (93 U9). -/
  | linkA7
  /-- UNLK A7 (93 U9). -/
  | unlkA7
  /-- MULx.L with Dh = Dl, or DIVx.L with Dr = Dq, in the 64-bit form (93 U11). -/
  | mulDivSameRegister
  /-- PACK or UNPK in the memory form with A7 (93 U12). -/
  | packA7
  /-- DBcc with an odd displacement that does not branch (93 U13). -/
  | dbccOddNotTaken
  /-- CAS2 with Dc1 = Dc2 (93 U14). -/
  | cas2SameCompare
  /-- RTE of an access-error frame with more than one continuation bit (93 U2). -/
  | rteContinuation
  /-- The instruction at the PC restored with CM = 1 is no MOVEM (93 U24). -/
  | movemRestart
  /-- A fetch of bytes written and not synchronised, or through an instruction cache never invalidated (20_memory R125,
  70_reset R632). -/
  | staleFetch
  /-- A data access that could hit a line of a data cache enabled without invalidation, or one older than bytes written
  around the cache (70_reset R632). -/
  | staleData
  deriving DecidableEq, Repr

/-- The platform of State.reset: one memory for every function code, no address that ends in TEA, no read-only memory, no
device, autovectors (DESIGN CHOICE, log 3). -/
def Platform.plain : Platform where
  bank := Vector.replicate 8 0
  errors := []
  roms := []
  devices := []
  iack := Vector.replicate 8 .autovector

/-- The machine right after reset (10_state R58): supervisor mode, interrupt stack, mask 7, trace off, caches and ACRs
disabled, ISP and PC from supervisor data $0 and $4, which read 0. Registers the spec leaves unspecified are 0 (DESIGN
CHOICE, log 4). No rule gives the debounced level or the one before it at reset: both are 0, no request (DESIGN CHOICE,
log 20). -/
def State.reset : State where
  d := Vector.replicate 8 0
  a := Vector.replicate 7 0
  usp := 0
  isp := 0
  msp := 0
  pc := 0
  sr := 0x2700
  vbr := 0
  sfc := 0
  dfc := 0
  cacr := 0
  iacr0 := 0
  iacr1 := 0
  dacr0 := 0
  dacr1 := 0
  acuStatus := 0
  acuTcr := 0
  mem := []
  run := .running
  ipl := 0
  iplPrev := 0
  pending := none
  movemEa := none
  icache := .unknown
  dcache := .unknown
  purged := []
  dirty := []
  romCells := []
  unpushed := []
  staleData := []
  staleInstr := []
  stalePipe := []
  cdis := false
  outputs := []
  bus := []
  platform := Platform.plain
  draws := 0

end Sys2Proof.Machine
end

