-- ==== Sys2Proof/Machine/Acu.lean ====
section
/-! DEFINITION. The access control unit: what the four access control registers say of an access (20_memory R100 to R109,
10_state R37 to R44). -/

namespace Sys2Proof.Machine

/-- The attributes of an access: cache mode and write protection (20_memory R103). U1 and U0 reach pins only. -/
structure Attr where
  cm : BitVec 2
  w : Bool
  deriving DecidableEq, Repr

/-- ADDRESS BASE, bits 31-24 (10_state R37). -/
def acrBase (r : Long) : BitVec 8 := r.extractLsb' 24 8

/-- ADDRESS MASK, bits 23-16. -/
def acrMask (r : Long) : BitVec 8 := r.extractLsb' 16 8

/-- E, bit 15. -/
def acrEnabled (r : Long) : Bool := r.getLsbD 15

/-- S, bits 14-13: bit 14 ignores FC2, else bit 13 is compared with it (10_state R40). -/
def acrMode (r : Long) (super : Bool) : Bool := r.getLsbD 14 || r.getLsbD 13 == super

/-- `acr_match` of 20_memory R101. -/
def acrMatch (r a : Long) (super : Bool) : Bool :=
  acrEnabled r && acrMode r super && ((a.extractLsb' 24 8 ^^^ acrBase r) &&& ~~~acrMask r) == 0

/-- The attributes an access control register gives: CM bits 6-5, W bit 2 (10_state R42, R43). -/
def acrAttr (r : Long) : Attr := { cm := r.extractLsb' 5 2, w := r.getLsbD 2 }

/-- `default_attributes` (20_memory R109, 92 D2). -/
def defaultAttr : Attr := { cm := 0, w := false }

/-- `attributes(unit, a, p)`: the first register of the unit has priority (20_memory R103). -/
def attributes (r0 r1 a : Long) (super : Bool) : Attr :=
  if acrMatch r0 a super then acrAttr r0 else if acrMatch r1 a super then acrAttr r1 else defaultAttr

/-- Attributes of an operand access; bit 2 of the function code is the privilege (20_memory R102). -/
def dataAttr (s : State) (fc : BitVec 3) (a : Long) : Attr := attributes s.dacr0 s.dacr1 a (fc.getLsbD 2)

/-- Attributes of an instruction fetch (20_memory R102). -/
def instrAttr (s : State) (fc : BitVec 3) (a : Long) : Attr := attributes s.iacr0 s.iacr1 a (fc.getLsbD 2)

/-- Cache modes 00 and 01 are cachable (10_state R42). -/
def Attr.cachable (t : Attr) : Bool := !t.cm.getLsbD 1

/-- Cache mode 01 (20_memory R106). -/
def Attr.copyback (t : Attr) : Bool := t.cm == 1

/-- The bits of an access control register that exist (10_state R37, R44). -/
def acrImplemented : Long := 0xFFFFE364

/-- DE and IE (10_state R36). -/
def cacrImplemented : Long := 0x80008000

/-- The data cache is used: enabled, and CDIS negated (20_memory R111). -/
def dcacheOn (s : State) : Bool := s.cacr.getLsbD 31 && !s.cdis

/-- The instruction cache is used (20_memory R111). -/
def icacheOn (s : State) : Bool := s.cacr.getLsbD 15 && !s.cdis

end Sys2Proof.Machine
end

