-- ==== Sys2Proof/Machine/Memory.lean ====
section
/-! DEFINITION. Memory as a list of bytes in one canonical form, and a byte access with what it leaves in the caches
(20_memory, 92 D3). `mem` is the program's view; log 8 and 9 say what the other fields add. -/

namespace Sys2Proof.Machine

/-- One byte; a byte not listed reads as Config.unlisted (log 2). -/
def Memory.get : List Host.Cell → Nat → Byte
  | [], _ => Config.unlisted
  | (k, v) :: rest, n => if k = n then v else Memory.get rest n

/-- A byte put at its place in a rising list. -/
def Memory.insert : List Host.Cell → Nat → Byte → List Host.Cell
  | [], n, v => [(n, v)]
  | (k, w) :: rest, n, v =>
    if n < k then (n, v) :: (k, w) :: rest
    else if n = k then (n, v) :: rest
    else (k, w) :: Memory.insert rest n v

/-- A write of one byte; writing what an unlisted byte reads as removes the entry. -/
def Memory.put (m : List Host.Cell) (n : Nat) (v : Byte) : List Host.Cell :=
  if v = Config.unlisted then m.filter (fun c => c.1 != n) else Memory.insert m n v

/-- The canonical form: keys strictly rising, within the eight banks, and no entry an unlisted byte reads as. -/
abbrev Memory.wf (m : List Host.Cell) : Prop :=
  m.Pairwise (fun x y => x.1 < y.1) ∧ ∀ c ∈ m, c.1 < 2 ^ 35 ∧ c.2 ≠ Config.unlisted

/-- A number added to a list without repeats. -/
def addKey (n : Nat) (l : List Nat) : List Nat := if l.contains n then l else n :: l

/-- The key of an address in the space a function code names (20_memory R81; log 3). Equal addresses of two banks have two
keys, in memory and in the caches (DESIGN CHOICE, log 46). -/
def memKey (s : State) (fc : BitVec 3) (a : Long) : Nat :=
  (s.platform.bank[fc.toNat]'fc.isLt).toNat * 2 ^ 32 + a.toNat

/-- The 16-byte line of a key (20_memory R110); lines of two banks are two lines (DESIGN CHOICE, log 46). -/
def lineOf (k : Nat) : Nat := k / 16

/-- The byte at an address. -/
def byteAt (s : State) (fc : BitVec 3) (a : Long) : Byte := Memory.get s.mem (memKey s fc a)

/-- The platform ends an access to this byte in TEA (92 D4). -/
def busErrorAt (s : State) (fc : BitVec 3) (a : Long) (write : Bool) : Bool :=
  s.platform.errors.any fun e =>
    (if write then e.onWrite else e.onRead) && (e.fc == none || e.fc == some fc)
      && decide (e.lo.toNat ≤ a.toNat) && decide (a.toNat ≤ e.hi.toNat)

/-- The addresses of an access of `n` bytes (92 D18: modulo 2^32). -/
def addrsOf (a : Long) (n : Nat) : List Long := (List.range n).map fun k => a + BitVec.ofNat 32 k

/-- A read of `n` bytes ends in an access error: a bus error, or for the read of a locked sequence a write-protected
byte (20_memory R104, 60_exceptions R517). -/
def readFaults (s : State) (locked : Bool) (fc : BitVec 3) (a : Long) (n : Nat) : Bool :=
  (addrsOf a n).any fun x => busErrorAt s fc x false || (locked && (dataAttr s fc x).w)

/-- A write of `n` bytes ends in an access error: write protection or a bus error (20_memory R104, 60_exceptions R517).
When TEA answers a copyback store with the data cache in use is open: R106 makes no bus write at the store, a miss reads the
line, and R518 settles only the reads of a model without caches. DESIGN CHOICE (log 50, unsafe): the write TEA ends the store
itself, as R519 has it; no read TEA of a missing line is asked; and a push of the line by CPUSH asks again (`pushFails`). -/
def writeFaults (s : State) (fc : BitVec 3) (a : Long) (n : Nat) : Bool :=
  (addrsOf a n).any fun x => (dataAttr s fc x).w || busErrorAt s fc x true

/-- A window holds an address of a space. -/
def Window.holds (w : Window) (fc : BitVec 3) (a : Long) : Bool :=
  (w.fc == none || w.fc == some fc) && decide (w.lo.toNat ≤ a.toNat) && decide (a.toNat ≤ w.hi.toNat)

/-- An access of `n` bytes that touches a window is one to what stands there (log 47). -/
def touches (l : List Window) (fc : BitVec 3) (a : Long) (n : Nat) : Bool :=
  (addrsOf a n).any fun x => l.any fun w => w.holds fc x

/-- An operand access that could hit a line of a data cache never invalidated, or one that may hold a byte older than
memory (70_reset R632, log 8). A byte of read-only memory that was written through the cache makes old itself only, since
memory around it is as the line has it. A cache-inhibited access does not use the line it finds (20_memory R108). -/
def staleAt (s : State) (fc : BitVec 3) (a : Long) : Bool :=
  dcacheOn s && (s.dcache == .unknown || ((dataAttr s fc a).cachable && (addrsOf (a &&& 0xFFFFFFF0) 16).any fun x =>
    s.staleData.contains (memKey s fc x) && (x == a || !touches s.platform.roms fc x 1)))

/-- An operand access the model gives no meaning (70_reset R632). -/
def staleAccess (s : State) (fc : BitVec 3) (a : Long) (n : Nat) : Bool := (addrsOf a n).any (staleAt s fc)

/-! ## What the caches and the pipe may hold (log 8, 9) -/

/-- The program sees memory through the data cache: it is in use, and its lines are known. Then `mem` is that view, and
`dirty` lists for each byte that may be dirty the values memory may hold; else `mem` is memory and `dirty` lists what the
dirty lines hold in its place (log 8). -/
def seesCache (s : State) : Bool := dcacheOn s && s.dcache != .unknown

/-- The records of the caches: bytes of lines that may be dirty, each with a value of the other side of the program's view
(`seesCache`); bytes of read-only memory with the values their lines may hold instead (log 47); bytes stored in
copyback blocks that no push has covered since reset (20_memory R125); cached bytes that may be older than memory; bytes that the
instruction cache, or the pipe, may hold in an old form. -/
structure CacheRecords where
  dirty : List Host.Cell
  romCells : List Host.Cell
  unpushed : List Nat
  staleData : List Nat
  staleInstr : List Nat
  stalePipe : List Nat
  deriving DecidableEq, Repr

/-- The records a state holds. -/
def State.records (s : State) : CacheRecords :=
  { dirty := s.dirty, romCells := s.romCells, unpushed := s.unpushed, staleData := s.staleData,
    staleInstr := s.staleInstr, stalePipe := s.stalePipe }

/-- A state with other records of its caches. -/
def withRecords (r : CacheRecords) (s : State) : State :=
  { s with
    dirty := r.dirty
    romCells := r.romCells
    unpushed := r.unpushed
    staleData := r.staleData
    staleInstr := r.staleInstr
    stalePipe := r.stalePipe }

/-- Several numbers added to a list without repeats. -/
def addKeys (ks l : List Nat) : List Nat := ks.foldl (fun l k => addKey k l) l

/-- The keys of a list of bytes, each once. -/
def keysOf (l : List Host.Cell) : List Nat := l.foldr (fun c acc => addKey c.1 acc) []

/-- Keys added to the ones the instruction cache may hold in an old form. -/
def addStaleInstr (s : State) (ks : List Nat) : List Nat :=
  if s.icache == .empty then s.staleInstr else addKeys ks s.staleInstr

/-- The keys of the bytes of `l` that memory, as the program sees it, may have or get otherwise: those of which a value
other than memory's is recorded. -/
def changing (s : State) (l : List Host.Cell) : List Nat := keysOf (l.filter fun c => c.2 != Memory.get s.mem c.1)

/-- The records once a line is pushed if dirty and invalidated; memory changes behind the instruction side then, and the CINV
and the change of flow that R125 asks for come after the push (20_memory R108, R125, 49 R437). -/
def pushedRecords (s : State) (l : Nat) : CacheRecords :=
  let ks := addKeys (s.unpushed.filter fun k => lineOf k == l) (changing s (s.dirty.filter fun c => lineOf c.1 == l))
  { dirty := s.dirty.filter fun c => lineOf c.1 != l
    romCells := s.romCells.filter fun c => lineOf c.1 != l
    unpushed := s.unpushed.filter fun k => lineOf k != l
    staleData := s.staleData.filter fun k => lineOf k != l
    staleInstr := addStaleInstr s ks
    stalePipe := addKeys ks s.stalePipe }

/-- The records after an access to one byte: a cache-inhibited one pushes or invalidates the line (20_memory R108). -/
def bypassed (s : State) (fc : BitVec 3) (a : Long) : CacheRecords :=
  if dcacheOn s && !(dataAttr s fc a).cachable then pushedRecords s (lineOf (memKey s fc a)) else s.records

/-- What a read of `n` bytes leaves in the caches. -/
def afterRead (s : State) (fc : BitVec 3) (a : Long) (n : Nat) : State :=
  withRecords ((addrsOf a n).foldl (fun r x => bypassed (withRecords r s) fc x) s.records) s

/-- Every record of a byte gets one value; its line stays dirty. -/
def setCells (k : Nat) (v : Byte) (l : List Host.Cell) : List Host.Cell := l.map fun c => if c.1 == k then (k, v) else c

/-- Dirty bytes after a cached write of one byte: copyback keeps every value memory may still hold, writethrough leaves
memory the value `v` (20_memory R105, R106, 93 U15). -/
def dirtyAfterWrite (s : State) (fc : BitVec 3) (a : Long) (v : Byte) : List Host.Cell :=
  let k := memKey s fc a
  let c := (k, Memory.get s.mem k)
  if (dataAttr s fc a).copyback then if s.dirty.contains c then s.dirty else c :: s.dirty
  else setCells k v s.dirty

/-- Dirty bytes after a write around the cache: a dirty line keeps the value the byte had (20_memory R113, log 8). -/
def dirtyAfterAround (s : State) (k : Nat) : List Host.Cell :=
  if (s.dirty.any fun c => lineOf c.1 == lineOf k) && !s.dirty.any (fun c => c.1 == k)
  then (k, Memory.get s.mem k) :: s.dirty else s.dirty

/-- A write of one byte: memory, the data cache, and what the instruction cache and the pipe may hold of the old value
(20_memory R125). R125 does not say whether its sentence on IE = 0 means the time of the store or of the fetch. DESIGN
CHOICE (log 9, unsafe): a store made while the instruction cache is `empty` (off and wholly invalidated) leaves no old value
there, so it needs no CINV after it, also when IE is set before the fetch. A store to a copyback block is `unpushed` whether or
not the data cache is in use (R125, 70_reset R641). -/
def pokeByte (s : State) (fc : BitVec 3) (a : Long) (v : Byte) : State :=
  let k := memKey s fc a
  let r := bypassed s fc a
  { s with
    mem := Memory.put s.mem k v
    dirty := if !dcacheOn s then dirtyAfterAround s k
      else if (dataAttr s fc a).cachable then dirtyAfterWrite s fc a v else r.dirty
    romCells := if dcacheOn s then r.romCells.filter fun c => c.1 != k else r.romCells
    unpushed := if (dataAttr s fc a).copyback then addKey k r.unpushed else r.unpushed
    staleData := if !dcacheOn s && s.dcache == .live then addKey k r.staleData else r.staleData
    staleInstr := if s.icache == .empty then r.staleInstr else addKey k r.staleInstr
    stalePipe := addKey k r.stalePipe }

/-- `MemReadFC` without its checks: big-endian (20_memory R84). -/
def peek (s : State) (fc : BitVec 3) : (sz : Size) → Long → BitVec sz.bits
  | .byte, a => byteAt s fc a
  | .word, a => byteAt s fc a ++ byteAt s fc (a + 1)
  | .long, a => byteAt s fc a ++ byteAt s fc (a + 1) ++ byteAt s fc (a + 2) ++ byteAt s fc (a + 3)

/-- `MemWriteFC` without its checks: big-endian (20_memory R84). -/
def poke (s : State) (fc : BitVec 3) : (sz : Size) → Long → BitVec sz.bits → State
  | .byte, a, v => pokeByte s fc a v
  | .word, a, v =>
    pokeByte (pokeByte s fc a (v.extractLsb' 8 8)) fc (a + 1) (v.extractLsb' 0 8)
  | .long, a, v =>
    pokeByte (pokeByte (pokeByte (pokeByte s fc a (v.extractLsb' 24 8)) fc (a + 1) (v.extractLsb' 16 8))
      fc (a + 2) (v.extractLsb' 8 8)) fc (a + 3) (v.extractLsb' 0 8)

/-! ## Devices and read-only memory (92 D4, 60_exceptions R597; log 47) -/

/-- A bus cycle that a device answers: its answer, and the state with the cycle recorded. -/
def deviceCycle (s : State) (fc : BitVec 3) (a : Long) (n : Nat) (data : Option (BitVec 128)) :
    Option (BitVec 128) × State :=
  let x : BusAccess := { fc := fc, addr := a, bytes := n, data := data, after := s.outputs.length }
  (Config.deviceAnswer s.draws s.outputs s.bus x, { s with bus := s.bus ++ [x], draws := s.draws + 1 })

/-- The aligned bus transfers of an access of `n` bytes, address and bytes of each: a misaligned word takes two, a
misaligned long word two or three (20_memory R87). A line is aligned. -/
def transfers (a : Long) (n : Nat) : List (Long × Nat) :=
  if n == 2 && a.getLsbD 0 then [(a, 1), (a + 1, 1)]
  else if n == 4 && a.getLsbD 0 then [(a, 1), (a + 1, 2), (a + 3, 1)]
  else if n == 4 && a.getLsbD 1 then [(a, 2), (a + 2, 2)]
  else [(a, n)]

/-- The low `n` bytes of a value. -/
def lowBytes (n : Nat) (v : BitVec 128) : BitVec 128 := (v.setWidth (8 * n)).setWidth 128

/-- `n` bytes of memory as one right-aligned value. -/
def memoryValue (s : State) (fc : BitVec 3) (a : Long) (n : Nat) : BitVec 128 :=
  (addrsOf a n).foldl (fun v x => v <<< 8 ||| (byteAt s fc x).setWidth 128) 0

/-- Reads in order, `v` read so far: each from memory, or answered by a device; TEA ends them. -/
def readTransfers (fc : BitVec 3) : List (Long × Nat) → BitVec 128 → State → Option (BitVec 128) × State
  | [], v, s => (some v, s)
  | p :: rest, v, s =>
    let r := if touches s.platform.devices fc p.1 p.2 then deviceCycle s fc p.1 p.2 none
      else (some (memoryValue s fc p.1 p.2), s)
    match r.1 with
    | some w => readTransfers fc rest (v <<< (8 * p.2) ||| lowBytes p.2 w) r.2
    | none => (none, r.2)

/-- A read that is not refused, none for TEA; where a device stands, transfer by transfer (20_memory R87). -/
def readBus (s : State) (fc : BitVec 3) (sz : Size) (a : Long) : Option (BitVec sz.bits) × State :=
  if touches s.platform.devices fc a sz.bytes then
    let r := readTransfers fc (transfers a sz.bytes) 0 s
    (r.1.map fun v => v.setWidth sz.bits, r.2)
  else (some (peek s fc sz a), s)

/-- The values that a line may hold of a byte of read-only memory after a cached write of `v`: in copyback mode, or where
the line is dirty, `v`; else `v` if the line is cached, and what it may have held before (20_memory R105, R106, log 47). -/
def romAfterWrite (s : State) (fc : BitVec 3) (a : Long) (v : Byte) : List Host.Cell :=
  let k := memKey s fc a
  let old := s.romCells.filter fun c => c.1 == k
  let sure := (dataAttr s fc a).copyback || s.dirty.any fun c => lineOf c.1 == lineOf k
  (k, v) :: (if sure then [] else if old.isEmpty then [(k, Memory.get s.mem k)] else old)
    ++ s.romCells.filter fun c => c.1 != k

/-- A write of the byte `v` of read-only memory: memory keeps its value; a cached write may leave `v` in the cache
(20_memory R105, R106). Whether a byte that memory does not take counts as one the program has written is open (R125).
DESIGN CHOICE (log 9, unsafe): it does not, but for a copyback store with the data cache in use: it enters neither
`staleInstr` nor `stalePipe`, so its fetch needs no CINV and no change of flow. -/
def romByte (s : State) (fc : BitVec 3) (a : Long) (v : Byte) : State :=
  let t := afterRead s fc a 1
  let k := memKey s fc a
  if dcacheOn s && (dataAttr s fc a).cachable then
    { t with
      dirty := dirtyAfterWrite t fc a (byteAt t fc a)
      romCells := romAfterWrite t fc a v
      unpushed := if (dataAttr s fc a).copyback then addKey k t.unpushed else t.unpushed
      staleData := addKey k t.staleData }
  else t

/-- The bytes of a right-aligned value of `n` bytes, the most significant first. -/
def bytesOf (n : Nat) (v : BitVec 128) : List Byte := (List.range n).map fun k => v.extractLsb' (8 * (n - 1 - k)) 8

/-- A write of `n` bytes to memory, read-only or not. -/
def writeBytes (s : State) (fc : BitVec 3) (a : Long) (n : Nat) (v : BitVec 128) : State :=
  ((addrsOf a n).zip (bytesOf n v)).foldl (fun s p =>
    if touches s.platform.roms fc p.1 1 then romByte s fc p.1 p.2 else pokeByte s fc p.1 p.2) s

/-- Writes in order, of the low `left` bytes of `v`: each to memory, or taken by a device, which as a cache-inhibited access
pushes or invalidates the lines it meets (20_memory R108); TEA ends them. Whether a byte that a device takes counts as one the
program has written is open (R125). DESIGN CHOICE (log 9, unsafe): it does not, so its fetch, which the device answers, needs
no CINV and no change of flow. -/
def writeTransfers (fc : BitVec 3) (v : BitVec 128) : List (Long × Nat) → Nat → State → Bool × State
  | [], _, s => (true, s)
  | p :: rest, left, s =>
    let w := lowBytes p.2 (v >>> (8 * (left - p.2)))
    if touches s.platform.devices fc p.1 p.2 then
      let r := deviceCycle s fc p.1 p.2 (some w)
      let t := afterRead r.2 fc p.1 p.2
      if r.1.isSome then writeTransfers fc v rest (left - p.2) t else (false, t)
    else writeTransfers fc v rest (left - p.2) (writeBytes s fc p.1 p.2 w)

/-- A write that is not refused, of the value `v` of `n` bytes: whether it is taken, and the state after it; `plain` is
the state after a write to memory that can be written. Where a device stands it is done transfer by transfer
(20_memory R87). -/
def writeBus (s : State) (fc : BitVec 3) (a : Long) (n : Nat) (v : BitVec 128) (plain : State) : Bool × State :=
  if touches s.platform.devices fc a n then writeTransfers fc v (transfers a n) n s
  else if touches s.platform.roms fc a n then (true, writeBytes s fc a n v)
  else (true, plain)

/-! ## The data cache going on and off (10_state R36, 20_memory R113) -/

/-- The lines of a list of bytes, each once. -/
def linesOf (l : List Host.Cell) : List Nat := l.foldr (fun c acc => addKey (lineOf c.1) acc) []

/-- The lines of `l` that the cache has written back by itself before the `n`-th draw (20_memory R106). -/
def pushedLines (n : Nat) (l : List Host.Cell) : List Nat := (linesOf l).filter (Config.linePushed n)

/-- The bytes named by `l` take the values `l` gives them. -/
def putAll (m : List Host.Cell) (l : List Host.Cell) : List Host.Cell := l.foldl (fun m c => Memory.put m c.1 c.2) m

/-- The bytes with these keys and the values memory holds. -/
def currentOf (m : List Host.Cell) (l : List Nat) : List Host.Cell := l.map fun k => (k, Memory.get m k)

/-- What memory holds of dirty bytes, each the current value or one of those recorded, as the `n`-th draw says
(20_memory R106, 93 U15). -/
def heldBytes (n : Nat) (m l : List Host.Cell) : List Host.Cell :=
  (keysOf l).map fun k =>
    (k, (Memory.get m k :: (l.filter fun c => c.1 == k).map Prod.snd).getD (Config.heldByte n k) (Memory.get m k))

/-- What the dirty lines of `hit` hold of bytes of read-only memory, one of the values recorded for each (log 47). -/
def romHeld (s : State) (hit : List Host.Cell) : List Host.Cell :=
  (keysOf (s.romCells.filter fun c => hit.any fun h => lineOf h.1 == lineOf c.1)).map fun k =>
    let vs := (s.romCells.filter fun c => c.1 == k).map Prod.snd
    (k, vs.getD (Config.heldByte s.draws k) (vs.headD (Memory.get s.mem k)))

/-- The data cache stops being used: lines it has written back and given up are clean, of the others memory holds some
value and the cache the current one (log 8). No push by CPUSH has covered any of their bytes (`unpushed`, 20_memory R125). -/
def dcacheGoesOff (s : State) : State :=
  let gone := pushedLines s.draws s.dirty
  let kept := s.dirty.filter fun c => !gone.contains (lineOf c.1)
  { s with
    mem := putAll s.mem (heldBytes s.draws s.mem kept)
    dirty := currentOf s.mem (keysOf kept)
    romCells := s.romCells.filter fun c => !gone.contains (lineOf c.1)
    staleInstr := addStaleInstr s (changing s s.dirty)
    stalePipe := addKeys (changing s s.dirty) s.stalePipe
    draws := s.draws + 1 }

/-- The data cache is used again: what its dirty lines hold is the program's view, and what memory holds of them is
recorded; no fetch gets such a byte before it is pushed (log 8, 9). -/
def dcacheGoesOn (s : State) : State :=
  { s with
    mem := putAll s.mem s.dirty
    dirty := currentOf s.mem (keysOf s.dirty) }

/-- What the pipe may hold in an old form once the instruction cache's control changes: words it took from the cache are
kept (70_reset R643, 92 D28). -/
def prefetched (s : State) : List Nat := if icacheOn s then addKeys s.staleInstr s.stalePipe else s.stalePipe

/-- A change of the caches' enables or of CDIS: `f` changes the control state only (10_state R36, 20_memory R113). A
cache that is switched on may fill from then on. -/
def cacheControl (s : State) (f : State → State) : State :=
  let t := f { s with stalePipe := prefetched s }
  let u := if seesCache s && !seesCache t then dcacheGoesOff t
    else if !seesCache s && seesCache t then dcacheGoesOn t else t
  { u with
    dcache := if dcacheOn t && u.dcache == .empty then .live else u.dcache
    icache := if icacheOn t && u.icache == .empty then .live else u.icache }

/-! ## Lines of a scope (49 R435) -/

/-- Whether a key is in the scope: the line of An, its 4-Kbyte block, or everything (49 R435); in every bank of memory,
since An names no space (DESIGN CHOICE, log 46). -/
def inScope (scope : CacheScope) (a : Long) (k : Nat) : Bool :=
  match scope with
  | .line => k % 2 ^ 32 / 16 == a.toNat / 16
  | .page => k % 2 ^ 32 / 4096 == a.toNat / 4096
  | .all => true

/-- The dirty bytes of power-on in lines of a scope not invalidated since (70_reset R632, log 10). -/
def powerOnBytes (s : State) (scope : CacheScope) (a : Long) : List Host.Cell :=
  Config.powerOnDirty.filter fun c =>
    decide (c.1 < 2 ^ 35) && inScope scope a c.1 && !s.purged.any fun p => inScope p.1 p.2 c.1

/-- The dirty bytes that a data cache never wholly invalidated holds since power-on in the lines of a scope, free, among
the other dirty bytes (70_reset R632; DESIGN CHOICE, log 10). -/
def withPowerOn (s : State) (scope : CacheScope) (a : Long) : State :=
  if s.dcache == .unknown then
    { s with
      dirty := s.dirty ++ powerOnBytes s scope a
      purged := (scope, a) :: s.purged }
  else s

end Sys2Proof.Machine
end

