-- ==== Sys2Proof/Machine/Ops.lean ====
section
/-! DEFINITION. The named operations: registers, the status register, operand memory, free values, stores, taking an
exception, and how an instruction ends (10_state, 60_exceptions). Reading a frame back stands in Machine/Return.lean. -/

namespace Sys2Proof.Machine

/-! ## The status register (10_state R27) -/

/-- The five condition codes (10_state R28). -/
structure Ccr where
  x : Bool
  n : Bool
  z : Bool
  v : Bool
  c : Bool
  deriving DecidableEq, Repr

/-- T1, bit 15. -/
def srT1 (v : Word) : Bool := v.getLsbD 15

/-- T0, bit 14. -/
def srT0 (v : Word) : Bool := v.getLsbD 14

/-- S, bit 13. -/
def srS (v : Word) : Bool := v.getLsbD 13

/-- M, bit 12. -/
def srM (v : Word) : Bool := v.getLsbD 12

/-- I2 to I0, bits 10-8 (10_state R31). -/
def srMask (v : Word) : BitVec 3 := v.extractLsb' 8 3

/-- The bits of SR that exist (92 D25). -/
def srImplemented : Word := 0xF71F

/-- The condition codes of an SR. -/
def ccrOf (v : Word) : Ccr :=
  { x := v.getLsbD 4, n := v.getLsbD 3, z := v.getLsbD 2, v := v.getLsbD 1, c := v.getLsbD 0 }

/-- The condition codes as bits 4-0. -/
def Ccr.bits (f : Ccr) : BitVec 5 := bit f.x ++ bit f.n ++ bit f.z ++ bit f.v ++ bit f.c

/-- An SR with other condition codes. -/
def srWithCcr (v : Word) (f : Ccr) : Word := (v.extractLsb' 5 11 : BitVec 11) ++ f.bits

/-- Step 1 of exception processing: S set, T1 and T0 cleared (60_exceptions R502). -/
def srException (v : Word) : Word := (v &&& 0x3FFF) ||| 0x2000

/-- An SR with M cleared (60_exceptions R569). -/
def srClearM (v : Word) : Word := v &&& 0xEFFF

/-- An SR with another interrupt mask (60_exceptions R566). -/
def srWithMask (v : Word) (l : BitVec 3) : Word := (v.extractLsb' 11 5 : BitVec 5) ++ l ++ (v.extractLsb' 0 8 : BitVec 8)

/-- The supervisor bit. -/
def State.super (s : State) : Bool := srS s.sr

/-- The condition codes. -/
def State.ccr (s : State) : Ccr := ccrOf s.sr

/-- New condition codes; the rest of SR is kept. -/
def State.setCcr (s : State) (f : Ccr) : State := { s with sr := srWithCcr s.sr f }

/-- Whether the instruction that begins now is traced if it only increments the PC (60_exceptions R553). -/
def State.traceAll (s : State) : Bool := srT1 s.sr

/-- Whether the instruction that begins now is traced if it changes the flow (60_exceptions R554). -/
def State.traceFlow (s : State) : Bool := srT1 s.sr || srT0 s.sr

/-- The function code of operand accesses (20_memory R82). -/
def State.dataFc (s : State) : BitVec 3 := if s.super then 5 else 1

/-- The function code of instruction fetches (20_memory R82). -/
def State.codeFc (s : State) : BitVec 3 := if s.super then 6 else 2

/-! ## Registers (10_state R21 to R24) -/

/-- `D[n]`. -/
def State.dreg (s : State) (n : Reg) : Long := s.d[n.toNat]'n.isLt

/-- `D[n] <- v`, all 32 bits. -/
def State.setDreg (s : State) (n : Reg) (v : Long) : State := { s with d := s.d.set n.toNat v n.isLt }

/-- The active stack pointer (10_state R24). -/
def State.sp (s : State) : Long := if s.super then (if srM s.sr then s.msp else s.isp) else s.usp

/-- A new active stack pointer. -/
def State.setSp (s : State) (v : Long) : State :=
  if s.super then (if srM s.sr then { s with msp := v } else { s with isp := v }) else { s with usp := v }

/-- `A[n]`; `A[7]` is the active stack pointer. -/
def State.areg (s : State) (n : Reg) : Long := if h : n.toNat < 7 then s.a[n.toNat] else s.sp

/-- `A[n] <- v`, always 32 bits. -/
def State.setAreg (s : State) (n : Reg) (v : Long) : State :=
  if h : n.toNat < 7 then { s with a := s.a.set n.toNat v } else s.setSp v

/-- `R[i]` (00_scope 5.2). -/
def State.greg (s : State) (i : GReg) : Long :=
  if i.getLsbD 3 then s.areg (i.extractLsb' 0 3) else s.dreg (i.extractLsb' 0 3)

/-- `R[i] <- v`, all 32 bits. -/
def State.setGreg (s : State) (i : GReg) (v : Long) : State :=
  if i.getLsbD 3 then s.setAreg (i.extractLsb' 0 3) v else s.setDreg (i.extractLsb' 0 3) v

/-- The low part of a register. -/
def lowPart (sz : Size) (v : Long) : BitVec sz.bits := v.setWidth sz.bits

/-- A register whose low part is replaced: the bits above the operand size are unchanged (30_encoding R151). -/
def withLow (old : Long) : (sz : Size) → BitVec sz.bits → Long
  | .byte, v => (old.extractLsb' 8 24 : BitVec 24) ++ v
  | .word, v => (old.extractLsb' 16 16 : BitVec 16) ++ v
  | .long, v => v

/-- `sext_32`. -/
def sext {n : Nat} (v : BitVec n) : Long := v.signExtend 32

/-! ## Faults and how an instruction ends -/

/-- A failed access, as the access-error frame records it (60_exceptions R520, R532). `size`: 0 long, 1 byte, 2 word,
3 line. `data` is the value a failed write had, register-aligned; `line` the four long words of a failed line write. -/
structure AccessFault where
  addr : Long
  size : BitVec 2
  read : Bool
  locked : Bool
  tt : BitVec 2
  tm : BitVec 3
  data : Long
  line : Option (Vector Long 4)
  deriving DecidableEq, Repr

/-- The SIZE code of an operand size (20_memory R83). -/
def ssize : Size → BitVec 2
  | .byte => 1
  | .word => 2
  | .long => 0

/-- How a completed instruction leaves the PC: the next instruction; the next instruction after a write of SR; a change
of flow; the STOP instruction (60_exceptions R554, R557). -/
inductive Done where
  | seq
  | sr
  | jump (t : Long)
  | stop
  deriving DecidableEq, Repr

/-- Why an instruction does not complete in the ordinary way. `restart`: an access error that abandons it. `write`: an
access error of one to three writes, everything else done. `again`: an access error of writes that stands with what is
done, the instruction to run again. `movem`: an access error inside a MOVEM whose address was `ea`. `pre`: an exception
with a four-word frame that stacks `pc0`. `trap`: an instruction trap, with the pointer to the instruction or without.
`fp`: the unimplemented floating-point exception. `address`: an odd target. `halt`: a double bus fault. -/
inductive Abort where
  | restart (f : AccessFault)
  | write (f : AccessFault) (more : List AccessFault) (d : Done)
  | again (f : AccessFault) (more : List AccessFault)
  | movem (f : AccessFault) (ea : Long)
  | pre (vec : BitVec 8)
  | trap (vec : BitVec 8) (pointer : Bool)
  | fp (next ea : Long)
  | address (t : Long)
  | halt
  | refuse (r : Refusal)
  | fault (r : Fault)
  deriving DecidableEq, Repr

/-- A computation inside an instruction. -/
abbrev Exec := EStateM Abort State

/-- The outcome of a step. -/
abbrev Out := Host.Outcome State Fault Refusal

/-- The instruction stops with a refusal. -/
def refuse {α : Type} (r : Refusal) : Exec α := throw (.refuse r)

/-- IllegalInstruction (60_exceptions R542). -/
def illegalInstruction {α : Type} : Exec α := throw (.pre 4)

/-- `if SR.S = 0 then raise PrivilegeViolation` (60_exceptions R546). -/
def needSupervisor : Exec Unit := fun s => if s.super then .ok () s else .error (.pre 8) s

/-- Read a piece of the state. -/
def look {α : Type} (f : State → α) : Exec α := fun s => .ok (f s) s

/-- Change the state. -/
def change (f : State → State) : Exec Unit := fun s => .ok () (f s)

/-- An independent free bit (00_scope 5.5, log 7). -/
def drawBit : Exec Bool := fun s => .ok (Config.freeBit s.draws) { s with draws := s.draws + 1 }

/-- An independent free byte. -/
def drawByte : Exec Byte := fun s => .ok (Config.freeByte s.draws) { s with draws := s.draws + 1 }

/-- An independent free long word. -/
def drawLong : Exec Long := fun s => .ok (Config.freeLong s.draws) { s with draws := s.draws + 1 }

/-- The level comparison of 60_exceptions R562: a request above the mask is made pending. -/
def compareLevel (s : State) : State :=
  if s.pending.isNone && decide (srMask s.sr < s.ipl) then { s with pending := some s.ipl } else s

/-- SR becomes `v`, and the level on the pins is compared with its mask: each change of SR.I asks for that (60_exceptions
R562). -/
def State.putSr (s : State) (v : Word) : State := compareLevel { s with sr := v }

/-- A write of the whole SR: unassigned bits stay zero, T1 = T0 = 1 is refused (92 D25, 93 U1). -/
def loadSr (v : Word) : Exec Unit := fun s =>
  if srT1 v && srT0 v then .error (.refuse .reservedTraceMode) s
  else .ok () (s.putSr (v &&& srImplemented))

/-! ## Operand memory -/

/-- What a bus cycle is labelled with (20_memory R83): function code, transfer type, transfer modifier, locked. -/
structure Cycle where
  fc : BitVec 3
  tt : BitVec 2
  tm : BitVec 3
  locked : Bool
  deriving DecidableEq, Repr

/-- A normal access in the space of a function code. -/
def normalCycle (fc : BitVec 3) : Cycle := { fc := fc, tt := 0, tm := fc, locked := false }

/-- The failed access of a read. -/
def readFault (c : Cycle) (sz : Size) (a : Long) : AccessFault :=
  { addr := a, size := ssize sz, read := true, locked := c.locked, tt := c.tt, tm := c.tm, data := 0, line := none }

/-- The failed access of a write. -/
def writeFault (c : Cycle) (sz : Size) (a : Long) (v : BitVec sz.bits) : AccessFault :=
  { addr := a, size := ssize sz, read := false, locked := c.locked, tt := c.tt, tm := c.tm, data := v.setWidth 32,
    line := none }

/-- `MemReadFC` (00_scope 5.3) with its access error (60_exceptions R519, read fault). -/
def readCycle (c : Cycle) (sz : Size) (a : Long) : Exec (BitVec sz.bits) := fun s =>
  if readFaults s c.locked c.fc a sz.bytes then .error (.restart (readFault c sz a)) s
  else if staleAccess s c.fc a sz.bytes then .error (.refuse .staleData) s
  else match readBus s c.fc sz a with
    | (some v, t) => .ok v (afterRead t c.fc a sz.bytes)
    | (none, t) => .error (.restart (readFault c sz a)) t

/-- `MemRead`: in the current data space. -/
def readMem (sz : Size) (a : Long) : Exec (BitVec sz.bits) := fun s => readCycle (normalCycle s.dataFc) sz a s

/-- One write an instruction owes: its bytes stand at `a` upward. -/
structure Store where
  c : Cycle
  sz : Size
  a : Long
  v : Long
  deriving DecidableEq, Repr

/-- The failed access of a store. -/
def Store.fault (w : Store) : AccessFault := writeFault w.c w.sz w.a (w.v.setWidth w.sz.bits)

/-- Whether a store fails. -/
def Store.fails (s : State) (w : Store) : Bool := writeFaults s w.c.fc w.a w.sz.bytes

/-- Whether a store is one the model gives no meaning. -/
def Store.stale (s : State) (w : Store) : Bool := staleAccess s w.c.fc w.a w.sz.bytes

/-- The state after a store to memory that can be written. -/
def Store.apply (s : State) (w : Store) : State := poke s w.c.fc w.sz w.a (w.v.setWidth w.sz.bits)

/-- A store: whether it is taken, and the state after it. -/
def Store.run (s : State) (w : Store) : Bool × State :=
  if w.fails s then (false, s) else writeBus s w.c.fc w.a w.sz.bytes (w.v.setWidth 128) (w.apply s)

/-- Stores in order: those that fail, and the state after the others. One of a locked sequence that fails is the last: the
rest of the sequence is abandoned (49 R432, 60_exceptions R534). -/
def runStores : List Store → State → List Store × State
  | [], s => ([], s)
  | w :: rest, s =>
    let r := w.run s
    if r.1 then runStores rest r.2
    else if w.c.locked then ([w], r.2)
    else
      let q := runStores rest r.2
      (w :: q.1, q.2)

/-- The stores an instruction ends with. Those that fail, up to three, are left to the access-error handler and the others
are done (60_exceptions R519, write fault). A failed store of a locked sequence abandons the instruction (60_exceptions
R534); with more than three the frame owes the first three and the instruction runs again (log 11). -/
def storeAll (ws : List Store) (d : Done) : Exec Done := fun s =>
  if ws.any fun w => !w.fails s && w.stale s then .error (.refuse .staleData) s
  else
    let r := runStores ws s
    match r.1 with
    | [] => .ok d r.2
    | w :: more =>
      if w.c.locked then .error (.restart w.fault) r.2
      else if more.length < 3 then .error (.write w.fault (more.map Store.fault) d) r.2
      else .error (.again w.fault ((more.take 2).map Store.fault)) r.2

/-- A single store. -/
def store (c : Cycle) (sz : Size) (a : Long) (v : BitVec sz.bits) (d : Done) : Exec Done :=
  storeAll [{ c := c, sz := sz, a := a, v := v.setWidth 32 }] d

/-- `MemWrite` as the last act of an instruction: in the current data space. -/
def writeMem (sz : Size) (a : Long) (v : BitVec sz.bits) (d : Done) : Exec Done := fun s =>
  store (normalCycle s.dataFc) sz a v d s

/-! ## The access-error frame (60_exceptions R514 to R533) -/

/-- What is pending in an access-error frame: nothing, a MOVEM with its address, a trace of the instruction at an
address, an unimplemented floating-point instruction with its operand's address (60_exceptions R521 to R523). -/
inductive Continuation where
  | none
  | movem (ea : Long)
  | trace (pc0 : Long)
  | fp (ea : Long)
  deriving DecidableEq, Repr

/-- A field of a frame, in the order of its offsets. -/
structure Field where
  sz : Size
  v : Long
  deriving DecidableEq, Repr

/-- A word of a frame. -/
def wordField (v : Word) : Field := { sz := .word, v := v.setWidth 32 }

/-- A long word of a frame. -/
def longField (v : Long) : Field := { sz := .long, v := v }

/-- The special status word; bits 15, 11, 10, 7 are free, and CT beside CU (60_exceptions R520, R523, 93 U17). -/
def specialStatus (n : Nat) (f : AccessFault) (k : Continuation) : Word :=
  let cu := match k with
    | .fp _ => true
    | _ => false
  let ct := match k with
    | .trace _ => true
    | .fp _ => Config.freeBit (n + 4)
    | _ => false
  let cm := match k with
    | .movem _ => true
    | _ => false
  bit (Config.freeBit n) ++ bit cu ++ bit ct ++ bit cm ++ bit (Config.freeBit (n + 1)) ++ bit (Config.freeBit (n + 2))
    ++ bit f.locked ++ bit f.read ++ bit (Config.freeBit (n + 3)) ++ f.size ++ f.tt ++ f.tm

/-- The effective address field: free without a continuation (60_exceptions R533). -/
def frameEa (n : Nat) : Continuation → Long
  | .none => Config.freeLong n
  | .movem ea => ea
  | .trace pc0 => pc0
  | .fp ea => ea

/-- The status byte of a writeback slot: valid with the owed write's attributes, or with V = 0 and the rest free
(60_exceptions R525, 93 U17). -/
def slotStatus (n : Nat) : Option AccessFault → Word
  | some f => (0 : BitVec 8) ++ bit true ++ (f.size ++ f.tt ++ f.tm : BitVec 7)
  | none => (0 : BitVec 8) ++ bit false ++ ((Config.freeByte n).extractLsb' 0 7 : BitVec 7)

/-- Data as a register holds it; the bits outside the operand are those of `junk`, which the spec does not give
(60_exceptions R527; DESIGN CHOICE, log 15). -/
def registerAligned (junk : Long) (f : AccessFault) : Long :=
  match f.size.toNat with
  | 1 => withLow junk .byte (f.data.setWidth 8)
  | 2 => withLow junk .word (f.data.setWidth 16)
  | _ => f.data

/-- Data aligned as the bus carries it; the lanes outside the operand are those of `junk`, which the spec does not give
(60_exceptions R529; DESIGN CHOICE, log 15). -/
def memoryAligned (junk : Long) (f : AccessFault) : Long :=
  let left : Long := match f.size.toNat with
    | 1 => (f.data.setWidth 8 : Byte) ++ (junk.extractLsb' 0 24 : BitVec 24)
    | 2 => (f.data.setWidth 16 : Word) ++ (junk.extractLsb' 0 16 : BitVec 16)
    | _ => f.data
  left.rotateRight (8 * (f.addr.extractLsb' 0 2 : BitVec 2).toNat)

/-- The slot that records a failed write: 1, 2 or 3 (93 U18, log 15). -/
def slotOf (n : Nat) : Nat :=
  match (Config.freeSlot n).toNat with
  | 0 => 1
  | 1 => 2
  | _ => 3

/-- The slots of the first, the second and the third owed write: a free order of the three. -/
def slotOrder (n : Nat) : List Nat :=
  let others := [1, 2, 3].filter fun i => i != slotOf n
  slotOf n :: if Config.freeBit (n + 7) then others else others.reverse

/-- The owed write that slot `i` records. -/
def slotWrite (n : Nat) (owed : List AccessFault) (i : Nat) : Option AccessFault :=
  (((slotOrder n).zip owed).find? fun p => p.1 == i).map Prod.snd

/-- How many draws one access-error frame takes. -/
def frameDraws : Nat := 32

/-- The fields from offset $08 up. `owed`: the failed writes of operands, up to three, each in a slot of its own
(60_exceptions R519); a failed line write is in PD0 to PD3 with WB1S = 0 (R526). -/
def accessFields (n : Nat) (f : AccessFault) (k : Continuation) (owed : List AccessFault) : List Field :=
  let w (i : Nat) : Option AccessFault := if f.line.isSome then none else slotWrite n owed i
  let addr (i : Nat) (m : Nat) : Long := (w i).elim (Config.freeLong m) AccessFault.addr
  let data (i : Nat) (m : Nat) : Long := (w i).elim (Config.freeLong m) (registerAligned (Config.freeLong m))
  let line := if owed.isEmpty then none else f.line
  [longField (frameEa (n + 1) k),
   wordField (specialStatus (n + 2) f k),
   wordField (slotStatus (n + 6) (w 3)),
   wordField (slotStatus (n + 7) (w 2)),
   wordField (if line.isSome then 0 else slotStatus (n + 8) (w 1)),
   longField f.addr,
   longField (addr 3 (n + 9)), longField (data 3 (n + 10)),
   longField (addr 2 (n + 11)), longField (data 2 (n + 12)),
   longField (if line.isSome then f.addr else addr 1 (n + 13)),
   longField (match line with
     | some l => l[0]
     | none => (w 1).elim (Config.freeLong (n + 14)) (memoryAligned (Config.freeLong (n + 14)))),
   longField (match line with
     | some l => l[1]
     | none => Config.freeLong (n + 15)),
   longField (match line with
     | some l => l[2]
     | none => Config.freeLong (n + 16)),
   longField (match line with
     | some l => l[3]
     | none => Config.freeLong (n + 17))]

/-! ## Taking an exception (60_exceptions R501) -/

/-- How the bus cycles of an exception end: at the handler; with a failed access, in a state whose record of bus cycles
stands; with an odd handler address, the frame being written; with an access the model gives no meaning. -/
inductive Entered where
  | ok (s : State)
  | fault (f : AccessFault) (s : State)
  | odd (s : State) (t : Long)
  | refused (r : Refusal)
  deriving DecidableEq, Repr

/-- The bytes a list of fields takes. -/
def fieldBytes (fs : List Field) : Nat := fs.foldl (fun n f => n + f.sz.bytes) 0

/-- The stores of fields from an address up, in supervisor data space (60_exceptions R504). -/
def fieldStores : Long → List Field → List Store
  | _, [] => []
  | a, f :: rest =>
    { c := normalCycle 5, sz := f.sz, a := a, v := f.v } :: fieldStores (a + BitVec.ofNat 32 f.sz.bytes) rest

/-- Step 3: the frame below the active supervisor stack pointer (60_exceptions R504). -/
def stackFrame (s : State) (fs : List Field) : Entered :=
  let sp := s.sp - BitVec.ofNat 32 (fieldBytes fs)
  let ws := fieldStores sp fs
  match ws.find? (Store.fails s) with
  | some w => .fault w.fault s
  | none =>
    if ws.any (Store.stale s) then .refused .staleData
    else
      let r := runStores ws (s.setSp sp)
      match r.1 with
      | [] => .ok r.2
      | w :: _ => .fault w.fault r.2

/-- The address of a vector: `VBR + 4*n` (60_exceptions R505). -/
def vectorAddress (s : State) (vec : BitVec 8) : Long := s.vbr + 4 * vec.setWidth 32

/-- Step 4: the handler's address from the vector table, read as supervisor data (60_exceptions R505). -/
def jumpVector (s : State) (vec : BitVec 8) : Entered :=
  let a := vectorAddress s vec
  if readFaults s false 5 a 4 then .fault (readFault (normalCycle 5) .long a) s
  else if staleAccess s 5 a 4 then .refused .staleData
  else match readBus s 5 .long a with
    | (none, t) => .fault (readFault (normalCycle 5) .long a) t
    | (some v, t) =>
      let t := afterRead t 5 a 4
      if v.getLsbD 0 then .odd t v else .ok { t with pc := v, stalePipe := [] }

/-- Sequence of the steps of an exception. -/
def Entered.andThen (e : Entered) (f : State → Entered) : Entered :=
  match e with
  | .ok s => f s
  | e => e

/-- The format and vector-offset word at offset 6 (60_exceptions R508). -/
def formatWord (fmt : BitVec 4) (vec : BitVec 8) : Word := fmt ++ (0 : BitVec 2) ++ vec ++ (0 : BitVec 2)

/-- The common fields: SR copy, PC, format word (60_exceptions R508). -/
def commonFields (sr : Word) (p : Long) (fmt : BitVec 4) (vec : BitVec 8) : List Field :=
  [wordField sr, longField p, wordField (formatWord fmt vec)]

/-- `Exception(n, f, p, x)` for every exception but interrupts and reset: SR copied, S set, T cleared, the frame
stacked, the PC loaded (60_exceptions R501). -/
def enter (s : State) (vec : BitVec 8) (fmt : BitVec 4) (p : Long) (extra : List Field) : Entered :=
  (stackFrame { s with sr := srException s.sr, movemEa := none } (commonFields s.sr p fmt vec ++ extra)).andThen
    fun t => jumpVector t vec

/-- The halted state after a double bus fault: memory is not altered (60_exceptions R535). -/
def haltedFrom (s : State) : Out := .next { s with run := .halted }

/-- The outcome of an exception during which a bus or address error is a double bus fault (60_exceptions R535). Whether the
frame of that exception stays in memory where its writes went well and its vector cannot be read or is odd is open: R501 and
92 D16 leave their order free, and R535 says only that the halt does not alter memory. DESIGN CHOICE (log 13, unsafe): the
frame is taken back, so memory is as before that exception; bus cycles that devices answered stay. -/
def Entered.orHalt (e : Entered) (s : State) : Out :=
  match e with
  | .ok t => .next t
  | .refused r => .refused r
  | .fault _ t => haltedFrom { s with bus := t.bus }
  | .odd t _ => haltedFrom { s with bus := t.bus }

/-- AccessError: vector 2, format $7; `owed`: the failed writes left to the handler (60_exceptions R519). -/
def takeAccessError (s : State) (p : Long) (f : AccessFault) (k : Continuation) (owed : List AccessFault) : Out :=
  (enter { s with draws := s.draws + frameDraws } 2 7 p (accessFields s.draws f k owed)).orHalt s

/-- AddressError(t): vector 3, format $2, ADDRESS = t with bit 0 cleared (60_exceptions R536). -/
def takeAddressError (s : State) (pc0 t : Long) : Out :=
  (enter s 3 2 pc0 [longField (t &&& 0xFFFFFFFE)]).orHalt s

/-- The state `s` with what stays when an abandoned computation ended in `t`: the output events and bus cycles that are
done, and the draws taken. -/
def State.undone (s t : State) : State := { s with outputs := t.outputs, bus := t.bus, draws := t.draws }

/-- The outcome of any other exception: a failed access is an access error of the instruction at `pc0` in the state
`before`, an odd handler address an address error (60_exceptions R535, log 13, 35). Whether a failed write of the abandoned
frame stands in a writeback slot is open: R519 and 92 D6 speak of operand writes of completed instructions. DESIGN CHOICE
(log 13, unsafe): it does not; the access-error frame has RW = 0 and no valid slot, since RTE goes on where the exception
comes again. -/
def Entered.orErrors (e : Entered) (before : State) (p pc0 : Long) (k : Continuation) : Out :=
  match e with
  | .ok t => .next t
  | .refused r => .refused r
  | .fault f t => takeAccessError (before.undone t) p f k []
  | .odd t a => takeAddressError t pc0 a

/-- Trace: vector 9, format $2, the PC of the next instruction and the traced instruction's address (60_exceptions
R555). A failed access leaves it pending (R522). DESIGN CHOICE (log 43, unsafe): R535 says only that a fault while its frame
is stacked or its vector is read is an ordinary access error; that its frame has CT set, the address of the traced
instruction in the EA field and the PC past it is the model's. -/
def takeTrace (s : State) (pc0 : Long) : Out :=
  (enter s 9 2 s.pc [longField pc0]).orErrors s s.pc pc0 (.trace pc0)

/-- A traced instruction ends with the trace exception (60_exceptions R552). -/
def traceIf (b : Bool) (pc0 : Long) (s : State) : Out := if b then takeTrace s pc0 else .next s

/-- The exceptions that stack `pc0` in a four-word frame and are not traced (60_exceptions R542, R546, R556, R558). -/
def takePre (before s : State) (vec : BitVec 8) : Out :=
  (enter s vec 0 before.pc []).orErrors before before.pc before.pc .none

/-- The instruction traps: the instruction is complete, `pcn` is stacked, the pointer to the instruction with format $2;
then a trace if the instruction was traced (60_exceptions R537, R556). -/
def takeTrap (before s : State) (pcn : Long) (vec : BitVec 8) (pointer : Bool) : Out :=
  let e := if pointer then enter s vec 2 pcn [longField before.pc] else enter s vec 0 pcn []
  match e with
  | .ok t => traceIf before.traceFlow before.pc t
  | e => e.orErrors before before.pc before.pc .none

/-- UnimplementedFP: vector 11, format $4 with the operand's address and the instruction's (60_exceptions R545). A failed
access leaves it pending with CU set: DESIGN CHOICE (log 43), since R523 and R545 give CU for writebacks that fail, and R535
calls a failed vector read an ordinary access error. -/
def takeFp (before s : State) (next ea : Long) : Out :=
  (enter s 11 4 next [longField ea, longField before.pc]).orErrors s next before.pc (.fp ea)

/-! ## The end of an instruction -/

/-- A completed instruction: the PC, the trace, and for STOP the stopped state (60_exceptions R576, R557). `before` is
the state at its start, `s` the state with all its other effects. -/
def finish (before : State) (pcn : Long) (d : Done) (s : State) : Out :=
  match d with
  | .seq => traceIf before.traceAll before.pc { s with pc := pcn }
  | .sr => traceIf before.traceFlow before.pc { s with pc := pcn, stalePipe := [] }
  | .jump t =>
    if t.getLsbD 0 then takeAddressError s before.pc t
    else traceIf before.traceFlow before.pc { s with pc := t, stalePipe := [] }
  | .stop =>
    if before.traceFlow then takeTrace { s with pc := pcn, stalePipe := [] } before.pc
    else .next { s with pc := pcn, stalePipe := [], run := .stopped }

/-- The PC after a completed instruction. -/
def Done.next (d : Done) (pcn : Long) : Long :=
  match d with
  | .jump t => t
  | _ => pcn

/-- Whether a completed instruction is traced. -/
def Done.traced (d : Done) (before : State) : Bool :=
  match d with
  | .seq => before.traceAll
  | _ => before.traceFlow

/-- An instruction that did not complete in the ordinary way. An abandoned one is undone, an RTE with its throwaway frames
too (log 49). -/
def abort (before : State) (pcn : Long) (e : Abort) (s : State) : Out :=
  match e with
  | .restart f => takeAccessError (before.undone s) before.pc f .none []
  | .write f more d =>
    takeAccessError s (d.next pcn) f (if d.traced before then .trace before.pc else .none) (f :: more)
  | .again f more => takeAccessError s before.pc f .none (f :: more)
  | .movem f ea => takeAccessError s before.pc f (.movem ea) (if f.read then [] else [f])
  | .pre vec => takePre (before.undone s) s vec
  | .trap vec pointer => takeTrap before s pcn vec pointer
  | .fp next ea => takeFp before s next ea
  | .address t => takeAddressError s before.pc t
  | .halt => haltedFrom (before.undone s)
  | .refuse r => .refused r
  | .fault r => .fault r

/-- `pcn`: the address after the instruction (00_scope 5.5). -/
def nextPc (i : Instr) (s : State) : Long := s.pc + BitVec.ofNat 32 i.bytes

/-- An instruction from its body: the body's effects, then how it ends. -/
def complete (i : Instr) (body : Exec Done) (s : State) : Out :=
  match body s with
  | .ok d t => finish s (nextPc i s) d t
  | .error e t => abort s (nextPc i s) e t

end Sys2Proof.Machine
end

