-- ==== Sys2Proof/Machine/Flags.lean ====
section
/-! DEFINITION. Every flag computation that several instructions share, and the conditions (00_scope 5.5, 30_encoding
R165). -/

namespace Sys2Proof.Machine

/-- `add_V(s, d, r)`. -/
def addV {n : Nat} (s d r : BitVec n) : Bool := (msb s && msb d && !msb r) || (!msb s && !msb d && msb r)

/-- `add_C(s, d, r)`. -/
def addC {n : Nat} (s d r : BitVec n) : Bool := (msb s && msb d) || (!msb r && msb d) || (msb s && !msb r)

/-- `sub_V(s, d, r)` for `r = d - s`. -/
def subV {n : Nat} (s d r : BitVec n) : Bool := (!msb s && msb d && !msb r) || (msb s && !msb d && msb r)

/-- `sub_C(s, d, r)` for `r = d - s`: the borrow. -/
def subC {n : Nat} (s d r : BitVec n) : Bool := (msb s && !msb d) || (msb r && !msb d) || (msb s && msb r)

/-- The flags of an addition: X is C (41 R230). -/
def addFlags {n : Nat} (s d r : BitVec n) (_ : Ccr) : Ccr :=
  { x := addC s d r, n := msb r, z := r == 0, v := addV s d r, c := addC s d r }

/-- The flags of a subtraction: X is C (41 R230). -/
def subFlags {n : Nat} (s d r : BitVec n) (_ : Ccr) : Ccr :=
  { x := subC s d r, n := msb r, z := r == 0, v := subV s d r, c := subC s d r }

/-- The flags of a comparison: those of a subtraction, X unchanged (41 R244). -/
def cmpFlags {n : Nat} (s d r : BitVec n) (f : Ccr) : Ccr :=
  { x := f.x, n := msb r, z := r == 0, v := subV s d r, c := subC s d r }

/-- ADDX: Z is only cleared (41 R235). -/
def addxFlags {n : Nat} (s d r : BitVec n) (f : Ccr) : Ccr :=
  { x := addC s d r, n := msb r, z := f.z && r == 0, v := addV s d r, c := addC s d r }

/-- SUBX and NEGX: Z is only cleared (41 R240, R242). -/
def subxFlags {n : Nat} (s d r : BitVec n) (f : Ccr) : Ccr :=
  { x := subC s d r, n := msb r, z := f.z && r == 0, v := subV s d r, c := subC s d r }

/-- `flagsLogic(r)`. -/
def logicFlags {n : Nat} (r : BitVec n) (f : Ccr) : Ccr :=
  { x := f.x, n := msb r, z := r == 0, v := false, c := false }

/-- New condition codes from the old ones. -/
def setFlags (f : Ccr → Ccr) : Exec Unit := change fun s => s.setCcr (f s.ccr)

/-- The condition codes. -/
def getFlags : Exec Ccr := look fun s => s.ccr

/-- `cond(cc)` (30_encoding R165). -/
def condHolds (c : Cond) (f : Ccr) : Bool :=
  match c with
  | .t => true
  | .f => false
  | .hi => !f.c && !f.z
  | .ls => f.c || f.z
  | .cc => !f.c
  | .cs => f.c
  | .ne => !f.z
  | .eq => f.z
  | .vc => !f.v
  | .vs => f.v
  | .pl => !f.n
  | .mi => f.n
  | .ge => (f.n && f.v) || (!f.n && !f.v)
  | .lt => (f.n && !f.v) || (!f.n && f.v)
  | .gt => (f.n && f.v && !f.z) || (!f.n && !f.v && !f.z)
  | .le => f.z || (f.n && !f.v) || (!f.n && f.v)

end Sys2Proof.Machine
end

