-- ==== Sys2Proof/Machine/Operands.lean ====
section
/-! DEFINITION. Every operand form: effective addresses with their register side effects, and reading and writing what an
operand names (30_encoding R150 to R161). -/

namespace Sys2Proof.Machine

/-- The PC value of the PC-relative modes: the address of the mode's first extension word, `own` words after the one that
follows the operation word (30_encoding R157). -/
def pcBase (s : State) (own : Nat) : Long := s.pc + 2 + BitVec.ofNat 32 (2 * own)

/-- How far (An)+ and -(An) move the register: the operand size, but 2 for a byte through the stack pointer
(30_encoding R153). -/
def stepOf (bytes : Nat) (r : Reg) : Long := if bytes = 1 && r == 7 then 2 else BitVec.ofNat 32 bytes

/-- The value of a displacement (30_encoding R156). -/
def Disp.value : Disp → Long
  | .null => 0
  | .word d => sext d
  | .long d => d

/-- The index operand: sized, then scaled (30_encoding R155). -/
def indexValue (s : State) (x : IndexReg) : Long :=
  (if x.long then s.greg x.reg else sext (loWord (s.greg x.reg))) <<< x.scale.toNat

/-- Brief and full extension words: the address from the base register (30_encoding R155, R156). -/
def indexAddress (base : Long) : Index → Exec Long
  | .brief x d8 => look fun s => base + sext d8 + indexValue s x
  | .full x bs is bd ind => do
    let index ← look fun s => if is then 0 else indexValue s x
    let b := (if bs then 0 else base) + Disp.value bd
    match ind with
    | .none => return b + index
    | .pre od => do
      let p ← readMem .long (b + index)
      return p + Disp.value od
    | .post od => do
      let p ← readMem .long b
      return p + index + Disp.value od

/-- `EA_addr(ea, sz)` for an operand of `bytes` bytes whose extension words stand `own` words behind the first one; its
register side effect happens here (30_encoding R153 to R158). Direct and immediate operands have no address. -/
def eaAddress (bytes own : Nat) : Ea → Exec Long
  | .ind r => look fun s => s.areg r
  | .postInc r => do
    let a ← look fun s => s.areg r
    change fun s => s.setAreg r (a + stepOf bytes r)
    return a
  | .preDec r => do
    let a ← look fun s => s.areg r - stepOf bytes r
    change fun s => s.setAreg r a
    return a
  | .disp r d => look fun s => s.areg r + sext d
  | .idx r x => do
    let b ← look fun s => s.areg r
    indexAddress b x
  | .absW v => return sext v
  | .absL v => return v
  | .pcDisp d => look fun s => pcBase s own + sext d
  | .pcIdx x => do
    let b ← look fun s => pcBase s own
    indexAddress b x
  | .dn _ | .an _ | .imm _ => illegalInstruction

/-- The full format without its outer displacement, where the mode has one. -/
def withoutOuter : Index → Option Index
  | .brief _ _ => none
  | .full x bs is bd ind =>
    match ind with
    | .none => none
    | .pre _ => some (.full x bs is bd (.pre .null))
    | .post _ => some (.full x bs is bd (.post .null))

/-- The read of the pointer of a memory-indirect mode, of whose extension words only the first `n` could be had: it comes
before the outer displacement is fetched (30_encoding R156, log 48). -/
def pointerRead (own n : Nat) (e : Ea) : Exec Unit :=
  let early (i : Index) (mk : Index → Ea) : Exec Unit :=
    match withoutOuter i with
    | some j => if j.words.length ≤ n then do
        let _ ← eaAddress 4 own (mk j)
        return ()
      else return ()
    | none => return ()
  match e with
  | .idx r i => early i (.idx r)
  | .pcIdx i => early i .pcIdx
  | _ => return ()

/-- What an operand names once its address is computed. -/
inductive Loc where
  | dreg (r : Reg)
  | areg (r : Reg)
  | mem (a : Long)
  | imm (v : Long)
  deriving DecidableEq, Repr

/-- The place of an operand; the address is computed once (30_encoding R150). -/
def operand (sz : Size) (own : Nat) (e : Ea) : Exec Loc :=
  match e with
  | .dn r => return .dreg r
  | .an r => return .areg r
  | .imm v => return .imm v
  | e => do
    let a ← eaAddress sz.bytes own e
    return .mem a

/-- The value at a place (30_encoding R151, R152, R159, R160). -/
def readLoc (sz : Size) : Loc → Exec (BitVec sz.bits)
  | .dreg r => look fun s => lowPart sz (s.dreg r)
  | .areg r => look fun s => lowPart sz (s.areg r)
  | .mem a => readMem sz a
  | .imm v => return lowPart sz v

/-- A value stored at a place, as the last act of an instruction: a data register keeps the bits above the operand size,
an address register takes the sign-extended value (30_encoding R151, R152, R160). -/
def writeLoc (sz : Size) (l : Loc) (v : BitVec sz.bits) (d : Done) : Exec Done :=
  match l with
  | .dreg r => fun s => .ok d (s.setDreg r (withLow (s.dreg r) sz v))
  | .areg r => fun s => .ok d (s.setAreg r (sext v))
  | .mem a => writeMem sz a v d
  | .imm _ => illegalInstruction

/-- `EA_read(ea, sz)` (30_encoding R160). -/
def readEa (sz : Size) (own : Nat) (e : Ea) : Exec (BitVec sz.bits) := do
  let l ← operand sz own e
  readLoc sz l

/-- `EA_write(ea, sz, v)` (30_encoding R160). -/
def writeEa (sz : Size) (own : Nat) (e : Ea) (v : BitVec sz.bits) : Exec Done := do
  let l ← operand sz own e
  writeLoc sz l v .seq

/-- `EA_rmw(ea, sz, f)`: the address is computed once (30_encoding R160). -/
def rmwEa (sz : Size) (own : Nat) (e : Ea) (f : BitVec sz.bits → Exec (BitVec sz.bits)) : Exec Done := do
  let l ← operand sz own e
  let old ← readLoc sz l
  let v ← f old
  writeLoc sz l v .seq

/-- `D[n][N-1:0]` (00_scope 5.2). -/
def getD (sz : Size) (n : Reg) : Exec (BitVec sz.bits) := look fun s => lowPart sz (s.dreg n)

/-- `D[n][N-1:0] <- v` (00_scope 5.2). -/
def putD (sz : Size) (n : Reg) (v : BitVec sz.bits) : Exec Unit :=
  change fun s => s.setDreg n (withLow (s.dreg n) sz v)

/-- `A[n]`. -/
def getA (n : Reg) : Exec Long := look fun s => s.areg n

/-- `A[n] <- v`. -/
def putA (n : Reg) (v : Long) : Exec Unit := change fun s => s.setAreg n v

/-- The address -(An) gives for a two-register memory form (30_encoding R153). -/
def preDecrement (sz : Size) (r : Reg) : Exec Long := eaAddress sz.bytes 0 (.preDec r)

/-- The address (An)+ gives (30_encoding R153). -/
def postIncrement (sz : Size) (r : Reg) : Exec Long := eaAddress sz.bytes 0 (.postInc r)

/-- The data field of ADDQ, SUBQ and of a shift count: 000 is 8 (41 R234, 43 R290). -/
def quick (q : BitVec 3) : Nat := if q = 0 then 8 else q.toNat

/-- `Push32(v)` as the last act of an instruction (00_scope 5.3). -/
def pushLong (v : Long) (d : Done) : Exec Done := do
  let a ← look fun s => s.sp - 4
  change fun s => s.setSp a
  writeMem .long a v d

/-- `Pop32()` (00_scope 5.3). -/
def popLong : Exec Long := do
  let a ← look fun s => s.sp
  let v ← readMem .long a
  change fun s => s.setSp (a + 4)
  return v

/-- `Pop16()` (00_scope 5.3). -/
def popWord : Exec Word := do
  let a ← look fun s => s.sp
  let v ← readMem .word a
  change fun s => s.setSp (a + 2)
  return v

end Sys2Proof.Machine
end

