-- ==== Sys2Proof/Machine/Shared.lean ====
section
/-! DEFINITION. The shapes several instructions share: two operands and a result, an immediate and an operand, one operand,
the extended forms, comparisons, and 16-byte lines. -/

namespace Sys2Proof.Machine

/-- `<ea>,Dn`: source read, `D[n]` replaced, flags set (41 R231, 42 R271). `f s d` is the result. -/
def eaToD (sz : Size) (n : Reg) (e : Ea) (f : BitVec sz.bits → BitVec sz.bits → BitVec sz.bits)
    (fl : BitVec sz.bits → BitVec sz.bits → BitVec sz.bits → Ccr → Ccr) : Exec Done := do
  let s ← readEa sz 0 e
  let d ← getD sz n
  setFlags (fl s d (f s d))
  putD sz n (f s d)
  return .seq

/-- `Dn,<ea>`: the operand replaced (41 R231, 42 R271, R277). -/
def dToEa (sz : Size) (n : Reg) (e : Ea) (f : BitVec sz.bits → BitVec sz.bits → BitVec sz.bits)
    (fl : BitVec sz.bits → BitVec sz.bits → BitVec sz.bits → Ccr → Ccr) : Exec Done :=
  rmwEa sz 0 e fun d => do
    let s ← getD sz n
    setFlags (fl s d (f s d))
    return f s d

/-- The number of words an immediate takes (30_encoding R143). -/
def immCount : Size → Nat
  | .byte => 1
  | .word => 1
  | .long => 2

/-- `#imm,<ea>`: the operand replaced (41 R233, 42 R272). -/
def immToEa (sz : Size) (imm : Long) (e : Ea) (f : BitVec sz.bits → BitVec sz.bits → BitVec sz.bits)
    (fl : BitVec sz.bits → BitVec sz.bits → BitVec sz.bits → Ccr → Ccr) : Exec Done :=
  rmwEa sz (immCount sz) e fun d => do
    let s := lowPart sz imm
    setFlags (fl s d (f s d))
    return f s d

/-- One operand replaced (41 R241, 42 R280). -/
def onEa (sz : Size) (e : Ea) (f : Ccr → BitVec sz.bits → BitVec sz.bits)
    (fl : BitVec sz.bits → BitVec sz.bits → Ccr → Ccr) : Exec Done :=
  rmwEa sz 0 e fun d => do
    let c ← getFlags
    setFlags (fl d (f c d))
    return f c d

/-- A comparison: flags from `d - s`, nothing stored (41 R244). -/
def compare {n : Nat} (s d : BitVec n) : Exec Done := do
  setFlags (cmpFlags s d (d - s))
  return .seq

/-- The extended two-register forms: data registers, or -(Ay) then -(Ax) (41 R235, R240). `f x s d` is the result. -/
def extended (sz : Size) (mem : Bool) (x y : Reg) (f : Bool → BitVec sz.bits → BitVec sz.bits → BitVec sz.bits)
    (fl : BitVec sz.bits → BitVec sz.bits → BitVec sz.bits → Ccr → Ccr) : Exec Done := do
  let c ← getFlags
  if mem then do
    let s ← readEa sz 0 (.preDec y)
    let a ← preDecrement sz x
    let d ← readMem sz a
    setFlags (fl s d (f c.x s d))
    writeMem sz a (f c.x s d) .seq
  else do
    let s ← getD sz y
    let d ← getD sz x
    setFlags (fl s d (f c.x s d))
    putD sz x (f c.x s d)
    return .seq

/-- One bit as a value of any width. -/
def bitValue (n : Nat) (b : Bool) : BitVec n := (BitVec.ofBool b).setWidth n

/-- The source of an instruction that works on a whole address register: a word is sign-extended (41 R232). -/
def addressSource (sz : SizeWL) (e : Ea) : Exec Long := do
  let v ← readEa sz.size 0 e
  return sext v

/-! ## 16-byte lines (40 R209) -/

/-- A failed access to a line. -/
def lineFault (tt : BitVec 2) (tm : BitVec 3) (read : Bool) (a : Long) (l : Option (Vector Long 4)) : AccessFault :=
  { addr := a, size := 3, read := read, locked := false, tt := tt, tm := tm, data := 0, line := l }

/-- The line at an aligned address of a space. -/
def peekLine (s : State) (fc : BitVec 3) (a : Long) : Vector Long 4 :=
  #v[peek s fc .long a, peek s fc .long (a + 4), peek s fc .long (a + 8), peek s fc .long (a + 12)]

/-- A line as four long words. -/
def longsOf (v : BitVec 128) : Vector Long 4 :=
  #v[v.extractLsb' 96 32, v.extractLsb' 64 32, v.extractLsb' 32 32, v.extractLsb' 0 32]

/-- `MemRead(a, 16)` of MOVE16, with its transfer type (20_memory R83). -/
def readLine (a : Long) : Exec (Vector Long 4) := fun s =>
  if readFaults s false s.dataFc a 16 then .error (.restart (lineFault 1 s.dataFc true a none)) s
  else if staleAccess s s.dataFc a 16 then .error (.refuse .staleData) s
  else if touches s.platform.devices s.dataFc a 16 then
    match deviceCycle s s.dataFc a 16 none with
    | (some v, t) => .ok (longsOf v) (afterRead t s.dataFc a 16)
    | (none, t) => .error (.restart (lineFault 1 s.dataFc true a none)) t
  else .ok (peekLine s s.dataFc a) (afterRead s s.dataFc a 16)

/-- `MemWrite(a, 16, v)` of MOVE16 as its last act; a failed write is in PD0 to PD3 (60_exceptions R526). -/
def writeLine (a : Long) (v : Vector Long 4) (d : Done) : Exec Done := fun s =>
  let fc := s.dataFc
  if writeFaults s fc a 16 then .error (.write (lineFault 1 fc false a (some v)) [] d) s
  else if staleAccess s fc a 16 then .error (.refuse .staleData) s
  else
    let r := writeBus s fc a 16 (v[0] ++ v[1] ++ v[2] ++ v[3]) (poke (poke (poke (poke s fc .long a v[0]) fc .long (a + 4)
      v[1]) fc .long (a + 8) v[2]) fc .long (a + 12) v[3])
    if r.1 then .ok d r.2 else .error (.write (lineFault 1 fc false a (some v)) [] d) r.2

end Sys2Proof.Machine
end

