-- ==== Sys2Proof/Machine/Arithmetic.lean ====
section
/-! DEFINITION. Integer arithmetic instructions (41_integer_arithmetic). -/

namespace Sys2Proof.Machine

/-! ## Addition and subtraction -/

/-- ADD.B <ea>,Dn (41 R231). -/
def execAddEaDnB (dn : Reg) (ea : Ea) (s : State) : Out :=
  complete (.addEaDnB dn ea) (eaToD .byte dn ea (fun s d => d + s) addFlags) s

/-- ADD.W <ea>,Dn (41 R231). -/
def execAddEaDnW (dn : Reg) (ea : Ea) (s : State) : Out :=
  complete (.addEaDnW dn ea) (eaToD .word dn ea (fun s d => d + s) addFlags) s

/-- ADD.L <ea>,Dn (41 R231). -/
def execAddEaDnL (dn : Reg) (ea : Ea) (s : State) : Out :=
  complete (.addEaDnL dn ea) (eaToD .long dn ea (fun s d => d + s) addFlags) s

/-- ADD.B Dn,<ea> (41 R231). -/
def execAddDnEaB (dn : Reg) (ea : Ea) (s : State) : Out :=
  complete (.addDnEaB dn ea) (dToEa .byte dn ea (fun s d => d + s) addFlags) s

/-- ADD.W Dn,<ea> (41 R231). -/
def execAddDnEaW (dn : Reg) (ea : Ea) (s : State) : Out :=
  complete (.addDnEaW dn ea) (dToEa .word dn ea (fun s d => d + s) addFlags) s

/-- ADD.L Dn,<ea> (41 R231). -/
def execAddDnEaL (dn : Reg) (ea : Ea) (s : State) : Out :=
  complete (.addDnEaL dn ea) (dToEa .long dn ea (fun s d => d + s) addFlags) s

/-- SUB.B <ea>,Dn (41 R236). -/
def execSubEaDnB (dn : Reg) (ea : Ea) (s : State) : Out :=
  complete (.subEaDnB dn ea) (eaToD .byte dn ea (fun s d => d - s) subFlags) s

/-- SUB.W <ea>,Dn (41 R236). -/
def execSubEaDnW (dn : Reg) (ea : Ea) (s : State) : Out :=
  complete (.subEaDnW dn ea) (eaToD .word dn ea (fun s d => d - s) subFlags) s

/-- SUB.L <ea>,Dn (41 R236). -/
def execSubEaDnL (dn : Reg) (ea : Ea) (s : State) : Out :=
  complete (.subEaDnL dn ea) (eaToD .long dn ea (fun s d => d - s) subFlags) s

/-- SUB.B Dn,<ea> (41 R236). -/
def execSubDnEaB (dn : Reg) (ea : Ea) (s : State) : Out :=
  complete (.subDnEaB dn ea) (dToEa .byte dn ea (fun s d => d - s) subFlags) s

/-- SUB.W Dn,<ea> (41 R236). -/
def execSubDnEaW (dn : Reg) (ea : Ea) (s : State) : Out :=
  complete (.subDnEaW dn ea) (dToEa .word dn ea (fun s d => d - s) subFlags) s

/-- SUB.L Dn,<ea> (41 R236). -/
def execSubDnEaL (dn : Reg) (ea : Ea) (s : State) : Out :=
  complete (.subDnEaL dn ea) (dToEa .long dn ea (fun s d => d - s) subFlags) s

/-- ADDI (41 R233). -/
def execAddi (sz : Size) (imm : Long) (ea : Ea) (s : State) : Out :=
  complete (.addi sz imm ea) (immToEa sz imm ea (fun s d => d + s) addFlags) s

/-- SUBI (41 R238). -/
def execSubi (sz : Size) (imm : Long) (ea : Ea) (s : State) : Out :=
  complete (.subi sz imm ea) (immToEa sz imm ea (fun s d => d - s) subFlags) s

/-- ADDA: the whole address register, no flags (41 R232). -/
def execAdda (sz : SizeWL) (an : Reg) (ea : Ea) (s : State) : Out :=
  complete (.adda sz an ea) (do
    let v ← addressSource sz ea
    change fun s => s.setAreg an (s.areg an + v)
    return .seq) s

/-- SUBA: the whole address register, no flags (41 R237). -/
def execSuba (sz : SizeWL) (an : Reg) (ea : Ea) (s : State) : Out :=
  complete (.suba sz an ea) (do
    let v ← addressSource sz ea
    change fun s => s.setAreg an (s.areg an - v)
    return .seq) s

/-- ADDQ: to an address register all 32 bits and no flags (41 R234). -/
def execAddq (sz : Size) (q : BitVec 3) (ea : Ea) (s : State) : Out :=
  complete (.addq sz q ea) (
    match ea with
    | .an r => do
      change fun s => s.setAreg r (s.areg r + BitVec.ofNat 32 (quick q))
      return .seq
    | ea => rmwEa sz 0 ea fun d => do
      let v : BitVec sz.bits := BitVec.ofNat sz.bits (quick q)
      setFlags (addFlags v d (d + v))
      return d + v) s

/-- SUBQ: to an address register all 32 bits and no flags (41 R239). -/
def execSubq (sz : Size) (q : BitVec 3) (ea : Ea) (s : State) : Out :=
  complete (.subq sz q ea) (
    match ea with
    | .an r => do
      change fun s => s.setAreg r (s.areg r - BitVec.ofNat 32 (quick q))
      return .seq
    | ea => rmwEa sz 0 ea fun d => do
      let v : BitVec sz.bits := BitVec.ofNat sz.bits (quick q)
      setFlags (subFlags v d (d - v))
      return d - v) s

/-- ADDX (41 R235). -/
def execAddx (sz : Size) (mem : Bool) (x y : Reg) (s : State) : Out :=
  complete (.addx sz mem x y) (extended sz mem x y (fun x s d => d + s + bitValue sz.bits x) addxFlags) s

/-- SUBX (41 R240). -/
def execSubx (sz : Size) (mem : Bool) (x y : Reg) (s : State) : Out :=
  complete (.subx sz mem x y) (extended sz mem x y (fun x s d => d - s - bitValue sz.bits x) subxFlags) s

/-- The flags of NEG (41 R241). -/
def negFlags {n : Nat} (d r : BitVec n) (_ : Ccr) : Ccr :=
  { x := r != 0, n := msb r, z := r == 0, v := msb d && msb r, c := r != 0 }

/-- NEG (41 R241). -/
def execNeg (sz : Size) (ea : Ea) (s : State) : Out :=
  complete (.neg sz ea) (onEa sz ea (fun _ d => 0 - d) negFlags) s

/-- The flags of NEGX: Z is only cleared (41 R242). -/
def negxFlags {n : Nat} (d r : BitVec n) (f : Ccr) : Ccr :=
  { x := msb d || msb r, n := msb r, z := f.z && r == 0, v := msb d && msb r, c := msb d || msb r }

/-- NEGX (41 R242). -/
def execNegx (sz : Size) (ea : Ea) (s : State) : Out :=
  complete (.negx sz ea) (onEa sz ea (fun f d => 0 - d - bitValue sz.bits f.x) negxFlags) s

/-- CLR: the operand is not read (41 R243). -/
def execClr (sz : Size) (ea : Ea) (s : State) : Out :=
  complete (.clr sz ea) (do
    let l ← operand sz 0 ea
    setFlags fun f => { f with n := false, z := true, v := false, c := false }
    writeLoc sz l 0 .seq) s

/-! ## Comparisons -/

/-- CMP.B (41 R244). -/
def execCmpB (dn : Reg) (ea : Ea) (s : State) : Out :=
  complete (.cmpB dn ea) (do
    let v ← readEa .byte 0 ea
    let d ← getD .byte dn
    compare v d) s

/-- CMP.W (41 R244). -/
def execCmpW (dn : Reg) (ea : Ea) (s : State) : Out :=
  complete (.cmpW dn ea) (do
    let v ← readEa .word 0 ea
    let d ← getD .word dn
    compare v d) s

/-- CMP.L (41 R244). -/
def execCmpL (dn : Reg) (ea : Ea) (s : State) : Out :=
  complete (.cmpL dn ea) (do
    let v ← readEa .long 0 ea
    let d ← getD .long dn
    compare v d) s

/-- CMPA: 32 bits, a word source sign-extended (41 R245). -/
def execCmpa (sz : SizeWL) (an : Reg) (ea : Ea) (s : State) : Out :=
  complete (.cmpa sz an ea) (do
    let v ← addressSource sz ea
    let d ← getA an
    compare v d) s

/-- CMPI (41 R246). -/
def execCmpi (sz : Size) (imm : Long) (ea : Ea) (s : State) : Out :=
  complete (.cmpi sz imm ea) (do
    let d ← readEa sz (immCount sz) ea
    compare (lowPart sz imm) d) s

/-- CMPM (41 R247). -/
def execCmpm (sz : Size) (x y : Reg) (s : State) : Out :=
  complete (.cmpm sz x y) (do
    let v ← readEa sz 0 (.postInc y)
    let d ← readEa sz 0 (.postInc x)
    compare v d) s

/-- The flags of CMP2 and CHK2 on values of one width: Z and C by the rule, N and V free, and C free when the bounds are
ordered neither as signed nor as unsigned numbers (41 R248, 93 U3, U10; log 25). -/
def boundFlags {n : Nat} (v lo hi : BitVec n) : Exec Unit := do
  let fn ← drawBit
  let fv ← drawBit
  let fc ← if lo.sle hi || lo.ule hi then pure ((hi - lo).ult (v - lo)) else drawBit
  setFlags fun f => { f with n := fn, z := v == lo || v == hi, v := fv, c := fc }

/-- The comparison of CMP2 and CHK2: an address register is compared in 32 bits with sign-extended bounds (41 R248). -/
def compareBounds (sz : Size) (rn : GReg) (ea : Ea) : Exec Unit := do
  let a ← eaAddress sz.bytes 1 ea
  let lo ← readMem sz a
  let hi ← readMem sz (a + BitVec.ofNat 32 sz.bytes)
  let v ← look fun s => s.greg rn
  if rn.getLsbD 3 then boundFlags v (sext lo) (sext hi) else boundFlags (lowPart sz v) lo hi

/-- CMP2 (41 R248). -/
def execCmp2 (sz : Size) (rn : GReg) (ea : Ea) (s : State) : Out :=
  complete (.cmp2 sz rn ea) (do
    compareBounds sz rn ea
    return .seq) s

/-! ## Sign extension -/

/-- `D[n]` sign-extended from `n` bits to the operand size, with the flags of the result (41 R249 to R251). -/
def extend (src dst : Size) (dn : Reg) : Exec Done := do
  let v ← getD src dn
  let r := v.signExtend dst.bits
  putD dst dn r
  setFlags (logicFlags r)
  return .seq

/-- EXT.W (41 R249). -/
def execExtW (dn : Reg) (s : State) : Out := complete (.extW dn) (extend .byte .word dn) s

/-- EXT.L (41 R250). -/
def execExtL (dn : Reg) (s : State) : Out := complete (.extL dn) (extend .word .long dn) s

/-- EXTB.L (41 R251). -/
def execExtbL (dn : Reg) (s : State) : Out := complete (.extbL dn) (extend .byte .long dn) s

/-! ## Multiplication -/

/-- A 16 by 16 multiplication (41 R252, R253). -/
def multiplyWord (dn : Reg) (ea : Ea) (widen : Word → Long) : Exec Done := do
  let v ← readEa .word 0 ea
  let d ← getD .word dn
  let r := widen d * widen v
  putD .long dn r
  setFlags (logicFlags r)
  return .seq

/-- MULU.W (41 R252). -/
def execMuluW (dn : Reg) (ea : Ea) (s : State) : Out :=
  complete (.muluW dn ea) (multiplyWord dn ea (fun v => v.setWidth 32)) s

/-- MULS.W (41 R253). -/
def execMulsW (dn : Reg) (ea : Ea) (s : State) : Out :=
  complete (.mulsW dn ea) (multiplyWord dn ea (fun v => v.signExtend 32)) s

/-- A 32 by 32 multiplication: V tells a product the 32-bit form does not hold; in the 64-bit form Dh = Dl is refused
(41 R254, R255, 93 U11). -/
def multiplyLong (dl dh : Reg) (wide : Bool) (ea : Ea) (widen : Long → BitVec 64) : Exec Done := do
  if wide && dl == dh then refuse .mulDivSameRegister
  else do
    let v ← readEa .long 1 ea
    let d ← getD .long dl
    let p := widen v * widen d
    let l : Long := p.extractLsb' 0 32
    if wide then do
      putD .long dh (p.extractLsb' 32 32)
      putD .long dl l
      setFlags (logicFlags p)
    else do
      putD .long dl l
      setFlags fun f => { f with n := msb l, z := l == 0, v := p != widen l, c := false }
    return .seq

/-- MULU.L (41 R254). -/
def execMuluL (dl dh : Reg) (wide : Bool) (ea : Ea) (s : State) : Out :=
  complete (.muluL dl dh wide ea) (multiplyLong dl dh wide ea (fun v => v.setWidth 64)) s

/-- MULS.L (41 R255). -/
def execMulsL (dl dh : Reg) (wide : Bool) (ea : Ea) (s : State) : Out :=
  complete (.mulsL dl dh wide ea) (multiplyLong dl dh wide ea (fun v => v.signExtend 64)) s

/-! ## Division -/

/-- ZeroDivide: C cleared, N, Z and V free, nothing else changed (41 R256, 60_exceptions R541). -/
def zeroDivide : Exec Done := do
  let n ← drawBit
  let z ← drawBit
  let v ← drawBit
  setFlags fun f => { f with n := n, z := z, v := v, c := false }
  throw (.trap 5 true)

/-- A quotient that does not fit: V set, C cleared, N and Z free, the registers unchanged (41 R256, log 26). -/
def divideOverflow : Exec Done := do
  let n ← drawBit
  let z ← drawBit
  setFlags fun f => { f with n := n, z := z, v := true, c := false }
  return .seq

/-- A 32 by 16 division of a dividend and a divisor that is not zero, exact in the integers: remainder and quotient share
`D[n]` (41 R256, R257). -/
def divideWord (dn : Reg) (quo rem : Int) (fits : Bool) : Exec Done := do
  if !fits then divideOverflow
  else do
    let q : Word := BitVec.ofInt 16 quo
    putD .long dn ((BitVec.ofInt 16 rem : Word) ++ q)
    setFlags (logicFlags q)
    return .seq

/-- DIVU.W (41 R256). -/
def execDivuW (dn : Reg) (ea : Ea) (s : State) : Out :=
  complete (.divuW dn ea) (do
    let v ← readEa .word 0 ea
    if v = 0 then zeroDivide
    else do
      let d ← getD .long dn
      let q := d.toNat / v.toNat
      divideWord dn q (d.toNat % v.toNat : Nat) (decide (q < 2 ^ 16))) s

/-- DIVS.W: truncating toward zero (41 R257). -/
def execDivsW (dn : Reg) (ea : Ea) (s : State) : Out :=
  complete (.divsW dn ea) (do
    let v ← readEa .word 0 ea
    if v = 0 then zeroDivide
    else do
      let d ← getD .long dn
      let q := d.toInt.tdiv v.toInt
      divideWord dn q (d.toInt.tmod v.toInt) (decide (-2 ^ 15 ≤ q ∧ q < 2 ^ 15))) s

/-- The results of a long division: the remainder goes to Dr when it is another register (41 R258). -/
def divideLong (dq dr : Reg) (quo rem : Int) (fits : Bool) : Exec Done := do
  if !fits then divideOverflow
  else do
    let q : Long := BitVec.ofInt 32 quo
    if dr == dq then pure () else putD .long dr (BitVec.ofInt 32 rem)
    putD .long dq q
    setFlags (logicFlags q)
    return .seq

/-- The dividend of a long division: Dr and Dq in the 64-bit form (41 R258). -/
def dividend (dq dr : Reg) (s : State) : BitVec 64 := s.dreg dr ++ s.dreg dq

/-- DIVU.L and DIVUL.L; the 64-bit form with Dr = Dq is refused (41 R258, 93 U11). -/
def execDivuL (dq dr : Reg) (wide : Bool) (ea : Ea) (s : State) : Out :=
  complete (.divuL dq dr wide ea) (do
    if wide && dq == dr then refuse .mulDivSameRegister
    else do
      let v ← readEa .long 1 ea
      if v = 0 then zeroDivide
      else do
        let d ← look fun s => if wide then (dividend dq dr s).toNat else (s.dreg dq).toNat
        let q := d / v.toNat
        divideLong dq dr q (d % v.toNat : Nat) (decide (q < 2 ^ 32))) s

/-- DIVS.L and DIVSL.L; the 64-bit form with Dr = Dq is refused (41 R259, 93 U11). -/
def execDivsL (dq dr : Reg) (wide : Bool) (ea : Ea) (s : State) : Out :=
  complete (.divsL dq dr wide ea) (do
    if wide && dq == dr then refuse .mulDivSameRegister
    else do
      let v ← readEa .long 1 ea
      if v = 0 then zeroDivide
      else do
        let d ← look fun s => if wide then (dividend dq dr s).toInt else (s.dreg dq).toInt
        let q := d.tdiv v.toInt
        divideLong dq dr q (d.tmod v.toInt) (decide (-2 ^ 31 ≤ q ∧ q < 2 ^ 31))) s

end Sys2Proof.Machine
end

