-- ==== Sys2Proof/Machine/Bcd.lean ====
section
/-! DEFINITION. Binary-coded-decimal instructions (46_bcd). -/

namespace Sys2Proof.Machine

/-- Both digits are 0 to 9 (46 R340). -/
def isBcd (b : Byte) : Bool := decide ((b.extractLsb' 4 4).toNat < 10) && decide ((b.extractLsb' 0 4).toNat < 10)

/-- `val(b)` (46 R340). -/
def bcdValue (b : Byte) : Nat := 10 * (b.extractLsb' 4 4).toNat + (b.extractLsb' 0 4).toNat

/-- A number below 100 as two digits (46 R341). -/
def toBcd (t : Nat) : Byte := BitVec.ofNat 4 (t / 10) ++ BitVec.ofNat 4 (t % 10)

/-- The result of a decimal operation whose exact value is `t`: carry or borrow to C and X, Z only cleared, N and V free;
without decimal operands the byte, C and X are free as well, each by itself; Z is then that of the free byte, the model's
choice (46 R340 to R343, 93 U3, U12; log 24). -/
def bcdResult (ok : Bool) (t : Int) : Exec Byte := do
  let n ← drawBit
  let v ← drawBit
  let r ← if ok then pure (toBcd (t % 100).toNat) else drawByte
  let c ← if ok then pure (decide (t < 0) || decide (99 < t)) else drawBit
  let x ← if ok then pure c else drawBit
  setFlags fun f => { x := x, n := n, z := f.z && r == 0, v := v, c := c }
  return r

/-- X as a number. -/
def Ccr.extend (f : Ccr) : Int := if f.x then 1 else 0

/-- The two-operand decimal forms: data registers, or -(Ay) then -(Ax) (46 R341, R342). -/
def decimal (mem : Bool) (x y : Reg) (f : Int → Int → Int → Int) : Exec Done := do
  let c ← getFlags
  if mem then do
    let s ← readEa .byte 0 (.preDec y)
    let a ← preDecrement .byte x
    let d ← readMem .byte a
    let r ← bcdResult (isBcd s && isBcd d) (f (bcdValue s) (bcdValue d) c.extend)
    writeMem .byte a r .seq
  else do
    let s ← getD .byte y
    let d ← getD .byte x
    let r ← bcdResult (isBcd s && isBcd d) (f (bcdValue s) (bcdValue d) c.extend)
    putD .byte x r
    return .seq

/-- ABCD (46 R341). -/
def execAbcd (mem : Bool) (x y : Reg) (s : State) : Out :=
  complete (.abcd mem x y) (decimal mem x y (fun s d x => d + s + x)) s

/-- SBCD (46 R342). -/
def execSbcd (mem : Bool) (x y : Reg) (s : State) : Out :=
  complete (.sbcd mem x y) (decimal mem x y (fun s d x => d - s - x)) s

/-- NBCD (46 R343). -/
def execNbcd (ea : Ea) (s : State) : Out :=
  complete (.nbcd ea) (rmwEa .byte 0 ea fun d => do
    let c ← getFlags
    bcdResult (isBcd d) (0 - bcdValue d - c.extend)) s

/-- The memory forms of PACK and UNPK are refused with A7 (93 U12). -/
def packForm (mem : Bool) (x y : Reg) (m : Exec Done) : Exec Done :=
  if mem && (x == 7 || y == 7) then refuse .packA7 else m

/-- An address register moved down, and its new value (46 R344). -/
def moveDown (r : Reg) (n : Long) : Exec Long := do
  let a ← look fun s => s.areg r - n
  putA r a
  return a

/-- The byte PACK makes: the low nibbles of the two bytes (46 R344). -/
def packed (t : Word) : Byte := (t.extractLsb' 8 4 : BitVec 4) ++ (t.extractLsb' 0 4 : BitVec 4)

/-- PACK (46 R344). -/
def execPack (mem : Bool) (x y : Reg) (adj : Word) (s : State) : Out :=
  complete (.pack mem x y adj) (packForm mem x y (
    if mem then do
      let a ← moveDown y 2
      let h ← readMem .byte a
      let l ← readMem .byte (a + 1)
      let b ← moveDown x 1
      writeMem .byte b (packed ((h ++ l) + adj)) .seq
    else do
      let v ← getD .word y
      putD .byte x (packed (v + adj))
      return .seq)) s

/-- The word UNPK makes before the adjustment (46 R345). -/
def unpacked (b : Byte) : Word :=
  (0 : BitVec 4) ++ (b.extractLsb' 4 4 : BitVec 4) ++ (0 : BitVec 4) ++ (b.extractLsb' 0 4 : BitVec 4)

/-- UNPK (46 R345). -/
def execUnpk (mem : Bool) (x y : Reg) (adj : Word) (s : State) : Out :=
  complete (.unpk mem x y adj) (packForm mem x y (
    if mem then do
      let a ← moveDown y 1
      let v ← readMem .byte a
      let t := unpacked v + adj
      let b ← moveDown x 2
      let c ← look fun s => normalCycle s.dataFc
      storeAll [{ c := c, sz := .byte, a := b, v := (t.extractLsb' 8 8 : Byte).setWidth 32 },
        { c := c, sz := .byte, a := b + 1, v := (t.extractLsb' 0 8 : Byte).setWidth 32 }] .seq
    else do
      let v ← getD .byte y
      putD .word x (unpacked v + adj)
      return .seq)) s

end Sys2Proof.Machine
end

