-- ==== Sys2Proof/Machine/BitField.lean ====
section
/-! DEFINITION. Bit-field instructions (45_bit_field). A field is held in the low bits of a long word, its width beside it. -/

namespace Sys2Proof.Machine

/-- The offset as used for a memory operand: 0 to 31, or the register's signed value (45 R320). -/
def bfOffset (s : State) : BfArg → Long
  | .imm v => v.setWidth 32
  | .reg r => s.dreg r

/-- The width, 1 to 32: 0 means 32 (45 R320). -/
def bfWidth (s : State) (a : BfArg) : Nat :=
  let n := match a with
    | .imm v => v.toNat
    | .reg r => (s.dreg r).toNat % 32
  if n = 0 then 32 else n

/-- The `w` top bits of a value as a number. -/
def topBits {k : Nat} (v : BitVec k) (w : Nat) : Long := (v >>> (k - w)).setWidth 32

/-- A value whose `w` top bits are replaced by a field. -/
def withTopBits {k : Nat} (v : BitVec k) (w : Nat) (field : Long) : BitVec k :=
  (field.setWidth k <<< (k - w)) ||| (v &&& (BitVec.allOnes k >>> w))

/-- The flags of a field (45 R320). -/
def fieldFlags (w : Nat) (field : Long) (f : Ccr) : Ccr :=
  { f with n := field.getLsbD (w - 1), z := field == 0, v := false, c := false }

/-- How many bytes a field takes in memory, 1 to 5 (45 R320). -/
def fieldSpan (bo w : Nat) : Nat := (bo + w + 7) / 8

/-- The bytes of a field, the first at the top of 40 bits; read as one or two accesses (45 R320, log 17). -/
def readSpan (n : Nat) (a : Long) : Exec (BitVec 40) :=
  match n with
  | 1 => do
    let b ← readMem .byte a
    return b ++ (0 : BitVec 32)
  | 2 => do
    let w ← readMem .word a
    return w ++ (0 : BitVec 24)
  | 3 => do
    let w ← readMem .word a
    let b ← readMem .byte (a + 2)
    return w ++ b ++ (0 : BitVec 16)
  | 4 => do
    let l ← readMem .long a
    return l ++ (0 : BitVec 8)
  | _ => do
    let l ← readMem .long a
    let b ← readMem .byte (a + 4)
    return l ++ b

/-- The stores that write the bytes of a field back (log 17). -/
def spanStores (c : Cycle) (n : Nat) (a : Long) (v : BitVec 40) : List Store :=
  let byte (k : Nat) : Long := (v.extractLsb' (32 - 8 * k) 8 : Byte).setWidth 32
  match n with
  | 1 => [{ c := c, sz := .byte, a := a, v := byte 0 }]
  | 2 => [{ c := c, sz := .word, a := a, v := (v.extractLsb' 24 16 : Word).setWidth 32 }]
  | 3 => [{ c := c, sz := .word, a := a, v := (v.extractLsb' 24 16 : Word).setWidth 32 },
          { c := c, sz := .byte, a := a + 2, v := byte 2 }]
  | 4 => [{ c := c, sz := .long, a := a, v := v.extractLsb' 8 32 }]
  | _ => [{ c := c, sz := .long, a := a, v := v.extractLsb' 8 32 }, { c := c, sz := .byte, a := a + 4, v := byte 4 }]

/-- A field found: the value that holds it with its first bit on top, its width, the offset as used, and where it is: in a
data register rotated, or in bytes from an address. -/
structure Found where
  field : Long
  width : Nat
  offset : Long
  bits : BitVec 40
  place : Loc
  deriving DecidableEq, Repr

/-- The field of an instruction (45 R320). -/
def findField (bf : BitField) (ea : Ea) : Exec Found := do
  let w ← look fun s => bfWidth s bf.width
  let o ← look fun s => bfOffset s bf.offset
  match ea with
  | .dn r => do
    let v ← getD .long r
    let o := o &&& 31
    let t := v.rotateLeft o.toNat
    return { field := topBits t w, width := w, offset := o, bits := t.setWidth 40, place := .dreg r }
  | ea => do
    let a ← eaAddress 1 1 ea
    let base := a + o.sshiftRight 3
    let bo := o.toNat % 8
    let v ← readSpan (fieldSpan bo w) base
    return { field := topBits (v <<< bo) w, width := w, offset := o, bits := v, place := .mem base }

/-- The place with another field, the bits outside unchanged (45 R320). -/
def putField (t : Found) (v : Long) : Exec Done :=
  match t.place with
  | .dreg r => do
    putD .long r ((withTopBits (t.bits.setWidth 32 : Long) t.width v).rotateRight t.offset.toNat)
    return .seq
  | .mem a => do
    let bo := t.offset.toNat % 8
    let c ← look fun s => normalCycle s.dataFc
    storeAll (spanStores c (fieldSpan bo t.width) a
      ((withTopBits (t.bits.rotateLeft bo) t.width v).rotateRight bo)) .seq
  | _ => illegalInstruction

/-- The low `w` bits of a value. -/
def lowBits (w : Nat) (v : Long) : Long := v &&& (BitVec.allOnes 32 >>> (32 - w))

/-- A field tested, then changed (45 R325 to R327). -/
def modifyField (bf : BitField) (ea : Ea) (f : Long → Long) : Exec Done := do
  let t ← findField bf ea
  setFlags (fieldFlags t.width t.field)
  putField t (lowBits t.width (f t.field))

/-- A field tested, and a register loaded from it (45 R322 to R324). -/
def extractField (dn : Reg) (bf : BitField) (ea : Ea) (f : Found → Long) : Exec Done := do
  let t ← findField bf ea
  setFlags (fieldFlags t.width t.field)
  putD .long dn (f t)
  return .seq

/-- A field sign-extended (45 R323). -/
def signedField (t : Found) : Long := (t.field <<< (32 - t.width)).sshiftRight (32 - t.width)

/-- The number of zeros before the first one of a field, or its width (45 R324). -/
def firstOne (w : Nat) (field : Long) : Nat := ((List.range w).find? fun i => field.getLsbD (w - 1 - i)).getD w

/-- BFTST (45 R321). -/
def execBftst (bf : BitField) (ea : Ea) (s : State) : Out :=
  complete (.bftst bf ea) (do
    let t ← findField bf ea
    setFlags (fieldFlags t.width t.field)
    return .seq) s

/-- BFEXTU (45 R322). -/
def execBfextu (dn : Reg) (bf : BitField) (ea : Ea) (s : State) : Out :=
  complete (.bfextu dn bf ea) (extractField dn bf ea (fun t => t.field)) s

/-- BFEXTS (45 R323). -/
def execBfexts (dn : Reg) (bf : BitField) (ea : Ea) (s : State) : Out :=
  complete (.bfexts dn bf ea) (extractField dn bf ea signedField) s

/-- BFFFO (45 R324). -/
def execBfffo (dn : Reg) (bf : BitField) (ea : Ea) (s : State) : Out :=
  complete (.bfffo dn bf ea)
    (extractField dn bf ea (fun t => t.offset + BitVec.ofNat 32 (firstOne t.width t.field))) s

/-- BFCHG (45 R325). -/
def execBfchg (bf : BitField) (ea : Ea) (s : State) : Out :=
  complete (.bfchg bf ea) (modifyField bf ea (fun v => ~~~v)) s

/-- BFCLR (45 R326). -/
def execBfclr (bf : BitField) (ea : Ea) (s : State) : Out :=
  complete (.bfclr bf ea) (modifyField bf ea (fun _ => 0)) s

/-- BFSET (45 R327). -/
def execBfset (bf : BitField) (ea : Ea) (s : State) : Out :=
  complete (.bfset bf ea) (modifyField bf ea (fun _ => 0xFFFFFFFF)) s

/-- BFINS: flags from the inserted value (45 R328). -/
def execBfins (dn : Reg) (bf : BitField) (ea : Ea) (s : State) : Out :=
  complete (.bfins dn bf ea) (do
    let t ← findField bf ea
    let d ← getD .long dn
    setFlags (fieldFlags t.width (lowBits t.width d))
    putField t (lowBits t.width d)) s

end Sys2Proof.Machine
end

