-- ==== Sys2Proof/Machine/Bits.lean ====
section
/-! DEFINITION. Bit manipulation instructions (44_bit_manipulation). -/

namespace Sys2Proof.Machine

/-- Z is the complement of the tested bit (44 R310). -/
def testBit {w : Nat} (v : BitVec w) (n : Nat) : Exec Unit := setFlags fun f => { f with z := !v.getLsbD (n % w) }

/-- A bit test: 32 bits of a data register, else a byte (44 R310). -/
def bitTest (own : Nat) (ea : Ea) (n : Nat) : Exec Done :=
  match ea with
  | .dn r => do
    let v ← getD .long r
    testBit v n
    return .seq
  | ea => do
    let v ← readEa .byte own ea
    testBit v n
    return .seq

/-- A bit test and change: `f v m` changes the bit that is set in `m` (44 R310). -/
def bitModify (own : Nat) (ea : Ea) (n : Nat) (f : {w : Nat} → BitVec w → BitVec w → BitVec w) : Exec Done :=
  match ea with
  | .dn r => do
    let v ← getD .long r
    testBit v n
    putD .long r (f v (BitVec.twoPow 32 (n % 32)))
    return .seq
  | ea => rmwEa .byte own ea fun v => do
    testBit v n
    return f v (BitVec.twoPow 8 (n % 8))

/-- The bit number of a dynamic form (44 R310). -/
def bitNumber (dn : Reg) : Exec Nat := look fun s => (s.dreg dn).toNat

/-- BTST with a static bit number (44 R311). -/
def execBtstImm (n : Byte) (ea : Ea) (s : State) : Out := complete (.btstImm n ea) (bitTest 1 ea n.toNat) s

/-- BTST with a bit number in a register (44 R311). -/
def execBtstReg (dn : Reg) (ea : Ea) (s : State) : Out :=
  complete (.btstReg dn ea) (do
    let n ← bitNumber dn
    bitTest 0 ea n) s

/-- BCHG with a static bit number (44 R312). -/
def execBchgImm (n : Byte) (ea : Ea) (s : State) : Out :=
  complete (.bchgImm n ea) (bitModify 1 ea n.toNat (fun v m => v ^^^ m)) s

/-- BCHG with a bit number in a register (44 R312). -/
def execBchgReg (dn : Reg) (ea : Ea) (s : State) : Out :=
  complete (.bchgReg dn ea) (do
    let n ← bitNumber dn
    bitModify 0 ea n (fun v m => v ^^^ m)) s

/-- BCLR with a static bit number (44 R313). -/
def execBclrImm (n : Byte) (ea : Ea) (s : State) : Out :=
  complete (.bclrImm n ea) (bitModify 1 ea n.toNat (fun v m => v &&& ~~~m)) s

/-- BCLR with a bit number in a register (44 R313). -/
def execBclrReg (dn : Reg) (ea : Ea) (s : State) : Out :=
  complete (.bclrReg dn ea) (do
    let n ← bitNumber dn
    bitModify 0 ea n (fun v m => v &&& ~~~m)) s

/-- BSET with a static bit number (44 R314). -/
def execBsetImm (n : Byte) (ea : Ea) (s : State) : Out :=
  complete (.bsetImm n ea) (bitModify 1 ea n.toNat (fun v m => v ||| m)) s

/-- BSET with a bit number in a register (44 R314). -/
def execBsetReg (dn : Reg) (ea : Ea) (s : State) : Out :=
  complete (.bsetReg dn ea) (do
    let n ← bitNumber dn
    bitModify 0 ea n (fun v m => v ||| m)) s

end Sys2Proof.Machine
end

