-- ==== Sys2Proof/Machine/Control.lean ====
section
/-! DEFINITION. Program control instructions (47_program_control). -/

namespace Sys2Proof.Machine

/-- The value of a branch displacement (47 R351). -/
def BranchDisp.value : BranchDisp → Long
  | .byte d => sext d
  | .word d => sext d
  | .long d => d

/-- `pc0 + 2 + disp` (47 R351). -/
def branchTarget (s : State) (d : Long) : Long := s.pc + 2 + d

/-- Bcc: an odd target is an address error whether or not the branch is taken (47 R351). -/
def execBcc (c : Cond) (d : BranchDisp) (s : State) : Out :=
  complete (.bcc c d) (do
    let t ← look fun s => branchTarget s (BranchDisp.value d)
    let f ← getFlags
    if t.getLsbD 0 then throw (.address t)
    else if condHolds c f then return .jump t
    else return .seq) s

/-- BRA (47 R352). -/
def execBra (d : BranchDisp) (s : State) : Out :=
  complete (.bra d) (do
    let t ← look fun s => branchTarget s (BranchDisp.value d)
    return .jump t) s

/-- BSR: the return address is pushed even when the target is odd (47 R353, R350). -/
def execBsr (d : BranchDisp) (s : State) : Out :=
  complete (.bsr d) (do
    let t ← look fun s => branchTarget s (BranchDisp.value d)
    let p ← look (nextPc (.bsr d))
    pushLong p (.jump t)) s

/-- DBcc; an odd displacement that does not branch is refused (47 R354, 93 U13). -/
def execDbcc (c : Cond) (dn : Reg) (d : Word) (s : State) : Out :=
  complete (.dbcc c dn d) (do
    let t ← look fun s => branchTarget s (sext d)
    let f ← getFlags
    if condHolds c f then
      if t.getLsbD 0 then refuse .dbccOddNotTaken else return .seq
    else do
      let v ← getD .word dn
      putD .word dn (v - 1)
      if v - 1 != 0xFFFF then return .jump t
      else if t.getLsbD 0 then refuse .dbccOddNotTaken
      else return .seq) s

/-- Scc: the destination is not read (47 R355). -/
def execScc (c : Cond) (ea : Ea) (s : State) : Out :=
  complete (.scc c ea) (do
    let f ← getFlags
    writeEa .byte 0 ea (if condHolds c f then 0xFF else 0)) s

/-- JMP (47 R356). -/
def execJmp (ea : Ea) (s : State) : Out :=
  complete (.jmp ea) (do
    let t ← eaAddress 4 0 ea
    return .jump t) s

/-- JSR: the target is computed before the push (47 R357). -/
def execJsr (ea : Ea) (s : State) : Out :=
  complete (.jsr ea) (do
    let t ← eaAddress 4 0 ea
    let p ← look (nextPc (.jsr ea))
    pushLong p (.jump t)) s

/-- RTS (47 R358). -/
def execRts (s : State) : Out :=
  complete .rts (do
    let t ← popLong
    return .jump t) s

/-- RTD (47 R359). -/
def execRtd (d : Word) (s : State) : Out :=
  complete (.rtd d) (do
    let t ← popLong
    change fun s => s.setSp (s.sp + sext d)
    return .jump t) s

/-- RTR: only the condition codes are restored (47 R360). -/
def execRtr (s : State) : Out :=
  complete .rtr (do
    let w ← popWord
    setFlags fun _ => ccrOf w
    let t ← popLong
    return .jump t) s

/-- TST (47 R361). -/
def execTst (sz : Size) (ea : Ea) (s : State) : Out :=
  complete (.tst sz ea) (do
    let v ← readEa sz 0 ea
    setFlags (logicFlags v)
    return .seq) s

/-- NOP: every write is done at once, so it only advances the PC (47 R366). -/
def execNop (s : State) : Out := complete .nop (return .seq) s

end Sys2Proof.Machine
end

