-- ==== Sys2Proof/Machine/DataMovement.lean ====
section
/-! DEFINITION. Data movement instructions (40_data_movement). -/

namespace Sys2Proof.Machine

/-- The destination's side effect changes the address register that is the source (93 U8). -/
def aliased (src dst : Ea) : Bool :=
  match src, dst with
  | .an r, .postInc q => r == q
  | .an r, .preDec q => r == q
  | _, _ => false

/-- MOVE (40 R201): the source is evaluated before the destination; where the destination's mode changes the source
register, the value is free between the old and the new one (30_encoding R161, log 23). -/
def execMove (sz : Size) (src dst : Ea) (s : State) : Out :=
  complete (.move sz src dst) (do
    let old ← readEa sz 0 src
    let l ← operand sz (src.words sz).length dst
    let v ← if aliased src dst then do
        let b ← drawBit
        let new ← readEa sz 0 src
        pure (if b then new else old)
      else pure old
    setFlags (logicFlags v)
    writeLoc sz l v .seq) s

/-- MOVEA (40 R202). -/
def execMovea (sz : SizeWL) (an : Reg) (src : Ea) (s : State) : Out :=
  complete (.movea sz an src) (do
    let v ← addressSource sz src
    putA an v
    return .seq) s

/-- MOVEQ (40 R203). -/
def execMoveq (dn : Reg) (d : Byte) (s : State) : Out :=
  complete (.moveq dn d) (do
    putD .long dn (sext d)
    setFlags (logicFlags (sext d))
    return .seq) s

/-! ## MOVEM (40 R204, R205) -/

/-- A read inside a MOVEM: its access error keeps what is loaded and the address (60_exceptions R521). -/
def movemRead (ea : Long) (sz : Size) (a : Long) : Exec (BitVec sz.bits) := fun s =>
  match readMem sz a s with
  | .error (.restart f) t => .error (.movem f ea) t
  | r => r

/-- A write inside a MOVEM (60_exceptions R521). -/
def movemWrite (ea : Long) (sz : Size) (a : Long) (v : BitVec sz.bits) : Exec Unit := fun s =>
  match writeMem sz a v .seq s with
  | .ok _ t => .ok () t
  | .error (.write f _ _) t => .error (.movem f ea) t
  | .error e t => .error e t

/-- The registers a mask selects, R[0] first (40 R204). -/
def maskRegs (mask : Word) : List GReg :=
  ((List.range 16).filter fun i => mask.getLsbD i).map fun i => BitVec.ofNat 4 i

/-- The registers of the reversed mask of -(An): R[15 - i] for bit i (40 R204). -/
def maskRegsReversed (mask : Word) : List GReg :=
  ((List.range 16).filter fun i => mask.getLsbD i).map fun i => BitVec.ofNat 4 (15 - i)

/-- The address of a MOVEM: the one saved by an access error when the mode is PC relative or indexed (60_exceptions
R521). The saved address serves one instruction. A bus error on the pointer that a memory-indirect mode reads comes before
there is an address to save: the instruction is abandoned as by any read, with CM = 0 (DESIGN CHOICE, log 12). -/
def movemAddress (sz : Size) (e : Ea) : Exec Long := do
  let saved ← look fun s => s.movemEa
  change fun s => { s with movemEa := none }
  match saved, e.kind with
  | some a, .idx => return a
  | some a, .pcDisp => return a
  | some a, .pcIdx => return a
  | _, _ => eaAddress sz.bytes 1 e

/-- Registers stored upward. -/
def movemStore (ea : Long) (sz : Size) : List GReg → Long → Exec Unit
  | [], _ => return ()
  | r :: rest, a => do
    let v ← look fun s => lowPart sz (s.greg r)
    movemWrite ea sz a v
    movemStore ea sz rest (a + BitVec.ofNat 32 sz.bytes)

/-- Registers stored downward through -(An): the base register is stored as its initial value less the size. -/
def movemStoreDown (ea : Long) (sz : Size) (base : GReg) : List GReg → Long → Exec Long
  | [], a => return a
  | r :: rest, a => do
    let v ← look fun s => s.greg r - (if r == base then BitVec.ofNat 32 sz.bytes else 0)
    let a := a - BitVec.ofNat 32 sz.bytes
    movemWrite ea sz a (lowPart sz v)
    movemStoreDown ea sz base rest a

/-- The base register of the modes that compute their address again when the MOVEM restarts: a fault must find it as it
was (60_exceptions R521, log 12). -/
def movemBase : Ea → Option GReg
  | .ind r => some ((1 : BitVec 1) ++ r)
  | .postInc r => some ((1 : BitVec 1) ++ r)
  | .disp r _ => some ((1 : BitVec 1) ++ r)
  | _ => none

/-- Registers loaded upward; a word is sign-extended. The register `base` takes its value, `held`, when every read is done.
Gives the address behind the last one. -/
def movemLoad (ea : Long) (sz : Size) (base : Option GReg) : List GReg → Long → Option Long → Exec Long
  | [], a, held => do
    match base, held with
    | some r, some v => change fun s => s.setGreg r v
    | _, _ => pure ()
    return a
  | r :: rest, a, held => do
    let v ← movemRead ea sz a
    if base == some r then movemLoad ea sz base rest (a + BitVec.ofNat 32 sz.bytes) (some (sext v))
    else do
      change fun s => s.setGreg r (sext v)
      movemLoad ea sz base rest (a + BitVec.ofNat 32 sz.bytes) held

/-- MOVEM registers to memory (40 R204). -/
def execMovemToMem (sz : SizeWL) (mask : Word) (ea : Ea) (s : State) : Out :=
  complete (.movemToMem sz mask ea) (do
    match ea with
    | .preDec r => do
      change fun s => { s with movemEa := none }
      let a ← getA r
      let a ← movemStoreDown a sz.size ((1 : BitVec 1) ++ r) (maskRegsReversed mask) a
      putA r a
    | ea => do
      let a ← movemAddress sz.size ea
      movemStore a sz.size (maskRegs mask) a
    return .seq) s

/-- MOVEM memory to registers (40 R205). -/
def execMovemToReg (sz : SizeWL) (mask : Word) (ea : Ea) (s : State) : Out :=
  complete (.movemToReg sz mask ea) (do
    match ea with
    | .postInc r => do
      change fun s => { s with movemEa := none }
      let a ← getA r
      let a ← movemLoad a sz.size (movemBase ea) (maskRegs mask) a none
      putA r a
    | ea => do
      let a ← movemAddress sz.size ea
      let _ ← movemLoad a sz.size (movemBase ea) (maskRegs mask) a none
    return .seq) s

/-! ## MOVEP (40 R206) -/

/-- One byte of a MOVEP store. -/
def movepByte (s : State) (a : Long) (v : Byte) : Store :=
  { c := normalCycle s.dataFc, sz := .byte, a := a, v := v.setWidth 32 }

/-- MOVEP (40 R206). -/
def execMovep (op : MovepOp) (dx ay : Reg) (d : Word) (s : State) : Out :=
  complete (.movep op dx ay d) (do
    let a ← look fun s => s.areg ay + sext d
    match op with
    | .wordToReg => do
      let h ← readMem .byte a
      let l ← readMem .byte (a + 2)
      putD .word dx (h ++ l)
      return .seq
    | .longToReg => do
      let b0 ← readMem .byte a
      let b1 ← readMem .byte (a + 2)
      let b2 ← readMem .byte (a + 4)
      let b3 ← readMem .byte (a + 6)
      putD .long dx (b0 ++ b1 ++ b2 ++ b3)
      return .seq
    | .wordToMem => do
      let v ← getD .long dx
      let w ← look movepByte
      storeAll [w a (v.extractLsb' 8 8), w (a + 2) (v.extractLsb' 0 8)] .seq
    | .longToMem => do
      let v ← getD .long dx
      let w ← look movepByte
      storeAll [w a (v.extractLsb' 24 8), w (a + 2) (v.extractLsb' 16 8), w (a + 4) (v.extractLsb' 8 8),
        w (a + 6) (v.extractLsb' 0 8)] .seq) s

/-- LEA (40 R207). -/
def execLea (an : Reg) (ea : Ea) (s : State) : Out :=
  complete (.lea an ea) (do
    let a ← eaAddress 4 0 ea
    putA an a
    return .seq) s

/-- PEA (40 R208). -/
def execPea (ea : Ea) (s : State) : Out :=
  complete (.pea ea) (do
    let a ← eaAddress 4 0 ea
    pushLong a .seq) s

/-! ## MOVE16 (40 R209) -/

/-- The line of an address: the low four bits are ignored (92 D24). -/
def lineAddress (a : Long) : Long := a &&& 0xFFFFFFF0

/-- MOVE16 with an absolute address (40 R209). -/
def execMove16Abs (op : Move16Op) (ay : Reg) (addr : Long) (s : State) : Out :=
  complete (.move16Abs op ay addr) (do
    let a ← getA ay
    match op with
    | .postIncToAbs => do
      let v ← readLine (lineAddress a)
      putA ay (a + 16)
      writeLine (lineAddress addr) v .seq
    | .absToPostInc => do
      let v ← readLine (lineAddress addr)
      putA ay (a + 16)
      writeLine (lineAddress a) v .seq
    | .indToAbs => do
      let v ← readLine (lineAddress a)
      writeLine (lineAddress addr) v .seq
    | .absToInd => do
      let v ← readLine (lineAddress addr)
      writeLine (lineAddress a) v .seq) s

/-- MOVE16 (Ax)+,(Ay)+ (40 R209); with x = y it is refused (93 U9). -/
def execMove16Pi (ax ay : Reg) (s : State) : Out :=
  complete (.move16Pi ax ay) (do
    if ax == ay then refuse .move16SameRegister
    else do
      let a ← getA ax
      let b ← getA ay
      let v ← readLine (lineAddress a)
      putA ax (a + 16)
      putA ay (b + 16)
      writeLine (lineAddress b) v .seq) s

/-! ## EXG (40 R210) -/

/-- Two registers exchanged. -/
def exchange (x y : GReg) : Exec Done := do
  let a ← look fun s => s.greg x
  let b ← look fun s => s.greg y
  change fun s => (s.setGreg x b).setGreg y a
  return .seq

/-- EXG Dx,Dy (40 R210). -/
def execExgDD (x y : Reg) (s : State) : Out :=
  complete (.exgDD x y) (exchange ((0 : BitVec 1) ++ x) ((0 : BitVec 1) ++ y)) s

/-- EXG Ax,Ay (40 R210). -/
def execExgAA (x y : Reg) (s : State) : Out :=
  complete (.exgAA x y) (exchange ((1 : BitVec 1) ++ x) ((1 : BitVec 1) ++ y)) s

/-- EXG Dx,Ay (40 R210). -/
def execExgDA (x y : Reg) (s : State) : Out :=
  complete (.exgDA x y) (exchange ((0 : BitVec 1) ++ x) ((1 : BitVec 1) ++ y)) s

/-! ## LINK and UNLK (40 R211, R212) -/

/-- LINK: An pushed, the frame pointer set, the stack pointer moved; A7 is refused (93 U9). -/
def link (an : Reg) (d : Long) : Exec Done := do
  if an == 7 then refuse .linkA7
  else do
    let v ← getA an
    let sp ← look fun s => s.sp - 4
    putA an sp
    change fun s => s.setSp (sp + d)
    writeMem .long sp v .seq

/-- LINK.W (40 R211). -/
def execLinkW (an : Reg) (d : Word) (s : State) : Out := complete (.linkW an d) (link an (sext d)) s

/-- LINK.L (40 R211). -/
def execLinkL (an : Reg) (d : Long) (s : State) : Out := complete (.linkL an d) (link an d) s

/-- UNLK (40 R212); A7 is refused (93 U9). -/
def execUnlk (an : Reg) (s : State) : Out :=
  complete (.unlk an) (do
    if an == 7 then refuse .unlkA7
    else do
      let a ← getA an
      let v ← readMem .long a
      change fun s => s.setSp (a + 4)
      putA an v
      return .seq) s

end Sys2Proof.Machine
end

