-- ==== Sys2Proof/Machine/Logical.lean ====
section
/-! DEFINITION. Logical instructions (42_logical). -/

namespace Sys2Proof.Machine

/-- The flags of a logical operation from its result (42 R270). -/
def logicResult {n : Nat} (_ _ r : BitVec n) (f : Ccr) : Ccr := logicFlags r f

/-- AND.B <ea>,Dn (42 R271). -/
def execAndEaDnB (dn : Reg) (ea : Ea) (s : State) : Out :=
  complete (.andEaDnB dn ea) (eaToD .byte dn ea (fun s d => d &&& s) logicResult) s

/-- AND.W <ea>,Dn (42 R271). -/
def execAndEaDnW (dn : Reg) (ea : Ea) (s : State) : Out :=
  complete (.andEaDnW dn ea) (eaToD .word dn ea (fun s d => d &&& s) logicResult) s

/-- AND.L <ea>,Dn (42 R271). -/
def execAndEaDnL (dn : Reg) (ea : Ea) (s : State) : Out :=
  complete (.andEaDnL dn ea) (eaToD .long dn ea (fun s d => d &&& s) logicResult) s

/-- AND.B Dn,<ea> (42 R271). -/
def execAndDnEaB (dn : Reg) (ea : Ea) (s : State) : Out :=
  complete (.andDnEaB dn ea) (dToEa .byte dn ea (fun s d => d &&& s) logicResult) s

/-- AND.W Dn,<ea> (42 R271). -/
def execAndDnEaW (dn : Reg) (ea : Ea) (s : State) : Out :=
  complete (.andDnEaW dn ea) (dToEa .word dn ea (fun s d => d &&& s) logicResult) s

/-- AND.L Dn,<ea> (42 R271). -/
def execAndDnEaL (dn : Reg) (ea : Ea) (s : State) : Out :=
  complete (.andDnEaL dn ea) (dToEa .long dn ea (fun s d => d &&& s) logicResult) s

/-- ANDI (42 R272). -/
def execAndi (sz : Size) (imm : Long) (ea : Ea) (s : State) : Out :=
  complete (.andi sz imm ea) (immToEa sz imm ea (fun s d => d &&& s) logicResult) s

/-- OR.B <ea>,Dn (42 R274). -/
def execOrEaDnB (dn : Reg) (ea : Ea) (s : State) : Out :=
  complete (.orEaDnB dn ea) (eaToD .byte dn ea (fun s d => d ||| s) logicResult) s

/-- OR.W <ea>,Dn (42 R274). -/
def execOrEaDnW (dn : Reg) (ea : Ea) (s : State) : Out :=
  complete (.orEaDnW dn ea) (eaToD .word dn ea (fun s d => d ||| s) logicResult) s

/-- OR.L <ea>,Dn (42 R274). -/
def execOrEaDnL (dn : Reg) (ea : Ea) (s : State) : Out :=
  complete (.orEaDnL dn ea) (eaToD .long dn ea (fun s d => d ||| s) logicResult) s

/-- OR.B Dn,<ea> (42 R274). -/
def execOrDnEaB (dn : Reg) (ea : Ea) (s : State) : Out :=
  complete (.orDnEaB dn ea) (dToEa .byte dn ea (fun s d => d ||| s) logicResult) s

/-- OR.W Dn,<ea> (42 R274). -/
def execOrDnEaW (dn : Reg) (ea : Ea) (s : State) : Out :=
  complete (.orDnEaW dn ea) (dToEa .word dn ea (fun s d => d ||| s) logicResult) s

/-- OR.L Dn,<ea> (42 R274). -/
def execOrDnEaL (dn : Reg) (ea : Ea) (s : State) : Out :=
  complete (.orDnEaL dn ea) (dToEa .long dn ea (fun s d => d ||| s) logicResult) s

/-- ORI (42 R275). -/
def execOri (sz : Size) (imm : Long) (ea : Ea) (s : State) : Out :=
  complete (.ori sz imm ea) (immToEa sz imm ea (fun s d => d ||| s) logicResult) s

/-- EOR.B Dn,<ea> (42 R277). -/
def execEorB (dn : Reg) (ea : Ea) (s : State) : Out :=
  complete (.eorB dn ea) (dToEa .byte dn ea (fun s d => d ^^^ s) logicResult) s

/-- EOR.W Dn,<ea> (42 R277). -/
def execEorW (dn : Reg) (ea : Ea) (s : State) : Out :=
  complete (.eorW dn ea) (dToEa .word dn ea (fun s d => d ^^^ s) logicResult) s

/-- EOR.L Dn,<ea> (42 R277). -/
def execEorL (dn : Reg) (ea : Ea) (s : State) : Out :=
  complete (.eorL dn ea) (dToEa .long dn ea (fun s d => d ^^^ s) logicResult) s

/-- EORI (42 R278). -/
def execEori (sz : Size) (imm : Long) (ea : Ea) (s : State) : Out :=
  complete (.eori sz imm ea) (immToEa sz imm ea (fun s d => d ^^^ s) logicResult) s

/-- NOT (42 R280). -/
def execNot (sz : Size) (ea : Ea) (s : State) : Out :=
  complete (.not sz ea) (onEa sz ea (fun _ d => ~~~d) (fun _ r => logicFlags r)) s

/-- The condition codes combined with bits 4-0 of an immediate (42 R273). -/
def immToCcr (imm : Byte) (f : BitVec 5 → BitVec 5 → BitVec 5) : Exec Done := do
  setFlags fun c => ccrOf ((f c.bits (imm.extractLsb' 0 5)).setWidth 16)
  return .seq

/-- ANDI to CCR (42 R273). -/
def execAndiCcr (imm : Byte) (s : State) : Out :=
  complete (.andiCcr imm) (immToCcr imm (fun c v => c &&& v)) s

/-- ORI to CCR (42 R276). -/
def execOriCcr (imm : Byte) (s : State) : Out :=
  complete (.oriCcr imm) (immToCcr imm (fun c v => c ||| v)) s

/-- EORI to CCR (42 R279). -/
def execEoriCcr (imm : Byte) (s : State) : Out :=
  complete (.eoriCcr imm) (immToCcr imm (fun c v => c ^^^ v)) s

end Sys2Proof.Machine
end

