-- ==== Sys2Proof/Machine/Multi.lean ====
section
/-! DEFINITION. Indivisible read-modify-write and cache maintenance (49_multiprocessor_and_cache). -/

namespace Sys2Proof.Machine

/-! ## TAS, CAS, CAS2 -/

/-- An access of a locked sequence (20_memory R97). -/
def lockedCycle (fc : BitVec 3) : Cycle := { fc := fc, tt := 0, tm := fc, locked := true }

/-- TAS: flags from the byte before bit 7 is set (49 R430). -/
def execTas (ea : Ea) (s : State) : Out :=
  complete (.tas ea) (
    match ea with
    | .dn r => do
      let v ← getD .byte r
      setFlags (logicFlags v)
      putD .byte r (v ||| 0x80)
      return .seq
    | ea => do
      let a ← eaAddress 1 0 ea
      let c ← look fun s => lockedCycle s.dataFc
      let v ← readCycle c .byte a
      setFlags (logicFlags v)
      store c .byte a (v ||| 0x80) .seq) s

/-- CAS: the write of the old value ends a failed sequence (49 R431). -/
def execCas (sz : Size) (dc du : Reg) (ea : Ea) (s : State) : Out :=
  complete (.cas sz dc du ea) (do
    let a ← eaAddress sz.bytes 1 ea
    let cy ← look fun s => lockedCycle s.dataFc
    let d ← readCycle cy sz a
    let c ← getD sz dc
    setFlags (cmpFlags c d (d - c))
    if d - c = 0 then do
      let u ← getD sz du
      store cy sz a u .seq
    else do
      putD sz dc d
      store cy sz a d .seq) s

/-- CAS2; Dc1 = Dc2 is refused (49 R432, 93 U14). -/
def execCas2 (sz : SizeWL) (o1 o2 : Cas2Operand) (s : State) : Out :=
  complete (.cas2 sz o1 o2) (do
    if o1.dc == o2.dc then refuse .cas2SameCompare
    else do
      let a1 ← look fun s => s.greg o1.rn
      let a2 ← look fun s => s.greg o2.rn
      let cy ← look fun s => lockedCycle s.dataFc
      let d1 ← readCycle cy sz.size a1
      let d2 ← readCycle cy sz.size a2
      let c1 ← getD sz.size o1.dc
      let c2 ← getD sz.size o2.dc
      setFlags (if d1 - c1 = 0 then cmpFlags c2 d2 (d2 - c2) else cmpFlags c1 d1 (d1 - c1))
      if d1 - c1 = 0 ∧ d2 - c2 = 0 then do
        let u1 ← getD sz.size o1.du
        let u2 ← getD sz.size o2.du
        storeAll [{ c := cy, sz := sz.size, a := a1, v := u1.setWidth 32 },
          { c := cy, sz := sz.size, a := a2, v := u2.setWidth 32 }] .seq
      else do
        putD sz.size o1.dc d1
        putD sz.size o2.dc d2
        store cy sz.size a1 d1 .seq) s

/-! ## CINV and CPUSH (49 R435 to R437; log 8, 9, 10) -/

/-- The selector names the data cache. -/
def selectsData : CacheSel → Bool
  | .data => true
  | .both => true
  | _ => false

/-- The selector names the instruction cache. -/
def selectsInstr : CacheSel → Bool
  | .instr => true
  | .both => true
  | _ => false

/-- A cache after lines of a scope were invalidated: wholly, it is empty, and may fill at once if it is in use. -/
def afterInvalidate (scope : CacheScope) (on : Bool) (c : CacheState) : CacheState :=
  match scope with
  | .all => if on then .live else .empty
  | _ => c

/-- The instruction cache's lines of a scope are invalidated; the pipe may still hold words of them while that cache is in use
(20_memory R125). -/
def invalidateInstr (s : State) (scope : CacheScope) (a : Long) : State :=
  { s with
    icache := afterInvalidate scope (icacheOn s) s.icache
    staleInstr := s.staleInstr.filter fun k => !inScope scope a k
    stalePipe := if icacheOn s then addKeys (s.staleInstr.filter (inScope scope a)) s.stalePipe else s.stalePipe }

/-- What of a data cache never wholly invalidated is known to be invalid, with the lines of a scope (70_reset R632). -/
def afterPurge (s : State) (scope : CacheScope) (a : Long) : List (CacheScope × Long) :=
  match scope with
  | .all => []
  | _ => if s.dcache == .unknown then (scope, a) :: s.purged else s.purged

/-- The lines of a scope have left the data cache; the keys `ks` have changed in memory behind the instruction side. -/
def withoutLines (s : State) (scope : CacheScope) (a : Long) (ks : List Nat) : State :=
  { s with
    dcache := afterInvalidate scope (dcacheOn s) s.dcache
    purged := afterPurge s scope a
    dirty := s.dirty.filter fun c => !inScope scope a c.1
    romCells := s.romCells.filter fun c => !inScope scope a c.1
    staleData := s.staleData.filter fun k => !inScope scope a k
    staleInstr := addStaleInstr s ks
    stalePipe := addKeys ks s.stalePipe
    draws := s.draws + 1 }

/-- The data cache's lines of a scope are invalidated: what memory holds of each dirty byte, the current value or an older
one, is what the program sees from then on (49 R436, 93 U15). Memory changes only where the program saw a byte through the cache
and a record differs; elsewhere nothing visible changes. -/
def invalidateData (s : State) (scope : CacheScope) (a : Long) : State :=
  let hit := s.dirty.filter fun c => inScope scope a c.1
  { withoutLines s scope a (if seesCache s then changing s hit else []) with
    mem := if seesCache s then putAll s.mem (heldBytes s.draws s.mem hit) else s.mem }

/-- CINV (49 R436). Bytes stored in copyback mode stay `unpushed`: R641 of 70_reset asks for a CPUSH before they are
fetched. -/
def execCinv (sel : CacheSel) (scope : CacheScope) (an : Reg) (s : State) : Out :=
  complete (.cinv sel scope an) (do
    needSupervisor
    let a ← getA an
    if selectsData sel then change fun s => invalidateData s scope a
    if selectsInstr sel then change fun s => invalidateInstr s scope a
    return .seq) s

/-- The address of a line. -/
def lineStart (l : Nat) : Long := BitVec.ofNat 32 (16 * l)

/-- The push of a line ends in TEA (49 R437); the platform sees a supervisor data write (log 10). -/
def pushFails (s : State) (l : Nat) : Bool := (addrsOf (lineStart l) 16).any fun x => busErrorAt s 5 x true

/-- The platform drops a write of this byte: it stands in read-only memory (log 47). -/
def romKey (s : State) (k : Nat) : Bool := touches s.platform.roms 5 (BitVec.ofNat 32 k) 1

/-- Memory once the lines of the dirty bytes `hit` are pushed: their bytes, but for read-only memory, which keeps what it
holds; a byte whose store was dropped in one space may take its value by the push in supervisor data space (49 R437, log 10,
47). -/
def pushedMemory (s : State) (hit : List Host.Cell) : List Host.Cell :=
  let fromRom := (romHeld s hit).filter fun c => !romKey s c.1
  if seesCache s then putAll s.mem (heldBytes s.draws s.mem (hit.filter fun c => romKey s c.1) ++ fromRom)
  else putAll s.mem ((hit.filter fun c => !romKey s c.1) ++ fromRom)

/-- The data cache's lines of a scope are pushed if dirty and invalidated (49 R437). The CINV and the change of flow that R125
of 20_memory asks for come after the CPUSH: an `unpushed` byte becomes one that the instruction side may hold in an old form, as
does every byte whose memory the push may change, and no other. -/
def pushData (s : State) (scope : CacheScope) (a : Long) : State :=
  let hit := s.dirty.filter fun c => inScope scope a c.1
  let ks := changing s (hit ++ (romHeld s hit).filter fun c => !romKey s c.1)
  { withoutLines s scope a (addKeys (s.unpushed.filter (inScope scope a)) ks) with
    mem := pushedMemory s hit
    unpushed := s.unpushed.filter fun k => !inScope scope a k }

/-- A line alone has left the data cache and memory has not taken it: memory keeps some value it had (49 R437, log 10). -/
def dropLine (s : State) (l : Nat) : State :=
  let bad := s.dirty.filter fun c => lineOf c.1 == l
  let ks := if seesCache s then changing s bad else []
  { s with
    dirty := s.dirty.filter fun c => lineOf c.1 != l
    romCells := s.romCells.filter fun c => lineOf c.1 != l
    staleData := s.staleData.filter fun k => lineOf k != l
    staleInstr := addStaleInstr s ks
    stalePipe := addKeys ks s.stalePipe
    mem := if seesCache s then putAll s.mem (heldBytes s.draws s.mem bad) else s.mem
    draws := s.draws + 1 }

/-- The bytes of a line as the cache holds them, as four long words. -/
def lineData (s : State) (l : Nat) : Vector Long 4 :=
  let hit := s.dirty.filter fun c => lineOf c.1 == l
  let m := putAll s.mem ((if seesCache s then [] else hit) ++ romHeld s hit)
  Vector.ofFn fun i =>
    Memory.get m (16 * l + 4 * i) ++ Memory.get m (16 * l + 4 * i + 1) ++ Memory.get m (16 * l + 4 * i + 2)
      ++ Memory.get m (16 * l + 4 * i + 3)

/-- The failed push of a line (60_exceptions R526, R532): transfer type normal, modifier 000. -/
def pushFault (s : State) (l : Nat) : AccessFault :=
  { addr := lineStart l, size := 3, read := false, locked := false, tt := 0, tm := 0, data := 0,
    line := some (lineData s l) }

/-- The push of a line that does not reach memory: it ends in TEA, or a device of the platform answers it (92 D4, log 10).
The access error if there is one, and the state without the line. -/
def pushAway (s : State) (l : Nat) : Option AccessFault × State :=
  if pushFails s l then (some (pushFault s l), dropLine s l)
  else
    let v := lineData s l
    let r := deviceCycle s 5 (lineStart l) 16 (some (v[0] ++ v[1] ++ v[2] ++ v[3]))
    (if r.1.isSome then none else some (pushFault s l), dropLine r.2 l)

/-- Such pushes in order, up to the first that fails: its access error, with whether it is the last of them. -/
def pushesAway : List Nat → State → Option (AccessFault × Bool) × State
  | [], s => (none, s)
  | l :: rest, s =>
    match pushAway s l with
    | (none, t) => pushesAway rest t
    | (some f, t) => (some (f, rest.isEmpty), t)

/-- The lines of dirty bytes whose push does not reach memory; none on a platform without TEA and devices. The spec leaves
open when the cache writes a dirty line back by itself (20_memory R106, R110), and so whether such a line is still dirty at a
CPUSH. DESIGN CHOICE (log 10, unsafe): every recorded line is still dirty, so that its push, with its access error or device
cycle, always comes. -/
def linesAway (s : State) (hit : List Host.Cell) : List Nat :=
  if s.platform.errors.isEmpty && s.platform.devices.isEmpty then []
  else (linesOf hit).filter fun l => pushFails s l || touches s.platform.devices 5 (lineStart l) 16

/-- CPUSH on selected lines: pushes, then invalidation in both caches. A failed push is an access error with the line in the
frame. With other pushes to follow that may fail, that line is taken out of the cache and the instruction runs again; the
order of the pushes is the model's: those that do not reach memory come first, as `linesOf` has them (DESIGN CHOICE,
log 11). -/
def pushCaches (data instr : Bool) (scope : CacheScope) (a : Long) : Exec Unit := fun s =>
  let after (t : State) : State := if instr then invalidateInstr t scope a else t
  if data then
    let s := withPowerOn s scope a
    match pushesAway (linesAway s (s.dirty.filter fun c => inScope scope a c.1)) s with
    | (none, t) => .ok () (after (pushData t scope a))
    | (some (f, true), t) => .error (.write f [] .seq) (after (pushData t scope a))
    | (some (f, false), t) => .error (.again f []) t
  else .ok () (after s)

/-- CPUSH (49 R437). -/
def execCpush (sel : CacheSel) (scope : CacheScope) (an : Reg) (s : State) : Out :=
  complete (.cpush sel scope an) (do
    needSupervisor
    let a ← getA an
    pushCaches (selectsData sel) (selectsInstr sel) scope a
    return .seq) s

end Sys2Proof.Machine
end

