-- ==== Sys2Proof/Machine/Shift.lean ====
section
/-! DEFINITION. Shift and rotate instructions (43_shift_rotate). -/

namespace Sys2Proof.Machine

/-- What a shift gives: the result and the condition codes, from the count, the old codes and the operand. -/
abbrev ShiftOp := {w : Nat} → Nat → Ccr → BitVec w → BitVec w × Ccr

/-- `bit(d, i)`, 0 outside the operand (43 R290). -/
def bitOf {w : Nat} (d : BitVec w) (i : Int) : Bool := if i < 0 then false else d.getLsbD i.toNat

/-- A count of 0: the operand unchanged, N and Z from it, V and C cleared, X unchanged (43 R290). -/
def shiftNone {w : Nat} (f : Ccr) (d : BitVec w) : BitVec w × Ccr := (d, logicFlags d f)

/-- The result of a shift whose last bit out is `c`, copied to X (43 R291). -/
def shiftOut {w : Nat} (r : BitVec w) (v c : Bool) : BitVec w × Ccr :=
  (r, { x := c, n := msb r, z := r == 0, v := v, c := c })

/-- The result of a rotate: X is not involved (43 R295). -/
def rotateOut {w : Nat} (f : Ccr) (r : BitVec w) (c : Bool) : BitVec w × Ccr :=
  (r, { x := f.x, n := msb r, z := r == 0, v := false, c := c })

/-- Whether an arithmetic left shift changes the sign on its way (43 R291). -/
def aslOverflow {w : Nat} (n : Nat) (d : BitVec w) : Bool :=
  let t := d.sshiftRight (w - 1 - n)
  !(t == 0 || t == BitVec.allOnes w) || (decide (w ≤ n) && d != 0)

/-- ASL (43 R291). -/
def aslOp : ShiftOp := fun {w} n f d =>
  if n = 0 then shiftNone f d else shiftOut (d <<< n) (aslOverflow n d) (bitOf d ((w : Int) - n))

/-- ASR (43 R292). -/
def asrOp : ShiftOp := fun {w} n f d =>
  if n = 0 then shiftNone f d else shiftOut (d.sshiftRight n) false (if n ≤ w then bitOf d ((n : Int) - 1) else msb d)

/-- LSL (43 R293). -/
def lslOp : ShiftOp := fun {w} n f d =>
  if n = 0 then shiftNone f d else shiftOut (d <<< n) false (bitOf d ((w : Int) - n))

/-- LSR (43 R294). -/
def lsrOp : ShiftOp := fun n f d =>
  if n = 0 then shiftNone f d else shiftOut (d >>> n) false (bitOf d ((n : Int) - 1))

/-- ROL (43 R295). -/
def rolOp : ShiftOp := fun n f d =>
  if n = 0 then shiftNone f d else
    let r := d.rotateLeft n
    rotateOut f r (r.getLsbD 0)

/-- ROR (43 R296). -/
def rorOp : ShiftOp := fun n f d =>
  if n = 0 then shiftNone f d else
    let r := d.rotateRight n
    rotateOut f r (msb r)

/-- The outcome of a rotate of X and the operand together; a count of 0 sets C to X as well (43 R297). -/
def extendOut {w : Nat} (t : BitVec (1 + w)) : BitVec w × Ccr := shiftOut (t.setWidth w) false (msb t)

/-- ROXL: a rotate of N + 1 bits (43 R297). -/
def roxlOp : ShiftOp := fun n f d => extendOut ((BitVec.ofBool f.x ++ d).rotateLeft n)

/-- ROXR (43 R298). -/
def roxrOp : ShiftOp := fun n f d => extendOut ((BitVec.ofBool f.x ++ d).rotateRight n)

/-- The count of a register form: 1 to 8, or a data register modulo 64 (43 R290). -/
def shiftCount (s : State) : ShiftCount → Nat
  | .imm c => quick c
  | .reg r => (s.dreg r).toNat % 64

/-- A register shift (43 R290). -/
def shiftRegister (op : ShiftOp) (sz : Size) (count : ShiftCount) (dy : Reg) : Exec Done := do
  let n ← look fun s => shiftCount s count
  let f ← getFlags
  let d ← getD sz dy
  let r := op n f d
  putD sz dy r.1
  setFlags fun _ => r.2
  return .seq

/-- A memory shift: a word by one (43 R290). -/
def shiftMemory (op : ShiftOp) (ea : Ea) : Exec Done :=
  rmwEa .word 0 ea fun d => do
    let f ← getFlags
    let r := op 1 f d
    setFlags fun _ => r.2
    return r.1

/-- ASL of a register (43 R291). -/
def execAslReg (sz : Size) (count : ShiftCount) (dy : Reg) (s : State) : Out :=
  complete (.aslReg sz count dy) (shiftRegister aslOp sz count dy) s

/-- ASL of a word in memory (43 R291). -/
def execAslMem (ea : Ea) (s : State) : Out :=
  complete (.aslMem ea) (shiftMemory aslOp ea) s

/-- ASR of a register (43 R292). -/
def execAsrReg (sz : Size) (count : ShiftCount) (dy : Reg) (s : State) : Out :=
  complete (.asrReg sz count dy) (shiftRegister asrOp sz count dy) s

/-- ASR of a word in memory (43 R292). -/
def execAsrMem (ea : Ea) (s : State) : Out :=
  complete (.asrMem ea) (shiftMemory asrOp ea) s

/-- LSL of a register (43 R293). -/
def execLslReg (sz : Size) (count : ShiftCount) (dy : Reg) (s : State) : Out :=
  complete (.lslReg sz count dy) (shiftRegister lslOp sz count dy) s

/-- LSL of a word in memory (43 R293). -/
def execLslMem (ea : Ea) (s : State) : Out :=
  complete (.lslMem ea) (shiftMemory lslOp ea) s

/-- LSR of a register (43 R294). -/
def execLsrReg (sz : Size) (count : ShiftCount) (dy : Reg) (s : State) : Out :=
  complete (.lsrReg sz count dy) (shiftRegister lsrOp sz count dy) s

/-- LSR of a word in memory (43 R294). -/
def execLsrMem (ea : Ea) (s : State) : Out :=
  complete (.lsrMem ea) (shiftMemory lsrOp ea) s

/-- ROXL of a register (43 R297). -/
def execRoxlReg (sz : Size) (count : ShiftCount) (dy : Reg) (s : State) : Out :=
  complete (.roxlReg sz count dy) (shiftRegister roxlOp sz count dy) s

/-- ROXL of a word in memory (43 R297). -/
def execRoxlMem (ea : Ea) (s : State) : Out :=
  complete (.roxlMem ea) (shiftMemory roxlOp ea) s

/-- ROXR of a register (43 R298). -/
def execRoxrReg (sz : Size) (count : ShiftCount) (dy : Reg) (s : State) : Out :=
  complete (.roxrReg sz count dy) (shiftRegister roxrOp sz count dy) s

/-- ROXR of a word in memory (43 R298). -/
def execRoxrMem (ea : Ea) (s : State) : Out :=
  complete (.roxrMem ea) (shiftMemory roxrOp ea) s

/-- ROL of a register (43 R295). -/
def execRolReg (sz : Size) (count : ShiftCount) (dy : Reg) (s : State) : Out :=
  complete (.rolReg sz count dy) (shiftRegister rolOp sz count dy) s

/-- ROL of a word in memory (43 R295). -/
def execRolMem (ea : Ea) (s : State) : Out :=
  complete (.rolMem ea) (shiftMemory rolOp ea) s

/-- ROR of a register (43 R296). -/
def execRorReg (sz : Size) (count : ShiftCount) (dy : Reg) (s : State) : Out :=
  complete (.rorReg sz count dy) (shiftRegister rorOp sz count dy) s

/-- ROR of a word in memory (43 R296). -/
def execRorMem (ea : Ea) (s : State) : Out :=
  complete (.rorMem ea) (shiftMemory rorOp ea) s

/-- SWAP (43 R300). -/
def execSwap (dn : Reg) (s : State) : Out :=
  complete (.swap dn) (do
    let v ← getD .long dn
    let r : Long := loWord v ++ hiWord v
    putD .long dn r
    setFlags (logicFlags r)
    return .seq) s

end Sys2Proof.Machine
end

