-- ==== Sys2Proof/Machine/Fetch.lean ====
section
/-! DEFINITION. Fetching an instruction's words (20_memory R82, R88, R125, 60_exceptions R531). -/

namespace Sys2Proof.Machine

/-- Why a word of the instruction stream cannot be had: its bus cycle fails, or it may be an old value. -/
inductive FetchStop where
  | fault (a : Long)
  | stale
  deriving DecidableEq, Repr

/-- A byte whose fetch is refused: still in the pipe; stored in a copyback block since reset and covered by no push since;
with the instruction cache in use, written since its last CINV; or one that could hit an instruction cache never invalidated
(20_memory R125, 92 D3, 70_reset R632, R641, log 9). -/
def staleFetchAt (s : State) (fc : BitVec 3) (a : Long) : Bool :=
  let k := memKey s fc a
  s.stalePipe.contains k || s.unpushed.contains k
    || (icacheOn s && (s.staleInstr.contains k || ((instrAttr s fc a).cachable && s.icache == .unknown)))

/-- The program sees a byte through the data cache, and memory may hold another value of it (20_memory R106). Dirty lines of
a data cache not in use do not matter: the fetch gets memory's bytes (20_memory R115). -/
def lags (s : State) (fc : BitVec 3) (a : Long) : Bool :=
  let k := memKey s fc a
  seesCache s && s.dirty.any fun c => c.1 == k && c.2 != Memory.get s.mem k

/-- The byte that a fetch gets: memory's, since no fetch goes through the data cache (20_memory R110, R116). Of a byte that
lags memory holds one of the values recorded, free (log 9). -/
def fetchByte (s : State) (fc : BitVec 3) (a : Long) : Byte :=
  let k := memKey s fc a
  let v := byteAt s fc a
  if lags s fc a then
    (v :: (s.dirty.filter fun c => c.1 == k).map Prod.snd).getD (Config.fetchedByte s.draws k) v
  else v

/-- `FetchWord` at an even address, in the current program space (00_scope 5.3). A device answers it without a record, since
the pipe fetches ahead of the instructions that run (log 47). -/
def fetchWord (s : State) (a : Long) : Word ⊕ FetchStop :=
  let fc := s.codeFc
  if busErrorAt s fc a false || busErrorAt s fc (a + 1) false then .inr (.fault a)
  else if staleFetchAt s fc a || staleFetchAt s fc (a + 1) then .inr .stale
  else if touches s.platform.devices fc a 2 then
    match (deviceCycle s fc a 2 none).1 with
    | some v => .inl (v.setWidth 16)
    | none => .inr (.fault a)
  else .inl (fetchByte s fc a ++ fetchByte s fc (a + 1))

/-- Up to `n` words from an address, and why there are no more. -/
def fetchWords (s : State) : Long → Nat → List Word × Option FetchStop
  | _, 0 => ([], none)
  | a, n + 1 =>
    match fetchWord s a with
    | .inl w =>
      let r := fetchWords s (a + 2) n
      (w :: r.1, r.2)
    | .inr e => ([], some e)

/-- The words at the PC may have free values: a device answers them, or memory lags behind the data cache. -/
def freeFetch (s : State) : Bool :=
  touches s.platform.devices s.codeFc s.pc (2 * maxWords) || (addrsOf s.pc (2 * maxWords)).any (lags s s.codeFc)

/-- The state in which the words at the PC are fetched: free values of them are this step's own (log 9, 47). -/
def beginFetch (s : State) : State := if freeFetch s then { s with draws := s.draws + 1 } else s

/-- The failed access of a fetch (60_exceptions R531; its size is a word, log 16). -/
def fetchFault (s : State) (a : Long) : AccessFault :=
  { addr := a, size := 2, read := true, locked := false, tt := 0, tm := s.codeFc, data := 0, line := none }

/-- A word that the instruction needs cannot be had: the access error of its fetch, or, where its bytes were written and
not synchronised, the refusal that R125 of 20_memory asks for (92 D3, 70_reset R632, R641). With all of `maxWords` fetched no
instruction needs another. -/
def fetchStopped {α : Type} : Option FetchStop → Exec α
  | some (.fault a) => fun s => .error (.restart (fetchFault s a)) s
  | some .stale => refuse .staleFetch
  | none => refuse .reservedExtension

/-- Words put in memory from an address up, as a loader would: memory only. -/
def placeWords (m : List Host.Cell) (key : Nat) : List Word → List Host.Cell
  | [] => m
  | w :: rest =>
    placeWords (Memory.put (Memory.put m key (w.extractLsb' 8 8)) (key + 1) (w.extractLsb' 0 8)) (key + 2) rest

/-- The words of an instruction placed where the next fetch reads them (log 6). -/
def placeInstruction (s : State) (ws : List Word) : State :=
  { s with mem := placeWords s.mem (memKey s s.codeFc s.pc) ws }

end Sys2Proof.Machine
end

