-- ==== Sys2Proof/Machine/Return.lean ====
section
/-! DEFINITION. The return from an exception, frame by frame (60_exceptions R580 to R588, 48 R398). -/

namespace Sys2Proof.Machine

/-- A read of EA or SSW of an access-error frame: a bus error is a double bus fault (60_exceptions R588). -/
def readInternal (sz : Size) (a : Long) : Exec (BitVec sz.bits) := fun s =>
  match readMem sz a s with
  | .error (.restart _) t => .error .halt t
  | r => r

/-- The PC and SR of a frame of `bytes` bytes are loaded; the stack pointer moves before SR is written (60_exceptions
R580). -/
def popFrame (sp : Long) (bytes : Long) (sr : Word) (pc : Long) : Exec Done := do
  change fun s => s.setSp (sp + bytes)
  loadSr sr
  return .jump pc

/-- The write of the six-word frame of a pending trace or floating-point exception; one that fails abandons the RTE
(60_exceptions R586, log 34). Which space it is written in is open where a throwaway frame left S = 0, since 92 D29 settles
only the reads and 00_scope 5.3 gives exception processing supervisor data. DESIGN CHOICE (log 34, unsafe): the current data
space, as the reads; user data there. -/
def moveFrame (a : Long) (fs : List Field) : Exec Unit := fun s =>
  let ws := (fieldStores a fs).map fun w => { w with c := normalCycle s.dataFc }
  match ws.find? (Store.fails s) with
  | some w => .error (.restart w.fault) s
  | none =>
    if ws.any (Store.stale s) then .error (.refuse .staleData) s
    else
      let r := runStores ws s
      match r.1 with
      | [] => .ok () r.2
      | w :: _ => .error (.restart w.fault) r.2

/-- The pending exception of an access-error frame begins: the frame becomes a six-word one at SP + $30, SR is the
restored one with S set and T cleared, the PC comes from the vector (60_exceptions R586). -/
def pendingException (sp : Long) (vec : BitVec 8) (sr : Word) (pc ea : Long) : Exec Done := do
  moveFrame (sp + 0x30) [wordField sr, longField pc, wordField (formatWord 2 vec), longField ea]
  let v ← look fun s => vectorAddress s vec
  change fun s => s.setSp (sp + 0x30)
  let t ← readCycle (normalCycle 5) .long v
  change fun s => s.putSr (srException (sr &&& srImplemented))
  return .jump t

/-- The access-error frame: the continuation bits CU, CT, CM of the special status word (60_exceptions R586). -/
def returnAccessError (sp : Long) (sr : Word) (pc : Long) : Exec Done := do
  let ea ← readInternal .long (sp + 8)
  let ssw ← readInternal .word (sp + 0xC)
  if ssw.getLsbD 14 then
    if ssw.getLsbD 12 then refuse .rteContinuation
    else pendingException sp 11 sr pc ea
  else if ssw.getLsbD 13 then
    if ssw.getLsbD 12 then refuse .rteContinuation
    else pendingException sp 9 sr pc ea
  else if ssw.getLsbD 12 then do
    let d ← popFrame sp 60 sr pc
    change fun s => { s with movemEa := some ea }
    return d
  else popFrame sp 60 sr pc

/-- RTE's loop: a throwaway frame loads SR and goes on with the frame on the stack that is then active (60_exceptions
R582, 92 D29); the level is compared with its mask too (R562; DESIGN CHOICE, log 20). A bus error on SR, PC or format word of
a frame behind a throwaway frame: R588 puts the $7 frame below the frame examined with SP unchanged, and 92 D20 leaves the
registers as before the instruction; which SP is open. DESIGN CHOICE (log 49, unsafe): the throwaway frame is undone
(`abort`), so the $7 frame lies below the throwaway frame. -/
def returnLoop : Nat → Exec Done
  | 0 => throw (.fault .rteNeverEnds)
  | n + 1 => do
    let sp ← look State.sp
    let sr ← readMem .word sp
    let pc ← readMem .long (sp + 2)
    let fv ← readMem .word (sp + 6)
    match (fv.extractLsb' 12 4 : BitVec 4).toNat with
    | 0 => popFrame sp 8 sr pc
    | 1 => do
      change fun s => s.setSp (sp + 8)
      loadSr sr
      returnLoop n
    | 2 => popFrame sp 12 sr pc
    | 3 => popFrame sp 12 sr pc
    | 4 => popFrame sp 16 sr pc
    | 7 => returnAccessError sp sr pc
    | _ => throw (.pre 14)

/-- More throwaway frames than there are states of the loop: each of the three stack pointers moves by 8 and so takes
2^29 values, and SR 2^16 (log 30). -/
def returnFuel : Nat := 2 ^ 103 + 1

end Sys2Proof.Machine
end

