-- ==== Sys2Proof/Machine/System.lean ====
section
/-! DEFINITION. System control instructions and the unimplemented operation words (48_system_control). -/

namespace Sys2Proof.Machine

/-! ## The status register -/

/-- A privileged change of SR by an immediate (48 R381 to R383). -/
def immToSr (f : Word → Word) : Exec Done := do
  needSupervisor
  let v ← look fun s => s.sr
  loadSr (f v)
  return .sr

/-- ANDI to SR (48 R381). -/
def execAndiSr (imm : Word) (s : State) : Out := complete (.andiSr imm) (immToSr (fun v => v &&& imm)) s

/-- EORI to SR (48 R382). -/
def execEoriSr (imm : Word) (s : State) : Out := complete (.eoriSr imm) (immToSr (fun v => v ^^^ imm)) s

/-- ORI to SR (48 R383). -/
def execOriSr (imm : Word) (s : State) : Out := complete (.oriSr imm) (immToSr (fun v => v ||| imm)) s

/-- MOVE from SR (48 R384). -/
def execMoveFromSr (ea : Ea) (s : State) : Out :=
  complete (.moveFromSr ea) (do
    needSupervisor
    let v ← look fun s => s.sr
    writeEa .word 0 ea v) s

/-- MOVE to SR: the source is read with the old SR (48 R385). -/
def execMoveToSr (ea : Ea) (s : State) : Out :=
  complete (.moveToSr ea) (do
    needSupervisor
    let v ← readEa .word 0 ea
    loadSr v
    return .sr) s

/-- MOVE from CCR (48 R386). -/
def execMoveFromCcr (ea : Ea) (s : State) : Out :=
  complete (.moveFromCcr ea) (do
    let f ← getFlags
    writeEa .word 0 ea (f.bits.setWidth 16)) s

/-- MOVE to CCR: a word operand (48 R387). -/
def execMoveToCcr (ea : Ea) (s : State) : Out :=
  complete (.moveToCcr ea) (do
    let v ← readEa .word 0 ea
    setFlags fun _ => ccrOf v
    return .seq) s

/-- MOVE An,USP (48 R392). -/
def execMoveToUsp (an : Reg) (s : State) : Out :=
  complete (.moveToUsp an) (do
    needSupervisor
    change fun s => { s with usp := s.areg an }
    return .seq) s

/-- MOVE USP,An (48 R392). -/
def execMoveFromUsp (an : Reg) (s : State) : Out :=
  complete (.moveFromUsp an) (do
    needSupervisor
    let v ← look fun s => s.usp
    putA an v
    return .seq) s

/-! ## MOVEC (48 R394, R395) -/

/-- The codes that name a register, valid or not (10_state R46). -/
def controlCodes : List (BitVec 12) :=
  [0x000, 0x001, 0x002, 0x003, 0x004, 0x005, 0x006, 0x007, 0x800, 0x801, 0x803, 0x804, 0x805, 0x806, 0x807]

/-- The checks of MOVEC: privilege, then the register code; URP and SRP are refused (48 R394, 93 U4). -/
def checkControl (code : BitVec 12) : Exec Unit := do
  needSupervisor
  if !controlCodes.contains code then illegalInstruction
  else if code == 0x806 || code == 0x807 then refuse .urpSrp
  else return ()

/-- `read_control` (48 R395); the ACU status register and TCR read a free value (10_state R47, log 28). -/
def readControl (code : BitVec 12) : Exec Long :=
  match code.toNat with
  | 0x000 => look fun s => s.sfc.setWidth 32
  | 0x001 => look fun s => s.dfc.setWidth 32
  | 0x002 => look fun s => s.cacr
  | 0x003 => fun s => .ok (Config.acuTcrRead s.acuTcr s.draws) { s with draws := s.draws + 1 }
  | 0x004 => look fun s => s.iacr0
  | 0x005 => look fun s => s.iacr1
  | 0x006 => look fun s => s.dacr0
  | 0x007 => look fun s => s.dacr1
  | 0x800 => look fun s => s.usp
  | 0x801 => look fun s => s.vbr
  | 0x803 => look fun s => s.msp
  | 0x804 => look fun s => s.isp
  | 0x805 => fun s => .ok (Config.acuStatusRead s.acuStatus s.draws) { s with draws := s.draws + 1 }
  | _ => illegalInstruction

/-- `write_control` (48 R395); words fetched under the old control of the instruction cache stay in the pipe (70_reset
R643, log 41). -/
def writeControl (code : BitVec 12) (v : Long) : Exec Unit :=
  match code.toNat with
  | 0x000 => change fun s => { s with sfc := v.extractLsb' 0 3 }
  | 0x001 => change fun s => { s with dfc := v.extractLsb' 0 3 }
  | 0x002 => change fun s => cacheControl s fun t => { t with cacr := v &&& cacrImplemented }
  | 0x003 => change fun s => { s with acuTcr := loWord v }
  | 0x004 => change fun s => { s with iacr0 := v &&& acrImplemented, stalePipe := prefetched s }
  | 0x005 => change fun s => { s with iacr1 := v &&& acrImplemented, stalePipe := prefetched s }
  | 0x006 => change fun s => { s with dacr0 := v &&& acrImplemented }
  | 0x007 => change fun s => { s with dacr1 := v &&& acrImplemented }
  | 0x800 => change fun s => { s with usp := v }
  | 0x801 => change fun s => { s with vbr := v }
  | 0x803 => change fun s => { s with msp := v }
  | 0x804 => change fun s => { s with isp := v }
  | 0x805 => change fun s => { s with acuStatus := v }
  | _ => illegalInstruction

/-- MOVEC Rc,Rn (48 R394). -/
def execMovecFrom (rn : GReg) (code : BitVec 12) (s : State) : Out :=
  complete (.movecFrom rn code) (do
    checkControl code
    let v ← readControl code
    change fun s => s.setGreg rn v
    return .seq) s

/-- MOVEC Rn,Rc (48 R394). -/
def execMovecTo (rn : GReg) (code : BitVec 12) (s : State) : Out :=
  complete (.movecTo rn code) (do
    checkControl code
    let v ← look fun s => s.greg rn
    writeControl code v
    return .seq) s

/-! ## MOVES (48 R396) -/

/-- An access with an alternate function code (20_memory R83). -/
def alternateCycle (fc : BitVec 3) : Cycle := { fc := fc, tt := 2, tm := fc, locked := false }

/-- The mode changes the address register that is stored (93 U8). -/
def movesAliased (rn : GReg) (ea : Ea) : Bool :=
  match ea with
  | .postInc r => rn == (1 : BitVec 1) ++ r
  | .preDec r => rn == (1 : BitVec 1) ++ r
  | _ => false

/-- The value MOVES stores, read after the address is computed: free between the old and the new register where the mode
changes it (93 U8, log 23). -/
def movesValue (rn : GReg) (ea : Ea) (old : Long) : Exec Long := do
  let new ← look fun s => s.greg rn
  if movesAliased rn ea then do
    let b ← drawBit
    return if b then new else old
  else return new

/-- MOVES (48 R396). -/
def execMoves (sz : Size) (toMem : Bool) (rn : GReg) (ea : Ea) (s : State) : Out :=
  complete (.moves sz toMem rn ea) (do
    needSupervisor
    let old ← look fun s => s.greg rn
    let a ← eaAddress sz.bytes 1 ea
    if toMem then do
      let v ← movesValue rn ea old
      let fc ← look fun s => s.dfc
      store (alternateCycle fc) sz a (lowPart sz v) .seq
    else do
      let fc ← look fun s => s.sfc
      let v ← readCycle (alternateCycle fc) sz a
      if rn.getLsbD 3 then change fun s => s.setGreg rn (sext v)
      else change fun s => s.setGreg rn (withLow (s.greg rn) sz v)
      return .seq) s

/-! ## RESET, STOP, RTE -/

/-- An output event for the host. -/
def emit (e : HostEvent) : Exec Unit := change fun s => { s with outputs := s.outputs ++ [e] }

/-- RESET (48 R397). -/
def execReset (s : State) : Out :=
  complete .reset (do
    needSupervisor
    emit .rsto
    return .seq) s

/-- STOP (48 R400). -/
def execStop (imm : Word) (s : State) : Out :=
  complete (.stop imm) (do
    needSupervisor
    loadSr imm
    return .stop) s

/-- RTE (48 R398). -/
def execRte (s : State) : Out :=
  complete .rte (do
    needSupervisor
    returnLoop returnFuel) s

/-! ## Trap-generating instructions -/

/-- BKPT: a breakpoint acknowledge cycle, then the illegal instruction exception (48 R402). -/
def execBkpt (v : BitVec 3) (s : State) : Out :=
  complete (.bkpt v) (do
    emit .breakpointAck
    illegalInstruction) s

/-- CHK on values of one width: a trap with N set below zero and clear above the bound; Z, V and C free, and N without a
trap (48 R403, 93 U3; log 27). -/
def checkBound {n : Nat} (v b : BitVec n) : Exec Done := do
  let fz ← drawBit
  let fv ← drawBit
  let fc ← drawBit
  let fn ← if v.slt 0 then pure true else if b.slt v then pure false else drawBit
  setFlags fun f => { f with n := fn, z := fz, v := fv, c := fc }
  if v.slt 0 || b.slt v then throw (.trap 6 true) else return .seq

/-- CHK.W (48 R403). -/
def execChkW (dn : Reg) (ea : Ea) (s : State) : Out :=
  complete (.chkW dn ea) (do
    let b ← readEa .word 0 ea
    let v ← getD .word dn
    checkBound v b) s

/-- CHK.L (48 R403). -/
def execChkL (dn : Reg) (ea : Ea) (s : State) : Out :=
  complete (.chkL dn ea) (do
    let b ← readEa .long 0 ea
    let v ← getD .long dn
    checkBound v b) s

/-- CHK2 (48 R404). -/
def execChk2 (sz : Size) (rn : GReg) (ea : Ea) (s : State) : Out :=
  complete (.chk2 sz rn ea) (do
    compareBounds sz rn ea
    let f ← getFlags
    if f.c then throw (.trap 6 true) else return .seq) s

/-- ILLEGAL (48 R405). -/
def execIllegal (s : State) : Out := complete .illegal illegalInstruction s

/-- TRAP #n (48 R406). -/
def execTrap (n : BitVec 4) (s : State) : Out := complete (.trap n) (throw (.trap (32 + n.setWidth 8) false)) s

/-- TRAPcc (48 R407). -/
def execTrapcc (c : Cond) (op : TrapOperand) (s : State) : Out :=
  complete (.trapcc c op) (do
    let f ← getFlags
    if condHolds c f then throw (.trap 7 true) else return .seq) s

/-- TRAPV (48 R408). -/
def execTrapv (s : State) : Out :=
  complete .trapv (do
    let f ← getFlags
    if f.v then throw (.trap 7 true) else return .seq) s

/-! ## Unimplemented operation words -/

/-- LineA (48 R410). -/
def execAline (w : BitVec 12) (s : State) : Out := complete (.aline w) (throw (.pre 10)) s

/-- LineF (48 R411). -/
def execFline (w : BitVec 12) (s : State) : Out := complete (.fline w) (throw (.pre 11)) s

/-- How many words stand between the operation word and the operand's words: a command or condition word, or none for
FSAVE and FRESTORE (48 R412). -/
def fpOwnWords (w : BitVec 9) : Nat := if (w.extractLsb' 6 3).toNat < 2 then 1 else 0

/-- The operand of a floating-point instruction from the words that follow, or why it has none; an effective-address field
that names no mode counts as one without an address (48 R412; DESIGN CHOICE, log 19). -/
def fpOperand (w : BitVec 9) (words : List Word) : Except DecErr Ea :=
  match eaKind (w.extractLsb' 3 3) (w.extractLsb' 0 3) with
  | none => .ok (.imm 0)
  | some .imm => .ok (.imm 0)
  | some k =>
    match eaTail k .long (w.extractLsb' 0 3) (words.drop (1 + fpOwnWords w)) with
    | .ok e _ => .ok e
    | .error e _ => .error e

/-- What a floating-point instruction does before a word that cannot be had: the pointer of a memory-indirect operand is
read (30_encoding R156), then the fetch stops. -/
def fpMissing {α : Type} (w : BitVec 9) (words : List Word) (stop : Option FetchStop) : Exec α := do
  match fpOperand w (words ++ List.replicate maxWords 0) with
  | .ok e => pointerRead (fpOwnWords w) (words.length - 1 - fpOwnWords w) e
  | .error _ => pure ()
  fetchStopped stop

/-- The effective address field: the address of a memory operand with its register side effect, $0 for a field that names
no memory mode (60_exceptions R545, 93 GK21; log 19). -/
def fpAddress (w : BitVec 9) (words : List Word) (stop : Option FetchStop) (bytes : Nat) : Exec Long :=
  match fpOperand w words with
  | .error .truncated => fpMissing w words stop
  | .error _ => refuse .reservedExtension
  | .ok (.dn _) => return 0
  | .ok (.an _) => return 0
  | .ok (.imm _) => return 0
  | .ok e => eaAddress bytes (fpOwnWords w) e

/-- The floating-point words: LineF unless `fp_legal` knows the instruction, else the unimplemented floating-point
exception (48 R412, 60_exceptions R545; log 18). The words that say which instruction it is, the operation word and a
command or condition word, are fetched first (60_exceptions R531, R548). DESIGN CHOICE (log 19, unsafe): the answer of
`fp_legal` is used whatever it is, since the spec leaves it open (92 D10): a memory operand behind a field that names no
memory mode has address $0, and a length beyond the words that any instruction takes moves the PC by that length; the
words of the mode and of the length that the fetch did not reach are missing. -/
def execFpLine (w : BitVec 9) (s : State) : Out :=
  complete (.fpLine w) (do
    let r ← look fun s => fetchWords s s.pc maxWords
    if 6 ≤ (w.extractLsb' 6 3).toNat then throw (.pre 11)
    else if r.1.length < 1 + fpOwnWords w then fetchStopped r.2
    else match Config.fpLegal r.1 with
    | none => throw (.pre 11)
    | some sh =>
      if r.2.isSome && decide (2 * r.1.length < sh.bytes) then
        if sh.memory.isSome then fpMissing w r.1 r.2 else fetchStopped r.2
      else do
        let p ← look fun s => s.pc + BitVec.ofNat 32 sh.bytes
        let ea ← match sh.memory with
          | none => pure 0
          | some b => fpAddress w r.1 r.2 b
        throw (.fp p ea)) s

/-- PFLUSH: no meaning (48 R415, 93 U6). -/
def execPflush (op : BitVec 2) (an : Reg) (s : State) : Out := complete (.pflush op an) (refuse .pflush) s

/-- PTEST: no meaning (48 R415, 93 U6). -/
def execPtest (read : Bool) (an : Reg) (s : State) : Out := complete (.ptest read an) (refuse .ptest) s

end Sys2Proof.Machine
end

