-- ==== Sys2Proof/Machine/Dispatch.lean ====
section
/-! DEFINITION. The one match on instructions: each arm is one call of the instruction's meaning. -/

namespace Sys2Proof.Machine

def exec (i : Instr) (s : State) : Host.Outcome State Fault Refusal :=
  match i with
  | .ori sz imm ea => Sys2Proof.Machine.execOri sz imm ea s
  | .oriCcr imm => Sys2Proof.Machine.execOriCcr imm s
  | .oriSr imm => Sys2Proof.Machine.execOriSr imm s
  | .andi sz imm ea => Sys2Proof.Machine.execAndi sz imm ea s
  | .andiCcr imm => Sys2Proof.Machine.execAndiCcr imm s
  | .andiSr imm => Sys2Proof.Machine.execAndiSr imm s
  | .subi sz imm ea => Sys2Proof.Machine.execSubi sz imm ea s
  | .addi sz imm ea => Sys2Proof.Machine.execAddi sz imm ea s
  | .eori sz imm ea => Sys2Proof.Machine.execEori sz imm ea s
  | .eoriCcr imm => Sys2Proof.Machine.execEoriCcr imm s
  | .eoriSr imm => Sys2Proof.Machine.execEoriSr imm s
  | .cmpi sz imm ea => Sys2Proof.Machine.execCmpi sz imm ea s
  | .btstImm n ea => Sys2Proof.Machine.execBtstImm n ea s
  | .btstReg dn ea => Sys2Proof.Machine.execBtstReg dn ea s
  | .bchgImm n ea => Sys2Proof.Machine.execBchgImm n ea s
  | .bchgReg dn ea => Sys2Proof.Machine.execBchgReg dn ea s
  | .bclrImm n ea => Sys2Proof.Machine.execBclrImm n ea s
  | .bclrReg dn ea => Sys2Proof.Machine.execBclrReg dn ea s
  | .bsetImm n ea => Sys2Proof.Machine.execBsetImm n ea s
  | .bsetReg dn ea => Sys2Proof.Machine.execBsetReg dn ea s
  | .movep op dx ay d => Sys2Proof.Machine.execMovep op dx ay d s
  | .cmp2 sz rn ea => Sys2Proof.Machine.execCmp2 sz rn ea s
  | .chk2 sz rn ea => Sys2Proof.Machine.execChk2 sz rn ea s
  | .cas sz dc du ea => Sys2Proof.Machine.execCas sz dc du ea s
  | .cas2 sz o1 o2 => Sys2Proof.Machine.execCas2 sz o1 o2 s
  | .moves sz toMem rn ea => Sys2Proof.Machine.execMoves sz toMem rn ea s
  | .move sz src dst => Sys2Proof.Machine.execMove sz src dst s
  | .movea sz an src => Sys2Proof.Machine.execMovea sz an src s
  | .negx sz ea => Sys2Proof.Machine.execNegx sz ea s
  | .clr sz ea => Sys2Proof.Machine.execClr sz ea s
  | .neg sz ea => Sys2Proof.Machine.execNeg sz ea s
  | .not sz ea => Sys2Proof.Machine.execNot sz ea s
  | .moveFromSr ea => Sys2Proof.Machine.execMoveFromSr ea s
  | .moveFromCcr ea => Sys2Proof.Machine.execMoveFromCcr ea s
  | .moveToCcr ea => Sys2Proof.Machine.execMoveToCcr ea s
  | .moveToSr ea => Sys2Proof.Machine.execMoveToSr ea s
  | .nbcd ea => Sys2Proof.Machine.execNbcd ea s
  | .linkL an d => Sys2Proof.Machine.execLinkL an d s
  | .swap dn => Sys2Proof.Machine.execSwap dn s
  | .bkpt v => Sys2Proof.Machine.execBkpt v s
  | .pea ea => Sys2Proof.Machine.execPea ea s
  | .extW dn => Sys2Proof.Machine.execExtW dn s
  | .extL dn => Sys2Proof.Machine.execExtL dn s
  | .extbL dn => Sys2Proof.Machine.execExtbL dn s
  | .movemToMem sz mask ea => Sys2Proof.Machine.execMovemToMem sz mask ea s
  | .movemToReg sz mask ea => Sys2Proof.Machine.execMovemToReg sz mask ea s
  | .tst sz ea => Sys2Proof.Machine.execTst sz ea s
  | .tas ea => Sys2Proof.Machine.execTas ea s
  | .illegal => Sys2Proof.Machine.execIllegal s
  | .muluL dl dh wide ea => Sys2Proof.Machine.execMuluL dl dh wide ea s
  | .mulsL dl dh wide ea => Sys2Proof.Machine.execMulsL dl dh wide ea s
  | .divuL dq dr wide ea => Sys2Proof.Machine.execDivuL dq dr wide ea s
  | .divsL dq dr wide ea => Sys2Proof.Machine.execDivsL dq dr wide ea s
  | .trap n => Sys2Proof.Machine.execTrap n s
  | .linkW an d => Sys2Proof.Machine.execLinkW an d s
  | .unlk an => Sys2Proof.Machine.execUnlk an s
  | .moveToUsp an => Sys2Proof.Machine.execMoveToUsp an s
  | .moveFromUsp an => Sys2Proof.Machine.execMoveFromUsp an s
  | .reset => Sys2Proof.Machine.execReset s
  | .nop => Sys2Proof.Machine.execNop s
  | .stop imm => Sys2Proof.Machine.execStop imm s
  | .rte => Sys2Proof.Machine.execRte s
  | .rtd d => Sys2Proof.Machine.execRtd d s
  | .rts => Sys2Proof.Machine.execRts s
  | .trapv => Sys2Proof.Machine.execTrapv s
  | .rtr => Sys2Proof.Machine.execRtr s
  | .movecFrom rn code => Sys2Proof.Machine.execMovecFrom rn code s
  | .movecTo rn code => Sys2Proof.Machine.execMovecTo rn code s
  | .jsr ea => Sys2Proof.Machine.execJsr ea s
  | .jmp ea => Sys2Proof.Machine.execJmp ea s
  | .chkW dn ea => Sys2Proof.Machine.execChkW dn ea s
  | .chkL dn ea => Sys2Proof.Machine.execChkL dn ea s
  | .lea an ea => Sys2Proof.Machine.execLea an ea s
  | .addq sz q ea => Sys2Proof.Machine.execAddq sz q ea s
  | .subq sz q ea => Sys2Proof.Machine.execSubq sz q ea s
  | .scc c ea => Sys2Proof.Machine.execScc c ea s
  | .dbcc c dn d => Sys2Proof.Machine.execDbcc c dn d s
  | .trapcc c op => Sys2Proof.Machine.execTrapcc c op s
  | .bra d => Sys2Proof.Machine.execBra d s
  | .bsr d => Sys2Proof.Machine.execBsr d s
  | .bcc c d => Sys2Proof.Machine.execBcc c d s
  | .moveq dn d => Sys2Proof.Machine.execMoveq dn d s
  | .orEaDnB dn ea => Sys2Proof.Machine.execOrEaDnB dn ea s
  | .orEaDnW dn ea => Sys2Proof.Machine.execOrEaDnW dn ea s
  | .orEaDnL dn ea => Sys2Proof.Machine.execOrEaDnL dn ea s
  | .orDnEaB dn ea => Sys2Proof.Machine.execOrDnEaB dn ea s
  | .orDnEaW dn ea => Sys2Proof.Machine.execOrDnEaW dn ea s
  | .orDnEaL dn ea => Sys2Proof.Machine.execOrDnEaL dn ea s
  | .divuW dn ea => Sys2Proof.Machine.execDivuW dn ea s
  | .divsW dn ea => Sys2Proof.Machine.execDivsW dn ea s
  | .sbcd mem x y => Sys2Proof.Machine.execSbcd mem x y s
  | .pack mem x y adj => Sys2Proof.Machine.execPack mem x y adj s
  | .unpk mem x y adj => Sys2Proof.Machine.execUnpk mem x y adj s
  | .subEaDnB dn ea => Sys2Proof.Machine.execSubEaDnB dn ea s
  | .subEaDnW dn ea => Sys2Proof.Machine.execSubEaDnW dn ea s
  | .subEaDnL dn ea => Sys2Proof.Machine.execSubEaDnL dn ea s
  | .subDnEaB dn ea => Sys2Proof.Machine.execSubDnEaB dn ea s
  | .subDnEaW dn ea => Sys2Proof.Machine.execSubDnEaW dn ea s
  | .subDnEaL dn ea => Sys2Proof.Machine.execSubDnEaL dn ea s
  | .suba sz an ea => Sys2Proof.Machine.execSuba sz an ea s
  | .subx sz mem x y => Sys2Proof.Machine.execSubx sz mem x y s
  | .aline w => Sys2Proof.Machine.execAline w s
  | .cmpB dn ea => Sys2Proof.Machine.execCmpB dn ea s
  | .cmpW dn ea => Sys2Proof.Machine.execCmpW dn ea s
  | .cmpL dn ea => Sys2Proof.Machine.execCmpL dn ea s
  | .cmpa sz an ea => Sys2Proof.Machine.execCmpa sz an ea s
  | .eorB dn ea => Sys2Proof.Machine.execEorB dn ea s
  | .eorW dn ea => Sys2Proof.Machine.execEorW dn ea s
  | .eorL dn ea => Sys2Proof.Machine.execEorL dn ea s
  | .cmpm sz x y => Sys2Proof.Machine.execCmpm sz x y s
  | .andEaDnB dn ea => Sys2Proof.Machine.execAndEaDnB dn ea s
  | .andEaDnW dn ea => Sys2Proof.Machine.execAndEaDnW dn ea s
  | .andEaDnL dn ea => Sys2Proof.Machine.execAndEaDnL dn ea s
  | .andDnEaB dn ea => Sys2Proof.Machine.execAndDnEaB dn ea s
  | .andDnEaW dn ea => Sys2Proof.Machine.execAndDnEaW dn ea s
  | .andDnEaL dn ea => Sys2Proof.Machine.execAndDnEaL dn ea s
  | .muluW dn ea => Sys2Proof.Machine.execMuluW dn ea s
  | .mulsW dn ea => Sys2Proof.Machine.execMulsW dn ea s
  | .abcd mem x y => Sys2Proof.Machine.execAbcd mem x y s
  | .exgDD x y => Sys2Proof.Machine.execExgDD x y s
  | .exgAA x y => Sys2Proof.Machine.execExgAA x y s
  | .exgDA x y => Sys2Proof.Machine.execExgDA x y s
  | .addEaDnB dn ea => Sys2Proof.Machine.execAddEaDnB dn ea s
  | .addEaDnW dn ea => Sys2Proof.Machine.execAddEaDnW dn ea s
  | .addEaDnL dn ea => Sys2Proof.Machine.execAddEaDnL dn ea s
  | .addDnEaB dn ea => Sys2Proof.Machine.execAddDnEaB dn ea s
  | .addDnEaW dn ea => Sys2Proof.Machine.execAddDnEaW dn ea s
  | .addDnEaL dn ea => Sys2Proof.Machine.execAddDnEaL dn ea s
  | .adda sz an ea => Sys2Proof.Machine.execAdda sz an ea s
  | .addx sz mem x y => Sys2Proof.Machine.execAddx sz mem x y s
  | .aslReg sz count dy => Sys2Proof.Machine.execAslReg sz count dy s
  | .aslMem ea => Sys2Proof.Machine.execAslMem ea s
  | .asrReg sz count dy => Sys2Proof.Machine.execAsrReg sz count dy s
  | .asrMem ea => Sys2Proof.Machine.execAsrMem ea s
  | .lslReg sz count dy => Sys2Proof.Machine.execLslReg sz count dy s
  | .lslMem ea => Sys2Proof.Machine.execLslMem ea s
  | .lsrReg sz count dy => Sys2Proof.Machine.execLsrReg sz count dy s
  | .lsrMem ea => Sys2Proof.Machine.execLsrMem ea s
  | .roxlReg sz count dy => Sys2Proof.Machine.execRoxlReg sz count dy s
  | .roxlMem ea => Sys2Proof.Machine.execRoxlMem ea s
  | .roxrReg sz count dy => Sys2Proof.Machine.execRoxrReg sz count dy s
  | .roxrMem ea => Sys2Proof.Machine.execRoxrMem ea s
  | .rolReg sz count dy => Sys2Proof.Machine.execRolReg sz count dy s
  | .rolMem ea => Sys2Proof.Machine.execRolMem ea s
  | .rorReg sz count dy => Sys2Proof.Machine.execRorReg sz count dy s
  | .rorMem ea => Sys2Proof.Machine.execRorMem ea s
  | .bftst bf ea => Sys2Proof.Machine.execBftst bf ea s
  | .bfextu dn bf ea => Sys2Proof.Machine.execBfextu dn bf ea s
  | .bfchg bf ea => Sys2Proof.Machine.execBfchg bf ea s
  | .bfexts dn bf ea => Sys2Proof.Machine.execBfexts dn bf ea s
  | .bfclr bf ea => Sys2Proof.Machine.execBfclr bf ea s
  | .bfffo dn bf ea => Sys2Proof.Machine.execBfffo dn bf ea s
  | .bfset bf ea => Sys2Proof.Machine.execBfset bf ea s
  | .bfins dn bf ea => Sys2Proof.Machine.execBfins dn bf ea s
  | .cinv sel scope an => Sys2Proof.Machine.execCinv sel scope an s
  | .cpush sel scope an => Sys2Proof.Machine.execCpush sel scope an s
  | .pflush op an => Sys2Proof.Machine.execPflush op an s
  | .ptest read an => Sys2Proof.Machine.execPtest read an s
  | .move16Abs op ay addr => Sys2Proof.Machine.execMove16Abs op ay addr s
  | .move16Pi ax ay => Sys2Proof.Machine.execMove16Pi ax ay s
  | .fpLine w => Sys2Proof.Machine.execFpLine w s
  | .fline w => Sys2Proof.Machine.execFline w s

end Sys2Proof.Machine
end

