-- ==== Sys2Proof/Machine/Interrupt.lean ====
section
/-! DEFINITION. Interrupts: recognition, acknowledge and stacking (60_exceptions R560 to R572). -/

namespace Sys2Proof.Machine

/-- A new debounced level: comparison with the mask, and the transition to level 7 (60_exceptions R562, R563). The old level was
compared when it came and whenever SR.I changed since. -/
def newLevel (s : State) (l : BitVec 3) : State :=
  let t := compareLevel { s with iplPrev := s.ipl, ipl := l }
  if l == 7 && s.ipl != 7 then { t with pending := some 7 } else t

/-- The vector number of an acknowledge cycle: the device's, the autovector, or spurious (60_exceptions R566 to R568). -/
def acknowledge (s : State) (l : BitVec 3) : BitVec 8 :=
  match s.platform.iack[l.toNat]'l.isLt with
  | .vector n => n
  | .autovector => 24 + l.setWidth 8
  | .busError => 24

/-- The state of an interrupt at level `l` before its frames are stacked (60_exceptions R566); the level on the pins is
compared with the new mask (R562). The address an RTE restored for a MOVEM is dropped (DESIGN CHOICE, log 31). -/
def interruptBegin (s : State) (l : BitVec 3) : State :=
  let t : State := { s with
    pending := none
    movemEa := none
    run := .running
    outputs := s.outputs ++ [.interruptAck l] }
  t.putSr (srWithMask (srException s.sr) l)

/-- The frames of an interrupt: one on the active supervisor stack, and with M = 1 a throwaway frame on the interrupt
stack (60_exceptions R569). -/
def interruptFrames (s : State) (l : BitVec 3) : Entered :=
  let vec := acknowledge s l
  let e := stackFrame (interruptBegin s l) (commonFields s.sr s.pc 0 vec)
  if srM s.sr then
    e.andThen fun t => stackFrame { t with sr := srClearM t.sr } (commonFields (s.sr ||| 0x2000) s.pc 1 vec)
  else e

/-- `Interrupt(L)` (60_exceptions R569). -/
def takeInterrupt (s : State) (l : BitVec 3) : Out :=
  ((interruptFrames s l).andThen fun t => jumpVector t (acknowledge s l)).orErrors { s with run := .running } s.pc s.pc
    .none

/-- The level a pending interrupt is taken at, if it is: a request that changed after it was made pending may be taken at
either level or not at all (60_exceptions R564, 93 U16). -/
def levelToTake (s : State) : Option (BitVec 3) × State :=
  match s.pending with
  | none => (none, s)
  | some l =>
    if l == s.ipl then (some l, s)
    else
      let t := { s with draws := s.draws + 2 }
      if Config.freeBit s.draws then
        (some (if Config.freeBit (s.draws + 1) || s.ipl == 0 then l else s.ipl), t)
      else (none, { t with pending := none })

end Sys2Proof.Machine
end

