-- ==== Sys2Proof/Machine/Reset.lean ====
section
/-! DEFINITION. The reset exception (70_reset R622, 10_state R58). -/

namespace Sys2Proof.Machine

/-- How many draws a reset takes. -/
def resetDraws : Nat := 32

/-- An access control register after reset: E cleared, the other fields unspecified (10_state R58). -/
def resetAcr (n : Nat) : Long := Config.freeLong n &&& acrImplemented &&& 0xFFFF7FFF

/-- The condition codes after reset are unspecified (10_state R58). -/
def resetCcr (n : Nat) : Ccr :=
  { x := Config.freeBit n, n := Config.freeBit (n + 1), z := Config.freeBit (n + 2), v := Config.freeBit (n + 3),
    c := Config.freeBit (n + 4) }

/-- What reset sets before it reads the reset vector; a register it does not name takes a free value (70_reset R622,
log 5). The caches keep their lines, which are harmless until one is enabled again (20_memory R115); R125 counts stores
from the reset on. The levels on the IPL pins are the host's (log 20). -/
def resetRegisters (s : State) : State :=
  let n := s.draws
  { cacheControl s (fun t => { t with cacr := 0 }) with
    d := Vector.ofFn fun i => Config.freeLong (n + 1 + i)
    a := Vector.ofFn fun i => Config.freeLong (n + 9 + i)
    usp := Config.freeLong (n + 16)
    msp := Config.freeLong (n + 17)
    sr := srWithCcr 0x2700 (resetCcr n)
    vbr := 0
    sfc := (Config.freeLong (n + 18)).extractLsb' 0 3
    dfc := (Config.freeLong (n + 19)).extractLsb' 0 3
    iacr0 := resetAcr (n + 20)
    iacr1 := resetAcr (n + 21)
    dacr0 := resetAcr (n + 22)
    dacr1 := resetAcr (n + 23)
    acuStatus := Config.freeLong (n + 24)
    acuTcr := (Config.freeLong (n + 25)).setWidth 16
    run := .running
    pending := none
    movemEa := none
    unpushed := []
    stalePipe := []
    draws := (cacheControl s (fun t => { t with cacr := 0 })).draws + resetDraws }

/-- The reset exception: ISP and PC from supervisor data $0 and $4; a bus error on either read, or an odd PC, halts the
processor (70_reset R622, 60_exceptions R535). What ISP and PC hold when the vector cannot be read is open. DESIGN CHOICE
(log 13, unsafe): the processor halts with both as they were before the reset, ISP too when only the read of the PC fails,
and with every other register already reset. The order of the two reads is open too (R501, 92 D16). DESIGN CHOICE (log 13,
unsafe): all eight bytes are asked for TEA before the first read, so where one of them lies in such a range neither bus cycle
is made, not that of a device at the other long word either; else ISP is read first. -/
def takeReset (s : State) : State :=
  let t := resetRegisters s
  if readFaults t false 5 0 8 then { t with run := .halted }
  else match readBus t 5 .long 0 with
    | (none, t) => { t with run := .halted }
    | (some sp, t) =>
      match readBus t 5 .long 4 with
      | (none, t) => { t with run := .halted }
      | (some pc, t) => { t with isp := sp, pc := pc, run := if pc.getLsbD 0 then .halted else .running }

end Sys2Proof.Machine
end

