-- ==== Sys2Proof/Machine/Cycle.lean ====
section
/-! DEFINITION. The cycle of the machine: reset, interrupts, and one instruction fetched, decoded and executed
(60_exceptions R576). -/

namespace Sys2Proof.Machine

/-- Whether an instruction restarts from a saved effective address (60_exceptions R521). -/
def isMovem : Instr → Bool
  | .movemToMem _ _ _ => true
  | .movemToReg _ _ _ => true
  | _ => false

/-- A decoded instruction runs, unless the PC was restored for a MOVEM and it is none (93 U24). -/
def runDecoded (i : Instr) (s : State) : Host.Outcome State Fault Refusal :=
  if s.movemEa.isSome && !isMovem i then .refused .movemRestart else exec i s

/-- The operand whose words end the words of an instruction, where an instruction has one (30_encoding R142). -/
def lastOperand : Instr → Option Ea
  | .ori _ _ e | .andi _ _ e | .subi _ _ e | .addi _ _ e | .eori _ _ e | .cmpi _ _ e | .btstImm _ e | .btstReg _ e
  | .bchgImm _ e | .bchgReg _ e | .bclrImm _ e | .bclrReg _ e | .bsetImm _ e | .bsetReg _ e | .cmp2 _ _ e | .chk2 _ _ e
  | .cas _ _ _ e | .moves _ _ _ e | .move _ _ e | .movea _ _ e | .negx _ e | .clr _ e | .neg _ e | .not _ e
  | .moveFromSr e | .moveFromCcr e | .moveToCcr e | .moveToSr e | .nbcd e | .pea e | .movemToMem _ _ e
  | .movemToReg _ _ e | .tst _ e | .tas e | .muluL _ _ _ e | .mulsL _ _ _ e | .divuL _ _ _ e | .divsL _ _ _ e | .jsr e
  | .jmp e | .chkW _ e | .chkL _ e | .lea _ e | .addq _ _ e | .subq _ _ e | .scc _ e | .orEaDnB _ e | .orEaDnW _ e
  | .orEaDnL _ e | .orDnEaB _ e | .orDnEaW _ e | .orDnEaL _ e | .divuW _ e | .divsW _ e | .subEaDnB _ e | .subEaDnW _ e
  | .subEaDnL _ e | .subDnEaB _ e | .subDnEaW _ e | .subDnEaL _ e | .suba _ _ e | .cmpB _ e | .cmpW _ e | .cmpL _ e
  | .cmpa _ _ e | .eorB _ e | .eorW _ e | .eorL _ e | .andEaDnB _ e | .andEaDnW _ e | .andEaDnL _ e | .andDnEaB _ e
  | .andDnEaW _ e | .andDnEaL _ e | .muluW _ e | .mulsW _ e | .addEaDnB _ e | .addEaDnW _ e | .addEaDnL _ e
  | .addDnEaB _ e | .addDnEaW _ e | .addDnEaL _ e | .adda _ _ e | .aslMem e | .asrMem e | .lslMem e | .lsrMem e
  | .roxlMem e | .roxrMem e | .rolMem e | .rorMem e | .bftst _ e | .bfextu _ _ e | .bfchg _ e | .bfexts _ _ e
  | .bfclr _ e | .bfffo _ _ e | .bfset _ e | .bfins _ _ e => some e
  | .oriCcr _ | .oriSr _ | .andiCcr _ | .andiSr _ | .eoriCcr _ | .eoriSr _ | .movep _ _ _ _ | .cas2 _ _ _ | .linkL _ _
  | .swap _ | .bkpt _ | .extW _ | .extL _ | .extbL _ | .illegal | .trap _ | .linkW _ _ | .unlk _ | .moveToUsp _
  | .moveFromUsp _ | .reset | .nop | .stop _ | .rte | .rtd _ | .rts | .trapv | .rtr | .movecFrom _ _ | .movecTo _ _
  | .dbcc _ _ _ | .trapcc _ _ | .bra _ | .bsr _ | .bcc _ _ | .moveq _ _ | .sbcd _ _ _ | .pack _ _ _ _ | .unpk _ _ _ _
  | .subx _ _ _ _ | .aline _ | .cmpm _ _ _ | .abcd _ _ _ | .exgDD _ _ | .exgAA _ _ | .exgDA _ _ | .addx _ _ _ _
  | .aslReg _ _ _ | .asrReg _ _ _ | .lslReg _ _ _ | .lsrReg _ _ _ | .roxlReg _ _ _ | .roxrReg _ _ _ | .rolReg _ _ _
  | .rorReg _ _ _ | .cinv _ _ _ | .cpush _ _ _ | .pflush _ _ | .ptest _ _ | .move16Abs _ _ _ | .move16Pi _ _
  | .fpLine _ | .fline _ => none

/-- What an instruction does before it needs the word behind its first `n` words: MOVE reads its source before it takes
the words of its destination (30_encoding R161), and a memory-indirect mode reads its pointer before its outer displacement
(R156). -/
def earlyReads (i : Instr) (n : Nat) : Exec Unit :=
  match i with
  | .move sz src dst => do
    let k := (src.words sz).length
    if n < 1 + k then pointerRead 0 (n - 1) src
    else do
      let _ ← readEa sz 0 src
      pointerRead k (n - 1 - k) dst
  | i =>
    match lastOperand i with
    | some e => do
      let own := i.bytes / 2 - 1 - (e.words .long).length
      pointerRead own (n - 1 - own) e
    | none => return ()

/-- The instruction whose first words are these: what it begins with does not depend on the words that are missing. -/
def beginning (ws : List Word) : Option Instr :=
  match decode (ws ++ List.replicate maxWords 0) with
  | .ok i => some i
  | _ => none

/-- An instruction of which the words `ws` could be had and the next one stops it: the operand reads that come before that
word are done first, but for a MOVEM that has its address (60_exceptions R521). -/
def runPartly (ws : List Word) (stop : Exec Empty) (s : State) : Out :=
  let body : Exec Empty := do
    match if s.movemEa.isSome then none else beginning ws with
    | some i => earlyReads i ws.length
    | none => pure ()
    stop
  match body s with
  | .ok d _ => d.elim
  | .error e t => abort s s.pc e t

/-- The words `ws` could be had and the next one stops the instruction: with none, at once; else it is first asked which
instruction it is, and whether its mode may run it (60_exceptions R548). A word that begins no MOVEM at a PC restored for one
is refused whatever becomes of the others (93 U24). -/
def runCut (ws : List Word) (stop : Exec Empty) (s : State) : Out :=
  match ws with
  | [] => runPartly [] stop s
  | w :: _ =>
    if s.movemEa.isSome && !(beginning ws).any isMovem then .refused .movemRestart
    else if !s.super && privilegedWord w then takePre s s 8
    else runPartly ws stop s

/-- The words before the reserved extension word: the longest part of `ws` that is cut too short to tell. -/
def beforeReserved (ws : List Word) : Nat → List Word
  | 0 => []
  | n + 1 => if decode (ws.take n) == .truncated then ws.take n else beforeReserved ws n

/-- One instruction: fetch, decode, execute. The words that say which instruction it is come first, then the privilege of a
privileged operation word, then operands (60_exceptions R548). A word behind them that cannot be fetched or is reserved stops
the instruction when the operand reads before it are done (`earlyReads`, 30_encoding R150, R161; log 48). -/
def runInstruction (s : State) : Host.Outcome State Fault Refusal :=
  if s.pc.getLsbD 0 then takeAddressError s s.pc s.pc
  else
    let s := beginFetch s
    let r := fetchWords s s.pc maxWords
    match decode r.1 with
    | .ok i => runDecoded i s
    | .illegal => if s.movemEa.isSome then .refused .movemRestart else takePre s s 4
    | .reserved => runCut (beforeReserved r.1 r.1.length) (refuse .reservedExtension) s
    | .truncated => runCut r.1 (fetchStopped r.2) s

/-- A running or stopped processor: a pending interrupt, else in the running state one instruction. -/
def stepActive (s : State) : Host.Outcome State Fault Refusal :=
  let r := levelToTake (compareLevel s)
  match r.1 with
  | some l => takeInterrupt r.2 l
  | none =>
    match r.2.run with
    | .running => runInstruction r.2
    | _ => .next r.2

/-- The step function of 60_exceptions R576. Halted and stopped without host events, a step changes nothing (92 D19). -/
def cycle (s : State) : Host.Outcome State Fault Refusal :=
  match s.run with
  | .inReset => .next (takeReset s)
  | .halted => .next s
  | _ => if srT1 s.sr && srT0 s.sr then .refused .reservedTraceMode else stepActive s

end Sys2Proof.Machine
end

