-- ==== Sys2Proof/Machine/Step.lean ====
section
/-! DEFINITION. One step of the machine, and an instruction placed where it fetches. -/

namespace Sys2Proof.Machine

/-- One step (60_exceptions R576). -/
def step (s : State) : Host.Outcome State Fault Refusal := cycle s

/-- The instruction whose bits are `w` stored where the next fetch reads it (log 6). -/
def State.withFetchWord (s : State) (nbits w : Nat) : State := placeInstruction s (tableWords nbits w)

end Sys2Proof.Machine
end

