-- ==== Sys2Proof/Machine/Host.lean ====
section
/-! DEFINITION. What the outside world can do between two steps (00_scope R8, 92 D5, D14, D17, D26). -/

namespace Sys2Proof.Machine

/-- The debounced level on the IPL pins becomes `l` (92 D5, 60_exceptions R562). -/
def hostLevel (s : State) (l : BitVec 3) : State := newLevel s l

/-- RSTI is asserted: the next step is the reset exception (92 D14). -/
def hostReset (s : State) : State := { s with run := .inReset }

/-- The level on the CDIS pin (92 D17, 20_memory R113). -/
def hostCdis (s : State) (asserted : Bool) : State := cacheControl s fun t => { t with cdis := asserted }

/-- Addresses stand for another content on the second platform: another bank of memory, or other devices. -/
def otherContent (p q : Platform) : Bool := p.bank != q.bank || p.devices != q.devices

/-- Lines a cache may hold are of another content than its addresses now have: until the cache is wholly invalidated, every
access that could hit one is refused (70_reset R632). A data cache in use first gives up its view of memory, as when it goes
off; nothing of power-on is left in it. -/
def forgetLines (s : State) : State :=
  let t := if seesCache s then dcacheGoesOff s else s
  { t with
    dcache := if s.dcache == .live then .unknown else s.dcache
    purged := if s.dcache == .live then [(.all, 0)] else s.purged
    icache := if s.icache == .live then .unknown else s.icache }

/-- The platform's map and answers change (92 D4); with them the content of addresses may change behind the caches
(70_reset R632, log 46). -/
def hostPlatform (s : State) (p : Platform) : State :=
  { (if otherContent s.platform p then forgetLines s else s) with platform := p }

/-- Another bus master writes one byte; lines of both caches that hold it are updated (92 D26, 20_memory R114; log 37).
What such a write meets at a device, at read-only memory or in a TEA range is open: D26 says only that it writes `mem`.
DESIGN CHOICE (log 37, unsafe): the byte of memory changes whatever window of the platform stands there. -/
def hostWrite (s : State) (fc : BitVec 3) (a : Long) (v : Byte) : State :=
  let s := withPowerOn s .line a
  let k := memKey s fc a
  { s with
    mem := Memory.put s.mem k v
    dirty := setCells k v s.dirty
    romCells := s.romCells.filter fun c => c.1 != k
    unpushed := s.unpushed.filter fun i => i != k
    staleData := s.staleData.filter fun i => i != k
    staleInstr := s.staleInstr.filter fun i => i != k }

/-- What another bus master reads: a dirty line of the data cache answers in memory's place, also while the cache is
disabled (20_memory R113, R114; log 37). DESIGN CHOICE (log 37, unsafe): at a device, read-only memory or a TEA range too it
gets this byte of memory; D26 says only that it reads `mem`. -/
def hostRead (s : State) (fc : BitVec 3) (a : Long) : Byte :=
  let s := withPowerOn s .line a
  let k := memKey s fc a
  let hit := s.dirty.filter fun c => lineOf c.1 == lineOf k
  match (romHeld s hit ++ if seesCache s then [] else hit).find? fun c => c.1 == k with
  | some c => c.2
  | none => Memory.get s.mem k

end Sys2Proof.Machine
end

