-- ==== Sys2Proof/Safety.lean ====
section
/-! DEFINITION. What counts as a safe state and a safe run, and the words statements about an instruction are written in:
what an operand evaluation leaves, what a completed instruction keeps, when an access and an exception entry can be
completed. -/

namespace Sys2Proof.Machine

/-! ## The invariant -/

/-- The machine's invariant: memory in its canonical form, the bits of SR that do not exist zero and T1, T0 not both set
(92 D25, 93 U1), the unassigned bits of CACR and of the access control registers zero (10_state R36, R44), the lists of
keys within the eight banks, and a PC on an even address in a processor that runs or waits (20_memory R88). -/
structure Inv (s : State) : Prop where
  mem : Memory.wf s.mem
  sr : s.sr &&& ~~~srImplemented = 0
  trace : (srT1 s.sr && srT0 s.sr) = false
  cacr : s.cacr &&& ~~~cacrImplemented = 0
  iacr0 : s.iacr0 &&& ~~~acrImplemented = 0
  iacr1 : s.iacr1 &&& ~~~acrImplemented = 0
  dacr0 : s.dacr0 &&& ~~~acrImplemented = 0
  dacr1 : s.dacr1 &&& ~~~acrImplemented = 0
  dirty : ∀ c ∈ s.dirty, c.1 < 2 ^ 35
  roms : ∀ c ∈ s.romCells, c.1 < 2 ^ 35
  stale : ∀ k ∈ s.staleData, k < 2 ^ 35
  pc : s.run = .running ∨ s.run = .stopped → s.pc.getLsbD 0 = false

/-- The states `n` steps reach. -/
def Reaches : Nat → State → State → Prop
  | 0, s, t => t = s
  | n + 1, s, t => ∃ u, step s = .next u ∧ Reaches n u t

/-- A safe run of `n` steps: no step of it ends in a fault or a refusal. -/
def SafeRun (n : Nat) (s : State) : Prop := ∃ t, Reaches n s t

/-! ## What an instruction keeps -/

/-- `D[n]` as a general register. -/
def dNum (n : Reg) : GReg := (0 : BitVec 1) ++ n

/-- `A[n]` as a general register. -/
def aNum (n : Reg) : GReg := (1 : BitVec 1) ++ n

/-- The general register a mode steps (30_encoding R153). -/
def steppedRegs : Ea → List GReg
  | .postInc r => [aNum r]
  | .preDec r => [aNum r]
  | _ => []

/-- The keys of `n` bytes from an address up in the space of a function code. -/
def keysAt (s : State) (fc : BitVec 3) (a : Long) (n : Nat) : List Nat := (addrsOf a n).map (memKey s fc)

/-- The control registers, what the processor sees of its pins, its pending interrupt and the platform are as before. -/
structure KeptControl (s t : State) : Prop where
  vbr : t.vbr = s.vbr
  sfc : t.sfc = s.sfc
  dfc : t.dfc = s.dfc
  cacr : t.cacr = s.cacr
  iacr0 : t.iacr0 = s.iacr0
  iacr1 : t.iacr1 = s.iacr1
  dacr0 : t.dacr0 = s.dacr0
  dacr1 : t.dacr1 = s.dacr1
  acuStatus : t.acuStatus = s.acuStatus
  acuTcr : t.acuTcr = s.acuTcr
  ipl : t.ipl = s.ipl
  iplPrev : t.iplPrev = s.iplPrev
  pending : t.pending = s.pending
  cdis : t.cdis = s.cdis
  platform : t.platform = s.platform

/-- What is as before, when general registers `regs` and the bytes with keys `stored` may have changed: every other
general register, the stack pointers that are not active, the system byte of SR, the control registers, every other byte
of memory, the run state and the output events. -/
structure Kept (s t : State) (regs : List GReg) (stored : List Nat) : Prop where
  reg : ∀ i, i ∉ regs → t.greg i = s.greg i
  usp : s.super = true ∨ (15 : GReg) ∉ regs → t.usp = s.usp
  isp : s.super = false ∨ srM s.sr = true ∨ (15 : GReg) ∉ regs → t.isp = s.isp
  msp : s.super = false ∨ srM s.sr = false ∨ (15 : GReg) ∉ regs → t.msp = s.msp
  system : (t.sr.extractLsb' 5 11 : BitVec 11) = s.sr.extractLsb' 5 11
  control : KeptControl s t
  memory : ∀ fc a, memKey s fc a ∉ stored → byteAt t fc a = byteAt s fc a
  run : t.run = s.run
  outputs : t.outputs = s.outputs

/-- A state with the PC moved past the instruction that began in `s`. -/
def past (i : Instr) (s t : State) : State := { t with pc := nextPc i s }

/-- A state in which `n` free values have been drawn. -/
def withDraws (n : Nat) (s : State) : State := { s with draws := n }

/-- A state in which devices have answered bus cycles: their record and the draws taken (92 D4). -/
def withBus (b : List BusAccess) (n : Nat) (s : State) : State := { s with bus := b, draws := n }

/-- A state in which the flow goes on at `p`: the pipeline is empty. -/
def jumped (p : Long) (s : State) : State := { s with pc := p, stalePipe := [] }

/-- A state with another status register; a request above its mask is made pending (60_exceptions R562). -/
def withSr (v : Word) (s : State) : State :=
  { s with sr := v, pending := if s.pending = none ∧ srMask v < s.ipl then some s.ipl else s.pending }

/-- A long word pushed on the active stack (00_scope 5.3). -/
def pushed (v : Long) (s : State) : State := poke (s.setSp (s.sp - 4)) s.dataFc .long (s.sp - 4) v

/-! ## Operands -/

/-- The state after an operand's address is computed, but for the caches and devices: the register its mode steps. -/
def stepped (bytes : Nat) (e : Ea) (s : State) : State :=
  match e with
  | .postInc r => s.setAreg r (s.areg r + stepOf bytes r)
  | .preDec r => s.setAreg r (s.areg r - stepOf bytes r)
  | _ => s

/-- What evaluating an operand leaves: the register its mode steps, the records of lines that the reads pushed or
invalidated, and of bus cycles that devices answered. -/
def OperandEffect (bytes : Nat) (e : Ea) (s t : State) : Prop :=
  ∃ r b n, r.staleData ⊆ s.staleData ∧ t = withBus b n (withRecords r (stepped bytes e s))

/-- `n` bytes can be read from memory in the space of a function code. -/
def Readable (s : State) (fc : BitVec 3) (a : Long) (n : Nat) : Prop :=
  readFaults s false fc a n = false ∧ staleAccess s fc a n = false ∧ touches s.platform.devices fc a n = false

/-- `n` bytes can be written to memory in the space of a function code. -/
def Writable (s : State) (fc : BitVec 3) (a : Long) (n : Nat) : Prop :=
  writeFaults s fc a n = false ∧ staleAccess s fc a n = false
    ∧ (touches s.platform.devices fc a n || touches s.platform.roms fc a n) = false

/-- A place that can be written as operand data. -/
def CanStore (sz : Size) (l : Loc) (s : State) : Prop :=
  match l with
  | .mem a => Writable s s.dataFc a sz.bytes
  | .imm _ => False
  | _ => True

/-- The state with a value at a place: a data register keeps the bits above the operand size, an address register takes
the sign-extended value (30_encoding R151, R152). -/
def stored (sz : Size) (l : Loc) (v : BitVec sz.bits) (s : State) : State :=
  match l with
  | .dreg r => s.setDreg r (withLow (s.dreg r) sz v)
  | .areg r => s.setAreg r (sext v)
  | .mem a => poke s s.dataFc sz a v
  | .imm _ => s

/-- The general register a place is. -/
def placeRegs : Loc → List GReg
  | .dreg r => [dNum r]
  | .areg r => [aNum r]
  | _ => []

/-- The keys of the bytes a place is. -/
def placeKeys (s : State) (sz : Size) : Loc → List Nat
  | .mem a => keysAt s s.dataFc a sz.bytes
  | _ => []

/-! ## Exceptions -/

/-- The state in which the frame of an exception of `n` bytes is stacked: S set, T1 and T0 clear (60_exceptions R502). -/
def entryState (s : State) : State := { s with sr := srException s.sr, movemEa := none }

/-- Where a frame of `n` bytes lies: below the supervisor stack pointer that M selects (60_exceptions R504). -/
def frameAt (s : State) (n : Nat) : Long := (entryState s).sp - BitVec.ofNat 32 n

/-- An exception can be entered: the frame can be written, the vector can be read and lies outside the frame, and the
handler's address is even. -/
def CanEnter (s : State) (vec : BitVec 8) (n : Nat) : Prop :=
  Writable s 5 (frameAt s n) n ∧ Readable s 5 (vectorAddress s vec) 4
    ∧ (∀ j < 4, ∀ k < n, vectorAddress s vec + BitVec.ofNat 32 j ≠ frameAt s n + BitVec.ofNat 32 k)
    ∧ (peek s 5 .long (vectorAddress s vec)).getLsbD 0 = false

/-- Fields stand one after another from an address in supervisor data space. -/
def FieldsAt (s : State) : Long → List Field → Prop
  | _, [] => True
  | a, f :: rest => peek s 5 f.sz a = f.v.setWidth f.sz.bits ∧ FieldsAt s (a + BitVec.ofNat 32 f.sz.bytes) rest

/-- What an entered exception leaves (60_exceptions R501 to R505): S set and T1, T0 clear in SR, the frame of `n` bytes
below the supervisor stack pointer with the SR copy, the PC `p` and the format word, the PC from the vector, and
everything else as before. -/
structure EnteredFrom (s t : State) (vec : BitVec 8) (fmt : BitVec 4) (p : Long) (n : Nat) : Prop where
  sr : t.sr = srException s.sr
  sp : t.sp = frameAt s n
  pc : t.pc = peek s 5 .long (vectorAddress s vec)
  srCopy : peek t 5 .word t.sp = s.sr
  pcCopy : peek t 5 .long (t.sp + 2) = p
  format : peek t 5 .word (t.sp + 6) = formatWord fmt vec
  d : t.d = s.d
  a : t.a = s.a
  usp : t.usp = s.usp
  isp : srM s.sr = true → t.isp = s.isp
  msp : srM s.sr = false → t.msp = s.msp
  control : KeptControl s t
  memory : ∀ fc a, memKey s fc a ∉ keysAt s 5 (frameAt s n) n → byteAt t fc a = byteAt s fc a
  run : t.run = s.run

end Sys2Proof.Machine
end

