-- ==== Sys2Proof/Certificates/Slice0/Obligations.lean ====
section
/-! DEFINITION. The statements for the provers: what the rules of spec/ say of the machine, instruction by instruction and of
the machine as a whole. -/

namespace Sys2Proof.Claim

open Sys2Proof.Machine

/-- The result of an operation from source, destination and old condition codes. -/
abbrev Op (sz : Size) := BitVec sz.bits → BitVec sz.bits → BitVec sz.bits

/-- The condition codes of an operation from source, destination, result and old condition codes. -/
abbrev Codes (sz : Size) := BitVec sz.bits → BitVec sz.bits → BitVec sz.bits → Ccr → Ccr

/-- `<ea>,Dn`: with a readable source, and not traced, the instruction completes; `D[n]` takes the result in its low part,
the condition codes are those of the operation, the PC moves past the instruction, and everything else is kept. -/
def ToDn (mk : Reg → Ea → Instr) (sz : Size) (f : Op sz) (fl : Codes sz) : Prop :=
  ∀ (s s1 : State) (dn : Reg) (ea : Ea) (v : BitVec sz.bits),
    s.traceAll = false → readEa sz 0 ea s = .ok v s1 →
    let d := lowPart sz (s.dreg dn)
    let t := past (mk dn ea) s ((s1.setCcr (fl v d (f v d) s.ccr)).setDreg dn (withLow (s.dreg dn) sz (f v d)))
    exec (mk dn ea) s = .next t ∧ Kept s t (dNum dn :: steppedRegs ea) []

/-- An instruction that replaces the operand at a place by `r`: with the place found, read and writable, and not traced,
it completes; the place takes the result, the condition codes are `c`, the PC moves past the instruction, and everything
else is kept. `own`: the words before the operand's. -/
def Replaces (i : Instr) (sz : Size) (own : Nat) (ea : Ea) (r : State → BitVec sz.bits → BitVec sz.bits)
    (c : State → BitVec sz.bits → Ccr) : Prop :=
  ∀ (s s1 s2 : State) (l : Loc) (d : BitVec sz.bits),
    s.traceAll = false → operand sz own ea s = .ok l s1 → readLoc sz l s1 = .ok d s2 → CanStore sz l s2 →
    let t := past i s (stored sz l (r s d) (s2.setCcr (c s d)))
    exec i s = .next t ∧ Kept s t (placeRegs l ++ steppedRegs ea) (placeKeys s sz l)

end Sys2Proof.Claim

open Sys2Proof Sys2Proof.Machine Sys2Proof.Claim

/-- ADD, SUB, AND, OR `<ea>,Dn` (41 R231, R236; 42 R271, R274). -/
def Obligations.ToDataRegister : Prop :=
  ToDn .addEaDnB .byte (fun s d => d + s) addFlags ∧ ToDn .addEaDnW .word (fun s d => d + s) addFlags
  ∧ ToDn .addEaDnL .long (fun s d => d + s) addFlags
  ∧ ToDn .subEaDnB .byte (fun s d => d - s) subFlags ∧ ToDn .subEaDnW .word (fun s d => d - s) subFlags
  ∧ ToDn .subEaDnL .long (fun s d => d - s) subFlags
  ∧ ToDn .andEaDnB .byte (fun s d => d &&& s) (fun _ _ r f => logicFlags r f)
  ∧ ToDn .andEaDnW .word (fun s d => d &&& s) (fun _ _ r f => logicFlags r f)
  ∧ ToDn .andEaDnL .long (fun s d => d &&& s) (fun _ _ r f => logicFlags r f)
  ∧ ToDn .orEaDnB .byte (fun s d => d ||| s) (fun _ _ r f => logicFlags r f)
  ∧ ToDn .orEaDnW .word (fun s d => d ||| s) (fun _ _ r f => logicFlags r f)
  ∧ ToDn .orEaDnL .long (fun s d => d ||| s) (fun _ _ r f => logicFlags r f)

/-- ADD, SUB, AND, OR, EOR `Dn,<ea>` (41 R231, R236; 42 R271, R274, R277): the destination is an operand. -/
def Obligations.ToOperand : Prop :=
  ∀ (dn : Reg) (ea : Ea),
    (let src (sz : Size) (s : State) := lowPart sz (s.dreg dn)
     let sum (i : Instr) (sz : Size) := Replaces i sz 0 ea (fun s d => d + src sz s)
       (fun s d => addFlags (src sz s) d (d + src sz s) s.ccr)
     let dif (i : Instr) (sz : Size) := Replaces i sz 0 ea (fun s d => d - src sz s)
       (fun s d => subFlags (src sz s) d (d - src sz s) s.ccr)
     let log (i : Instr) (sz : Size) (f : Op sz) := Replaces i sz 0 ea (fun s d => f (src sz s) d)
       (fun s d => logicFlags (f (src sz s) d) s.ccr)
     sum (.addDnEaB dn ea) .byte ∧ sum (.addDnEaW dn ea) .word ∧ sum (.addDnEaL dn ea) .long
     ∧ dif (.subDnEaB dn ea) .byte ∧ dif (.subDnEaW dn ea) .word ∧ dif (.subDnEaL dn ea) .long
     ∧ log (.andDnEaB dn ea) .byte (fun s d => d &&& s) ∧ log (.andDnEaW dn ea) .word (fun s d => d &&& s)
     ∧ log (.andDnEaL dn ea) .long (fun s d => d &&& s)
     ∧ log (.orDnEaB dn ea) .byte (fun s d => d ||| s) ∧ log (.orDnEaW dn ea) .word (fun s d => d ||| s)
     ∧ log (.orDnEaL dn ea) .long (fun s d => d ||| s)
     ∧ log (.eorB dn ea) .byte (fun s d => d ^^^ s) ∧ log (.eorW dn ea) .word (fun s d => d ^^^ s)
     ∧ log (.eorL dn ea) .long (fun s d => d ^^^ s))

/-- ADDI, SUBI, ANDI, ORI, EORI (41 R233, R238; 42 R272, R275, R278). -/
def Obligations.ImmediateToOperand : Prop :=
  ∀ (sz : Size) (imm : Long) (ea : Ea),
    (let v := lowPart sz imm
     let log (i : Instr) (f : Op sz) := Replaces i sz (immCount sz) ea (fun _ d => f v d)
       (fun s d => logicFlags (f v d) s.ccr)
     Replaces (.addi sz imm ea) sz (immCount sz) ea (fun _ d => d + v) (fun s d => addFlags v d (d + v) s.ccr)
     ∧ Replaces (.subi sz imm ea) sz (immCount sz) ea (fun _ d => d - v) (fun s d => subFlags v d (d - v) s.ccr)
     ∧ log (.andi sz imm ea) (fun s d => d &&& s) ∧ log (.ori sz imm ea) (fun s d => d ||| s)
     ∧ log (.eori sz imm ea) (fun s d => d ^^^ s))

/-- NEG, NEGX, NOT (41 R241, R242; 42 R280), and ADDQ, SUBQ to a place that is no address register (41 R234, R239). -/
def Obligations.OneOperand : Prop :=
  ∀ (sz : Size) (ea : Ea),
    Replaces (.neg sz ea) sz 0 ea (fun _ d => 0 - d)
      (fun _ d => { x := 0 - d != 0, n := msb (0 - d), z := 0 - d == 0, v := msb d && msb (0 - d), c := 0 - d != 0 })
    ∧ Replaces (.negx sz ea) sz 0 ea (fun s d => 0 - d - bitValue sz.bits s.ccr.x)
      (fun s d =>
        let r := 0 - d - bitValue sz.bits s.ccr.x
        { x := msb d || msb r, n := msb r, z := s.ccr.z && r == 0, v := msb d && msb r, c := msb d || msb r })
    ∧ Replaces (.not sz ea) sz 0 ea (fun _ d => ~~~d) (fun s d => logicFlags (~~~d) s.ccr)
    ∧ ∀ q : BitVec 3, (∀ r, ea ≠ .an r) →
      (let v : BitVec sz.bits := BitVec.ofNat sz.bits (if q = 0 then 8 else q.toNat)
       Replaces (.addq sz q ea) sz 0 ea (fun _ d => d + v) (fun s d => addFlags v d (d + v) s.ccr)
       ∧ Replaces (.subq sz q ea) sz 0 ea (fun _ d => d - v) (fun s d => subFlags v d (d - v) s.ccr))

namespace Sys2Proof.Claim

/-- A source read and an address register replaced, all 32 bits, no flag: `f v a` for a source `v`, sign-extended, and
the register `a` as the source's mode leaves it. -/
def ToAn (mk : Reg → Ea → Instr) (sz : SizeWL) (f : Long → Long → Long) : Prop :=
  ∀ (s s1 : State) (an : Reg) (ea : Ea) (v : BitVec sz.size.bits),
    s.traceAll = false → readEa sz.size 0 ea s = .ok v s1 →
    let t := past (mk an ea) s (s1.setAreg an (f (sext v) (s1.areg an)))
    exec (mk an ea) s = .next t ∧ t.ccr = s.ccr ∧ Kept s t (aNum an :: steppedRegs ea) []

/-- An instruction that reads one operand and changes the condition codes only. -/
def OnlyFlags (i : Instr) (sz : Size) (own : Nat) (ea : Ea) (c : State → BitVec sz.bits → Ccr) : Prop :=
  ∀ (s s1 : State) (v : BitVec sz.bits),
    s.traceAll = false → readEa sz own ea s = .ok v s1 →
    let t := past i s (s1.setCcr (c s1 v))
    exec i s = .next t ∧ Kept s t (steppedRegs ea) []

/-- An instruction without operands in memory: the next state is `f s` with the PC moved past the instruction; `regs`
are the registers it writes. -/
def Registers (i : Instr) (regs : List GReg) (f : State → State) : Prop :=
  ∀ s : State, s.traceAll = false → exec i s = .next (past i s (f s)) ∧ Kept s (f s) regs []

/-- The condition codes of an extended addition or subtraction: Z is only cleared. -/
def extendedCodes (sz : Size) (r : BitVec sz.bits) (v c : Bool) (f : Ccr) : Ccr :=
  { x := c, n := msb r, z := f.z && r == 0, v := v, c := c }

/-- The memory form of an extended instruction: source at -(Ay), then destination at -(Ax), both readable, the
destination writable. `step`: how far each register moves. -/
def ExtendedMemory (i : Instr) (sz : Size) (x y : Reg) (r : State → BitVec sz.bits → BitVec sz.bits → BitVec sz.bits)
    (c : State → BitVec sz.bits → BitVec sz.bits → Ccr) : Prop :=
  ∀ (s s1 s2 : State) (v d : BitVec sz.bits),
    s.traceAll = false → readEa sz 0 (.preDec y) s = .ok v s1 →
    (let a := s1.areg x - stepOf sz.bytes x
     readMem sz a (s1.setAreg x a) = .ok d s2 → Writable s2 s.dataFc a sz.bytes →
     let t := past i s (poke (s2.setCcr (c s v d)) s.dataFc sz a (r s v d))
     exec i s = .next t ∧ Kept s t [aNum x, aNum y] (keysAt s s.dataFc a sz.bytes))

end Sys2Proof.Claim

/-- ADDA, SUBA, MOVEA and LEA, and ADDQ, SUBQ to an address register (41 R232, R237, R234, R239; 40 R202, R207). -/
def Obligations.AddressRegisters : Prop :=
  (∀ sz, ToAn (.adda sz) sz (fun v a => a + v)) ∧ (∀ sz, ToAn (.suba sz) sz (fun v a => a - v))
  ∧ (∀ sz, ToAn (.movea sz) sz (fun v _ => v))
  ∧ (∀ (s s1 : State) (an : Reg) (ea : Ea) (a : Long), s.traceAll = false → eaAddress 4 0 ea s = .ok a s1 →
      let t := past (.lea an ea) s (s1.setAreg an a)
      exec (.lea an ea) s = .next t ∧ t.ccr = s.ccr ∧ Kept s t (aNum an :: steppedRegs ea) [])
  ∧ ∀ (sz : Size) (q : BitVec 3) (r : Reg),
      (let n : Long := BitVec.ofNat 32 (if q = 0 then 8 else q.toNat)
       Registers (.addq sz q (.an r)) [aNum r] (fun s => s.setAreg r (s.areg r + n))
       ∧ Registers (.subq sz q (.an r)) [aNum r] (fun s => s.setAreg r (s.areg r - n)))

/-- CMP, CMPA, CMPI, CMPM and TST set the flags of a comparison and store nothing (41 R244 to R247; 47 R361). -/
def Obligations.Comparisons : Prop :=
  (∀ dn ea, OnlyFlags (.cmpB dn ea) .byte 0 ea (fun s v =>
      cmpFlags v (lowPart .byte (s.dreg dn)) (lowPart .byte (s.dreg dn) - v) s.ccr))
  ∧ (∀ dn ea, OnlyFlags (.cmpW dn ea) .word 0 ea (fun s v =>
      cmpFlags v (lowPart .word (s.dreg dn)) (lowPart .word (s.dreg dn) - v) s.ccr))
  ∧ (∀ dn ea, OnlyFlags (.cmpL dn ea) .long 0 ea (fun s v => cmpFlags v (s.dreg dn) (s.dreg dn - v) s.ccr))
  ∧ (∀ sz an ea, OnlyFlags (.cmpa sz an ea) sz.size 0 ea (fun s v =>
      cmpFlags (sext v) (s.areg an) (s.areg an - sext v) s.ccr))
  ∧ (∀ sz imm ea, OnlyFlags (.cmpi sz imm ea) sz (immCount sz) ea (fun s v =>
      cmpFlags (lowPart sz imm) v (v - lowPart sz imm) s.ccr))
  ∧ (∀ sz ea, OnlyFlags (.tst sz ea) sz 0 ea (fun s v => logicFlags v s.ccr))
  ∧ ∀ (s s1 s2 : State) (sz : Size) (x y : Reg) (v d : BitVec sz.bits), s.traceAll = false →
      readEa sz 0 (.postInc y) s = .ok v s1 → readEa sz 0 (.postInc x) s1 = .ok d s2 →
      (let t := past (.cmpm sz x y) s (s2.setCcr (cmpFlags v d (d - v) s.ccr))
       exec (.cmpm sz x y) s = .next t ∧ Kept s t [aNum x, aNum y] [])

/-- ADDX and SUBX of data registers and of memory at -(Ay), -(Ax) (41 R235, R240). -/
def Obligations.ExtendedArithmetic : Prop :=
  ∀ (sz : Size) (x y : Reg),
    (let add (s : State) (v d : BitVec sz.bits) := d + v + bitValue sz.bits s.ccr.x
     let sub (s : State) (v d : BitVec sz.bits) := d - v - bitValue sz.bits s.ccr.x
     let addc (s : State) (v d : BitVec sz.bits) :=
       extendedCodes sz (add s v d) (addV v d (add s v d)) (addC v d (add s v d)) s.ccr
     let subc (s : State) (v d : BitVec sz.bits) :=
       extendedCodes sz (sub s v d) (subV v d (sub s v d)) (subC v d (sub s v d)) s.ccr
     Registers (.addx sz false x y) [dNum x] (fun s =>
       (s.setCcr (addc s (lowPart sz (s.dreg y)) (lowPart sz (s.dreg x)))).setDreg x
         (withLow (s.dreg x) sz (add s (lowPart sz (s.dreg y)) (lowPart sz (s.dreg x)))))
     ∧ Registers (.subx sz false x y) [dNum x] (fun s =>
       (s.setCcr (subc s (lowPart sz (s.dreg y)) (lowPart sz (s.dreg x)))).setDreg x
         (withLow (s.dreg x) sz (sub s (lowPart sz (s.dreg y)) (lowPart sz (s.dreg x)))))
     ∧ ExtendedMemory (.addx sz true x y) sz x y add addc ∧ ExtendedMemory (.subx sz true x y) sz x y sub subc)

/-- MOVE: source, then destination; N and Z of the value, V and C clear, X kept (40 R201). Where the destination's mode
steps the address register that is the source, the value is the old or the new register (93 U8, log 23). -/
def Obligations.Move : Prop :=
  ∀ (s s1 s2 : State) (sz : Size) (src dst : Ea) (l : Loc) (v : BitVec sz.bits), s.traceAll = false →
    readEa sz 0 src s = .ok v s1 → operand sz (src.words sz).length dst s1 = .ok l s2 → CanStore sz l s2 →
    ∃ (w : BitVec sz.bits) (n : Nat),
      (let t := past (.move sz src dst) s (stored sz l w ((withDraws n s2).setCcr (logicFlags w s.ccr)))
       exec (.move sz src dst) s = .next t
       ∧ (aliased src dst = false → w = v ∧ n = s2.draws)
       ∧ (aliased src dst = true → w = v ∨ readEa sz 0 src s2 = .ok w s2)
       ∧ Kept s t (placeRegs l ++ (steppedRegs dst ++ steppedRegs src)) (placeKeys s sz l))

/-- MOVEQ, EXG, SWAP, EXT and EXTB work on registers only, NOP on nothing (40 R203, R210; 43 R300; 41 R249 to R251; 47
R366). -/
def Obligations.RegisterMoves : Prop :=
  (∀ dn d, Registers (.moveq dn d) [dNum dn] (fun s => (s.setDreg dn (sext d)).setCcr (logicFlags (sext d : Long) s.ccr)))
  ∧ (∀ x y, Registers (.exgDD x y) [dNum x, dNum y] (fun s => (s.setDreg x (s.dreg y)).setDreg y (s.dreg x)))
  ∧ (∀ x y, Registers (.exgAA x y) [aNum x, aNum y] (fun s => (s.setAreg x (s.areg y)).setAreg y (s.areg x)))
  ∧ (∀ x y, Registers (.exgDA x y) [dNum x, aNum y] (fun s => (s.setDreg x (s.areg y)).setAreg y (s.dreg x)))
  ∧ (∀ dn, Registers (.swap dn) [dNum dn] (fun s =>
      let r : Long := (s.dreg dn).rotateLeft 16
      (s.setDreg dn r).setCcr (logicFlags r s.ccr)))
  ∧ (∀ dn, Registers (.extW dn) [dNum dn] (fun s =>
      let r : Word := ((s.dreg dn).setWidth 8).signExtend 16
      (s.setDreg dn (withLow (s.dreg dn) .word r)).setCcr (logicFlags r s.ccr)))
  ∧ (∀ dn, Registers (.extL dn) [dNum dn] (fun s =>
      let r : Long := ((s.dreg dn).setWidth 16).signExtend 32
      (s.setDreg dn r).setCcr (logicFlags r s.ccr)))
  ∧ Registers .nop [] (fun s => s)
  ∧ ∀ dn, Registers (.extbL dn) [dNum dn] (fun s =>
      let r : Long := ((s.dreg dn).setWidth 8).signExtend 32
      (s.setDreg dn r).setCcr (logicFlags r s.ccr))

namespace Sys2Proof.Claim

/-- An instruction that writes an operand without reading it: `v` to the place, condition codes `c`, when `need` holds. -/
def Writes (i : Instr) (sz : Size) (ea : Ea) (need : State → Prop) (v : State → BitVec sz.bits) (c : State → Ccr) : Prop :=
  ∀ (s s1 : State) (l : Loc),
    s.traceAll = false → need s → operand sz 0 ea s = .ok l s1 → CanStore sz l s1 →
    let t := past i s (stored sz l (v s) (s1.setCcr (c s)))
    exec i s = .next t ∧ Kept s t (placeRegs l ++ steppedRegs ea) (placeKeys s sz l)

/-- An instruction that reads a word or a long word and replaces data register `dn` and the condition codes. -/
def Replaced (i : Instr) (sz : Size) (own : Nat) (ea : Ea) (dn : Reg) (r : State → BitVec sz.bits → Long)
    (c : State → BitVec sz.bits → Ccr) : Prop :=
  ∀ (s s1 : State) (v : BitVec sz.bits), s.traceAll = false → readEa sz own ea s = .ok v s1 →
    let t := past i s ((s1.setDreg dn (r s v)).setCcr (c s v))
    exec i s = .next t ∧ Kept s t (dNum dn :: steppedRegs ea) []

/-- A division in the integers that truncates toward zero. -/
def IsDivision (d v q r : Int) : Prop := d = q * v + r ∧ |r| < |v| ∧ (0 ≤ d → 0 ≤ r) ∧ (d ≤ 0 → r ≤ 0)

/-- A division by a source that is not zero: a quotient that fits is stored with its remainder by `store`, N and Z are of
the quotient, V and C clear; one that does not fit leaves the registers, sets V and clears C, N and Z being free. -/
def Divides (i : Instr) (sz : Size) (own : Nat) (ea : Ea) (k : Nat) (regs : List GReg) (num : State → Int)
    (den : BitVec sz.bits → Int) (fits : Int → Prop) (store : Int → Int → State → State) : Prop :=
  ∀ (s s1 : State) (v : BitVec sz.bits), s.traceAll = false → readEa sz own ea s = .ok v s1 → v ≠ 0 →
    ∃ q r : Int, IsDivision (num s) (den v) q r ∧
      (fits q →
        (let t := past i s ((store q r s1).setCcr (logicFlags (BitVec.ofInt k q) s.ccr))
         exec i s = .next t ∧ Kept s t (regs ++ steppedRegs ea) []))
      ∧ (¬ fits q → ∃ (n : Nat) (f : Ccr), f.x = s.ccr.x ∧ f.v = true ∧ f.c = false ∧
        (let t := past i s ((withDraws n s1).setCcr f)
         exec i s = .next t ∧ Kept s t (steppedRegs ea) []))

end Sys2Proof.Claim

/-- CLR, Scc and MOVE from CCR write an operand that need not be readable, and so does MOVE from SR in supervisor mode
(41 R243; 47 R355; 48 R384, R386). -/
def Obligations.WriteOnly : Prop :=
  (∀ sz ea, Writes (.clr sz ea) sz ea (fun _ => True) (fun _ => 0)
    (fun s => { x := s.ccr.x, n := false, z := true, v := false, c := false }))
  ∧ (∀ c ea, Writes (.scc c ea) .byte ea (fun _ => True) (fun s => if condHolds c s.ccr then 0xFF else 0) State.ccr)
  ∧ (∀ ea, Writes (.moveFromCcr ea) .word ea (fun _ => True) (fun s => s.sr &&& 0x001F) State.ccr)
  ∧ ∀ ea, Writes (.moveFromSr ea) .word ea (fun s => s.super = true) State.sr State.ccr

/-- ANDI, ORI, EORI to CCR and MOVE to CCR change the condition codes only (42 R273, R276, R279; 48 R387). -/
def Obligations.ConditionCodes : Prop :=
  (∀ v, Registers (.andiCcr v) [] (fun s => s.setCcr (ccrOf (s.sr &&& v.setWidth 16))))
  ∧ (∀ v, Registers (.oriCcr v) [] (fun s => s.setCcr (ccrOf (s.sr ||| v.setWidth 16))))
  ∧ (∀ v, Registers (.eoriCcr v) [] (fun s => s.setCcr (ccrOf (s.sr ^^^ v.setWidth 16))))
  ∧ ∀ ea, OnlyFlags (.moveToCcr ea) .word 0 ea (fun _ v => ccrOf v)

/-- MULU and MULS: the exact product, all of it or its low 32 bits; V tells a product the 32-bit form does not hold; the
64-bit form with Dh = Dl is refused (41 R252 to R255, 93 U11). -/
def Obligations.Multiply : Prop :=
  (∀ dn ea, (let p (s : State) (v : Word) : Long := BitVec.ofNat 32 (v.toNat * (lowPart .word (s.dreg dn)).toNat)
      Replaced (.muluW dn ea) .word 0 ea dn p (fun s v => logicFlags (p s v) s.ccr)))
  ∧ (∀ dn ea, (let p (s : State) (v : Word) : Long := BitVec.ofInt 32 (v.toInt * (lowPart .word (s.dreg dn)).toInt)
      Replaced (.mulsW dn ea) .word 0 ea dn p (fun s v => logicFlags (p s v) s.ccr)))
  ∧ (∀ dl dh ea, (let p (s : State) (v : Long) : Nat := v.toNat * (s.dreg dl).toNat
      let l (s : State) (v : Long) : Long := BitVec.ofNat 32 (p s v)
      Replaced (.muluL dl dh false ea) .long 1 ea dl l
        (fun s v => { logicFlags (l s v) s.ccr with v := decide (2 ^ 32 ≤ p s v) })))
  ∧ (∀ dl dh ea, (let p (s : State) (v : Long) : Int := v.toInt * (s.dreg dl).toInt
      let l (s : State) (v : Long) : Long := BitVec.ofInt 32 (p s v)
      Replaced (.mulsL dl dh false ea) .long 1 ea dl l
        (fun s v => { logicFlags (l s v) s.ccr with v := decide (p s v < -2 ^ 31 ∨ 2 ^ 31 ≤ p s v) })))
  ∧ (∀ (s s1 : State) (dl dh : Reg) (ea : Ea) (v : Long) (signed : Bool), s.traceAll = false → dl ≠ dh →
      readEa .long 1 ea s = .ok v s1 →
      (let i : Instr := if signed then .mulsL dl dh true ea else .muluL dl dh true ea
       let p : BitVec 64 := if signed then BitVec.ofInt 64 (v.toInt * (s.dreg dl).toInt)
         else BitVec.ofNat 64 (v.toNat * (s.dreg dl).toNat)
       let t := past i s (((s1.setDreg dh (p.extractLsb' 32 32)).setDreg dl (p.extractLsb' 0 32)).setCcr
         (logicFlags p s.ccr))
       exec i s = .next t ∧ Kept s t (dNum dl :: dNum dh :: steppedRegs ea) []))
  ∧ ∀ (s : State) (d : Reg) (ea : Ea), exec (.muluL d d true ea) s = .refused .mulDivSameRegister
      ∧ exec (.mulsL d d true ea) s = .refused .mulDivSameRegister

/-- DIVU.W, DIVS.W, DIVU.L, DIVUL.L, DIVS.L and DIVSL.L by a divisor that is not zero (41 R256 to R259): quotient and
remainder of the integers, in one word each or in two registers. -/
def Obligations.Divide : Prop :=
  (∀ dn ea, Divides (.divuW dn ea) .word 0 ea 16 [dNum dn] (fun s => (s.dreg dn).toNat) (fun v => v.toNat)
      (fun q => q < 2 ^ 16) (fun q r s => s.setDreg dn ((BitVec.ofInt 16 r : Word) ++ (BitVec.ofInt 16 q : Word))))
  ∧ (∀ dn ea, Divides (.divsW dn ea) .word 0 ea 16 [dNum dn] (fun s => (s.dreg dn).toInt) (fun v => v.toInt)
      (fun q => -2 ^ 15 ≤ q ∧ q < 2 ^ 15)
      (fun q r s => s.setDreg dn ((BitVec.ofInt 16 r : Word) ++ (BitVec.ofInt 16 q : Word))))
  ∧ ∀ (dq dr : Reg) (wide : Bool) (ea : Ea), (wide = true → dq ≠ dr) →
      (let store (q r : Int) (s : State) : State := (s.setDreg dr (BitVec.ofInt 32 r)).setDreg dq (BitVec.ofInt 32 q)
       Divides (.divuL dq dr wide ea) .long 1 ea 32 [dNum dq, dNum dr]
        (fun s => if wide then ((s.dreg dr).toNat * 2 ^ 32 + (s.dreg dq).toNat : Nat) else (s.dreg dq).toNat)
        (fun v => v.toNat) (fun q => q < 2 ^ 32) store
       ∧ Divides (.divsL dq dr wide ea) .long 1 ea 32 [dNum dq, dNum dr]
        (fun s => if wide then (s.dreg dr).toInt * 2 ^ 32 + (s.dreg dq).toNat else (s.dreg dq).toInt)
        (fun v => v.toInt) (fun q => -2 ^ 31 ≤ q ∧ q < 2 ^ 31) store)

/-- The flag formulas of 00_scope 5.5 are the carries, borrows and overflows of the arithmetic of numbers. -/
def Obligations.FlagsAreArithmetic : Prop :=
  ∀ (n : Nat) (s d : BitVec n), 0 < n →
    addC s d (d + s) = decide (2 ^ n ≤ d.toNat + s.toNat)
    ∧ subC s d (d - s) = decide (d.toNat < s.toNat)
    ∧ addV s d (d + s) = decide (d.toInt + s.toInt < -2 ^ (n - 1) ∨ 2 ^ (n - 1) ≤ d.toInt + s.toInt)
    ∧ subV s d (d - s) = decide (d.toInt - s.toInt < -2 ^ (n - 1) ∨ 2 ^ (n - 1) ≤ d.toInt - s.toInt)
    ∧ ∀ x : Bool,
      addC s d (d + s + bitValue n x) = decide (2 ^ n ≤ d.toNat + s.toNat + x.toNat)
      ∧ subC s d (d - s - bitValue n x) = decide (d.toNat < s.toNat + x.toNat)

namespace Sys2Proof.Claim

/-- An operand with the condition codes, moved by one place. -/
abbrev OneStep := {w : Nat} → BitVec w × Ccr → BitVec w × Ccr

/-- An operand, with codes X, V and C given and N and Z its own. -/
def coded {w : Nat} (r : BitVec w) (x v c : Bool) : BitVec w × Ccr := (r, { x := x, n := msb r, z := r == 0, v := v, c := c })

/-- ASL by one: the sign bit leaves to C and X, V remembers a change of the sign (43 R291). -/
def aslOne : OneStep := fun p => coded (p.1 <<< 1) (msb p.1) (p.2.v || msb p.1 != msb (p.1 <<< 1)) (msb p.1)

/-- ASR by one: the sign is kept (43 R292). -/
def asrOne : OneStep := fun p => coded (p.1.sshiftRight 1) (p.1.getLsbD 0) false (p.1.getLsbD 0)

/-- LSL by one (43 R293). -/
def lslOne : OneStep := fun p => coded (p.1 <<< 1) (msb p.1) false (msb p.1)

/-- LSR by one (43 R294). -/
def lsrOne : OneStep := fun p => coded (p.1 >>> 1) (p.1.getLsbD 0) false (p.1.getLsbD 0)

/-- ROL by one: the bit that leaves comes in at the other end, X is kept (43 R295). -/
def rolOne : OneStep := fun {w} p => coded ((p.1 <<< 1) ||| bitValue w (msb p.1)) p.2.x false (msb p.1)

/-- ROR by one (43 R296). -/
def rorOne : OneStep := fun {w} p =>
  coded ((p.1 >>> 1) ||| (bitValue w (p.1.getLsbD 0) <<< (w - 1))) p.2.x false (p.1.getLsbD 0)

/-- ROXL by one: X comes in, the bit that leaves goes to X and C (43 R297). -/
def roxlOne : OneStep := fun {w} p => coded ((p.1 <<< 1) ||| bitValue w p.2.x) (msb p.1) false (msb p.1)

/-- ROXR by one (43 R298). -/
def roxrOne : OneStep := fun {w} p =>
  coded ((p.1 >>> 1) ||| (bitValue w p.2.x <<< (w - 1))) (p.1.getLsbD 0) false (p.1.getLsbD 0)

/-- `n` steps from an operand: with none, N and Z are the operand's, V and C are clear, X is kept. -/
def steps (one : OneStep) {w : Nat} (n : Nat) (d : BitVec w) (f : Ccr) : BitVec w × Ccr :=
  (one)^[n] (d, logicFlags d f)

/-- The codes after `n` steps; a ROXL or ROXR by none copies X to C (43 R297). -/
def stepCodes (one : OneStep) (extend : Bool) {w : Nat} (n : Nat) (d : BitVec w) (f : Ccr) : Ccr :=
  if extend && n == 0 then { (steps one n d f).2 with c := f.x } else (steps one n d f).2

/-- A register shift: `n` steps, for a count `n` of 1 to 8, or of a data register modulo 64 (43 R290). -/
def ShiftsRegister (mk : Size → ShiftCount → Reg → Instr) (one : OneStep) (extend : Bool) : Prop :=
  ∀ (sz : Size) (count : ShiftCount) (dy : Reg), Registers (mk sz count dy) [dNum dy] (fun s =>
    let n := match count with
      | .imm c => if c = 0 then 8 else c.toNat
      | .reg r => (s.dreg r).toNat % 64
    (s.setDreg dy (withLow (s.dreg dy) sz (steps one n (lowPart sz (s.dreg dy)) s.ccr).1)).setCcr
      (stepCodes one extend n (lowPart sz (s.dreg dy)) s.ccr))

/-- A memory shift: a word by one (43 R290). -/
def ShiftsMemory (mk : Ea → Instr) (one : OneStep) : Prop :=
  ∀ ea, Replaces (mk ea) .word 0 ea (fun s d => (one (d, { s.ccr with v := false })).1)
    (fun s d => (one (d, { s.ccr with v := false })).2)

end Sys2Proof.Claim

/-- A register shift or rotate is as many shifts by one place as its count says, a memory shift moves a word by one place
(43 R290 to R298). -/
def Obligations.Shifts : Prop :=
  ShiftsRegister .aslReg aslOne false ∧ ShiftsRegister .asrReg asrOne false ∧ ShiftsRegister .lslReg lslOne false
  ∧ ShiftsRegister .lsrReg lsrOne false ∧ ShiftsRegister .rolReg rolOne false ∧ ShiftsRegister .rorReg rorOne false
  ∧ ShiftsRegister .roxlReg roxlOne true ∧ ShiftsRegister .roxrReg roxrOne true
  ∧ ShiftsMemory .aslMem aslOne ∧ ShiftsMemory .asrMem asrOne ∧ ShiftsMemory .lslMem lslOne ∧ ShiftsMemory .lsrMem lsrOne
  ∧ ShiftsMemory .rolMem rolOne ∧ ShiftsMemory .rorMem rorOne ∧ ShiftsMemory .roxlMem roxlOne
  ∧ ShiftsMemory .roxrMem roxrOne

namespace Sys2Proof.Claim

/-- Z is the complement of bit `n`, taken modulo the width. -/
def tested {w : Nat} (v : BitVec w) (n : Nat) (f : Ccr) : Ccr := { f with z := !v.getLsbD (n % w) }

/-- A value with bit `n` given. -/
def withBit {w : Nat} (v : BitVec w) (n : Nat) (b : Bool) : BitVec w :=
  if b then v ||| BitVec.twoPow w (n % w) else v &&& ~~~BitVec.twoPow w (n % w)

/-- A bit instruction with bit number `n`: of 32 bits in a data register, of 8 in memory; the bit becomes `f` of what it
was. -/
def ChangesBit (i : Ea → Instr) (own : Nat) (n : State → Nat) (f : Bool → Bool) : Prop :=
  (∀ r, Registers (i (.dn r)) [dNum r] (fun s =>
    (s.setCcr (tested (s.dreg r) (n s) s.ccr)).setDreg r (withBit (s.dreg r) (n s) (f ((s.dreg r).getLsbD (n s % 32))))))
  ∧ ∀ ea, (∀ r, ea ≠ .dn r) → Replaces (i ea) .byte own ea
      (fun s d => withBit d (n s) (f (d.getLsbD (n s % 8)))) (fun s d => tested d (n s) s.ccr)

/-- A bit test with bit number `n`. -/
def TestsBit (i : Ea → Instr) (own : Nat) (n : State → Nat) : Prop :=
  (∀ r, Registers (i (.dn r)) [] (fun s => s.setCcr (tested (s.dreg r) (n s) s.ccr)))
  ∧ ∀ (ea : Ea) (s s1 : State) (v : Byte), (∀ r, ea ≠ .dn r) → s.traceAll = false → readEa .byte own ea s = .ok v s1 →
      (let t := past (i ea) s (s1.setCcr (tested v (n s) s.ccr))
       exec (i ea) s = .next t ∧ Kept s t (steppedRegs ea) [])

end Sys2Proof.Claim

/-- BTST, BCHG, BCLR and BSET, with the bit number in the instruction or in a data register (44 R310 to R314). -/
def Obligations.BitInstructions : Prop :=
  (∀ n : Byte, TestsBit (.btstImm n) 1 (fun _ => n.toNat) ∧ ChangesBit (.bchgImm n) 1 (fun _ => n.toNat) (fun b => !b)
    ∧ ChangesBit (.bclrImm n) 1 (fun _ => n.toNat) (fun _ => false)
    ∧ ChangesBit (.bsetImm n) 1 (fun _ => n.toNat) (fun _ => true))
  ∧ ∀ dn : Reg, (let num (s : State) := (s.dreg dn).toNat
      TestsBit (.btstReg dn) 0 num ∧ ChangesBit (.bchgReg dn) 0 num (fun b => !b)
      ∧ ChangesBit (.bclrReg dn) 0 num (fun _ => false) ∧ ChangesBit (.bsetReg dn) 0 num (fun _ => true))

namespace Sys2Proof.Claim

/-- The instruction completes: a next state `t` with the PC moved past the instruction, everything but general registers
`regs` and the bytes with keys `keys` as before, and `P t`. -/
def Completes (i : Instr) (s : State) (regs : List GReg) (keys : List Nat) (P : State → Prop) : Prop :=
  ∃ t, exec i s = .next t ∧ t.pc = nextPc i s ∧ Kept s t regs keys ∧ P t

/-- The offset of a bit field as a number: 0 to 31, or the signed register. -/
def fieldOffset (s : State) (bf : BitField) : Int :=
  match bf.offset with
  | .imm v => v.toNat
  | .reg r => (s.dreg r).toInt

/-- The width of a bit field: 1 to 32. -/
def fieldWidth (s : State) (bf : BitField) : Nat :=
  let n := match bf.width with
    | .imm v => v.toNat
    | .reg r => (s.dreg r).toNat % 32
  if n = 0 then 32 else n

/-- The place in a data register of the `j`-th bit of a field, counted from its most significant one. -/
def registerBit (o : Int) (j : Nat) : Nat := 31 - ((o + j) % 32).toNat

/-- Bit `k` of memory from an address, counted from the most significant bit of the byte there. -/
def memoryBit (s : State) (a : Long) (k : Nat) : Bool :=
  (byteAt s s.dataFc (a + BitVec.ofNat 32 (k / 8))).getLsbD (7 - k % 8)

/-- The address of the byte a field in memory begins in, for the address `a` of the operand. -/
def fieldBase (s : State) (bf : BitField) (a : Long) : Long := a + BitVec.ofInt 32 (fieldOffset s bf / 8)

/-- The place of a field's first bit in that byte. -/
def firstBit (s : State) (bf : BitField) : Nat := (fieldOffset s bf % 8).toNat

/-- How many bytes a field takes. -/
def fieldBytesIn (s : State) (bf : BitField) : Nat := (firstBit s bf + fieldWidth s bf + 7) / 8

/-- The bits of a field, the most significant first, in a data register or in readable memory; `s1` is the state once the
operand's address is computed. -/
def FieldIs (s s1 : State) (bf : BitField) (ea : Ea) (bits : Nat → Bool) : Prop :=
  match ea with
  | .dn r => s1 = s ∧ ∀ j, bits j = (s.dreg r).getLsbD (registerBit (fieldOffset s bf) j)
  | ea => ∃ a, eaAddress 1 1 ea s = .ok a s1 ∧ Readable s1 s.dataFc (fieldBase s bf a) (fieldBytesIn s bf)
      ∧ ∀ j, bits j = memoryBit s (fieldBase s bf a) (firstBit s bf + j)

/-- A value has these `w` bits, the most significant first, and no others. -/
def HasBits (w : Nat) (v : Long) (bits : Nat → Bool) : Prop :=
  (∀ j < w, v.getLsbD (w - 1 - j) = bits j) ∧ ∀ j, w ≤ j → v.getLsbD j = false

/-- The codes of a field. -/
def codesOf (w : Nat) (v : Long) (f : Ccr) : Ccr := { x := f.x, n := v.getLsbD (w - 1), z := v == 0, v := false, c := false }

/-- An instruction that gives a field new bits, in a data register or in writable memory; the codes are those of `v`. -/
def GivesField (i : BitField → Ea → Instr) (s s1 : State) (bf : BitField) (ea : Ea) (v : Long) (new : Nat → Bool) : Prop :=
  let w := fieldWidth s bf
  match ea with
  | .dn r => Completes (i bf ea) s [dNum r] [] fun t =>
      t.ccr = codesOf w v s.ccr
      ∧ (∀ j < w, (t.dreg r).getLsbD (registerBit (fieldOffset s bf) j) = new j)
      ∧ ∀ k < 32, (∀ j < w, k ≠ registerBit (fieldOffset s bf) j) → (t.dreg r).getLsbD k = (s.dreg r).getLsbD k
  | ea => ∀ a, eaAddress 1 1 ea s = .ok a s1 → Writable s1 s.dataFc (fieldBase s bf a) (fieldBytesIn s bf) →
      Completes (i bf ea) s (steppedRegs ea) (keysAt s s.dataFc (fieldBase s bf a) (fieldBytesIn s bf)) fun t =>
        t.ccr = codesOf w v s.ccr
        ∧ ∀ k < 8 * fieldBytesIn s bf, memoryBit t (fieldBase s bf a) k =
          if firstBit s bf ≤ k ∧ k < firstBit s bf + w then new (k - firstBit s bf)
          else memoryBit s (fieldBase s bf a) k

end Sys2Proof.Claim

/-- BFTST, BFEXTU, BFEXTS and BFFFO of a field in a data register or in memory (45 R320 to R324). -/
def Obligations.BitFieldReads : Prop :=
  ∀ (s s1 : State) (dn : Reg) (bf : BitField) (ea : Ea) (bits : Nat → Bool) (v : Long), s.traceAll = false →
    FieldIs s s1 bf ea bits → HasBits (fieldWidth s bf) v bits →
    (let w := fieldWidth s bf
     Completes (.bftst bf ea) s (steppedRegs ea) [] (fun t => t.ccr = codesOf w v s.ccr)
     ∧ Completes (.bfextu dn bf ea) s (dNum dn :: steppedRegs ea) [] (fun t =>
        t.ccr = codesOf w v s.ccr ∧ t.dreg dn = v)
     ∧ Completes (.bfexts dn bf ea) s (dNum dn :: steppedRegs ea) [] (fun t =>
        t.ccr = codesOf w v s.ccr
        ∧ (t.dreg dn).toInt = if v.getLsbD (w - 1) then (v.toNat : Int) - 2 ^ w else v.toNat)
     ∧ Completes (.bfffo dn bf ea) s (dNum dn :: steppedRegs ea) [] (fun t =>
        t.ccr = codesOf w v s.ccr
        ∧ ∃ k, (∀ j < k, bits j = false) ∧ (k = w ∨ k < w ∧ bits k = true)
          ∧ t.dreg dn = BitVec.ofInt 32 ((match ea with
              | .dn _ => fieldOffset s bf % 32
              | _ => fieldOffset s bf) + k)))

/-- BFCHG, BFCLR, BFSET and BFINS of a field in a data register or in memory: the bits outside the field are kept
(45 R320, R325 to R328). -/
def Obligations.BitFieldWrites : Prop :=
  ∀ (s s1 : State) (dn : Reg) (bf : BitField) (ea : Ea) (bits : Nat → Bool) (v : Long), s.traceAll = false →
    FieldIs s s1 bf ea bits → HasBits (fieldWidth s bf) v bits →
    GivesField .bfchg s s1 bf ea v (fun j => !bits j) ∧ GivesField .bfclr s s1 bf ea v (fun _ => false)
    ∧ GivesField .bfset s s1 bf ea v (fun _ => true)
    ∧ ∀ u, (let new (j : Nat) := (s.dreg dn).getLsbD (fieldWidth s bf - 1 - j)
        HasBits (fieldWidth s bf) u new → GivesField (.bfins dn) s s1 bf ea u new)

namespace Sys2Proof.Claim

/-- Both digits of a byte are decimal. -/
def isDecimal (b : Byte) : Prop := b.toNat / 16 < 10 ∧ b.toNat % 16 < 10

/-- The number two decimal digits write. -/
def decimalValue (b : Byte) : Nat := b.toNat / 16 * 10 + b.toNat % 16

/-- A decimal result `r` with codes `f` for the exact value `t`: Z is only cleared, by a result that is not zero; from
decimal operands the digits are those of `t` modulo 100, and X and C tell the carry or borrow. N and V are free. Without
decimal operands the byte, X and C are free, and that Z is then the one of the free byte is the model's choice (log 24). -/
def DecimalResult (s : State) (ok : Prop) (t : Int) (r : Byte) (f : Ccr) : Prop :=
  f.z = (s.ccr.z && r == 0)
    ∧ (ok → isDecimal r ∧ (decimalValue r : Int) = t % 100 ∧ f.x = f.c ∧ f.c = decide (t < 0 ∨ 100 ≤ t))

/-- ABCD or SBCD: `g` of source, destination and X; data registers, or bytes at -(Ay) and -(Ax). -/
def DecimalPair (mk : Bool → Reg → Reg → Instr) (g : Int → Int → Int → Int) : Prop :=
  ∀ (x y : Reg) (s : State), s.traceAll = false →
    (let value (v d : Byte) := g (decimalValue v) (decimalValue d) s.ccr.x.toNat
     (let v := lowPart .byte (s.dreg y)
      let d := lowPart .byte (s.dreg x)
      ∃ r f n, DecimalResult s (isDecimal v ∧ isDecimal d) (value v d) r f ∧
        (let t := past (mk false x y) s (((withDraws n s).setCcr f).setDreg x (withLow (s.dreg x) .byte r))
         exec (mk false x y) s = .next t ∧ Kept s t [dNum x] []))
     ∧ ∀ (s1 s2 : State) (v d : Byte), readEa .byte 0 (.preDec y) s = .ok v s1 →
      (let a := s1.areg x - stepOf 1 x
       readMem .byte a (s1.setAreg x a) = .ok d s2 → Writable s2 s.dataFc a 1 →
       ∃ r f n, DecimalResult s (isDecimal v ∧ isDecimal d) (value v d) r f ∧
        (let t := past (mk true x y) s (poke ((withDraws n s2).setCcr f) s.dataFc .byte a r)
         exec (mk true x y) s = .next t ∧ Kept s t [aNum x, aNum y] (keysAt s s.dataFc a 1))))

/-- The byte PACK makes of a word: the low digits of its two bytes. -/
def packedByte (t : Word) : Byte := BitVec.ofNat 8 (t.toNat / 256 % 16 * 16 + t.toNat % 16)

/-- The word UNPK makes of a byte: a byte for each of its digits. -/
def unpackedWord (b : Byte) : Word := BitVec.ofNat 16 (b.toNat / 16 * 256 + b.toNat % 16)

end Sys2Proof.Claim

/-- ABCD, SBCD and NBCD (46 R340 to R343): N and V are free (93 U3), and without decimal operands the result, X and C
(93 U12). That Z is then computed from the free result is the model's choice (DESIGN CHOICE, log 24). -/
def Obligations.DecimalArithmetic : Prop :=
  DecimalPair .abcd (fun s d x => d + s + x) ∧ DecimalPair .sbcd (fun s d x => d - s - x)
  ∧ ∀ (ea : Ea) (s s1 s2 : State) (l : Loc) (d : Byte), s.traceAll = false → operand .byte 0 ea s = .ok l s1 →
      readLoc .byte l s1 = .ok d s2 → CanStore .byte l s2 →
      ∃ r f n, DecimalResult s (isDecimal d) (0 - decimalValue d - s.ccr.x.toNat) r f ∧
        (let t := past (.nbcd ea) s (stored .byte l r ((withDraws n s2).setCcr f))
         exec (.nbcd ea) s = .next t ∧ Kept s t (placeRegs l ++ steppedRegs ea) (placeKeys s .byte l))

/-- PACK and UNPK of data registers and of memory at -(Ay), -(Ax), no flag changed; the memory forms with A7 are refused
(46 R344, R345, 93 U12). -/
def Obligations.PackAndUnpack : Prop :=
  ∀ (x y : Reg) (adj : Word),
    Registers (.pack false x y adj) [dNum x] (fun s =>
      s.setDreg x (withLow (s.dreg x) .byte (packedByte (lowPart .word (s.dreg y) + adj))))
    ∧ Registers (.unpk false x y adj) [dNum x] (fun s =>
      s.setDreg x (withLow (s.dreg x) .word (unpackedWord (lowPart .byte (s.dreg y)) + adj)))
    ∧ ∀ s : State,
      (x = 7 ∨ y = 7 → exec (.pack true x y adj) s = .refused .packA7 ∧ exec (.unpk true x y adj) s = .refused .packA7)
      ∧ (x ≠ 7 → y ≠ 7 → s.traceAll = false →
        (let a := s.areg y - 2
         let b := (if x = y then a else s.areg x) - 1
         Readable s s.dataFc a 2 → Writable s s.dataFc b 1 →
         Completes (.pack true x y adj) s [aNum x, aNum y] (keysAt s s.dataFc b 1) (fun t =>
          byteAt t s.dataFc b = packedByte (peek s s.dataFc .word a + adj) ∧ t.areg x = b ∧ (x ≠ y → t.areg y = a)
          ∧ t.ccr = s.ccr))
        ∧ (let a := s.areg y - 1
         let b := (if x = y then a else s.areg x) - 2
         Readable s s.dataFc a 1 → Writable s s.dataFc b 2 →
         Completes (.unpk true x y adj) s [aNum x, aNum y] (keysAt s s.dataFc b 2) (fun t =>
          peek t s.dataFc .word b = unpackedWord (byteAt s s.dataFc a) + adj ∧ t.areg x = b ∧ (x ≠ y → t.areg y = a)
          ∧ t.ccr = s.ccr)))

/-- After the comparison of a source `v` with a destination `d` the conditions of 30_encoding R165 say how `d` relates
to `v`, as numbers without and with sign; T holds, F does not, and VS, VC, MI and PL read V and N. -/
def Obligations.ConditionsAfterCompare : Prop :=
  (∀ (n : Nat) (v d : BitVec n) (f : Ccr), 0 < n →
    (let holds (c : Cond) := condHolds c (cmpFlags v d (d - v) f)
     (holds .hi = decide (v.toNat < d.toNat)) ∧ (holds .ls = decide (d.toNat ≤ v.toNat))
     ∧ (holds .cc = decide (v.toNat ≤ d.toNat)) ∧ (holds .cs = decide (d.toNat < v.toNat))
     ∧ (holds .ne = decide (d ≠ v)) ∧ (holds .eq = decide (d = v))
     ∧ (holds .gt = decide (v.toInt < d.toInt)) ∧ (holds .le = decide (d.toInt ≤ v.toInt))
     ∧ (holds .ge = decide (v.toInt ≤ d.toInt)) ∧ (holds .lt = decide (d.toInt < v.toInt))))
  ∧ ∀ f : Ccr, condHolds .t f = true ∧ condHolds .f f = false ∧ condHolds .vs f = f.v ∧ condHolds .vc f = !f.v
    ∧ condHolds .mi f = f.n ∧ condHolds .pl f = !f.n

/-- BRA, Bcc and DBcc with an even target, not traced: the flow goes on at PC + 2 + displacement or past the instruction,
and DBcc counts in the low word of its register, down to -1 (47 R351, R352, R354). -/
def Obligations.Branches : Prop :=
  ∀ s : State, s.traceFlow = false →
    (∀ d : BranchDisp, (s.pc + 2 + BranchDisp.value d).getLsbD 0 = false →
      exec (.bra d) s = .next (jumped (s.pc + 2 + BranchDisp.value d) s)
      ∧ ∀ c, exec (.bcc c d) s = .next (if condHolds c s.ccr then jumped (s.pc + 2 + BranchDisp.value d) s
        else past (.bcc c d) s s))
    ∧ ∀ (c : Cond) (dn : Reg) (d : Word), (s.pc + 2 + sext d).getLsbD 0 = false →
      (let i : Instr := .dbcc c dn d
       let u := s.setDreg dn (withLow (s.dreg dn) .word (lowPart .word (s.dreg dn) - 1))
       exec i s = .next (if condHolds c s.ccr then past i s s
          else if lowPart .word (s.dreg dn) = 0 then past i s u else jumped (s.pc + 2 + sext d) u)
       ∧ Kept s u [dNum dn] [])

/-- JMP, JSR and BSR to an even address, not traced: the calls push the address after the instruction (47 R353, R356,
R357). -/
def Obligations.JumpsAndCalls : Prop :=
  ∀ s : State, s.traceFlow = false →
    (∀ (ea : Ea) (s1 : State) (p : Long), eaAddress 4 0 ea s = .ok p s1 → p.getLsbD 0 = false →
      (exec (.jmp ea) s = .next (jumped p s1) ∧ Kept s s1 (steppedRegs ea) [])
      ∧ (Writable s1 s.dataFc (s1.sp - 4) 4 →
        (let t := pushed (nextPc (.jsr ea) s) s1
         exec (.jsr ea) s = .next (jumped p t)
         ∧ Kept s t (15 :: steppedRegs ea) (keysAt s s.dataFc (s1.sp - 4) 4))))
    ∧ ∀ d : BranchDisp, (s.pc + 2 + BranchDisp.value d).getLsbD 0 = false → Writable s s.dataFc (s.sp - 4) 4 →
      (let t := pushed (nextPc (.bsr d) s) s
       exec (.bsr d) s = .next (jumped (s.pc + 2 + BranchDisp.value d) t)
       ∧ Kept s t [15] (keysAt s s.dataFc (s.sp - 4) 4))

/-- RTS, RTD and RTR pop an even address, not traced (47 R358 to R360): RTD moves the stack pointer further, RTR pops the
condition codes first. -/
def Obligations.Returns : Prop :=
  ∀ s : State, s.traceFlow = false →
    (Readable s s.dataFc s.sp 4 → (peek s s.dataFc .long s.sp).getLsbD 0 = false →
      (∃ l, (let t := (withRecords l s).setSp (s.sp + 4)
        exec .rts s = .next (jumped (peek s s.dataFc .long s.sp) t) ∧ Kept s t [15] []))
      ∧ ∀ d : Word, ∃ l, (let t := (withRecords l s).setSp (s.sp + 4 + sext d)
        exec (.rtd d) s = .next (jumped (peek s s.dataFc .long s.sp) t) ∧ Kept s t [15] []))
    ∧ (Readable s s.dataFc s.sp 6 → (peek s s.dataFc .long (s.sp + 2)).getLsbD 0 = false →
      ∃ l, (let t := ((withRecords l s).setSp (s.sp + 6)).setCcr (ccrOf (peek s s.dataFc .word s.sp))
        exec .rtr s = .next (jumped (peek s s.dataFc .long (s.sp + 2)) t) ∧ Kept s t [15] []))

/-- LINK, UNLK and PEA (40 R208, R211, R212): LINK and UNLK of A7 are refused (93 U9). -/
def Obligations.StackFrames : Prop :=
  ∀ s : State, s.traceAll = false →
    (∀ (an : Reg) (d : Long) (i : Instr), i = .linkL an d ∨ (∃ w : Word, i = .linkW an w ∧ d = sext w) →
      (an = 7 → exec i s = .refused .linkA7)
      ∧ (an ≠ 7 → Writable s s.dataFc (s.sp - 4) 4 →
        (let t := past i s (poke ((s.setAreg an (s.sp - 4)).setSp (s.sp - 4 + d)) s.dataFc .long (s.sp - 4) (s.areg an))
         exec i s = .next t ∧ Kept s t [aNum an, 15] (keysAt s s.dataFc (s.sp - 4) 4) ∧ t.ccr = s.ccr)))
    ∧ (∀ an : Reg,
      (an = 7 → exec (.unlk an) s = .refused .unlkA7)
      ∧ (an ≠ 7 → Readable s s.dataFc (s.areg an) 4 →
        ∃ l, (let t := past (.unlk an) s (((withRecords l s).setSp (s.areg an + 4)).setAreg an
            (peek s s.dataFc .long (s.areg an)))
          exec (.unlk an) s = .next t ∧ Kept s t [aNum an, 15] [] ∧ t.ccr = s.ccr)))
    ∧ ∀ (ea : Ea) (s1 : State) (a : Long), eaAddress 4 0 ea s = .ok a s1 → Writable s1 s.dataFc (s1.sp - 4) 4 →
      (let t := past (.pea ea) s (pushed a s1)
       exec (.pea ea) s = .next t ∧ Kept s t (15 :: steppedRegs ea) (keysAt s s.dataFc (s1.sp - 4) 4) ∧ t.ccr = s.ccr)

namespace Sys2Proof.Claim

/-- The registers of a list of sixteen that `sel` selects. -/
def selected (sel : Nat → Bool) : List GReg := ((List.range 16).filter sel).map fun i => BitVec.ofNat 4 i

/-- How many registers below `i` are selected. -/
def rank (sel : Nat → Bool) (i : Nat) : Nat := ((List.range i).filter sel).length

/-- The address of a MOVEM: the one an RTE restored, for the modes that compute theirs from the PC or an index
(60_exceptions R521), else the operand's. -/
def MovemAddress (sz : Size) (ea : Ea) (s s1 : State) (a : Long) : Prop :=
  match s.movemEa, ea.kind with
  | some b, .idx => a = b ∧ s1 = { s with movemEa := none }
  | some b, .pcDisp => a = b ∧ s1 = { s with movemEa := none }
  | some b, .pcIdx => a = b ∧ s1 = { s with movemEa := none }
  | _, _ => eaAddress sz.bytes 1 ea { s with movemEa := none } = .ok a s1

/-- A range that a locked read-modify-write can use. -/
def Lockable (s : State) (fc : BitVec 3) (a : Long) (n : Nat) : Prop :=
  readFaults s true fc a n = false ∧ Writable s fc a n

/-- The instruction ends in an exception taken from state `u`: a next state that the entry of `u` gives, with the output
events of `u`, and `P`. -/
def Takes (i : Instr) (s u : State) (vec : BitVec 8) (fmt : BitVec 4) (p : Long) (n : Nat) (P : State → Prop) : Prop :=
  ∃ t, exec i s = .next t ∧ EnteredFrom u t vec fmt p n ∧ t.outputs = u.outputs ∧ P t

/-- An instruction trap: vector `vec`, format $2 with the PC after the instruction and the instruction's own address
(60_exceptions R537). -/
def Traps (i : Instr) (s u : State) (vec : BitVec 8) : Prop :=
  CanEnter u vec 12 → Takes i s u vec 2 (nextPc i s) 12 fun t => peek t 5 .long (t.sp + 8) = s.pc

/-- Bytes at every second address from `a`. -/
def alternateKeys (s : State) (a : Long) (n : Nat) : List Nat :=
  (List.range n).map fun k => memKey s s.dataFc (a + BitVec.ofNat 32 (2 * k))

end Sys2Proof.Claim

/-- CMP2 and CHK2: Z tells a bound, C a value outside; N and V are free (93 U3), and C between bounds that are
in order neither with nor without sign (93 U10). An address register is compared in 32 bits (41 R248). CHK2 traps with C
set (48 R404). -/
def Obligations.Bounds : Prop :=
  ∀ (s s1 s2 s3 : State) (sz : Size) (rn : GReg) (ea : Ea) (a : Long) (lo hi : BitVec sz.bits), s.traceAll = false →
    eaAddress sz.bytes 1 ea s = .ok a s1 → readMem sz a s1 = .ok lo s2 →
    readMem sz (a + BitVec.ofNat 32 sz.bytes) s2 = .ok hi s3 →
    (let codes {n : Nat} (v lo hi : BitVec n) (f : Ccr) : Prop := f.x = s.ccr.x ∧ f.z = (v == lo || v == hi)
       ∧ (lo.sle hi || lo.ule hi → f.c = (hi - lo).ult (v - lo))
     let right (f : Ccr) : Prop := if rn.getLsbD 3 then codes (s3.greg rn) (sext lo) (sext hi) f
       else codes (lowPart sz (s3.greg rn)) lo hi f
     let inside : Prop := if rn.getLsbD 3
       then (sext lo).sle (sext hi) ∧ (sext lo).sle (s3.greg rn) ∧ (s3.greg rn).sle (sext hi)
       else lo.ule hi ∧ lo.ule (lowPart sz (s3.greg rn)) ∧ (lowPart sz (s3.greg rn)).ule hi
     (inside → Completes (.chk2 sz rn ea) s (steppedRegs ea) [] (fun t => t.ccr.c = false))
     ∧ ∃ f n, right f ∧
      (let t (i : Instr) := past i s ((withDraws n s3).setCcr f)
       exec (.cmp2 sz rn ea) s = .next (t (.cmp2 sz rn ea))
       ∧ (f.c = false → exec (.chk2 sz rn ea) s = .next (t (.chk2 sz rn ea)))
       ∧ (f.c = true → s.traceFlow = false → Traps (.chk2 sz rn ea) s ((withDraws n s3).setCcr f) 6)
       ∧ Kept s (t (.cmp2 sz rn ea)) (steppedRegs ea) []))

/-- MOVEM to memory: the selected registers lie one after another, R[0] lowest; -(An) takes the mask reversed, moves An
below them and stores An less the operand size (40 R204). -/
def Obligations.MovemStores : Prop :=
  ∀ (s : State) (sz : SizeWL) (mask : Word), s.traceAll = false →
    (∀ (ea : Ea) (s1 : State) (a : Long), (∀ r, ea ≠ .preDec r) → MovemAddress sz.size ea s s1 a →
      (let n := rank mask.getLsbD 16 * sz.size.bytes
       Writable s1 s.dataFc a n → Completes (.movemToMem sz mask ea) s (steppedRegs ea) (keysAt s s.dataFc a n) (fun t =>
        t.ccr = s.ccr ∧ t.movemEa = none ∧ ∀ i < 16, mask.getLsbD i = true →
          peek t s.dataFc sz.size (a + BitVec.ofNat 32 (rank mask.getLsbD i * sz.size.bytes))
            = lowPart sz.size (s1.greg (BitVec.ofNat 4 i)))))
    ∧ ∀ r : Reg,
      (let sel (i : Nat) : Bool := mask.getLsbD (15 - i)
       let n := rank sel 16 * sz.size.bytes
       let a := s.areg r - BitVec.ofNat 32 n
       Writable s s.dataFc a n → Completes (.movemToMem sz mask (.preDec r)) s [aNum r] (keysAt s s.dataFc a n) (fun t =>
        t.ccr = s.ccr ∧ t.areg r = a ∧ ∀ i < 16, sel i = true →
          peek t s.dataFc sz.size (a + BitVec.ofNat 32 (rank sel i * sz.size.bytes))
            = lowPart sz.size (s.greg (BitVec.ofNat 4 i)
              - if BitVec.ofNat 4 i = aNum r then BitVec.ofNat 32 sz.size.bytes else 0)))

/-- MOVEM from memory: every selected register takes its long word or its sign-extended word; (An)+ leaves An behind the
last one even when An is selected (40 R205). -/
def Obligations.MovemLoads : Prop :=
  ∀ (s s1 : State) (sz : SizeWL) (mask : Word) (ea : Ea) (a : Long), s.traceAll = false →
    (∀ r, ea = .postInc r → s1 = s ∧ a = s.areg r) → ((∀ r, ea ≠ .postInc r) → MovemAddress sz.size ea s s1 a) →
    (let n := rank mask.getLsbD 16 * sz.size.bytes
     Readable s1 s.dataFc a n →
     Completes (.movemToReg sz mask ea) s (selected mask.getLsbD ++ steppedRegs ea) [] (fun t =>
      t.ccr = s.ccr ∧ t.movemEa = none ∧ (∀ r, ea = .postInc r → t.areg r = a + BitVec.ofNat 32 n)
      ∧ ∀ i < 16, mask.getLsbD i = true → (∀ r, ea = .postInc r → BitVec.ofNat 4 i ≠ aNum r) →
        t.greg (BitVec.ofNat 4 i)
          = sext (peek s s.dataFc sz.size (a + BitVec.ofNat 32 (rank mask.getLsbD i * sz.size.bytes)))))

/-- MOVEP moves the bytes of a word or long word, the most significant first, to or from every second address (40
R206). -/
def Obligations.Movep : Prop :=
  ∀ (s : State) (dx ay : Reg) (d : Word), s.traceAll = false →
    (let a := s.areg ay + sext d
     let at' (t : State) (k : Nat) : Byte := byteAt t s.dataFc (a + BitVec.ofNat 32 (2 * k))
     let same (t : State) : Prop := t.ccr = s.ccr
     let load (op : MovepOp) (n : Nat) (v : Long) : Prop :=
       (∀ k < n, Readable s s.dataFc (a + BitVec.ofNat 32 (2 * k)) 1) →
       Completes (.movep op dx ay d) s [dNum dx] [] (fun t => same t ∧ t.dreg dx = v)
     let store (op : MovepOp) (n : Nat) : Prop :=
       (∀ k < n, Writable s s.dataFc (a + BitVec.ofNat 32 (2 * k)) 1) →
       Completes (.movep op dx ay d) s [] (alternateKeys s a n) (fun t => same t ∧ ∀ k < n,
         at' t k = ((s.dreg dx) >>> (8 * (n - 1 - k))).setWidth 8)
     load .wordToReg 2 (withLow (s.dreg dx) .word (at' s 0 ++ at' s 1))
     ∧ load .longToReg 4 (at' s 0 ++ at' s 1 ++ at' s 2 ++ at' s 3) ∧ store .wordToMem 2 ∧ store .longToMem 4)

/-- MOVE16 copies a 16-byte line between addresses whose low four bits it ignores (92 D24) and moves the registers of its
postincrement modes by 16; (Ax)+,(Ay)+ with one register is refused (40 R209, 93 U9). -/
def Obligations.Move16 : Prop :=
  ∀ s : State, s.traceAll = false →
    (let line (a : Long) : Long := a &&& 0xFFFFFFF0
     let copies (i : Instr) (regs : List GReg) (src dst : Long) (P : State → Prop) : Prop :=
       Readable s s.dataFc (line src) 16 → Writable s s.dataFc (line dst) 16 →
       Completes i s regs (keysAt s s.dataFc (line dst) 16) (fun t => t.ccr = s.ccr ∧ P t ∧ ∀ k < 16,
         byteAt t s.dataFc (line dst + BitVec.ofNat 32 k) = byteAt s s.dataFc (line src + BitVec.ofNat 32 k))
     (∀ (ay : Reg) (addr : Long),
        copies (.move16Abs .postIncToAbs ay addr) [aNum ay] (s.areg ay) addr (fun t => t.areg ay = s.areg ay + 16)
        ∧ copies (.move16Abs .absToPostInc ay addr) [aNum ay] addr (s.areg ay) (fun t => t.areg ay = s.areg ay + 16)
        ∧ copies (.move16Abs .indToAbs ay addr) [] (s.areg ay) addr (fun _ => True)
        ∧ copies (.move16Abs .absToInd ay addr) [] addr (s.areg ay) (fun _ => True))
     ∧ ∀ ax ay : Reg, (ax ≠ ay → copies (.move16Pi ax ay) [aNum ax, aNum ay] (s.areg ax) (s.areg ay) (fun t =>
          t.areg ax = s.areg ax + 16 ∧ t.areg ay = s.areg ay + 16))
        ∧ (ax = ay → exec (.move16Pi ax ay) s = .refused .move16SameRegister))

/-- In supervisor mode and not traced: RESET asserts RSTO and changes nothing else; ANDI, ORI, EORI to SR, MOVE to SR and
STOP give SR the value without its unassigned bits (92 D25), which makes a request above the new mask pending (60_exceptions
R562); T1 = T0 = 1 is refused (93 U1); STOP also stops the processor (48 R381 to R385, R397, R400). -/
def Obligations.StatusRegister : Prop :=
  ∀ s : State, s.super = true → s.traceFlow = false →
    (let puts (i : Instr) (v : Word) (u : State) : Prop :=
       exec i s = if v.getLsbD 15 && v.getLsbD 14 then .refused .reservedTraceMode
         else .next (jumped (nextPc i s) (withSr (v &&& 0xF71F) u))
     exec .reset s = .next (past .reset s { s with outputs := s.outputs ++ [.rsto] })
     ∧ (∀ v, puts (.andiSr v) (s.sr &&& v) s ∧ puts (.oriSr v) (s.sr ||| v) s ∧ puts (.eoriSr v) (s.sr ^^^ v) s)
     ∧ (∀ ea s1 v, readEa .word 0 ea s = .ok v s1 → puts (.moveToSr ea) v s1 ∧ Kept s s1 (steppedRegs ea) [])
     ∧ ∀ v, exec (.stop v) s = if v.getLsbD 15 && v.getLsbD 14 then .refused .reservedTraceMode
         else .next { jumped (nextPc (.stop v) s) (withSr (v &&& 0xF71F) s) with run := .stopped })

/-- MOVE USP and MOVEC in supervisor mode: which register each code names, the bits that exist, and the two registers
that read a free value (log 28); URP and SRP are refused (10_state R46; 48 R392, R394, R395; 93 U4, U5). What CACR does
besides to memory and to the records of the caches, and that the pipe may keep words when CACR or an instruction ACR
changes, is the model's choice (log 8, 10, 38, 41). -/
def Obligations.ControlRegisters : Prop :=
  ∀ (s : State) (rn : GReg) (an : Reg), s.super = true → s.traceAll = false →
    (let reads (code : BitVec 12) (v : Long) : Prop :=
       exec (.movecFrom rn code) s = .next (past (.movecFrom rn code) s (s.setGreg rn v))
     let readsFree (code : BitVec 12) : Prop := ∃ v n,
       exec (.movecFrom rn code) s = .next (past (.movecFrom rn code) s ((withDraws n s).setGreg rn v))
     let v := s.greg rn
     let writes (code : BitVec 12) (u : State) : Prop := exec (.movecTo rn code) s = .next (past (.movecTo rn code) s u)
     (reads 0x000 (s.sfc.setWidth 32) ∧ reads 0x001 (s.dfc.setWidth 32) ∧ reads 0x002 s.cacr ∧ readsFree 0x003
      ∧ reads 0x004 s.iacr0 ∧ reads 0x005 s.iacr1 ∧ reads 0x006 s.dacr0 ∧ reads 0x007 s.dacr1 ∧ reads 0x800 s.usp
      ∧ reads 0x801 s.vbr ∧ reads 0x803 s.msp ∧ reads 0x804 s.isp ∧ readsFree 0x805)
     ∧ (writes 0x000 { s with sfc := v.setWidth 3 } ∧ writes 0x001 { s with dfc := v.setWidth 3 }
      ∧ writes 0x002 (cacheControl s fun t => { t with cacr := v &&& 0x80008000 })
      ∧ (cacheControl s fun t => { t with cacr := v &&& 0x80008000 }).cacr = v &&& 0x80008000
      ∧ writes 0x003 { s with acuTcr := v.setWidth 16 }
      ∧ writes 0x004 { s with iacr0 := v &&& 0xFFFFE364, stalePipe := prefetched s }
      ∧ writes 0x005 { s with iacr1 := v &&& 0xFFFFE364, stalePipe := prefetched s }
      ∧ writes 0x006 { s with dacr0 := v &&& 0xFFFFE364 } ∧ writes 0x007 { s with dacr1 := v &&& 0xFFFFE364 }
      ∧ writes 0x800 { s with usp := v } ∧ writes 0x801 { s with vbr := v } ∧ writes 0x803 { s with msp := v }
      ∧ writes 0x804 { s with isp := v } ∧ writes 0x805 { s with acuStatus := v })
     ∧ (∀ code, code = 0x806 ∨ code = 0x807 → exec (.movecFrom rn code) s = .refused .urpSrp
        ∧ exec (.movecTo rn code) s = .refused .urpSrp)
     ∧ exec (.moveToUsp an) s = .next (past (.moveToUsp an) s { s with usp := s.areg an })
     ∧ exec (.moveFromUsp an) s = .next (past (.moveFromUsp an) s (s.setAreg an s.usp)))

/-- MOVES in supervisor mode accesses the space DFC or SFC names; the register is a whole one or its low part. Where the
mode steps the register stored, the old or the new value is stored (48 R396, 93 U8, log 23). -/
def Obligations.Moves : Prop :=
  ∀ (s s1 : State) (sz : Size) (rn : GReg) (ea : Ea) (a : Long), s.super = true → s.traceAll = false →
    eaAddress sz.bytes 1 ea s = .ok a s1 →
    (Writable s1 s.dfc a sz.bytes → ∃ v n,
      (let t := past (.moves sz true rn ea) s (poke (withDraws n s1) s.dfc sz a v)
       exec (.moves sz true rn ea) s = .next t ∧ t.ccr = s.ccr ∧ Kept s t (steppedRegs ea) (keysAt s s.dfc a sz.bytes)
       ∧ (v = lowPart sz (s.greg rn) ∨ rn ∈ steppedRegs ea ∧ v = lowPart sz (s1.greg rn))))
    ∧ (Readable s1 s.sfc a sz.bytes → ∃ l,
      (let v := peek s s.sfc sz a
       let t := past (.moves sz false rn ea) s ((withRecords l s1).setGreg rn
         (if rn.getLsbD 3 then sext v else withLow (s1.greg rn) sz v))
       exec (.moves sz false rn ea) s = .next t ∧ t.ccr = s.ccr ∧ Kept s t (rn :: steppedRegs ea) []))

/-- TAS, CAS and CAS2 on operands they can lock: the comparison's codes, the update operands stored on success, else the
compare operands loaded and the first operand written back; CAS2 with one compare register is refused (49 R430 to R432,
93 U14). -/
def Obligations.LockedOperations : Prop :=
  ∀ s : State, s.traceAll = false →
    (∀ r, Registers (.tas (.dn r)) [dNum r] (fun s =>
      (s.setCcr (logicFlags (lowPart .byte (s.dreg r)) s.ccr)).setDreg r
        (withLow (s.dreg r) .byte (lowPart .byte (s.dreg r) ||| 0x80))))
    ∧ (∀ (ea : Ea) (s1 : State) (a : Long), (∀ r, ea ≠ .dn r) → eaAddress 1 0 ea s = .ok a s1 → Lockable s1 s.dataFc a 1 →
      ∃ l, (let v := byteAt s s.dataFc a
        let t := past (.tas ea) s (poke ((withRecords l s1).setCcr (logicFlags v s.ccr)) s.dataFc .byte a (v ||| 0x80))
        exec (.tas ea) s = .next t ∧ Kept s t (steppedRegs ea) (keysAt s s.dataFc a 1)))
    ∧ (∀ (sz : Size) (dc du : Reg) (ea : Ea) (s1 : State) (a : Long), eaAddress sz.bytes 1 ea s = .ok a s1 →
      Lockable s1 s.dataFc a sz.bytes →
      ∃ l, (let d := peek s s.dataFc sz a
        let c := lowPart sz (s.dreg dc)
        let u := (withRecords l s1).setCcr (cmpFlags c d (d - c) s.ccr)
        let t := past (.cas sz dc du ea) s (if d = c then poke u s.dataFc sz a (lowPart sz (s.dreg du))
          else poke (u.setDreg dc (withLow (s.dreg dc) sz d)) s.dataFc sz a d)
        exec (.cas sz dc du ea) s = .next t
        ∧ Kept s t (dNum dc :: steppedRegs ea) (keysAt s s.dataFc a sz.bytes)))
    ∧ ∀ (sz : SizeWL) (o1 o2 : Cas2Operand),
      (o1.dc = o2.dc → exec (.cas2 sz o1 o2) s = .refused .cas2SameCompare)
      ∧ (o1.dc ≠ o2.dc → Lockable s s.dataFc (s.greg o1.rn) sz.size.bytes →
        Lockable s s.dataFc (s.greg o2.rn) sz.size.bytes →
        ∃ l, (let a1 := s.greg o1.rn
          let a2 := s.greg o2.rn
          let d1 := peek s s.dataFc sz.size a1
          let d2 := peek s s.dataFc sz.size a2
          let c1 := lowPart sz.size (s.dreg o1.dc)
          let c2 := lowPart sz.size (s.dreg o2.dc)
          let codes := if d1 = c1 then cmpFlags c2 d2 (d2 - c2) s.ccr else cmpFlags c1 d1 (d1 - c1) s.ccr
          let u := (withRecords l s).setCcr codes
          let t := past (.cas2 sz o1 o2) s (if d1 = c1 ∧ d2 = c2 then
              poke (poke u s.dataFc sz.size a1 (lowPart sz.size (s.dreg o1.du))) s.dataFc sz.size a2
                (lowPart sz.size (s.dreg o2.du))
            else poke ((u.setDreg o1.dc (withLow (s.dreg o1.dc) sz.size d1)).setDreg o2.dc
              (withLow (s.dreg o2.dc) sz.size d2)) s.dataFc sz.size a1 d1)
          exec (.cas2 sz o1 o2) s = .next t
          ∧ Kept s t [dNum o1.dc, dNum o2.dc]
            (keysAt s s.dataFc a1 sz.size.bytes ++ keysAt s s.dataFc a2 sz.size.bytes)))

/-- CINV and CPUSH in supervisor mode complete and keep every register and flag. CINV of the data cache may lose dirty
bytes of its scope (93 U15), and no byte of its scope stays dirty; CPUSH whose pushes reach memory, with no device and
no read-only memory, of a data cache that was invalidated since power-on, keeps every byte a program sees through the
cache in use, and puts into memory what the dirty lines of a cache not in use hold (49 R435 to R437; the record of
dirty bytes is the model's, log 8, and so is the scope in memory banks, log 46). -/
def Obligations.CacheMaintenance : Prop :=
  ∀ (s : State) (sel : CacheSel) (scope : CacheScope) (an : Reg), s.super = true → s.traceAll = false →
    (let inside (k : Nat) : Bool := inScope scope (s.areg an) k
     let clean (t : State) : Prop := t.ccr = s.ccr
       ∧ (selectsData sel = true → ∀ c, c ∈ t.dirty ↔ c ∈ s.dirty ∧ inside c.1 = false)
       ∧ (selectsData sel = false → t.dirty = s.dirty ∧ t.mem = s.mem)
       ∧ (selectsInstr sel = true → scope = .all → t.icache ≠ .unknown ∧ t.staleInstr = [])
     Completes (.cinv sel scope an) s [] ((s.dirty.map fun c => c.1).filter inside) clean
     ∧ ((∀ l, pushFails s l = false) → s.platform.devices = [] → s.platform.roms = [] → s.romCells = [] →
        (selectsData sel = true → s.dcache ≠ .unknown) → Completes (.cpush sel scope an) s []
        (if dcacheOn s then [] else (s.dirty.map fun c => c.1).filter inside) fun t => clean t
          ∧ (dcacheOn s = false → selectsData sel = true → ∀ c ∈ s.dirty, inside c.1 = true →
            (∀ e ∈ s.dirty, e.1 = c.1 → e = c) → Memory.get t.mem c.1 = c.2)))

/-- ILLEGAL, BKPT, the unimplemented A-line and F-line words, and TRAP when it is not traced, take their exceptions in
every mode: the first four stack their own address, TRAP the next one (48 R402, R405, R406, R410, R411). So does MOVEC
in supervisor mode with a code that names no register (10_state R46). -/
def Obligations.ExceptionInstructions : Prop :=
  ∀ s : State,
    (let own (i : Instr) (u : State) (vec : BitVec 8) : Prop :=
       CanEnter s vec 8 → Takes i s u vec 0 s.pc 8 (fun _ => True)
     own .illegal s 4 ∧ (∀ v, own (.bkpt v) { s with outputs := s.outputs ++ [.breakpointAck] } 4)
     ∧ (∀ w, own (.aline w) s 10) ∧ (∀ w, own (.fline w) s 11)
     ∧ (∀ (rn : GReg) (code : BitVec 12), s.super = true →
        (∀ c ∈ [0x000, 0x001, 0x002, 0x003, 0x004, 0x005, 0x006, 0x007, 0x800, 0x801, 0x803, 0x804, 0x805, 0x806, 0x807],
          code.toNat ≠ c) → own (.movecFrom rn code) s 4 ∧ own (.movecTo rn code) s 4)
     ∧ ∀ n : BitVec 4, s.traceFlow = false → CanEnter s (32 + n.setWidth 8) 8 →
        Takes (.trap n) s s (32 + n.setWidth 8) 0 (nextPc (.trap n) s) 8 (fun _ => True))

/-- A floating-point word that is no legal instruction is an F-line word; a legal one, fetched whole or as far as the fetch of
any instruction goes (log 19), is unimplemented:
format $4 with the address after it, the address of its memory operand, zero without one, and its own address (48 R412,
60_exceptions R545; the register an operand address moves, log 19). When the vector of one without a memory operand cannot
be read, the access error has CU set, the PC past the instruction and a zero operand address: the model's choice (DESIGN
CHOICE, log 43), since R535 calls it an ordinary access error and R523 and R545 give CU for writebacks that fail. A command
or condition word that cannot be fetched is an access error first (60_exceptions R531, R548). Which words are legal is the
implementation's (92 D10, log 18). -/
def Obligations.FloatingPointWords : Prop :=
  ∀ (s : State) (w : BitVec 9),
    (let ws := (fetchWords s s.pc maxWords).1
     let own : Nat := if w.toNat / 64 < 2 then 2 else 1
     let line : Prop := CanEnter s 11 8 → Takes (.fpLine w) s s 11 0 s.pc 8 (fun _ => True)
     (6 ≤ w.toNat / 64 → line)
     ∧ (w.toNat / 64 < 6 → own ≤ ws.length →
        match Config.fpLegal ws with
        | none => line
        | some sh => sh.bytes ≤ 2 * ws.length ∨ (fetchWords s s.pc maxWords).2 = none →
          (let unimplemented (s1 : State) (a : Long) : Prop := CanEnter s1 11 16 →
             Takes (.fpLine w) s s1 11 4 (s.pc + BitVec.ofNat 32 sh.bytes) 16 (fun t =>
               peek t 5 .long (t.sp + 8) = a ∧ peek t 5 .long (t.sp + 12) = s.pc)
           (sh.memory = none → unimplemented s 0
             ∧ (Writable s 5 (frameAt s 16) 16 → readFaults s false 5 (vectorAddress s 11) 4 = true → CanEnter s 2 60 →
               Takes (.fpLine w) s s 2 7 (s.pc + BitVec.ofNat 32 sh.bytes) 60 (fun t =>
                 peek t 5 .long (t.sp + 0x14) = vectorAddress s 11 ∧ peek t 5 .long (t.sp + 8) = 0
                 ∧ (peek t 5 .word (t.sp + 0xC)).getLsbD 14 = true)))
           ∧ ∀ n, sh.memory = some n →
             (∀ ea a s1, fpOperand w ws = .ok ea → eaAddress n (own - 1) ea s = .ok a s1 → unimplemented s1 a)
             ∧ (let r : Reg := w.extractLsb' 0 3
                let mode : BitVec 3 := w.extractLsb' 3 3
                (mode = 2 → fpOperand w ws = .ok (.ind r)) ∧ (mode = 3 → fpOperand w ws = .ok (.postInc r))
                ∧ (mode = 4 → fpOperand w ws = .ok (.preDec r)))))
     ∧ ∀ a, w.toNat / 64 < 6 → ws.length < own → (fetchWords s s.pc maxWords).2 = some (.fault a) → CanEnter s 2 60 →
        Takes (.fpLine w) s s 2 7 s.pc 60 (fun t => peek t 5 .long (t.sp + 0x14) = a))

/-- TRAPcc, TRAPV and CHK, not traced: the trap when the condition, V or the bounds say so, else the next instruction
(48 R403, R407, R408). CHK leaves Z, V and C free, and N without a trap (93 U3). -/
def Obligations.ConditionalTraps : Prop :=
  ∀ s : State, s.traceFlow = false →
    (let trapsIf (i : Instr) (b : Bool) : Prop := if b then Traps i s s 7 else exec i s = .next (past i s s)
     let checks (i : Instr) (s1 : State) (negative above : Bool) : Prop :=
       ∃ f n, f.x = s.ccr.x ∧ (negative = true → f.n = true) ∧ (negative = false → above = true → f.n = false)
         ∧ (let u := (withDraws n s1).setCcr f
            if negative || above then Traps i s u 6 else exec i s = .next (past i s u))
     (∀ c op, trapsIf (.trapcc c op) (condHolds c s.ccr)) ∧ trapsIf .trapv s.ccr.v
     ∧ (∀ (dn : Reg) (ea : Ea) (s1 : State) (v : Word), readEa .word 0 ea s = .ok v s1 →
        Kept s s1 (steppedRegs ea) []
        ∧ checks (.chkW dn ea) s1 (decide ((lowPart .word (s.dreg dn)).toInt < 0))
            (decide (v.toInt < (lowPart .word (s.dreg dn)).toInt)))
     ∧ ∀ (dn : Reg) (ea : Ea) (s1 : State) (v : Long), readEa .long 0 ea s = .ok v s1 →
        Kept s s1 (steppedRegs ea) []
        ∧ checks (.chkL dn ea) s1 (decide ((s.dreg dn).toInt < 0)) (decide (v.toInt < (s.dreg dn).toInt)))

/-- A division by zero, not traced, traps with C clear, N, Z and V free and the registers unchanged (41 R256,
60_exceptions R541); the 64-bit forms with one register are refused (93 U11). -/
def Obligations.ZeroDivide : Prop :=
  ∀ s : State, s.traceFlow = false →
    (let zero (i : Instr) (s1 : State) : Prop :=
       ∃ f n, f.x = s.ccr.x ∧ f.c = false ∧ Traps i s ((withDraws n s1).setCcr f) 5
     (∀ (dn : Reg) (ea : Ea) (s1 : State), readEa .word 0 ea s = .ok (0 : Word) s1 →
        zero (.divuW dn ea) s1 ∧ zero (.divsW dn ea) s1)
     ∧ (∀ (dq dr : Reg) (wide : Bool) (ea : Ea) (s1 : State), (wide = true → dq ≠ dr) →
        readEa .long 1 ea s = .ok (0 : Long) s1 → zero (.divuL dq dr wide ea) s1 ∧ zero (.divsL dq dr wide ea) s1)
     ∧ ∀ (d : Reg) (ea : Ea), exec (.divuL d d true ea) s = .refused .mulDivSameRegister
        ∧ exec (.divsL d d true ea) s = .refused .mulDivSameRegister)

/-- The privileged instructions in user mode take the privilege violation: vector 8, format $0, their own address as PC,
and nothing else changed (48 R380, 60_exceptions R546). -/
def Obligations.PrivilegeViolation : Prop :=
  ∀ s : State, s.super = false → CanEnter s 8 8 →
    (let traps (i : Instr) : Prop := Takes i s s 8 0 s.pc 8 (fun _ => True)
     (∀ v, traps (.andiSr v) ∧ traps (.oriSr v) ∧ traps (.eoriSr v) ∧ traps (.stop v))
     ∧ (∀ ea, traps (.moveFromSr ea) ∧ traps (.moveToSr ea)) ∧ (∀ an, traps (.moveToUsp an) ∧ traps (.moveFromUsp an))
     ∧ (∀ rn code, traps (.movecFrom rn code) ∧ traps (.movecTo rn code)) ∧ (∀ sz m rn ea, traps (.moves sz m rn ea))
     ∧ traps .reset ∧ traps .rte ∧ ∀ sel scope an, traps (.cinv sel scope an) ∧ traps (.cpush sel scope an))

namespace Sys2Proof.Claim

/-- The address error for an odd target: vector 3, format $2, the instruction's own address as PC, the target without
bit 0 (60_exceptions R536). -/
def OddTarget (i : Instr) (s u : State) (t : Long) : Prop :=
  CanEnter u 3 12 → Takes i s u 3 2 s.pc 12 fun w => peek w 5 .long (w.sp + 8) = t &&& 0xFFFFFFFE

/-- The special status word of an access error without a continuation: the access was a read or a write of a size and
transfer mode, not locked (60_exceptions R520). -/
def StatusWord (v : Word) (read : Bool) (size : BitVec 2) (tm : BitVec 3) : Prop :=
  v.getLsbD 14 = false ∧ v.getLsbD 13 = false ∧ v.getLsbD 12 = false ∧ v.getLsbD 9 = false ∧ v.getLsbD 8 = read
    ∧ (v.extractLsb' 5 2 : BitVec 2) = size ∧ (v.extractLsb' 3 2 : BitVec 2) = 0 ∧ (v.extractLsb' 0 3 : BitVec 3) = tm

/-- An instruction whose operand cannot be read is abandoned: an access error with its own address as PC, the address that
failed and no valid slot (60_exceptions R519, R520); with the registers as they were, which is the spec's default (92 D20;
DESIGN CHOICE, log 11). -/
def ReadFaults (i : Instr) (sz : Size) (own : Nat) (ea : Ea) : Prop :=
  ∀ (s s1 : State) (a : Long), operand sz own ea s = .ok (.mem a) s1 →
    readFaults s1 false s.dataFc a sz.bytes = true → CanEnter s 2 60 →
    Takes i s s 2 7 s.pc 60 fun t =>
      peek t 5 .long (t.sp + 0x14) = a ∧ StatusWord (peek t 5 .word (t.sp + 0xC)) true (ssize sz) s.dataFc
        ∧ (∀ o ∈ [0xE, 0x10, 0x12], (peek t 5 .word (t.sp + o)).getLsbD 7 = false)

/-- Writeback slot 3, 2 or 1 is valid and holds the write of `v` at `a` in the data space `fc`: its size and transfer
mode, its address, and its data in the low bits, or in slot 1 each byte in the lane of its address (60_exceptions R525,
R527 to R529). The bits outside the operand are not given. -/
def SlotHolds (t : State) (fc : BitVec 3) (i : Nat) (sz : Size) (a : Long) (v : BitVec sz.bits) : Prop :=
  let at' (status addr : Long) : Prop := peek t 5 .long (t.sp + addr) = a
    ∧ peek t 5 .word (t.sp + status) = 0x80 ||| ((ssize sz).setWidth 16 <<< 5) ||| fc.setWidth 16
  match i with
  | 3 => at' 0xE 0x18 ∧ (peek t 5 .long (t.sp + 0x1C)).setWidth sz.bits = v
  | 2 => at' 0x10 0x20 ∧ (peek t 5 .long (t.sp + 0x24)).setWidth sz.bits = v
  | _ => at' 0x12 0x28 ∧ ∀ k < sz.bytes,
      ((peek t 5 .long (t.sp + 0x2C)).extractLsb' (24 - 8 * ((a.toNat + k) % 4)) 8 : Byte)
        = v.extractLsb' (8 * (sz.bytes - 1 - k)) 8

/-- Writeback slot 3, 2 or 1 is not valid. -/
def SlotFree (t : State) (i : Nat) : Prop :=
  (peek t 5 .word (t.sp + match i with
    | 3 => 0xE
    | 2 => 0x10
    | _ => 0x12)).getLsbD 7 = false

/-- An instruction whose last act is a write that fails is complete but for the write, which the frame holds in one of
the three writeback slots, the other two not valid (60_exceptions R519, R525 to R529; 93 U18). That the rest is done and
the PC is the next one is the spec's default (92 D15, D20; DESIGN CHOICE, log 11), which slot it is is free (log 15).
`u`: everything else done. -/
def WriteFaults (i : Instr) (sz : Size) (ea : Ea) (v : State → BitVec sz.bits) (u : State → State → State) : Prop :=
  ∀ (s s1 : State) (a : Long), s.traceAll = false → operand sz 0 ea s = .ok (.mem a) s1 →
    writeFaults s1 s.dataFc a sz.bytes = true → CanEnter s1 2 60 →
    Takes i s (u s s1) 2 7 (nextPc i s) 60 fun t =>
      peek t 5 .long (t.sp + 0x14) = a ∧ StatusWord (peek t 5 .word (t.sp + 0xC)) false (ssize sz) s.dataFc
        ∧ ∃ j k l, [j, k, l].Perm [1, 2, 3] ∧ SlotHolds t s.dataFc j sz a (v s) ∧ SlotFree t k ∧ SlotFree t l

end Sys2Proof.Claim

/-- An odd target of a branch, call, jump or return is an address error: of Bcc whether or not it branches, of a call
with the return address pushed, of a return with its frame popped, of DBcc only when it branches, else refused (47 R350 to
R360, 48 R398, 93 U13). -/
def Obligations.OddTargets : Prop :=
  ∀ s : State,
    (∀ d : BranchDisp, (let t := s.pc + 2 + BranchDisp.value d
      t.getLsbD 0 = true → OddTarget (.bra d) s s t ∧ (∀ c, OddTarget (.bcc c d) s s t)
        ∧ (Writable s s.dataFc (s.sp - 4) 4 → OddTarget (.bsr d) s (pushed (nextPc (.bsr d) s) s) t)))
    ∧ (∀ (c : Cond) (dn : Reg) (d : Word), (let t := s.pc + 2 + sext d
      t.getLsbD 0 = true → if condHolds c s.ccr || lowPart .word (s.dreg dn) == 0
        then exec (.dbcc c dn d) s = .refused .dbccOddNotTaken
        else OddTarget (.dbcc c dn d) s (s.setDreg dn (withLow (s.dreg dn) .word (lowPart .word (s.dreg dn) - 1))) t))
    ∧ (∀ (ea : Ea) (s1 : State) (t : Long), eaAddress 4 0 ea s = .ok t s1 → t.getLsbD 0 = true →
      OddTarget (.jmp ea) s s1 t
      ∧ (Writable s1 s.dataFc (s1.sp - 4) 4 → OddTarget (.jsr ea) s (pushed (nextPc (.jsr ea) s) s1) t))
    ∧ (let t := peek s s.dataFc .long s.sp
      Readable s s.dataFc s.sp 4 → t.getLsbD 0 = true → OddTarget .rts s (s.setSp (s.sp + 4)) t
        ∧ ∀ d : Word, OddTarget (.rtd d) s (s.setSp (s.sp + 4 + sext d)) t)
    ∧ (let t := peek s s.dataFc .long (s.sp + 2)
      let v := peek s s.dataFc .word s.sp
      t.getLsbD 0 = true →
      (Readable s s.dataFc s.sp 6 → OddTarget .rtr s ((s.setSp (s.sp + 6)).setCcr (ccrOf v)) t)
      ∧ (s.super = true → Readable s s.dataFc s.sp 8 → (v.getLsbD 15 && v.getLsbD 14) = false →
        (peek s s.dataFc .word (s.sp + 6)).toNat / 4096 = 0 →
        OddTarget .rte s (withSr (v &&& 0xF71F) (s.setSp (s.sp + 8))) t))

/-- Access errors of the operand reads of TST, NEG, CMPI, ADDI, MOVE, ADD.L and MULU.W, of the last writes of CLR, Scc and
MOVE from CCR, and of the two writes of MOVEP.W, each of which fails: complete, both owed in slots of their own
(60_exceptions R519 to R529; 93 U18, log 15). Registers and stacked PC are the spec's default (DESIGN CHOICE, log 11). -/
def Obligations.AccessErrors : Prop :=
  (∀ (sz : Size) (ea : Ea),
    (ReadFaults (.tst sz ea) sz 0 ea ∧ ReadFaults (.neg sz ea) sz 0 ea
      ∧ (∀ imm, ReadFaults (.cmpi sz imm ea) sz (immCount sz) ea ∧ ReadFaults (.addi sz imm ea) sz (immCount sz) ea)
      ∧ ∀ dst, ReadFaults (.move sz ea dst) sz 0 ea)
    ∧ (∀ dn, ReadFaults (.addEaDnL dn ea) .long 0 ea ∧ ReadFaults (.muluW dn ea) .word 0 ea)
    ∧ WriteFaults (.clr sz ea) sz ea (fun _ => 0)
      (fun s s1 => s1.setCcr { x := s.ccr.x, n := false, z := true, v := false, c := false })
    ∧ (∀ c, WriteFaults (.scc c ea) .byte ea (fun s => if condHolds c s.ccr then 0xFF else 0) (fun _ s1 => s1))
    ∧ WriteFaults (.moveFromCcr ea) .word ea (fun s => s.sr &&& 0x001F) (fun _ s1 => s1))
  ∧ ∀ (s : State) (dx ay : Reg) (d : Word), s.traceAll = false →
    (let a := s.areg ay + sext d
     let i : Instr := .movep .wordToMem dx ay d
     writeFaults s s.dataFc a 1 = true → writeFaults s s.dataFc (a + 2) 1 = true → CanEnter s 2 60 →
     Takes i s s 2 7 (nextPc i s) 60 fun t =>
       peek t 5 .long (t.sp + 0x14) = a ∧ StatusWord (peek t 5 .word (t.sp + 0xC)) false 1 s.dataFc
        ∧ ∃ j k l, [j, k, l].Perm [1, 2, 3] ∧ SlotHolds t s.dataFc j .byte a ((s.dreg dx).extractLsb' 8 8)
          ∧ SlotHolds t s.dataFc k .byte (a + 2) ((s.dreg dx).extractLsb' 0 8) ∧ SlotFree t l)

namespace Sys2Proof.Claim

/-- A step that takes an exception from state `u`. -/
def StepTakes (s u : State) (vec : BitVec 8) (fmt : BitVec 4) (p : Long) (n : Nat) (P : State → Prop) : Prop :=
  ∃ t, step s = .next t ∧ EnteredFrom u t vec fmt p n ∧ P t

/-- The next step runs an instruction: the processor runs, no interrupt is pending and none is above the mask, the trace
bits are a legal mode, and no MOVEM waits to go on. -/
def Runs (s : State) : Prop :=
  s.run = .running ∧ s.pending = none ∧ ¬ srMask s.sr < s.ipl ∧ (srT1 s.sr && srT0 s.sr) = false ∧ s.movemEa = none

/-- The next step can take an interrupt: one is pending at the level on the pins. -/
def Interrupted (s : State) (l : BitVec 3) : Prop :=
  (s.run = .running ∨ s.run = .stopped) ∧ s.pending = some l ∧ s.ipl = l ∧ (srT1 s.sr && srT0 s.sr) = false

/-- The vector number of an interrupt (60_exceptions R566 to R568). -/
def interruptVector (s : State) (l : BitVec 3) : BitVec 8 :=
  match s.platform.iack[l.toNat]'l.isLt with
  | .vector n => n
  | .autovector => BitVec.ofNat 8 (24 + l.toNat)
  | .busError => 24

/-- SR of an interrupt at level `l`: S set, T1 and T0 clear, the mask `l`. -/
def interruptSr (v : Word) (l : BitVec 3) : Word := (v &&& 0x18FF) ||| 0x2000 ||| (l.setWidth 16 <<< 8)

end Sys2Proof.Claim

/-- Where the eight bytes below the supervisor stack pointer cannot be written, an exception cannot stack its frame, nor the
access error after it: the processor halts (60_exceptions R535). So do ILLEGAL, the A-line and F-line words, TRAP, TRAPcc and
TRAPV that trap, the privileged instructions in user mode, JMP to an odd address, TST of an operand that cannot be read, a
traced NOP, RTE of a frame of no format, and an interrupt. What else is done by then, and that the registers are as before
the exception, is the model's choice (log 13). -/
def Obligations.DoubleBusFault : Prop :=
  ∀ s : State, writeFaults s 5 (frameAt s 8) 8 = true →
    (let halts (i : Instr) : Prop := exec i s = .next { s with run := .halted }
     halts .illegal ∧ (∀ w, halts (.aline w)) ∧ (∀ w, halts (.fline w)) ∧ (∀ n, halts (.trap n))
     ∧ (s.ccr.v = true → halts .trapv) ∧ (∀ c op, condHolds c s.ccr = true → halts (.trapcc c op))
     ∧ (s.super = false → halts .rte ∧ halts .reset
        ∧ (∀ v, halts (.stop v) ∧ halts (.andiSr v) ∧ halts (.oriSr v) ∧ halts (.eoriSr v))
        ∧ (∀ ea, halts (.moveFromSr ea) ∧ halts (.moveToSr ea)) ∧ (∀ an, halts (.moveToUsp an) ∧ halts (.moveFromUsp an))
        ∧ (∀ rn code, halts (.movecFrom rn code) ∧ halts (.movecTo rn code)) ∧ (∀ sz m rn ea, halts (.moves sz m rn ea))
        ∧ ∀ sel scope an, halts (.cinv sel scope an) ∧ halts (.cpush sel scope an))
     ∧ (∀ (ea : Ea) (s1 : State) (p : Long), eaAddress 4 0 ea s = .ok p s1 → p.getLsbD 0 = true →
        writeFaults s1 5 (frameAt s1 8) 8 = true → exec (.jmp ea) s = .next { s1 with run := .halted })
     ∧ (∀ (sz : Size) (ea : Ea) (s1 : State) (a : Long), operand sz 0 ea s = .ok (.mem a) s1 →
        readFaults s1 false s.dataFc a sz.bytes = true →
        ∃ b n, exec (.tst sz ea) s = .next { withBus b n s with run := .halted })
     ∧ (s.traceAll = true → exec .nop s = .next { past .nop s s with run := .halted })
     ∧ (s.super = true → Readable s 5 s.sp 8 → (∀ f ∈ [0, 1, 2, 3, 4, 7], (peek s 5 .word (s.sp + 6)).toNat / 4096 ≠ f) →
        halts .rte)
     ∧ ∀ l, Interrupted s l →
        step s = .next { s with run := .halted, outputs := s.outputs ++ [.interruptAck l] })

namespace Sys2Proof.Claim

/-- SR, PC and format of the frame at the active stack pointer, and the state once a frame of `n` bytes is popped. -/
def frameSr (u : State) : Word := peek u u.dataFc .word u.sp

def framePc (u : State) : Long := peek u u.dataFc .long (u.sp + 2)

def frameFormat (u : State) : Nat := (peek u u.dataFc .word (u.sp + 6)).toNat / 4096

def framePopped (u : State) (n : Long) : State := withSr (frameSr u &&& 0xF71F) (u.setSp (u.sp + n))

/-- The frame at the active stack pointer can be read and its SR is no reserved trace mode (93 U1). -/
def FrameReadable (u : State) (n : Nat) : Prop :=
  Readable u u.dataFc u.sp n ∧ ((frameSr u).getLsbD 15 && (frameSr u).getLsbD 14) = false

/-- Throwaway frames lead from `s` to `u`, each on the stack and in the space that the SR of the one before it selects
(60_exceptions R582, 92 D29). -/
def Unwinds : Nat → State → State → Prop
  | 0, s, u => u = s
  | k + 1, s, u => FrameReadable s 8 ∧ frameFormat s = 1 ∧ Unwinds k (framePopped s 8) u

end Sys2Proof.Claim

/-- RTE of the frames $0, $2, $3 and $4, and of $7 without a continuation, each alone or behind throwaway frames $1 that may
lead to any of the three stacks: SR without its unassigned bits, a request above its mask pending (60_exceptions R562), the PC
and the stack pointer past the frame (48 R398, 60_exceptions R580 to R586, 92 D29). How many throwaway frames are followed is the model's bound (log 30). -/
def Obligations.ReturnFromException : Prop :=
  ∀ (s u : State) (k : Nat), s.super = true → s.traceFlow = false → k ≤ 2 ^ 103 → Unwinds k s u → FrameReadable u 8 →
    (framePc u).getLsbD 0 = false →
    (let returns (n : Long) : Prop := ∃ r, exec .rte s = .next (jumped (framePc u) (framePopped (withRecords r u) n))
     (∀ f ∈ [(0, 8), (2, 12), (3, 12), (4, 16)], frameFormat u = f.1 → returns (BitVec.ofNat 32 f.2))
     ∧ (frameFormat u = 7 → FrameReadable u 14 → (∀ i ∈ [12, 13, 14],
        (peek u u.dataFc .word (u.sp + 0xC)).getLsbD i = false) → returns 60))

/-- RTE of an access-error frame: without a continuation it drops 60 bytes; with CM it also restores the effective address
of the MOVEM it goes on with; with two continuations it is refused (93 U2); with CT or CU it takes the pending exception
from a six-word frame at SP + $30, where what SR becomes, which stack pointer moves and what the frame holds is the model's
reading (DEDUCED, log 34). A frame of another format is a format error (48 R398, 60_exceptions R583, R586). -/
def Obligations.ReturnFromAccessError : Prop :=
  ∀ s : State, s.super = true → s.traceFlow = false → Readable s 5 s.sp 14 →
    (let sr := peek s 5 .word s.sp
     let pc := peek s 5 .long (s.sp + 2)
     let format := (peek s 5 .word (s.sp + 6)).toNat / 4096
     let ea := peek s 5 .long (s.sp + 8)
     let ssw := peek s 5 .word (s.sp + 0xC)
     let cu := ssw.getLsbD 14
     let ct := ssw.getLsbD 13
     let cm := ssw.getLsbD 12
     (format = 7 → (sr.getLsbD 15 && sr.getLsbD 14) = false → pc.getLsbD 0 = false → cu = false → ct = false →
        ∃ l, exec .rte s = .next (jumped pc { withSr (sr &&& 0xF71F) ((withRecords l s).setSp (s.sp + 60)) with
          movemEa := if cm then some ea else s.movemEa }))
     ∧ (format = 7 → (cu || ct) = true → cm = true → exec .rte s = .refused .rteContinuation)
     ∧ (format = 7 → (cu || ct) = true → cm = false →
        (let vec : BitVec 8 := if cu then 11 else 9
         let v := vectorAddress s vec
         Writable s 5 (s.sp + 0x30) 12 → Readable s 5 v 4 →
         (∀ j < 4, ∀ k < 12, v + BitVec.ofNat 32 j ≠ s.sp + 0x30 + BitVec.ofNat 32 k) →
         (peek s 5 .long v).getLsbD 0 = false →
         ∃ t, exec .rte s = .next t ∧ t.pc = peek s 5 .long v ∧ t.sr = srException (sr &&& 0xF71F)
          ∧ (if srM s.sr then t.msp = s.sp + 0x30 ∧ t.isp = s.isp else t.isp = s.sp + 0x30 ∧ t.msp = s.msp)
          ∧ t.d = s.d ∧ t.a = s.a ∧ t.usp = s.usp ∧ KeptControl (withSr (srException (sr &&& 0xF71F)) s) t
          ∧ t.run = s.run ∧ t.outputs = s.outputs
          ∧ (∀ fc a, memKey s fc a ∉ keysAt s 5 (s.sp + 0x30) 12 → byteAt t fc a = byteAt s fc a)
          ∧ FieldsAt t (s.sp + 0x30) [wordField sr, longField pc, wordField (formatWord 2 vec), longField ea]))
     ∧ ((∀ f ∈ [0, 1, 2, 3, 4, 7], format ≠ f) → CanEnter s 14 8 → Takes .rte s s 14 0 s.pc 8 (fun _ => True)))

/-- PFLUSH and PTEST have no meaning: they are refused in every mode (48 R415, 93 U6). -/
def Obligations.RefusedInstructions : Prop :=
  ∀ (s : State) (an : Reg), (∀ op, exec (.pflush op an) s = .refused .pflush)
    ∧ ∀ read, exec (.ptest read an) s = .refused .ptest

/-- An interrupt: with M = 0 one frame on the interrupt stack; with M = 1 the frame goes to the master stack, a throwaway
frame to the interrupt stack, and M is cleared. SR takes the new mask, the acknowledge cycle runs, and the flow goes on at
the vector of the device, the level or the spurious interrupt (60_exceptions R566 to R569). -/
def Obligations.Interrupts : Prop :=
  ∀ (s : State) (l : BitVec 3), Interrupted s l →
    (let vec := interruptVector s l
     let v := vectorAddress s vec
     let taken (t : State) : Prop := step s = .next t ∧ t.pc = peek s 5 .long v ∧ t.isp = s.isp - 8 ∧ t.usp = s.usp
       ∧ t.d = s.d ∧ t.a = s.a ∧ t.run = .running ∧ t.pending = none ∧ (s.movemEa = none → t.movemEa = none)
       ∧ t.outputs = s.outputs ++ [.interruptAck l]
     (srM s.sr = false → CanEnter s vec 8 →
       ∃ t, taken t ∧ t.sr = interruptSr s.sr l ∧ t.msp = s.msp
        ∧ FieldsAt t t.isp [wordField s.sr, longField s.pc, wordField (formatWord 0 vec)]
        ∧ ∀ fc a, memKey s fc a ∉ keysAt s 5 (s.isp - 8) 8 → byteAt t fc a = byteAt s fc a)
     ∧ (srM s.sr = true → Writable s 5 (s.msp - 8) 8 → Writable s 5 (s.isp - 8) 8 → Readable s 5 v 4 →
       (peek s 5 .long v).getLsbD 0 = false →
       (∀ j < 8, ∀ k < 8, s.msp - 8 + BitVec.ofNat 32 j ≠ s.isp - 8 + BitVec.ofNat 32 k) →
       (∀ j < 4, ∀ k < 8, v + BitVec.ofNat 32 j ≠ s.msp - 8 + BitVec.ofNat 32 k
         ∧ v + BitVec.ofNat 32 j ≠ s.isp - 8 + BitVec.ofNat 32 k) →
       ∃ t, taken t ∧ t.sr = interruptSr s.sr l &&& 0xEFFF ∧ t.msp = s.msp - 8
        ∧ FieldsAt t t.msp [wordField s.sr, longField s.pc, wordField (formatWord 0 vec)]
        ∧ FieldsAt t t.isp [wordField (s.sr ||| 0x2000), longField s.pc, wordField (formatWord 1 vec)]
        ∧ ∀ fc a, memKey s fc a ∉ keysAt s 5 (s.msp - 8) 8 ++ keysAt s 5 (s.isp - 8) 8 → byteAt t fc a = byteAt s fc a))

/-- Traced instructions end in the trace exception, with the next PC and their own address (60_exceptions R552 to R557): with
T1 NOP, MOVEQ, ADD.L of data registers and CLR; with T1 or T0 BRA, BSR, JMP, JSR, RTS and RTE, MOVE and ANDI, ORI, EORI to
SR, STOP, which does not stop, and TRAP, whose own frame comes first. The stacked SR is the one the instruction leaves. -/
def Obligations.Trace : Prop :=
  ∀ s : State,
    (let traced (i : Instr) (u : State) : Prop :=
       CanEnter u 9 12 → Takes i s u 9 2 u.pc 12 fun t => peek t 5 .long (t.sp + 8) = s.pc
     let legal (v : Word) : Prop := (v.getLsbD 15 && v.getLsbD 14) = false
     let writesSr (i : Instr) (v : Word) (s1 : State) : Prop :=
       s.super = true → legal v → traced i (jumped (nextPc i s) (withSr (v &&& 0xF71F) s1))
     (s.traceAll = true →
        traced .nop (past .nop s s)
        ∧ (∀ dn d, traced (.moveq dn d) (past (.moveq dn d) s ((s.setDreg dn (sext d)).setCcr
            (logicFlags (sext d : Long) s.ccr))))
        ∧ (∀ dn r, traced (.addEaDnL dn (.dn r)) (past (.addEaDnL dn (.dn r)) s
            ((s.setCcr (addFlags (s.dreg r) (s.dreg dn) (s.dreg dn + s.dreg r) s.ccr)).setDreg dn
              (s.dreg dn + s.dreg r))))
        ∧ ∀ (sz : Size) (ea : Ea) (s1 : State) (l : Loc), operand sz 0 ea s = .ok l s1 → CanStore sz l s1 →
          traced (.clr sz ea) (past (.clr sz ea) s (stored sz l 0
            (s1.setCcr { x := s.ccr.x, n := false, z := true, v := false, c := false }))))
     ∧ (s.traceFlow = true →
        (∀ d : BranchDisp, (s.pc + 2 + BranchDisp.value d).getLsbD 0 = false →
          traced (.bra d) (jumped (s.pc + 2 + BranchDisp.value d) s)
          ∧ (Writable s s.dataFc (s.sp - 4) 4 →
            traced (.bsr d) (jumped (s.pc + 2 + BranchDisp.value d) (pushed (nextPc (.bsr d) s) s))))
        ∧ (∀ (ea : Ea) (s1 : State) (p : Long), eaAddress 4 0 ea s = .ok p s1 → p.getLsbD 0 = false →
          traced (.jmp ea) (jumped p s1)
          ∧ (Writable s1 s.dataFc (s1.sp - 4) 4 → traced (.jsr ea) (jumped p (pushed (nextPc (.jsr ea) s) s1))))
        ∧ (Readable s s.dataFc s.sp 4 → (peek s s.dataFc .long s.sp).getLsbD 0 = false →
          traced .rts (jumped (peek s s.dataFc .long s.sp) (s.setSp (s.sp + 4))))
        ∧ (s.super = true → FrameReadable s 8 → frameFormat s = 0 → (framePc s).getLsbD 0 = false →
          traced .rte (jumped (framePc s) (framePopped s 8)))
        ∧ (∀ (ea : Ea) (s1 : State) (v : Word), readEa .word 0 ea s = .ok v s1 → writesSr (.moveToSr ea) v s1)
        ∧ (∀ v, writesSr (.andiSr v) (s.sr &&& v) s ∧ writesSr (.oriSr v) (s.sr ||| v) s
          ∧ writesSr (.eoriSr v) (s.sr ^^^ v) s ∧ writesSr (.stop v) v s)
        ∧ ∀ n : BitVec 4,
          (let vec : BitVec 8 := 32 + n.setWidth 8
           let b := frameAt s 20
           let free (v : BitVec 8) : Prop := Readable s 5 (vectorAddress s v) 4
             ∧ (peek s 5 .long (vectorAddress s v)).getLsbD 0 = false
             ∧ ∀ j < 4, ∀ k < 20, vectorAddress s v + BitVec.ofNat 32 j ≠ b + BitVec.ofNat 32 k
           Writable s 5 b 20 → free vec → free 9 →
           ∃ u, EnteredFrom s u vec 0 (nextPc (.trap n) s) 8 ∧ Takes (.trap n) s u 9 2 u.pc 12 fun t =>
             peek t 5 .long (t.sp + 8) = s.pc)))

/-- A new level on the pins becomes pending above the mask, and at the transition to level 7 whatever the mask. A stopped
processor waits until an interrupt is pending, a halted one for ever; T1 = T0 = 1 is refused (60_exceptions R562, R563,
R590, R591; 93 U1). That an interrupt drops the address an RTE restored for a MOVEM is the model's choice (log 31). -/
def Obligations.Waiting : Prop :=
  ∀ s : State,
    (s.pending = none → ∀ l, hostLevel s l = { s with
      iplPrev := s.ipl
      ipl := l
      pending := if srMask s.sr < l ∨ l = 7 ∧ s.ipl ≠ 7 then some l else none })
    ∧ (s.run = .halted → step s = .next s)
    ∧ (s.run = .stopped → s.pending = none → ¬ srMask s.sr < s.ipl →
      step s = if srT1 s.sr && srT0 s.sr then .refused .reservedTraceMode else .next s)
    ∧ ∀ l t, Interrupted s l → step s = .next t → t.run = .running → t.movemEa = none

/-- A step runs the instruction that the words at the PC decode to; where no device answers the fetch and memory lags behind
the data cache nowhere in it, in the very state it begins in (log 9, 47). -/
def Obligations.StepRunsDecoded : Prop :=
  ∀ (s : State) (i : Instr), Runs s → s.pc.getLsbD 0 = false →
    (let u := beginFetch s
     (decode (fetchWords u u.pc maxWords).1 = .ok i → step s = exec i u)
     ∧ (touches s.platform.devices s.codeFc s.pc (2 * maxWords) = false →
       (∀ a ∈ addrsOf s.pc (2 * maxWords), lags s s.codeFc a = false) → u = s))

/-- A step at an odd PC is an address error, one at words that are no instruction an illegal instruction, and one whose
first fetch fails an access error with the address of the word, recorded as a word read (log 16); nothing else happens
before (60_exceptions R519, R536, R542; 30_encoding R176). -/
def Obligations.StepWithoutInstruction : Prop :=
  ∀ s : State, Runs s →
    (s.pc.getLsbD 0 = true → CanEnter s 3 12 →
      StepTakes s s 3 2 s.pc 12 fun t => peek t 5 .long (t.sp + 8) = s.pc &&& 0xFFFFFFFE)
    ∧ (s.pc.getLsbD 0 = false → decode (fetchWords (beginFetch s) s.pc maxWords).1 = .illegal → CanEnter s 4 8 →
      StepTakes s s 4 0 s.pc 8 fun _ => True)
    ∧ (s.pc.getLsbD 0 = false → busErrorAt s s.codeFc s.pc false = true → CanEnter s 2 60 →
      StepTakes s s 2 7 s.pc 60 fun t => peek t 5 .long (t.sp + 0x14) = s.pc
        ∧ StatusWord (peek t 5 .word (t.sp + 0xC)) true 2 s.codeFc)

namespace Sys2Proof.Claim

/-- The aligned transfers of an operand: two for a misaligned word, two or three for a misaligned long word
(20_memory R87). -/
def alignedParts (a : Long) : Size → List (Long × Nat)
  | .byte => [(a, 1)]
  | .word => if a.toNat % 2 = 0 then [(a, 2)] else [(a, 1), (a + 1, 1)]
  | .long =>
    if a.toNat % 4 = 0 then [(a, 4)]
    else if a.toNat % 2 = 0 then [(a, 2), (a + 2, 2)]
    else [(a, 1), (a + 1, 2), (a + 3, 1)]

/-- Address and size of each recorded bus cycle. -/
def cyclesOf (l : List BusAccess) : List (Long × Nat) := l.map fun x => (x.addr, x.bytes)

end Sys2Proof.Claim

/-- Bytes of an operand stand most significant first from its address, a write is read back, and every byte outside reads
as before; memories in canonical form that read alike are equal, and a write keeps the form (20_memory R84). Where a device
stands (92 D4), an access is done in aligned transfers, each to the device, whose answer is data or a bus error and whose
cycle is recorded, or to memory, and an access that fails is reported with the address of its first byte (20_memory R87);
read-only memory is left as it is. The windows and the record are the model's choice (log 3, 47). -/
def Obligations.MemoryReadsBack : Prop :=
  (∀ (s : State) (fc : BitVec 3) (sz : Size) (a : Long) (v : BitVec sz.bits),
    peek (poke s fc sz a v) fc sz a = v
    ∧ (∀ k < sz.bytes, byteAt (poke s fc sz a v) fc (a + BitVec.ofNat 32 k)
        = v.extractLsb' (8 * (sz.bytes - 1 - k)) 8)
    ∧ (∀ fc' b, memKey s fc' b ∉ keysAt s fc a sz.bytes → byteAt (poke s fc sz a v) fc' b = byteAt s fc' b)
    ∧ (Memory.wf s.mem → Memory.wf (poke s fc sz a v).mem))
  ∧ (∀ m n : List Host.Cell, Memory.wf m → Memory.wf n → (∀ k, Memory.get m k = Memory.get n k) → m = n)
  ∧ ∀ (s : State) (sz : Size) (a : Long) (v : BitVec sz.bits) (d : Done), staleAccess s s.dataFc a sz.bytes = false →
    (let n := sz.bytes
     let cycle (data : Option (BitVec 128)) : BusAccess :=
       { fc := s.dataFc, addr := a, bytes := n, data := data, after := s.outputs.length }
     let answer (data : Option (BitVec 128)) := Config.deviceAnswer s.draws s.outputs s.bus (cycle data)
     let device (p : Long × Nat) : Bool := touches s.platform.devices s.dataFc p.1 p.2
     let rom (x : Long) : Bool := touches s.platform.roms s.dataFc x 1
     (device (a, n) = true → a.toNat % n = 0 →
        (readFaults s false s.dataFc a n = false →
          match answer none with
          | some w => ∃ t, readMem sz a s = .ok (w.setWidth sz.bits) t ∧ t.mem = s.mem ∧ t.bus = s.bus ++ [cycle none]
          | none => ∃ t, readMem sz a s = .error (.restart (readFault (normalCycle s.dataFc) sz a)) t
            ∧ t.bus = s.bus ++ [cycle none])
        ∧ (writeFaults s s.dataFc a n = false →
          ∃ r, (dcacheOn s = false → r = s.records) ∧
            (let t : State := withRecords r (withBus (s.bus ++ [cycle (some (v.setWidth 128))]) (s.draws + 1) s)
             writeMem sz a v d s = if (answer (some (v.setWidth 128))).isSome then .ok d t
               else .error (.write (writeFault (normalCycle s.dataFc) sz a v) [] d) t)))
     ∧ (device (a, n) = true →
        (readFaults s false s.dataFc a n = false →
          (∃ w t, readMem sz a s = .ok w t ∧ t.mem = s.mem
            ∧ cyclesOf t.bus = cyclesOf s.bus ++ (alignedParts a sz).filter device
            ∧ ∀ p ∈ alignedParts a sz, device p = false → ∀ k < n, a + BitVec.ofNat 32 k ∈ addrsOf p.1 p.2 →
              w.extractLsb' (8 * (n - 1 - k)) 8 = byteAt s s.dataFc (a + BitVec.ofNat 32 k))
          ∨ ∃ t, readMem sz a s = .error (.restart (readFault (normalCycle s.dataFc) sz a)) t ∧ t.mem = s.mem)
        ∧ (writeFaults s s.dataFc a n = false →
          (∃ t, writeMem sz a v d s = .ok d t
            ∧ cyclesOf t.bus = cyclesOf s.bus ++ (alignedParts a sz).filter device
            ∧ ∀ p ∈ alignedParts a sz, ∀ k < n, (let x := a + BitVec.ofNat 32 k
              x ∈ addrsOf p.1 p.2 → byteAt t s.dataFc x
                = if device p || rom x then byteAt s s.dataFc x else v.extractLsb' (8 * (n - 1 - k)) 8))
          ∨ ∃ t, writeMem sz a v d s = .error (.write (writeFault (normalCycle s.dataFc) sz a v) [] d) t))
     ∧ (device (a, n) = false → (∀ k < n, rom (a + BitVec.ofNat 32 k) = true) →
        writeFaults s s.dataFc a n = false → ∃ t, writeMem sz a v d s = .ok d t ∧ t.mem = s.mem))

/-- The addresses the modes give, with the registers they move (30_encoding R153 to R158), and what an operand reads: the
low part of a register, the immediate, or the bytes at its address (R151, R152, R159, R160). -/
def Obligations.Operands : Prop :=
  (∀ (s : State) (sz : Size) (own : Nat) (r : Reg) (d : Word),
    (let n := sz.bytes
     let step : Long := if sz = .byte ∧ r = 7 then 2 else BitVec.ofNat 32 n
     let base := s.pc + 2 + BitVec.ofNat 32 (2 * own)
     let index (x : IndexReg) : Long :=
       (if x.long then s.greg x.reg else ((s.greg x.reg).setWidth 16).signExtend 32) * BitVec.twoPow 32 x.scale.toNat
     eaAddress n own (.ind r) s = .ok (s.areg r) s
     ∧ eaAddress n own (.postInc r) s = .ok (s.areg r) (s.setAreg r (s.areg r + step))
     ∧ eaAddress n own (.preDec r) s = .ok (s.areg r - step) (s.setAreg r (s.areg r - step))
     ∧ eaAddress n own (.disp r d) s = .ok (s.areg r + d.signExtend 32) s
     ∧ eaAddress n own (.absW d) s = .ok (d.signExtend 32) s
     ∧ (∀ a, eaAddress n own (.absL a) s = .ok a s)
     ∧ eaAddress n own (.pcDisp d) s = .ok (base + d.signExtend 32) s
     ∧ (∀ (x : IndexReg) (d8 : Byte),
        eaAddress n own (.idx r (.brief x d8)) s = .ok (s.areg r + d8.signExtend 32 + index x) s
        ∧ eaAddress n own (.pcIdx (.brief x d8)) s = .ok (base + d8.signExtend 32 + index x) s)
     ∧ ∀ (x : IndexReg) (bs is : Bool) (bd od : Disp) (mk : Index → Ea) (b0 : Long),
        mk = .idx r ∧ b0 = s.areg r ∨ mk = .pcIdx ∧ b0 = base →
        (let i := if is then 0 else index x
         let b := (if bs then 0 else b0) + Disp.value bd
         eaAddress n own (mk (.full x bs is bd .none)) s = .ok (b + i) s
         ∧ (Readable s s.dataFc (b + i) 4 → ∃ l, eaAddress n own (mk (.full x bs is bd (.pre od))) s
            = .ok (peek s s.dataFc .long (b + i) + Disp.value od) (withRecords l s))
         ∧ (Readable s s.dataFc b 4 → ∃ l, eaAddress n own (mk (.full x bs is bd (.post od))) s
            = .ok (peek s s.dataFc .long b + i + Disp.value od) (withRecords l s)))))
  ∧ ∀ (s s1 : State) (sz : Size) (own : Nat) (r : Reg) (v : Long),
    readEa sz own (.dn r) s = .ok ((s.dreg r).setWidth sz.bits) s
    ∧ readEa sz own (.an r) s = .ok ((s.areg r).setWidth sz.bits) s
    ∧ readEa sz own (.imm v) s = .ok (v.setWidth sz.bits) s
    ∧ ∀ (ea : Ea) (a : Long), eaAddress sz.bytes own ea s = .ok a s1 → operand sz own ea s = .ok (.mem a) s1
      ∧ (Readable s1 s.dataFc a sz.bytes → ∃ l, readEa sz own ea s = .ok (peek s s.dataFc sz a) (withRecords l s1))

/-- An access control register matches an address when it is enabled, its mode field takes the privilege and every
address bit 31 to 24 its mask does not exclude is the base's; the first register of the data or the instruction unit that
matches decides, and a write to a protected byte fails (20_memory R101 to R104). That no match gives writethrough without
protection is R109, the spec's own decision (92 D2, log 45). -/
def Obligations.AccessControl : Prop :=
  (∀ (r a : Long) (super : Bool), acrMatch r a super = true ↔
    r.getLsbD 15 = true ∧ (r.getLsbD 14 = true ∨ r.getLsbD 13 = super)
      ∧ ∀ i < 8, r.getLsbD (16 + i) = true ∨ a.getLsbD (24 + i) = r.getLsbD (24 + i))
  ∧ ∀ (s : State) (fc : BitVec 3) (a : Long),
    (let super := fc.getLsbD 2
     (acrMatch s.dacr0 a super = true → dataAttr s fc a = { cm := s.dacr0.extractLsb' 5 2, w := s.dacr0.getLsbD 2 })
     ∧ (acrMatch s.dacr0 a super = false → acrMatch s.dacr1 a super = true →
        dataAttr s fc a = { cm := s.dacr1.extractLsb' 5 2, w := s.dacr1.getLsbD 2 })
     ∧ (acrMatch s.dacr0 a super = false → acrMatch s.dacr1 a super = false → dataAttr s fc a = { cm := 0, w := false })
     ∧ (acrMatch s.iacr0 a super = true →
        instrAttr s fc a = { cm := s.iacr0.extractLsb' 5 2, w := s.iacr0.getLsbD 2 })
     ∧ (acrMatch s.iacr0 a super = false → acrMatch s.iacr1 a super = true →
        instrAttr s fc a = { cm := s.iacr1.extractLsb' 5 2, w := s.iacr1.getLsbD 2 })
     ∧ (acrMatch s.iacr0 a super = false → acrMatch s.iacr1 a super = false →
        instrAttr s fc a = { cm := 0, w := false })
     ∧ ∀ n, writeFaults s fc a n = true ↔
        ∃ k < n, (dataAttr s fc (a + BitVec.ofNat 32 k)).w = true ∨ busErrorAt s fc (a + BitVec.ofNat 32 k) true = true)

/-- The reset exception: supervisor mode on the interrupt stack, mask 7, trace off, VBR and CACR zero, the access control
registers disabled, nothing pending, ISP and PC from supervisor data 0 and 4; a bus error on them or an odd PC halts
(70_reset R622). That memory, with CACR zero before, and the platform are kept is the model's choice (DESIGN CHOICE,
log 5). -/
def Obligations.ResetException : Prop :=
  ∀ s : State, s.run = .inReset → ∃ t, step s = .next t
    ∧ (t.sr &&& 0xFFE0 = 0x2700) ∧ t.vbr = 0 ∧ t.cacr = 0 ∧ t.pending = none ∧ t.movemEa = none
    ∧ t.iacr0.getLsbD 15 = false ∧ t.iacr1.getLsbD 15 = false ∧ t.dacr0.getLsbD 15 = false ∧ t.dacr1.getLsbD 15 = false
    ∧ t.platform = s.platform ∧ (readFaults t false 5 0 8 = true → t.run = .halted)
    ∧ (readFaults t false 5 0 8 = false → touches t.platform.devices 5 0 8 = false →
      t.isp = peek t 5 .long 0 ∧ t.pc = peek t 5 .long 4 ∧ t.run = if t.pc.getLsbD 0 then .halted else .running)
    ∧ (s.cacr = 0 → t.mem = s.mem)

/-- The state after reset meets the invariant. -/
def Obligations.ResetMeetsInv : Prop := Inv State.reset

/-- Every step keeps the invariant: memory stays in its canonical form, the bits of SR, CACR and the access control
registers that do not exist stay zero, T1 and T0 are not both set, and the PC of a processor that runs stays even. -/
def Obligations.StepKeepsInv : Prop := ∀ s t : State, Inv s → step s = .next t → Inv t

/-- Decoding the words of a well-formed instruction, whatever follows them, gives it back and leaves what follows. -/
def Obligations.DecodeEncode : Prop :=
  ∀ (i : Instr) (rest : List Word), i.wf = true → decodeWords (encode i ++ rest) = .ok i rest

/-- What the decoder reads is well formed. -/
def Obligations.DecodedIsWellFormed : Prop := ∀ (ws : List Word) (i : Instr), decode ws = .ok i → i.wf = true

/-- Words written out from the encodings of spec/ decode to their instructions: MOVEQ #5,D3; ADD.W (A1)+,D2; LEA
8(A0),A1; BNE *-2; MOVEM.L D0-D7,-(A7); RTE; a word of no row. -/
def Obligations.DecodeSpecWords : Prop :=
  decode [0x7605] = .ok (.moveq 3 5) ∧ decode [0xD459] = .ok (.addEaDnW 2 (.postInc 1))
  ∧ decode [0x43E8, 0x0008] = .ok (.lea 1 (.disp 0 8)) ∧ decode [0x66FC] = .ok (.bcc .ne (.byte 0xFC))
  ∧ decode [0x48E7, 0xFF00] = .ok (.movemToMem .l 0xFF00 (.preDec 7)) ∧ decode [0x4E73] = .ok .rte
  ∧ decode [0x4E7F] = .illegal
end

