-- ==== Sys2Proof/Laws/State.lean ====
section
/-! SUPPORT. One small lemma per field and update of the state, and what the register accessors see of each update; later
proofs cite these and unfold no record update. -/

namespace Sys2Proof.Machine

variable (s : State)

/-! ## setDreg -/

@[simp] theorem State.setDreg_a (n : Reg) (v : Long) : (s.setDreg n v).a = s.a := rfl
@[simp] theorem State.setDreg_usp (n : Reg) (v : Long) : (s.setDreg n v).usp = s.usp := rfl
@[simp] theorem State.setDreg_isp (n : Reg) (v : Long) : (s.setDreg n v).isp = s.isp := rfl
@[simp] theorem State.setDreg_msp (n : Reg) (v : Long) : (s.setDreg n v).msp = s.msp := rfl
@[simp] theorem State.setDreg_pc (n : Reg) (v : Long) : (s.setDreg n v).pc = s.pc := rfl
@[simp] theorem State.setDreg_sr (n : Reg) (v : Long) : (s.setDreg n v).sr = s.sr := rfl
@[simp] theorem State.setDreg_vbr (n : Reg) (v : Long) : (s.setDreg n v).vbr = s.vbr := rfl
@[simp] theorem State.setDreg_sfc (n : Reg) (v : Long) : (s.setDreg n v).sfc = s.sfc := rfl
@[simp] theorem State.setDreg_dfc (n : Reg) (v : Long) : (s.setDreg n v).dfc = s.dfc := rfl
@[simp] theorem State.setDreg_cacr (n : Reg) (v : Long) : (s.setDreg n v).cacr = s.cacr := rfl
@[simp] theorem State.setDreg_iacr0 (n : Reg) (v : Long) : (s.setDreg n v).iacr0 = s.iacr0 := rfl
@[simp] theorem State.setDreg_iacr1 (n : Reg) (v : Long) : (s.setDreg n v).iacr1 = s.iacr1 := rfl
@[simp] theorem State.setDreg_dacr0 (n : Reg) (v : Long) : (s.setDreg n v).dacr0 = s.dacr0 := rfl
@[simp] theorem State.setDreg_dacr1 (n : Reg) (v : Long) : (s.setDreg n v).dacr1 = s.dacr1 := rfl
@[simp] theorem State.setDreg_acuStatus (n : Reg) (v : Long) : (s.setDreg n v).acuStatus = s.acuStatus := rfl
@[simp] theorem State.setDreg_acuTcr (n : Reg) (v : Long) : (s.setDreg n v).acuTcr = s.acuTcr := rfl
@[simp] theorem State.setDreg_mem (n : Reg) (v : Long) : (s.setDreg n v).mem = s.mem := rfl
@[simp] theorem State.setDreg_run (n : Reg) (v : Long) : (s.setDreg n v).run = s.run := rfl
@[simp] theorem State.setDreg_ipl (n : Reg) (v : Long) : (s.setDreg n v).ipl = s.ipl := rfl
@[simp] theorem State.setDreg_iplPrev (n : Reg) (v : Long) : (s.setDreg n v).iplPrev = s.iplPrev := rfl
@[simp] theorem State.setDreg_pending (n : Reg) (v : Long) : (s.setDreg n v).pending = s.pending := rfl
@[simp] theorem State.setDreg_movemEa (n : Reg) (v : Long) : (s.setDreg n v).movemEa = s.movemEa := rfl
@[simp] theorem State.setDreg_icache (n : Reg) (v : Long) : (s.setDreg n v).icache = s.icache := rfl
@[simp] theorem State.setDreg_dcache (n : Reg) (v : Long) : (s.setDreg n v).dcache = s.dcache := rfl
@[simp] theorem State.setDreg_purged (n : Reg) (v : Long) : (s.setDreg n v).purged = s.purged := rfl
@[simp] theorem State.setDreg_dirty (n : Reg) (v : Long) : (s.setDreg n v).dirty = s.dirty := rfl
@[simp] theorem State.setDreg_romCells (n : Reg) (v : Long) : (s.setDreg n v).romCells = s.romCells := rfl
@[simp] theorem State.setDreg_unpushed (n : Reg) (v : Long) : (s.setDreg n v).unpushed = s.unpushed := rfl
@[simp] theorem State.setDreg_staleData (n : Reg) (v : Long) : (s.setDreg n v).staleData = s.staleData := rfl
@[simp] theorem State.setDreg_staleInstr (n : Reg) (v : Long) : (s.setDreg n v).staleInstr = s.staleInstr := rfl
@[simp] theorem State.setDreg_stalePipe (n : Reg) (v : Long) : (s.setDreg n v).stalePipe = s.stalePipe := rfl
@[simp] theorem State.setDreg_cdis (n : Reg) (v : Long) : (s.setDreg n v).cdis = s.cdis := rfl
@[simp] theorem State.setDreg_outputs (n : Reg) (v : Long) : (s.setDreg n v).outputs = s.outputs := rfl
@[simp] theorem State.setDreg_bus (n : Reg) (v : Long) : (s.setDreg n v).bus = s.bus := rfl
@[simp] theorem State.setDreg_platform (n : Reg) (v : Long) : (s.setDreg n v).platform = s.platform := rfl
@[simp] theorem State.setDreg_draws (n : Reg) (v : Long) : (s.setDreg n v).draws = s.draws := rfl

/-! ## setCcr -/

@[simp] theorem State.setCcr_d (f : Ccr) : (s.setCcr f).d = s.d := rfl
@[simp] theorem State.setCcr_a (f : Ccr) : (s.setCcr f).a = s.a := rfl
@[simp] theorem State.setCcr_usp (f : Ccr) : (s.setCcr f).usp = s.usp := rfl
@[simp] theorem State.setCcr_isp (f : Ccr) : (s.setCcr f).isp = s.isp := rfl
@[simp] theorem State.setCcr_msp (f : Ccr) : (s.setCcr f).msp = s.msp := rfl
@[simp] theorem State.setCcr_pc (f : Ccr) : (s.setCcr f).pc = s.pc := rfl
@[simp] theorem State.setCcr_vbr (f : Ccr) : (s.setCcr f).vbr = s.vbr := rfl
@[simp] theorem State.setCcr_sfc (f : Ccr) : (s.setCcr f).sfc = s.sfc := rfl
@[simp] theorem State.setCcr_dfc (f : Ccr) : (s.setCcr f).dfc = s.dfc := rfl
@[simp] theorem State.setCcr_cacr (f : Ccr) : (s.setCcr f).cacr = s.cacr := rfl
@[simp] theorem State.setCcr_iacr0 (f : Ccr) : (s.setCcr f).iacr0 = s.iacr0 := rfl
@[simp] theorem State.setCcr_iacr1 (f : Ccr) : (s.setCcr f).iacr1 = s.iacr1 := rfl
@[simp] theorem State.setCcr_dacr0 (f : Ccr) : (s.setCcr f).dacr0 = s.dacr0 := rfl
@[simp] theorem State.setCcr_dacr1 (f : Ccr) : (s.setCcr f).dacr1 = s.dacr1 := rfl
@[simp] theorem State.setCcr_acuStatus (f : Ccr) : (s.setCcr f).acuStatus = s.acuStatus := rfl
@[simp] theorem State.setCcr_acuTcr (f : Ccr) : (s.setCcr f).acuTcr = s.acuTcr := rfl
@[simp] theorem State.setCcr_mem (f : Ccr) : (s.setCcr f).mem = s.mem := rfl
@[simp] theorem State.setCcr_run (f : Ccr) : (s.setCcr f).run = s.run := rfl
@[simp] theorem State.setCcr_ipl (f : Ccr) : (s.setCcr f).ipl = s.ipl := rfl
@[simp] theorem State.setCcr_iplPrev (f : Ccr) : (s.setCcr f).iplPrev = s.iplPrev := rfl
@[simp] theorem State.setCcr_pending (f : Ccr) : (s.setCcr f).pending = s.pending := rfl
@[simp] theorem State.setCcr_movemEa (f : Ccr) : (s.setCcr f).movemEa = s.movemEa := rfl
@[simp] theorem State.setCcr_icache (f : Ccr) : (s.setCcr f).icache = s.icache := rfl
@[simp] theorem State.setCcr_dcache (f : Ccr) : (s.setCcr f).dcache = s.dcache := rfl
@[simp] theorem State.setCcr_purged (f : Ccr) : (s.setCcr f).purged = s.purged := rfl
@[simp] theorem State.setCcr_dirty (f : Ccr) : (s.setCcr f).dirty = s.dirty := rfl
@[simp] theorem State.setCcr_romCells (f : Ccr) : (s.setCcr f).romCells = s.romCells := rfl
@[simp] theorem State.setCcr_unpushed (f : Ccr) : (s.setCcr f).unpushed = s.unpushed := rfl
@[simp] theorem State.setCcr_staleData (f : Ccr) : (s.setCcr f).staleData = s.staleData := rfl
@[simp] theorem State.setCcr_staleInstr (f : Ccr) : (s.setCcr f).staleInstr = s.staleInstr := rfl
@[simp] theorem State.setCcr_stalePipe (f : Ccr) : (s.setCcr f).stalePipe = s.stalePipe := rfl
@[simp] theorem State.setCcr_cdis (f : Ccr) : (s.setCcr f).cdis = s.cdis := rfl
@[simp] theorem State.setCcr_outputs (f : Ccr) : (s.setCcr f).outputs = s.outputs := rfl
@[simp] theorem State.setCcr_bus (f : Ccr) : (s.setCcr f).bus = s.bus := rfl
@[simp] theorem State.setCcr_platform (f : Ccr) : (s.setCcr f).platform = s.platform := rfl
@[simp] theorem State.setCcr_draws (f : Ccr) : (s.setCcr f).draws = s.draws := rfl

/-- The stack pointers after a new active one. -/
theorem State.setSp_eq (v : Long) : s.setSp v =
    { s with
      usp := if s.super then s.usp else v
      msp := if s.super then (if srM s.sr then v else s.msp) else s.msp
      isp := if s.super then (if srM s.sr then s.isp else v) else s.isp } := by
  unfold State.setSp
  cases h : s.super <;> cases h' : srM s.sr <;> rfl

/-- The registers after a new address register. -/
theorem State.setAreg_eq (n : Reg) (v : Long) : s.setAreg n v =
    { s with
      a := if h : n.toNat < 7 then s.a.set n.toNat v else s.a
      usp := if n.toNat < 7 then s.usp else (s.setSp v).usp
      msp := if n.toNat < 7 then s.msp else (s.setSp v).msp
      isp := if n.toNat < 7 then s.isp else (s.setSp v).isp } := by
  by_cases h : n.toNat < 7
  · rw [State.setAreg, dif_pos h, dif_pos h, if_pos h, if_pos h, if_pos h]
  · rw [State.setAreg, dif_neg h, dif_neg h, if_neg h, if_neg h, if_neg h, State.setSp_eq]

/-- The registers after a new general register. -/
theorem State.setGreg_eq (i : GReg) (v : Long) : s.setGreg i v =
    { s with
      d := if i.getLsbD 3 then s.d else (s.setDreg (i.extractLsb' 0 3) v).d
      a := if i.getLsbD 3 then (s.setAreg (i.extractLsb' 0 3) v).a else s.a
      usp := if i.getLsbD 3 then (s.setAreg (i.extractLsb' 0 3) v).usp else s.usp
      msp := if i.getLsbD 3 then (s.setAreg (i.extractLsb' 0 3) v).msp else s.msp
      isp := if i.getLsbD 3 then (s.setAreg (i.extractLsb' 0 3) v).isp else s.isp } := by
  unfold State.setGreg
  cases h : i.getLsbD 3
  · rfl
  · rw [State.setAreg_eq]; rfl

/-! ## putSr -/

/-- A new SR, and what the comparison of R562 leaves pending. -/
theorem State.putSr_eq (v : Word) : s.putSr v =
    { s with sr := v, pending := if s.pending.isNone && decide (srMask v < s.ipl) then some s.ipl else s.pending } := by
  unfold State.putSr compareLevel
  split <;> simp_all

@[simp] theorem State.putSr_sr (v : Word) : (s.putSr v).sr = v := (congrArg State.sr (s.putSr_eq v) :)
@[simp] theorem State.putSr_pending (v : Word) : (s.putSr v).pending =
    if s.pending.isNone && decide (srMask v < s.ipl) then some s.ipl else s.pending := (congrArg State.pending (s.putSr_eq v) :)
@[simp] theorem State.putSr_d (v : Word) : (s.putSr v).d = s.d := (congrArg State.d (s.putSr_eq v) :)
@[simp] theorem State.putSr_a (v : Word) : (s.putSr v).a = s.a := (congrArg State.a (s.putSr_eq v) :)
@[simp] theorem State.putSr_usp (v : Word) : (s.putSr v).usp = s.usp := (congrArg State.usp (s.putSr_eq v) :)
@[simp] theorem State.putSr_isp (v : Word) : (s.putSr v).isp = s.isp := (congrArg State.isp (s.putSr_eq v) :)
@[simp] theorem State.putSr_msp (v : Word) : (s.putSr v).msp = s.msp := (congrArg State.msp (s.putSr_eq v) :)
@[simp] theorem State.putSr_pc (v : Word) : (s.putSr v).pc = s.pc := (congrArg State.pc (s.putSr_eq v) :)
@[simp] theorem State.putSr_vbr (v : Word) : (s.putSr v).vbr = s.vbr := (congrArg State.vbr (s.putSr_eq v) :)
@[simp] theorem State.putSr_sfc (v : Word) : (s.putSr v).sfc = s.sfc := (congrArg State.sfc (s.putSr_eq v) :)
@[simp] theorem State.putSr_dfc (v : Word) : (s.putSr v).dfc = s.dfc := (congrArg State.dfc (s.putSr_eq v) :)
@[simp] theorem State.putSr_cacr (v : Word) : (s.putSr v).cacr = s.cacr := (congrArg State.cacr (s.putSr_eq v) :)
@[simp] theorem State.putSr_iacr0 (v : Word) : (s.putSr v).iacr0 = s.iacr0 := (congrArg State.iacr0 (s.putSr_eq v) :)
@[simp] theorem State.putSr_iacr1 (v : Word) : (s.putSr v).iacr1 = s.iacr1 := (congrArg State.iacr1 (s.putSr_eq v) :)
@[simp] theorem State.putSr_dacr0 (v : Word) : (s.putSr v).dacr0 = s.dacr0 := (congrArg State.dacr0 (s.putSr_eq v) :)
@[simp] theorem State.putSr_dacr1 (v : Word) : (s.putSr v).dacr1 = s.dacr1 := (congrArg State.dacr1 (s.putSr_eq v) :)
@[simp] theorem State.putSr_acuStatus (v : Word) : (s.putSr v).acuStatus = s.acuStatus := (congrArg State.acuStatus (s.putSr_eq v) :)
@[simp] theorem State.putSr_acuTcr (v : Word) : (s.putSr v).acuTcr = s.acuTcr := (congrArg State.acuTcr (s.putSr_eq v) :)
@[simp] theorem State.putSr_mem (v : Word) : (s.putSr v).mem = s.mem := (congrArg State.mem (s.putSr_eq v) :)
@[simp] theorem State.putSr_run (v : Word) : (s.putSr v).run = s.run := (congrArg State.run (s.putSr_eq v) :)
@[simp] theorem State.putSr_ipl (v : Word) : (s.putSr v).ipl = s.ipl := (congrArg State.ipl (s.putSr_eq v) :)
@[simp] theorem State.putSr_iplPrev (v : Word) : (s.putSr v).iplPrev = s.iplPrev := (congrArg State.iplPrev (s.putSr_eq v) :)
@[simp] theorem State.putSr_movemEa (v : Word) : (s.putSr v).movemEa = s.movemEa := (congrArg State.movemEa (s.putSr_eq v) :)
@[simp] theorem State.putSr_icache (v : Word) : (s.putSr v).icache = s.icache := (congrArg State.icache (s.putSr_eq v) :)
@[simp] theorem State.putSr_dcache (v : Word) : (s.putSr v).dcache = s.dcache := (congrArg State.dcache (s.putSr_eq v) :)
@[simp] theorem State.putSr_purged (v : Word) : (s.putSr v).purged = s.purged := (congrArg State.purged (s.putSr_eq v) :)
@[simp] theorem State.putSr_dirty (v : Word) : (s.putSr v).dirty = s.dirty := (congrArg State.dirty (s.putSr_eq v) :)
@[simp] theorem State.putSr_romCells (v : Word) : (s.putSr v).romCells = s.romCells := (congrArg State.romCells (s.putSr_eq v) :)
@[simp] theorem State.putSr_unpushed (v : Word) : (s.putSr v).unpushed = s.unpushed := (congrArg State.unpushed (s.putSr_eq v) :)
@[simp] theorem State.putSr_staleData (v : Word) : (s.putSr v).staleData = s.staleData := (congrArg State.staleData (s.putSr_eq v) :)
@[simp] theorem State.putSr_staleInstr (v : Word) : (s.putSr v).staleInstr = s.staleInstr := (congrArg State.staleInstr (s.putSr_eq v) :)
@[simp] theorem State.putSr_stalePipe (v : Word) : (s.putSr v).stalePipe = s.stalePipe := (congrArg State.stalePipe (s.putSr_eq v) :)
@[simp] theorem State.putSr_cdis (v : Word) : (s.putSr v).cdis = s.cdis := (congrArg State.cdis (s.putSr_eq v) :)
@[simp] theorem State.putSr_outputs (v : Word) : (s.putSr v).outputs = s.outputs := (congrArg State.outputs (s.putSr_eq v) :)
@[simp] theorem State.putSr_bus (v : Word) : (s.putSr v).bus = s.bus := (congrArg State.bus (s.putSr_eq v) :)
@[simp] theorem State.putSr_platform (v : Word) : (s.putSr v).platform = s.platform := (congrArg State.platform (s.putSr_eq v) :)
@[simp] theorem State.putSr_draws (v : Word) : (s.putSr v).draws = s.draws := (congrArg State.draws (s.putSr_eq v) :)

/-! ## setSp -/

@[simp] theorem State.setSp_d (v : Long) : (s.setSp v).d = s.d := (congrArg State.d (s.setSp_eq v) :)
@[simp] theorem State.setSp_a (v : Long) : (s.setSp v).a = s.a := (congrArg State.a (s.setSp_eq v) :)
@[simp] theorem State.setSp_pc (v : Long) : (s.setSp v).pc = s.pc := (congrArg State.pc (s.setSp_eq v) :)
@[simp] theorem State.setSp_sr (v : Long) : (s.setSp v).sr = s.sr := (congrArg State.sr (s.setSp_eq v) :)
@[simp] theorem State.setSp_vbr (v : Long) : (s.setSp v).vbr = s.vbr := (congrArg State.vbr (s.setSp_eq v) :)
@[simp] theorem State.setSp_sfc (v : Long) : (s.setSp v).sfc = s.sfc := (congrArg State.sfc (s.setSp_eq v) :)
@[simp] theorem State.setSp_dfc (v : Long) : (s.setSp v).dfc = s.dfc := (congrArg State.dfc (s.setSp_eq v) :)
@[simp] theorem State.setSp_cacr (v : Long) : (s.setSp v).cacr = s.cacr := (congrArg State.cacr (s.setSp_eq v) :)
@[simp] theorem State.setSp_iacr0 (v : Long) : (s.setSp v).iacr0 = s.iacr0 := (congrArg State.iacr0 (s.setSp_eq v) :)
@[simp] theorem State.setSp_iacr1 (v : Long) : (s.setSp v).iacr1 = s.iacr1 := (congrArg State.iacr1 (s.setSp_eq v) :)
@[simp] theorem State.setSp_dacr0 (v : Long) : (s.setSp v).dacr0 = s.dacr0 := (congrArg State.dacr0 (s.setSp_eq v) :)
@[simp] theorem State.setSp_dacr1 (v : Long) : (s.setSp v).dacr1 = s.dacr1 := (congrArg State.dacr1 (s.setSp_eq v) :)
@[simp] theorem State.setSp_acuStatus (v : Long) : (s.setSp v).acuStatus = s.acuStatus := (congrArg State.acuStatus (s.setSp_eq v) :)
@[simp] theorem State.setSp_acuTcr (v : Long) : (s.setSp v).acuTcr = s.acuTcr := (congrArg State.acuTcr (s.setSp_eq v) :)
@[simp] theorem State.setSp_mem (v : Long) : (s.setSp v).mem = s.mem := (congrArg State.mem (s.setSp_eq v) :)
@[simp] theorem State.setSp_run (v : Long) : (s.setSp v).run = s.run := (congrArg State.run (s.setSp_eq v) :)
@[simp] theorem State.setSp_ipl (v : Long) : (s.setSp v).ipl = s.ipl := (congrArg State.ipl (s.setSp_eq v) :)
@[simp] theorem State.setSp_iplPrev (v : Long) : (s.setSp v).iplPrev = s.iplPrev := (congrArg State.iplPrev (s.setSp_eq v) :)
@[simp] theorem State.setSp_pending (v : Long) : (s.setSp v).pending = s.pending := (congrArg State.pending (s.setSp_eq v) :)
@[simp] theorem State.setSp_movemEa (v : Long) : (s.setSp v).movemEa = s.movemEa := (congrArg State.movemEa (s.setSp_eq v) :)
@[simp] theorem State.setSp_icache (v : Long) : (s.setSp v).icache = s.icache := (congrArg State.icache (s.setSp_eq v) :)
@[simp] theorem State.setSp_dcache (v : Long) : (s.setSp v).dcache = s.dcache := (congrArg State.dcache (s.setSp_eq v) :)
@[simp] theorem State.setSp_purged (v : Long) : (s.setSp v).purged = s.purged := (congrArg State.purged (s.setSp_eq v) :)
@[simp] theorem State.setSp_dirty (v : Long) : (s.setSp v).dirty = s.dirty := (congrArg State.dirty (s.setSp_eq v) :)
@[simp] theorem State.setSp_romCells (v : Long) : (s.setSp v).romCells = s.romCells := (congrArg State.romCells (s.setSp_eq v) :)
@[simp] theorem State.setSp_unpushed (v : Long) : (s.setSp v).unpushed = s.unpushed := (congrArg State.unpushed (s.setSp_eq v) :)
@[simp] theorem State.setSp_staleData (v : Long) : (s.setSp v).staleData = s.staleData := (congrArg State.staleData (s.setSp_eq v) :)
@[simp] theorem State.setSp_staleInstr (v : Long) : (s.setSp v).staleInstr = s.staleInstr := (congrArg State.staleInstr (s.setSp_eq v) :)
@[simp] theorem State.setSp_stalePipe (v : Long) : (s.setSp v).stalePipe = s.stalePipe := (congrArg State.stalePipe (s.setSp_eq v) :)
@[simp] theorem State.setSp_cdis (v : Long) : (s.setSp v).cdis = s.cdis := (congrArg State.cdis (s.setSp_eq v) :)
@[simp] theorem State.setSp_outputs (v : Long) : (s.setSp v).outputs = s.outputs := (congrArg State.outputs (s.setSp_eq v) :)
@[simp] theorem State.setSp_bus (v : Long) : (s.setSp v).bus = s.bus := (congrArg State.bus (s.setSp_eq v) :)
@[simp] theorem State.setSp_platform (v : Long) : (s.setSp v).platform = s.platform := (congrArg State.platform (s.setSp_eq v) :)
@[simp] theorem State.setSp_draws (v : Long) : (s.setSp v).draws = s.draws := (congrArg State.draws (s.setSp_eq v) :)

/-! ## setAreg -/

@[simp] theorem State.setAreg_d (n : Reg) (v : Long) : (s.setAreg n v).d = s.d := (congrArg State.d (s.setAreg_eq n v) :)
@[simp] theorem State.setAreg_pc (n : Reg) (v : Long) : (s.setAreg n v).pc = s.pc := (congrArg State.pc (s.setAreg_eq n v) :)
@[simp] theorem State.setAreg_sr (n : Reg) (v : Long) : (s.setAreg n v).sr = s.sr := (congrArg State.sr (s.setAreg_eq n v) :)
@[simp] theorem State.setAreg_vbr (n : Reg) (v : Long) : (s.setAreg n v).vbr = s.vbr := (congrArg State.vbr (s.setAreg_eq n v) :)
@[simp] theorem State.setAreg_sfc (n : Reg) (v : Long) : (s.setAreg n v).sfc = s.sfc := (congrArg State.sfc (s.setAreg_eq n v) :)
@[simp] theorem State.setAreg_dfc (n : Reg) (v : Long) : (s.setAreg n v).dfc = s.dfc := (congrArg State.dfc (s.setAreg_eq n v) :)
@[simp] theorem State.setAreg_cacr (n : Reg) (v : Long) : (s.setAreg n v).cacr = s.cacr := (congrArg State.cacr (s.setAreg_eq n v) :)
@[simp] theorem State.setAreg_iacr0 (n : Reg) (v : Long) : (s.setAreg n v).iacr0 = s.iacr0 := (congrArg State.iacr0 (s.setAreg_eq n v) :)
@[simp] theorem State.setAreg_iacr1 (n : Reg) (v : Long) : (s.setAreg n v).iacr1 = s.iacr1 := (congrArg State.iacr1 (s.setAreg_eq n v) :)
@[simp] theorem State.setAreg_dacr0 (n : Reg) (v : Long) : (s.setAreg n v).dacr0 = s.dacr0 := (congrArg State.dacr0 (s.setAreg_eq n v) :)
@[simp] theorem State.setAreg_dacr1 (n : Reg) (v : Long) : (s.setAreg n v).dacr1 = s.dacr1 := (congrArg State.dacr1 (s.setAreg_eq n v) :)
@[simp] theorem State.setAreg_acuStatus (n : Reg) (v : Long) : (s.setAreg n v).acuStatus = s.acuStatus := (congrArg State.acuStatus (s.setAreg_eq n v) :)
@[simp] theorem State.setAreg_acuTcr (n : Reg) (v : Long) : (s.setAreg n v).acuTcr = s.acuTcr := (congrArg State.acuTcr (s.setAreg_eq n v) :)
@[simp] theorem State.setAreg_mem (n : Reg) (v : Long) : (s.setAreg n v).mem = s.mem := (congrArg State.mem (s.setAreg_eq n v) :)
@[simp] theorem State.setAreg_run (n : Reg) (v : Long) : (s.setAreg n v).run = s.run := (congrArg State.run (s.setAreg_eq n v) :)
@[simp] theorem State.setAreg_ipl (n : Reg) (v : Long) : (s.setAreg n v).ipl = s.ipl := (congrArg State.ipl (s.setAreg_eq n v) :)
@[simp] theorem State.setAreg_iplPrev (n : Reg) (v : Long) : (s.setAreg n v).iplPrev = s.iplPrev := (congrArg State.iplPrev (s.setAreg_eq n v) :)
@[simp] theorem State.setAreg_pending (n : Reg) (v : Long) : (s.setAreg n v).pending = s.pending := (congrArg State.pending (s.setAreg_eq n v) :)
@[simp] theorem State.setAreg_movemEa (n : Reg) (v : Long) : (s.setAreg n v).movemEa = s.movemEa := (congrArg State.movemEa (s.setAreg_eq n v) :)
@[simp] theorem State.setAreg_icache (n : Reg) (v : Long) : (s.setAreg n v).icache = s.icache := (congrArg State.icache (s.setAreg_eq n v) :)
@[simp] theorem State.setAreg_dcache (n : Reg) (v : Long) : (s.setAreg n v).dcache = s.dcache := (congrArg State.dcache (s.setAreg_eq n v) :)
@[simp] theorem State.setAreg_purged (n : Reg) (v : Long) : (s.setAreg n v).purged = s.purged := (congrArg State.purged (s.setAreg_eq n v) :)
@[simp] theorem State.setAreg_dirty (n : Reg) (v : Long) : (s.setAreg n v).dirty = s.dirty := (congrArg State.dirty (s.setAreg_eq n v) :)
@[simp] theorem State.setAreg_romCells (n : Reg) (v : Long) : (s.setAreg n v).romCells = s.romCells := (congrArg State.romCells (s.setAreg_eq n v) :)
@[simp] theorem State.setAreg_unpushed (n : Reg) (v : Long) : (s.setAreg n v).unpushed = s.unpushed := (congrArg State.unpushed (s.setAreg_eq n v) :)
@[simp] theorem State.setAreg_staleData (n : Reg) (v : Long) : (s.setAreg n v).staleData = s.staleData := (congrArg State.staleData (s.setAreg_eq n v) :)
@[simp] theorem State.setAreg_staleInstr (n : Reg) (v : Long) : (s.setAreg n v).staleInstr = s.staleInstr := (congrArg State.staleInstr (s.setAreg_eq n v) :)
@[simp] theorem State.setAreg_stalePipe (n : Reg) (v : Long) : (s.setAreg n v).stalePipe = s.stalePipe := (congrArg State.stalePipe (s.setAreg_eq n v) :)
@[simp] theorem State.setAreg_cdis (n : Reg) (v : Long) : (s.setAreg n v).cdis = s.cdis := (congrArg State.cdis (s.setAreg_eq n v) :)
@[simp] theorem State.setAreg_outputs (n : Reg) (v : Long) : (s.setAreg n v).outputs = s.outputs := (congrArg State.outputs (s.setAreg_eq n v) :)
@[simp] theorem State.setAreg_bus (n : Reg) (v : Long) : (s.setAreg n v).bus = s.bus := (congrArg State.bus (s.setAreg_eq n v) :)
@[simp] theorem State.setAreg_platform (n : Reg) (v : Long) : (s.setAreg n v).platform = s.platform := (congrArg State.platform (s.setAreg_eq n v) :)
@[simp] theorem State.setAreg_draws (n : Reg) (v : Long) : (s.setAreg n v).draws = s.draws := (congrArg State.draws (s.setAreg_eq n v) :)

/-! ## setGreg -/

@[simp] theorem State.setGreg_pc (i : GReg) (v : Long) : (s.setGreg i v).pc = s.pc := (congrArg State.pc (s.setGreg_eq i v) :)
@[simp] theorem State.setGreg_sr (i : GReg) (v : Long) : (s.setGreg i v).sr = s.sr := (congrArg State.sr (s.setGreg_eq i v) :)
@[simp] theorem State.setGreg_vbr (i : GReg) (v : Long) : (s.setGreg i v).vbr = s.vbr := (congrArg State.vbr (s.setGreg_eq i v) :)
@[simp] theorem State.setGreg_sfc (i : GReg) (v : Long) : (s.setGreg i v).sfc = s.sfc := (congrArg State.sfc (s.setGreg_eq i v) :)
@[simp] theorem State.setGreg_dfc (i : GReg) (v : Long) : (s.setGreg i v).dfc = s.dfc := (congrArg State.dfc (s.setGreg_eq i v) :)
@[simp] theorem State.setGreg_cacr (i : GReg) (v : Long) : (s.setGreg i v).cacr = s.cacr := (congrArg State.cacr (s.setGreg_eq i v) :)
@[simp] theorem State.setGreg_iacr0 (i : GReg) (v : Long) : (s.setGreg i v).iacr0 = s.iacr0 := (congrArg State.iacr0 (s.setGreg_eq i v) :)
@[simp] theorem State.setGreg_iacr1 (i : GReg) (v : Long) : (s.setGreg i v).iacr1 = s.iacr1 := (congrArg State.iacr1 (s.setGreg_eq i v) :)
@[simp] theorem State.setGreg_dacr0 (i : GReg) (v : Long) : (s.setGreg i v).dacr0 = s.dacr0 := (congrArg State.dacr0 (s.setGreg_eq i v) :)
@[simp] theorem State.setGreg_dacr1 (i : GReg) (v : Long) : (s.setGreg i v).dacr1 = s.dacr1 := (congrArg State.dacr1 (s.setGreg_eq i v) :)
@[simp] theorem State.setGreg_acuStatus (i : GReg) (v : Long) : (s.setGreg i v).acuStatus = s.acuStatus := (congrArg State.acuStatus (s.setGreg_eq i v) :)
@[simp] theorem State.setGreg_acuTcr (i : GReg) (v : Long) : (s.setGreg i v).acuTcr = s.acuTcr := (congrArg State.acuTcr (s.setGreg_eq i v) :)
@[simp] theorem State.setGreg_mem (i : GReg) (v : Long) : (s.setGreg i v).mem = s.mem := (congrArg State.mem (s.setGreg_eq i v) :)
@[simp] theorem State.setGreg_run (i : GReg) (v : Long) : (s.setGreg i v).run = s.run := (congrArg State.run (s.setGreg_eq i v) :)
@[simp] theorem State.setGreg_ipl (i : GReg) (v : Long) : (s.setGreg i v).ipl = s.ipl := (congrArg State.ipl (s.setGreg_eq i v) :)
@[simp] theorem State.setGreg_iplPrev (i : GReg) (v : Long) : (s.setGreg i v).iplPrev = s.iplPrev := (congrArg State.iplPrev (s.setGreg_eq i v) :)
@[simp] theorem State.setGreg_pending (i : GReg) (v : Long) : (s.setGreg i v).pending = s.pending := (congrArg State.pending (s.setGreg_eq i v) :)
@[simp] theorem State.setGreg_movemEa (i : GReg) (v : Long) : (s.setGreg i v).movemEa = s.movemEa := (congrArg State.movemEa (s.setGreg_eq i v) :)
@[simp] theorem State.setGreg_icache (i : GReg) (v : Long) : (s.setGreg i v).icache = s.icache := (congrArg State.icache (s.setGreg_eq i v) :)
@[simp] theorem State.setGreg_dcache (i : GReg) (v : Long) : (s.setGreg i v).dcache = s.dcache := (congrArg State.dcache (s.setGreg_eq i v) :)
@[simp] theorem State.setGreg_purged (i : GReg) (v : Long) : (s.setGreg i v).purged = s.purged := (congrArg State.purged (s.setGreg_eq i v) :)
@[simp] theorem State.setGreg_dirty (i : GReg) (v : Long) : (s.setGreg i v).dirty = s.dirty := (congrArg State.dirty (s.setGreg_eq i v) :)
@[simp] theorem State.setGreg_romCells (i : GReg) (v : Long) : (s.setGreg i v).romCells = s.romCells := (congrArg State.romCells (s.setGreg_eq i v) :)
@[simp] theorem State.setGreg_unpushed (i : GReg) (v : Long) : (s.setGreg i v).unpushed = s.unpushed := (congrArg State.unpushed (s.setGreg_eq i v) :)
@[simp] theorem State.setGreg_staleData (i : GReg) (v : Long) : (s.setGreg i v).staleData = s.staleData := (congrArg State.staleData (s.setGreg_eq i v) :)
@[simp] theorem State.setGreg_staleInstr (i : GReg) (v : Long) : (s.setGreg i v).staleInstr = s.staleInstr := (congrArg State.staleInstr (s.setGreg_eq i v) :)
@[simp] theorem State.setGreg_stalePipe (i : GReg) (v : Long) : (s.setGreg i v).stalePipe = s.stalePipe := (congrArg State.stalePipe (s.setGreg_eq i v) :)
@[simp] theorem State.setGreg_cdis (i : GReg) (v : Long) : (s.setGreg i v).cdis = s.cdis := (congrArg State.cdis (s.setGreg_eq i v) :)
@[simp] theorem State.setGreg_outputs (i : GReg) (v : Long) : (s.setGreg i v).outputs = s.outputs := (congrArg State.outputs (s.setGreg_eq i v) :)
@[simp] theorem State.setGreg_bus (i : GReg) (v : Long) : (s.setGreg i v).bus = s.bus := (congrArg State.bus (s.setGreg_eq i v) :)
@[simp] theorem State.setGreg_platform (i : GReg) (v : Long) : (s.setGreg i v).platform = s.platform := (congrArg State.platform (s.setGreg_eq i v) :)
@[simp] theorem State.setGreg_draws (i : GReg) (v : Long) : (s.setGreg i v).draws = s.draws := (congrArg State.draws (s.setGreg_eq i v) :)

/-! ## Memory accesses -/

@[simp] theorem afterRead_d (fc : BitVec 3) (a : Long) (n : Nat) : (afterRead s fc a n).d = s.d := rfl
@[simp] theorem afterRead_a (fc : BitVec 3) (a : Long) (n : Nat) : (afterRead s fc a n).a = s.a := rfl
@[simp] theorem afterRead_usp (fc : BitVec 3) (a : Long) (n : Nat) : (afterRead s fc a n).usp = s.usp := rfl
@[simp] theorem afterRead_isp (fc : BitVec 3) (a : Long) (n : Nat) : (afterRead s fc a n).isp = s.isp := rfl
@[simp] theorem afterRead_msp (fc : BitVec 3) (a : Long) (n : Nat) : (afterRead s fc a n).msp = s.msp := rfl
@[simp] theorem afterRead_pc (fc : BitVec 3) (a : Long) (n : Nat) : (afterRead s fc a n).pc = s.pc := rfl
@[simp] theorem afterRead_sr (fc : BitVec 3) (a : Long) (n : Nat) : (afterRead s fc a n).sr = s.sr := rfl
@[simp] theorem afterRead_vbr (fc : BitVec 3) (a : Long) (n : Nat) : (afterRead s fc a n).vbr = s.vbr := rfl
@[simp] theorem afterRead_sfc (fc : BitVec 3) (a : Long) (n : Nat) : (afterRead s fc a n).sfc = s.sfc := rfl
@[simp] theorem afterRead_dfc (fc : BitVec 3) (a : Long) (n : Nat) : (afterRead s fc a n).dfc = s.dfc := rfl
@[simp] theorem afterRead_cacr (fc : BitVec 3) (a : Long) (n : Nat) : (afterRead s fc a n).cacr = s.cacr := rfl
@[simp] theorem afterRead_iacr0 (fc : BitVec 3) (a : Long) (n : Nat) : (afterRead s fc a n).iacr0 = s.iacr0 := rfl
@[simp] theorem afterRead_iacr1 (fc : BitVec 3) (a : Long) (n : Nat) : (afterRead s fc a n).iacr1 = s.iacr1 := rfl
@[simp] theorem afterRead_dacr0 (fc : BitVec 3) (a : Long) (n : Nat) : (afterRead s fc a n).dacr0 = s.dacr0 := rfl
@[simp] theorem afterRead_dacr1 (fc : BitVec 3) (a : Long) (n : Nat) : (afterRead s fc a n).dacr1 = s.dacr1 := rfl
@[simp] theorem afterRead_acuStatus (fc : BitVec 3) (a : Long) (n : Nat) : (afterRead s fc a n).acuStatus = s.acuStatus := rfl
@[simp] theorem afterRead_acuTcr (fc : BitVec 3) (a : Long) (n : Nat) : (afterRead s fc a n).acuTcr = s.acuTcr := rfl
@[simp] theorem afterRead_mem (fc : BitVec 3) (a : Long) (n : Nat) : (afterRead s fc a n).mem = s.mem := rfl
@[simp] theorem afterRead_run (fc : BitVec 3) (a : Long) (n : Nat) : (afterRead s fc a n).run = s.run := rfl
@[simp] theorem afterRead_ipl (fc : BitVec 3) (a : Long) (n : Nat) : (afterRead s fc a n).ipl = s.ipl := rfl
@[simp] theorem afterRead_iplPrev (fc : BitVec 3) (a : Long) (n : Nat) : (afterRead s fc a n).iplPrev = s.iplPrev := rfl
@[simp] theorem afterRead_pending (fc : BitVec 3) (a : Long) (n : Nat) : (afterRead s fc a n).pending = s.pending := rfl
@[simp] theorem afterRead_movemEa (fc : BitVec 3) (a : Long) (n : Nat) : (afterRead s fc a n).movemEa = s.movemEa := rfl
@[simp] theorem afterRead_icache (fc : BitVec 3) (a : Long) (n : Nat) : (afterRead s fc a n).icache = s.icache := rfl
@[simp] theorem afterRead_dcache (fc : BitVec 3) (a : Long) (n : Nat) : (afterRead s fc a n).dcache = s.dcache := rfl
@[simp] theorem afterRead_purged (fc : BitVec 3) (a : Long) (n : Nat) : (afterRead s fc a n).purged = s.purged := rfl
@[simp] theorem afterRead_cdis (fc : BitVec 3) (a : Long) (n : Nat) : (afterRead s fc a n).cdis = s.cdis := rfl
@[simp] theorem afterRead_outputs (fc : BitVec 3) (a : Long) (n : Nat) : (afterRead s fc a n).outputs = s.outputs := rfl
@[simp] theorem afterRead_bus (fc : BitVec 3) (a : Long) (n : Nat) : (afterRead s fc a n).bus = s.bus := rfl
@[simp] theorem afterRead_platform (fc : BitVec 3) (a : Long) (n : Nat) : (afterRead s fc a n).platform = s.platform := rfl
@[simp] theorem afterRead_draws (fc : BitVec 3) (a : Long) (n : Nat) : (afterRead s fc a n).draws = s.draws := rfl

/-! ## A byte written -/

@[simp] theorem pokeByte_d (fc : BitVec 3) (a : Long) (v : Byte) : (pokeByte s fc a v).d = s.d := rfl
@[simp] theorem pokeByte_a (fc : BitVec 3) (a : Long) (v : Byte) : (pokeByte s fc a v).a = s.a := rfl
@[simp] theorem pokeByte_usp (fc : BitVec 3) (a : Long) (v : Byte) : (pokeByte s fc a v).usp = s.usp := rfl
@[simp] theorem pokeByte_isp (fc : BitVec 3) (a : Long) (v : Byte) : (pokeByte s fc a v).isp = s.isp := rfl
@[simp] theorem pokeByte_msp (fc : BitVec 3) (a : Long) (v : Byte) : (pokeByte s fc a v).msp = s.msp := rfl
@[simp] theorem pokeByte_pc (fc : BitVec 3) (a : Long) (v : Byte) : (pokeByte s fc a v).pc = s.pc := rfl
@[simp] theorem pokeByte_sr (fc : BitVec 3) (a : Long) (v : Byte) : (pokeByte s fc a v).sr = s.sr := rfl
@[simp] theorem pokeByte_vbr (fc : BitVec 3) (a : Long) (v : Byte) : (pokeByte s fc a v).vbr = s.vbr := rfl
@[simp] theorem pokeByte_sfc (fc : BitVec 3) (a : Long) (v : Byte) : (pokeByte s fc a v).sfc = s.sfc := rfl
@[simp] theorem pokeByte_dfc (fc : BitVec 3) (a : Long) (v : Byte) : (pokeByte s fc a v).dfc = s.dfc := rfl
@[simp] theorem pokeByte_cacr (fc : BitVec 3) (a : Long) (v : Byte) : (pokeByte s fc a v).cacr = s.cacr := rfl
@[simp] theorem pokeByte_iacr0 (fc : BitVec 3) (a : Long) (v : Byte) : (pokeByte s fc a v).iacr0 = s.iacr0 := rfl
@[simp] theorem pokeByte_iacr1 (fc : BitVec 3) (a : Long) (v : Byte) : (pokeByte s fc a v).iacr1 = s.iacr1 := rfl
@[simp] theorem pokeByte_dacr0 (fc : BitVec 3) (a : Long) (v : Byte) : (pokeByte s fc a v).dacr0 = s.dacr0 := rfl
@[simp] theorem pokeByte_dacr1 (fc : BitVec 3) (a : Long) (v : Byte) : (pokeByte s fc a v).dacr1 = s.dacr1 := rfl
@[simp] theorem pokeByte_acuStatus (fc : BitVec 3) (a : Long) (v : Byte) : (pokeByte s fc a v).acuStatus = s.acuStatus := rfl
@[simp] theorem pokeByte_acuTcr (fc : BitVec 3) (a : Long) (v : Byte) : (pokeByte s fc a v).acuTcr = s.acuTcr := rfl
@[simp] theorem pokeByte_run (fc : BitVec 3) (a : Long) (v : Byte) : (pokeByte s fc a v).run = s.run := rfl
@[simp] theorem pokeByte_ipl (fc : BitVec 3) (a : Long) (v : Byte) : (pokeByte s fc a v).ipl = s.ipl := rfl
@[simp] theorem pokeByte_iplPrev (fc : BitVec 3) (a : Long) (v : Byte) : (pokeByte s fc a v).iplPrev = s.iplPrev := rfl
@[simp] theorem pokeByte_pending (fc : BitVec 3) (a : Long) (v : Byte) : (pokeByte s fc a v).pending = s.pending := rfl
@[simp] theorem pokeByte_movemEa (fc : BitVec 3) (a : Long) (v : Byte) : (pokeByte s fc a v).movemEa = s.movemEa := rfl
@[simp] theorem pokeByte_icache (fc : BitVec 3) (a : Long) (v : Byte) : (pokeByte s fc a v).icache = s.icache := rfl
@[simp] theorem pokeByte_dcache (fc : BitVec 3) (a : Long) (v : Byte) : (pokeByte s fc a v).dcache = s.dcache := rfl
@[simp] theorem pokeByte_purged (fc : BitVec 3) (a : Long) (v : Byte) : (pokeByte s fc a v).purged = s.purged := rfl
@[simp] theorem pokeByte_cdis (fc : BitVec 3) (a : Long) (v : Byte) : (pokeByte s fc a v).cdis = s.cdis := rfl
@[simp] theorem pokeByte_outputs (fc : BitVec 3) (a : Long) (v : Byte) : (pokeByte s fc a v).outputs = s.outputs := rfl
@[simp] theorem pokeByte_bus (fc : BitVec 3) (a : Long) (v : Byte) : (pokeByte s fc a v).bus = s.bus := rfl
@[simp] theorem pokeByte_platform (fc : BitVec 3) (a : Long) (v : Byte) : (pokeByte s fc a v).platform = s.platform := rfl
@[simp] theorem pokeByte_draws (fc : BitVec 3) (a : Long) (v : Byte) : (pokeByte s fc a v).draws = s.draws := rfl

/-! ## An operand written -/

@[simp] theorem poke_d (fc : BitVec 3) (sz : Size) (a : Long) (v : BitVec sz.bits) : (poke s fc sz a v).d = s.d := by cases sz <;> simp [poke]
@[simp] theorem poke_a (fc : BitVec 3) (sz : Size) (a : Long) (v : BitVec sz.bits) : (poke s fc sz a v).a = s.a := by cases sz <;> simp [poke]
@[simp] theorem poke_usp (fc : BitVec 3) (sz : Size) (a : Long) (v : BitVec sz.bits) : (poke s fc sz a v).usp = s.usp := by cases sz <;> simp [poke]
@[simp] theorem poke_isp (fc : BitVec 3) (sz : Size) (a : Long) (v : BitVec sz.bits) : (poke s fc sz a v).isp = s.isp := by cases sz <;> simp [poke]
@[simp] theorem poke_msp (fc : BitVec 3) (sz : Size) (a : Long) (v : BitVec sz.bits) : (poke s fc sz a v).msp = s.msp := by cases sz <;> simp [poke]
@[simp] theorem poke_pc (fc : BitVec 3) (sz : Size) (a : Long) (v : BitVec sz.bits) : (poke s fc sz a v).pc = s.pc := by cases sz <;> simp [poke]
@[simp] theorem poke_sr (fc : BitVec 3) (sz : Size) (a : Long) (v : BitVec sz.bits) : (poke s fc sz a v).sr = s.sr := by cases sz <;> simp [poke]
@[simp] theorem poke_vbr (fc : BitVec 3) (sz : Size) (a : Long) (v : BitVec sz.bits) : (poke s fc sz a v).vbr = s.vbr := by cases sz <;> simp [poke]
@[simp] theorem poke_sfc (fc : BitVec 3) (sz : Size) (a : Long) (v : BitVec sz.bits) : (poke s fc sz a v).sfc = s.sfc := by cases sz <;> simp [poke]
@[simp] theorem poke_dfc (fc : BitVec 3) (sz : Size) (a : Long) (v : BitVec sz.bits) : (poke s fc sz a v).dfc = s.dfc := by cases sz <;> simp [poke]
@[simp] theorem poke_cacr (fc : BitVec 3) (sz : Size) (a : Long) (v : BitVec sz.bits) : (poke s fc sz a v).cacr = s.cacr := by cases sz <;> simp [poke]
@[simp] theorem poke_iacr0 (fc : BitVec 3) (sz : Size) (a : Long) (v : BitVec sz.bits) : (poke s fc sz a v).iacr0 = s.iacr0 := by cases sz <;> simp [poke]
@[simp] theorem poke_iacr1 (fc : BitVec 3) (sz : Size) (a : Long) (v : BitVec sz.bits) : (poke s fc sz a v).iacr1 = s.iacr1 := by cases sz <;> simp [poke]
@[simp] theorem poke_dacr0 (fc : BitVec 3) (sz : Size) (a : Long) (v : BitVec sz.bits) : (poke s fc sz a v).dacr0 = s.dacr0 := by cases sz <;> simp [poke]
@[simp] theorem poke_dacr1 (fc : BitVec 3) (sz : Size) (a : Long) (v : BitVec sz.bits) : (poke s fc sz a v).dacr1 = s.dacr1 := by cases sz <;> simp [poke]
@[simp] theorem poke_acuStatus (fc : BitVec 3) (sz : Size) (a : Long) (v : BitVec sz.bits) : (poke s fc sz a v).acuStatus = s.acuStatus := by cases sz <;> simp [poke]
@[simp] theorem poke_acuTcr (fc : BitVec 3) (sz : Size) (a : Long) (v : BitVec sz.bits) : (poke s fc sz a v).acuTcr = s.acuTcr := by cases sz <;> simp [poke]
@[simp] theorem poke_run (fc : BitVec 3) (sz : Size) (a : Long) (v : BitVec sz.bits) : (poke s fc sz a v).run = s.run := by cases sz <;> simp [poke]
@[simp] theorem poke_ipl (fc : BitVec 3) (sz : Size) (a : Long) (v : BitVec sz.bits) : (poke s fc sz a v).ipl = s.ipl := by cases sz <;> simp [poke]
@[simp] theorem poke_iplPrev (fc : BitVec 3) (sz : Size) (a : Long) (v : BitVec sz.bits) : (poke s fc sz a v).iplPrev = s.iplPrev := by cases sz <;> simp [poke]
@[simp] theorem poke_pending (fc : BitVec 3) (sz : Size) (a : Long) (v : BitVec sz.bits) : (poke s fc sz a v).pending = s.pending := by cases sz <;> simp [poke]
@[simp] theorem poke_movemEa (fc : BitVec 3) (sz : Size) (a : Long) (v : BitVec sz.bits) : (poke s fc sz a v).movemEa = s.movemEa := by cases sz <;> simp [poke]
@[simp] theorem poke_icache (fc : BitVec 3) (sz : Size) (a : Long) (v : BitVec sz.bits) : (poke s fc sz a v).icache = s.icache := by cases sz <;> simp [poke]
@[simp] theorem poke_dcache (fc : BitVec 3) (sz : Size) (a : Long) (v : BitVec sz.bits) : (poke s fc sz a v).dcache = s.dcache := by cases sz <;> simp [poke]
@[simp] theorem poke_purged (fc : BitVec 3) (sz : Size) (a : Long) (v : BitVec sz.bits) : (poke s fc sz a v).purged = s.purged := by cases sz <;> simp [poke]
@[simp] theorem poke_cdis (fc : BitVec 3) (sz : Size) (a : Long) (v : BitVec sz.bits) : (poke s fc sz a v).cdis = s.cdis := by cases sz <;> simp [poke]
@[simp] theorem poke_outputs (fc : BitVec 3) (sz : Size) (a : Long) (v : BitVec sz.bits) : (poke s fc sz a v).outputs = s.outputs := by cases sz <;> simp [poke]
@[simp] theorem poke_bus (fc : BitVec 3) (sz : Size) (a : Long) (v : BitVec sz.bits) : (poke s fc sz a v).bus = s.bus := by cases sz <;> simp [poke]
@[simp] theorem poke_platform (fc : BitVec 3) (sz : Size) (a : Long) (v : BitVec sz.bits) : (poke s fc sz a v).platform = s.platform := by cases sz <;> simp [poke]
@[simp] theorem poke_draws (fc : BitVec 3) (sz : Size) (a : Long) (v : BitVec sz.bits) : (poke s fc sz a v).draws = s.draws := by cases sz <;> simp [poke]

/-! ## A store -/

@[simp] theorem Store.apply_d (w : Store) : (w.apply s).d = s.d := by simp [Store.apply]
@[simp] theorem Store.apply_a (w : Store) : (w.apply s).a = s.a := by simp [Store.apply]
@[simp] theorem Store.apply_usp (w : Store) : (w.apply s).usp = s.usp := by simp [Store.apply]
@[simp] theorem Store.apply_isp (w : Store) : (w.apply s).isp = s.isp := by simp [Store.apply]
@[simp] theorem Store.apply_msp (w : Store) : (w.apply s).msp = s.msp := by simp [Store.apply]
@[simp] theorem Store.apply_pc (w : Store) : (w.apply s).pc = s.pc := by simp [Store.apply]
@[simp] theorem Store.apply_sr (w : Store) : (w.apply s).sr = s.sr := by simp [Store.apply]
@[simp] theorem Store.apply_vbr (w : Store) : (w.apply s).vbr = s.vbr := by simp [Store.apply]
@[simp] theorem Store.apply_sfc (w : Store) : (w.apply s).sfc = s.sfc := by simp [Store.apply]
@[simp] theorem Store.apply_dfc (w : Store) : (w.apply s).dfc = s.dfc := by simp [Store.apply]
@[simp] theorem Store.apply_cacr (w : Store) : (w.apply s).cacr = s.cacr := by simp [Store.apply]
@[simp] theorem Store.apply_iacr0 (w : Store) : (w.apply s).iacr0 = s.iacr0 := by simp [Store.apply]
@[simp] theorem Store.apply_iacr1 (w : Store) : (w.apply s).iacr1 = s.iacr1 := by simp [Store.apply]
@[simp] theorem Store.apply_dacr0 (w : Store) : (w.apply s).dacr0 = s.dacr0 := by simp [Store.apply]
@[simp] theorem Store.apply_dacr1 (w : Store) : (w.apply s).dacr1 = s.dacr1 := by simp [Store.apply]
@[simp] theorem Store.apply_acuStatus (w : Store) : (w.apply s).acuStatus = s.acuStatus := by simp [Store.apply]
@[simp] theorem Store.apply_acuTcr (w : Store) : (w.apply s).acuTcr = s.acuTcr := by simp [Store.apply]
@[simp] theorem Store.apply_run (w : Store) : (w.apply s).run = s.run := by simp [Store.apply]
@[simp] theorem Store.apply_ipl (w : Store) : (w.apply s).ipl = s.ipl := by simp [Store.apply]
@[simp] theorem Store.apply_iplPrev (w : Store) : (w.apply s).iplPrev = s.iplPrev := by simp [Store.apply]
@[simp] theorem Store.apply_pending (w : Store) : (w.apply s).pending = s.pending := by simp [Store.apply]
@[simp] theorem Store.apply_movemEa (w : Store) : (w.apply s).movemEa = s.movemEa := by simp [Store.apply]
@[simp] theorem Store.apply_icache (w : Store) : (w.apply s).icache = s.icache := by simp [Store.apply]
@[simp] theorem Store.apply_dcache (w : Store) : (w.apply s).dcache = s.dcache := by simp [Store.apply]
@[simp] theorem Store.apply_purged (w : Store) : (w.apply s).purged = s.purged := by simp [Store.apply]
@[simp] theorem Store.apply_cdis (w : Store) : (w.apply s).cdis = s.cdis := by simp [Store.apply]
@[simp] theorem Store.apply_outputs (w : Store) : (w.apply s).outputs = s.outputs := by simp [Store.apply]
@[simp] theorem Store.apply_bus (w : Store) : (w.apply s).bus = s.bus := by simp [Store.apply]
@[simp] theorem Store.apply_platform (w : Store) : (w.apply s).platform = s.platform := by simp [Store.apply]
@[simp] theorem Store.apply_draws (w : Store) : (w.apply s).draws = s.draws := by simp [Store.apply]

/-! ## Data and address registers -/

/-- Every number but 7 of a 3-bit register names one of the seven stored address registers. -/
theorem reg_lt_seven {n : Reg} (h : n ≠ 7) : n.toNat < 7 := by
  have := n.isLt
  rcases Nat.lt_or_ge n.toNat 7 with h1 | h1
  · exact h1
  · exact absurd (BitVec.eq_of_toNat_eq (by simp; omega)) h

@[simp] theorem State.dreg_setDreg (n : Reg) (v : Long) : (s.setDreg n v).dreg n = v := by
  simp [State.dreg, State.setDreg]

theorem State.dreg_setDreg_ne {m n : Reg} (h : m ≠ n) (v : Long) : (s.setDreg n v).dreg m = s.dreg m := by
  have : n.toNat ≠ m.toNat := fun e => h (BitVec.eq_of_toNat_eq e.symm)
  simp [State.dreg, State.setDreg, Vector.getElem_set_ne, this]

@[simp] theorem State.dreg_setCcr (n : Reg) (f : Ccr) : (s.setCcr f).dreg n = s.dreg n := rfl

@[simp] theorem State.dreg_setSp (n : Reg) (v : Long) : (s.setSp v).dreg n = s.dreg n := by simp [State.dreg]

@[simp] theorem State.dreg_setAreg (m n : Reg) (v : Long) : (s.setAreg n v).dreg m = s.dreg m := by simp [State.dreg]

@[simp] theorem State.dreg_pc (n : Reg) (p : Long) : ({ s with pc := p } : State).dreg n = s.dreg n := rfl

@[simp] theorem State.dreg_afterRead (n : Reg) (fc : BitVec 3) (a : Long) (k : Nat) :
    (afterRead s fc a k).dreg n = s.dreg n := rfl

@[simp] theorem State.dreg_poke (n : Reg) (fc : BitVec 3) (sz : Size) (a : Long) (v : BitVec sz.bits) :
    (poke s fc sz a v).dreg n = s.dreg n := by simp [State.dreg]

/-! ## The status register -/

theorem srWithCcr_bit (v : Word) (f : Ccr) (i : Nat) :
    (srWithCcr v f).getLsbD i = if i < 5 then f.bits.getLsbD i else (v.extractLsb' 5 11).getLsbD (i - 5) :=
  BitVec.getLsbD_append (x := v.extractLsb' 5 11) (y := f.bits)

@[simp] theorem Ccr.ccrOf_srWithCcr (v : Word) (f : Ccr) : ccrOf (srWithCcr v f) = f := by
  simp only [ccrOf, srWithCcr_bit]
  rcases f with ⟨x, n, z, v', c⟩
  cases x <;> cases n <;> cases z <;> cases v' <;> cases c <;> rfl

theorem srWithCcr_getLsbD (v : Word) (f : Ccr) {i : Nat} (h : 5 ≤ i) : (srWithCcr v f).getLsbD i = v.getLsbD i := by
  rw [srWithCcr_bit, if_neg (by omega), BitVec.getLsbD_extractLsb']
  rcases Nat.lt_or_ge i 16 with h1 | h1
  · simp [show i - 5 < 11 by omega, show 5 + (i - 5) = i by omega]
  · simp [show ¬ i - 5 < 11 by omega, BitVec.getLsbD_of_ge _ _ h1]

@[simp] theorem srT1_srWithCcr (v : Word) (f : Ccr) : srT1 (srWithCcr v f) = srT1 v := srWithCcr_getLsbD v f (by decide)

@[simp] theorem srT0_srWithCcr (v : Word) (f : Ccr) : srT0 (srWithCcr v f) = srT0 v := srWithCcr_getLsbD v f (by decide)

@[simp] theorem srS_srWithCcr (v : Word) (f : Ccr) : srS (srWithCcr v f) = srS v := srWithCcr_getLsbD v f (by decide)

@[simp] theorem srM_srWithCcr (v : Word) (f : Ccr) : srM (srWithCcr v f) = srM v := srWithCcr_getLsbD v f (by decide)

@[simp] theorem srWithCcr_srWithCcr (v : Word) (f g : Ccr) : srWithCcr (srWithCcr v f) g = srWithCcr v g := by
  apply BitVec.eq_of_getLsbD_eq
  intro i hi
  rcases Nat.lt_or_ge i 5 with h | h
  · rw [srWithCcr_bit, srWithCcr_bit, if_pos h, if_pos h]
  · rw [srWithCcr_getLsbD _ _ h, srWithCcr_getLsbD _ _ h, srWithCcr_getLsbD _ _ h]

/-- The bits of an SR's condition codes are its low five bits. -/
theorem Ccr.bits_ccrOf (v : Word) : (ccrOf v).bits = v.extractLsb' 0 5 := by
  apply BitVec.eq_of_getLsbD_eq
  intro i hi
  rw [BitVec.getLsbD_extractLsb']
  simp only [ccrOf, Ccr.bits, bit, BitVec.getLsbD_append]
  match i, hi with
  | 0, _ => simp
  | 1, _ => simp
  | 2, _ => simp
  | 3, _ => simp
  | 4, _ => simp

@[simp] theorem srWithCcr_ccrOf (v : Word) : srWithCcr v (ccrOf v) = v := by
  apply BitVec.eq_of_getLsbD_eq
  intro i hi
  rcases Nat.lt_or_ge i 5 with h | h
  · rw [srWithCcr_bit, if_pos h, Ccr.bits_ccrOf, BitVec.getLsbD_extractLsb']
    simp [h]
  · rw [srWithCcr_getLsbD _ _ h]

@[simp] theorem State.setCcr_ccr : s.setCcr s.ccr = s := by
  unfold State.setCcr State.ccr
  rw [srWithCcr_ccrOf]

@[simp] theorem State.ccr_setCcr (f : Ccr) : (s.setCcr f).ccr = f := Ccr.ccrOf_srWithCcr _ _

@[simp] theorem State.setCcr_setCcr (f g : Ccr) : (s.setCcr f).setCcr g = s.setCcr g := by
  simp [State.setCcr]

@[simp] theorem State.sr_setCcr (f : Ccr) : (s.setCcr f).sr = srWithCcr s.sr f := rfl

@[simp] theorem State.super_setCcr (f : Ccr) : (s.setCcr f).super = s.super := srS_srWithCcr _ _

@[simp] theorem State.super_setDreg (n : Reg) (v : Long) : (s.setDreg n v).super = s.super := by simp [State.super]
@[simp] theorem State.super_setSp (v : Long) : (s.setSp v).super = s.super := by simp [State.super]
@[simp] theorem State.super_setAreg (n : Reg) (v : Long) : (s.setAreg n v).super = s.super := by simp [State.super]
@[simp] theorem State.super_setGreg (n : GReg) (v : Long) : (s.setGreg n v).super = s.super := by simp [State.super]
@[simp] theorem State.super_pc (p : Long) : ({ s with pc := p } : State).super = s.super := rfl
@[simp] theorem State.super_afterRead (fc : BitVec 3) (a : Long) (k : Nat) : (afterRead s fc a k).super = s.super := rfl
@[simp] theorem State.super_poke (fc : BitVec 3) (sz : Size) (a : Long) (v : BitVec sz.bits) : (poke s fc sz a v).super = s.super := by simp [State.super]

@[simp] theorem State.ccr_setDreg (n : Reg) (v : Long) : (s.setDreg n v).ccr = s.ccr := by simp [State.ccr]
@[simp] theorem State.ccr_setSp (v : Long) : (s.setSp v).ccr = s.ccr := by simp [State.ccr]
@[simp] theorem State.ccr_setAreg (n : Reg) (v : Long) : (s.setAreg n v).ccr = s.ccr := by simp [State.ccr]
@[simp] theorem State.ccr_setGreg (n : GReg) (v : Long) : (s.setGreg n v).ccr = s.ccr := by simp [State.ccr]
@[simp] theorem State.ccr_pc (p : Long) : ({ s with pc := p } : State).ccr = s.ccr := rfl
@[simp] theorem State.ccr_afterRead (fc : BitVec 3) (a : Long) (k : Nat) : (afterRead s fc a k).ccr = s.ccr := rfl
@[simp] theorem State.ccr_poke (fc : BitVec 3) (sz : Size) (a : Long) (v : BitVec sz.bits) : (poke s fc sz a v).ccr = s.ccr := by simp [State.ccr]

@[simp] theorem State.traceAll_setCcr (f : Ccr) : (s.setCcr f).traceAll = s.traceAll := by simp [State.traceAll]
@[simp] theorem State.traceAll_setDreg (n : Reg) (v : Long) : (s.setDreg n v).traceAll = s.traceAll := by simp [State.traceAll]
@[simp] theorem State.traceAll_setSp (v : Long) : (s.setSp v).traceAll = s.traceAll := by simp [State.traceAll]
@[simp] theorem State.traceAll_setAreg (n : Reg) (v : Long) : (s.setAreg n v).traceAll = s.traceAll := by simp [State.traceAll]
@[simp] theorem State.traceAll_setGreg (n : GReg) (v : Long) : (s.setGreg n v).traceAll = s.traceAll := by simp [State.traceAll]
@[simp] theorem State.traceAll_pc (p : Long) : ({ s with pc := p } : State).traceAll = s.traceAll := rfl
@[simp] theorem State.traceAll_afterRead (fc : BitVec 3) (a : Long) (k : Nat) : (afterRead s fc a k).traceAll = s.traceAll := rfl
@[simp] theorem State.traceAll_poke (fc : BitVec 3) (sz : Size) (a : Long) (v : BitVec sz.bits) : (poke s fc sz a v).traceAll = s.traceAll := by simp [State.traceAll]

@[simp] theorem State.traceFlow_setCcr (f : Ccr) : (s.setCcr f).traceFlow = s.traceFlow := by simp [State.traceFlow]
@[simp] theorem State.traceFlow_setDreg (n : Reg) (v : Long) : (s.setDreg n v).traceFlow = s.traceFlow := by simp [State.traceFlow]
@[simp] theorem State.traceFlow_setSp (v : Long) : (s.setSp v).traceFlow = s.traceFlow := by simp [State.traceFlow]
@[simp] theorem State.traceFlow_setAreg (n : Reg) (v : Long) : (s.setAreg n v).traceFlow = s.traceFlow := by simp [State.traceFlow]
@[simp] theorem State.traceFlow_setGreg (n : GReg) (v : Long) : (s.setGreg n v).traceFlow = s.traceFlow := by simp [State.traceFlow]
@[simp] theorem State.traceFlow_pc (p : Long) : ({ s with pc := p } : State).traceFlow = s.traceFlow := rfl
@[simp] theorem State.traceFlow_afterRead (fc : BitVec 3) (a : Long) (k : Nat) : (afterRead s fc a k).traceFlow = s.traceFlow := rfl
@[simp] theorem State.traceFlow_poke (fc : BitVec 3) (sz : Size) (a : Long) (v : BitVec sz.bits) : (poke s fc sz a v).traceFlow = s.traceFlow := by simp [State.traceFlow]

@[simp] theorem State.dataFc_setCcr (f : Ccr) : (s.setCcr f).dataFc = s.dataFc := by unfold State.dataFc; rw [State.super_setCcr]
@[simp] theorem State.dataFc_setDreg (n : Reg) (v : Long) : (s.setDreg n v).dataFc = s.dataFc := by unfold State.dataFc; rw [State.super_setDreg]
@[simp] theorem State.dataFc_setSp (v : Long) : (s.setSp v).dataFc = s.dataFc := by unfold State.dataFc; rw [State.super_setSp]
@[simp] theorem State.dataFc_setAreg (n : Reg) (v : Long) : (s.setAreg n v).dataFc = s.dataFc := by unfold State.dataFc; rw [State.super_setAreg]
@[simp] theorem State.dataFc_setGreg (n : GReg) (v : Long) : (s.setGreg n v).dataFc = s.dataFc := by unfold State.dataFc; rw [State.super_setGreg]
@[simp] theorem State.dataFc_pc (p : Long) : ({ s with pc := p } : State).dataFc = s.dataFc := rfl
@[simp] theorem State.dataFc_afterRead (fc : BitVec 3) (a : Long) (k : Nat) : (afterRead s fc a k).dataFc = s.dataFc := rfl
@[simp] theorem State.dataFc_poke (fc : BitVec 3) (sz : Size) (a : Long) (v : BitVec sz.bits) : (poke s fc sz a v).dataFc = s.dataFc := by unfold State.dataFc; rw [State.super_poke]

@[simp] theorem State.codeFc_setCcr (f : Ccr) : (s.setCcr f).codeFc = s.codeFc := by unfold State.codeFc; rw [State.super_setCcr]
@[simp] theorem State.codeFc_setDreg (n : Reg) (v : Long) : (s.setDreg n v).codeFc = s.codeFc := by unfold State.codeFc; rw [State.super_setDreg]
@[simp] theorem State.codeFc_setSp (v : Long) : (s.setSp v).codeFc = s.codeFc := by unfold State.codeFc; rw [State.super_setSp]
@[simp] theorem State.codeFc_setAreg (n : Reg) (v : Long) : (s.setAreg n v).codeFc = s.codeFc := by unfold State.codeFc; rw [State.super_setAreg]
@[simp] theorem State.codeFc_setGreg (n : GReg) (v : Long) : (s.setGreg n v).codeFc = s.codeFc := by unfold State.codeFc; rw [State.super_setGreg]
@[simp] theorem State.codeFc_pc (p : Long) : ({ s with pc := p } : State).codeFc = s.codeFc := rfl
@[simp] theorem State.codeFc_afterRead (fc : BitVec 3) (a : Long) (k : Nat) : (afterRead s fc a k).codeFc = s.codeFc := rfl
@[simp] theorem State.codeFc_poke (fc : BitVec 3) (sz : Size) (a : Long) (v : BitVec sz.bits) : (poke s fc sz a v).codeFc = s.codeFc := by unfold State.codeFc; rw [State.super_poke]

/-! ## The stack pointer and the address registers -/

@[simp] theorem State.sp_setSp (v : Long) : (s.setSp v).sp = v := by
  unfold State.setSp State.sp State.super
  split
  · split <;> simp_all
  · simp_all

@[simp] theorem State.sp_setCcr (f : Ccr) : (s.setCcr f).sp = s.sp := by simp [State.sp]

@[simp] theorem State.sp_setDreg (n : Reg) (v : Long) : (s.setDreg n v).sp = s.sp := rfl

@[simp] theorem State.sp_pc (p : Long) : ({ s with pc := p } : State).sp = s.sp := rfl

@[simp] theorem State.sp_afterRead (fc : BitVec 3) (a : Long) (k : Nat) : (afterRead s fc a k).sp = s.sp := rfl

@[simp] theorem State.sp_poke (fc : BitVec 3) (sz : Size) (a : Long) (v : BitVec sz.bits) :
    (poke s fc sz a v).sp = s.sp := by simp [State.sp]

theorem State.areg_seven : s.areg 7 = s.sp := by simp [State.areg]

@[simp] theorem State.areg_setAreg (n : Reg) (v : Long) : (s.setAreg n v).areg n = v := by
  unfold State.setAreg State.areg
  split
  · simp_all
  · simp_all

theorem State.areg_setAreg_ne {m n : Reg} (h : m ≠ n) (v : Long) : (s.setAreg n v).areg m = s.areg m := by
  have hne : n.toNat ≠ m.toNat := fun e => h (BitVec.eq_of_toNat_eq e.symm)
  unfold State.setAreg
  split
  · unfold State.areg
    split
    · simp [Vector.getElem_set_ne, hne]
    · rfl
  · have hm : m.toNat < 7 := by have := m.isLt; have := n.isLt; omega
    simp [State.areg, hm]

@[simp] theorem State.areg_setCcr (n : Reg) (f : Ccr) : (s.setCcr f).areg n = s.areg n := by simp [State.areg]

@[simp] theorem State.areg_setDreg (m n : Reg) (v : Long) : (s.setDreg n v).areg m = s.areg m := by simp [State.areg]

@[simp] theorem State.areg_pc (n : Reg) (p : Long) : ({ s with pc := p } : State).areg n = s.areg n := rfl

@[simp] theorem State.areg_afterRead (n : Reg) (fc : BitVec 3) (a : Long) (k : Nat) :
    (afterRead s fc a k).areg n = s.areg n := rfl

@[simp] theorem State.areg_poke (n : Reg) (fc : BitVec 3) (sz : Size) (a : Long) (v : BitVec sz.bits) :
    (poke s fc sz a v).areg n = s.areg n := by simp [State.areg]

@[simp] theorem State.greg_setGreg (i : GReg) (v : Long) : (s.setGreg i v).greg i = v := by
  unfold State.setGreg State.greg
  split <;> simp_all

end Sys2Proof.Machine
end

