-- ==== Sys2Proof/Laws/Memory.lean ====
section
/-! SUPPORT. The laws of memory: reading after writing, the canonical form kept by every memory operation, and what an
operand access leaves (20_memory R80 to R86). -/

namespace Sys2Proof.Machine

/-! ## The list of bytes -/

theorem Memory.get_insert_same (m : List Host.Cell) (n : Nat) (v : Byte) :
    Memory.get (Memory.insert m n v) n = v := by
  induction m with
  | nil => simp [Memory.insert, Memory.get]
  | cons c rest ih =>
    simp only [Memory.insert]
    split
    · simp [Memory.get]
    · split
      · simp [Memory.get]
      · simp [Memory.get, ih, Ne.symm (by assumption : ¬ n = c.1)]

theorem Memory.get_insert_ne (m : List Host.Cell) {n k : Nat} (v : Byte) (h : k ≠ n) :
    Memory.get (Memory.insert m n v) k = Memory.get m k := by
  induction m with
  | nil => simp [Memory.insert, Memory.get, Ne.symm h]
  | cons c rest ih =>
    simp only [Memory.insert]
    split
    · simp [Memory.get, Ne.symm h]
    · split
      · rename_i h2 h3
        simp [Memory.get, Ne.symm h, ← h3]
      · simp [Memory.get, ih]

theorem Memory.get_filter_same (m : List Host.Cell) (n : Nat) :
    Memory.get (m.filter fun c => c.1 != n) n = Config.unlisted := by
  induction m with
  | nil => rfl
  | cons c rest ih =>
    by_cases h : c.1 = n
    · simp [h, ih]
    · simp [h, Memory.get, ih]

theorem Memory.get_filter_ne (m : List Host.Cell) {n k : Nat} (h : k ≠ n) :
    Memory.get (m.filter fun c => c.1 != n) k = Memory.get m k := by
  induction m with
  | nil => rfl
  | cons c rest ih =>
    by_cases h2 : c.1 = n
    · have : c.1 ≠ k := fun e => h (e.symm.trans h2)
      simp only [List.filter, h2, bne_self_eq_false, ih, Memory.get]
      rw [if_neg (fun e => h e.symm)]
    · simp [h2, Memory.get, ih]

/-- A byte read after it is written. -/
@[simp] theorem Memory.get_put_same (m : List Host.Cell) (n : Nat) (v : Byte) : Memory.get (Memory.put m n v) n = v := by
  unfold Memory.put
  split
  · rename_i h
    rw [Memory.get_filter_same, h]
  · exact Memory.get_insert_same m n v

/-- A byte read after another one is written. -/
theorem Memory.get_put_ne (m : List Host.Cell) {n k : Nat} (v : Byte) (h : k ≠ n) :
    Memory.get (Memory.put m n v) k = Memory.get m k := by
  unfold Memory.put
  split
  · exact Memory.get_filter_ne m h
  · exact Memory.get_insert_ne m v h

theorem Memory.mem_insert {m : List Host.Cell} {n : Nat} {v : Byte} {c : Host.Cell} (h : c ∈ Memory.insert m n v) :
    c = (n, v) ∨ c ∈ m := by
  induction m with
  | nil => simpa [Memory.insert] using h
  | cons b rest ih =>
    simp only [Memory.insert] at h
    split at h
    · simpa using h
    · split at h
      · rcases List.mem_cons.mp h with h | h
        · exact .inl h
        · exact .inr (List.mem_cons_of_mem _ h)
      · rcases List.mem_cons.mp h with h | h
        · exact .inr (by simp [h])
        · rcases ih h with h | h
          · exact .inl h
          · exact .inr (List.mem_cons_of_mem _ h)

theorem Memory.pairwise_insert {m : List Host.Cell} (n : Nat) (v : Byte) (h : m.Pairwise fun x y => x.1 < y.1) :
    (Memory.insert m n v).Pairwise fun x y => x.1 < y.1 := by
  induction m with
  | nil => simp [Memory.insert]
  | cons b rest ih =>
    rw [List.pairwise_cons] at h
    simp only [Memory.insert]
    split
    · rename_i hlt
      refine List.pairwise_cons.mpr ⟨fun c hc => ?_, List.pairwise_cons.mpr h⟩
      rcases List.mem_cons.mp hc with rfl | hc
      · exact hlt
      · exact Nat.lt_trans hlt (h.1 c hc)
    · split
      · rename_i he
        exact List.pairwise_cons.mpr ⟨fun c hc => by simpa [he] using h.1 c hc, h.2⟩
      · rename_i hlt hne
        refine List.pairwise_cons.mpr ⟨fun c hc => ?_, ih h.2⟩
        rcases Memory.mem_insert hc with rfl | hc
        · show b.1 < n
          omega
        · exact h.1 c hc

/-- A write keeps the canonical form. -/
theorem Memory.wf_put {m : List Host.Cell} {n : Nat} (v : Byte) (h : Memory.wf m) (hn : n < 2 ^ 35) :
    Memory.wf (Memory.put m n v) := by
  unfold Memory.put
  split
  · exact ⟨h.1.filter _, fun c hc => h.2 c (List.mem_filter.mp hc).1⟩
  · rename_i hv
    refine ⟨Memory.pairwise_insert n v h.1, fun c hc => ?_⟩
    rcases Memory.mem_insert hc with rfl | hc
    · exact ⟨hn, hv⟩
    · exact h.2 c hc

/-- Several writes keep the canonical form. -/
theorem Memory.wf_putAll {m : List Host.Cell} (l : List Host.Cell) (h : Memory.wf m) (hl : ∀ c ∈ l, c.1 < 2 ^ 35) :
    Memory.wf (putAll m l) := by
  unfold putAll
  induction l generalizing m with
  | nil => exact h
  | cons c rest ih =>
    exact ih (Memory.wf_put _ h (hl c (by simp))) fun d hd => hl d (List.mem_cons_of_mem _ hd)

theorem Memory.wf_nil : Memory.wf [] := ⟨List.Pairwise.nil, by simp⟩

/-- A list put into memory leaves every byte it does not name. -/
theorem Memory.get_putAll_of_not_mem (m l : List Host.Cell) {k : Nat} (h : ∀ c ∈ l, c.1 ≠ k) :
    Memory.get (putAll m l) k = Memory.get m k := by
  unfold putAll
  induction l generalizing m with
  | nil => rfl
  | cons c rest ih =>
    rw [List.foldl_cons, ih _ fun d hd => h d (List.mem_cons_of_mem _ hd),
      Memory.get_put_ne _ _ (Ne.symm (h c (by simp)))]

/-- A list put into memory gives a byte it names once its value. -/
theorem Memory.get_putAll_of_unique (m : List Host.Cell) {l : List Host.Cell} {c : Host.Cell} (h : c ∈ l)
    (hu : ∀ e ∈ l, e.1 = c.1 → e = c) : Memory.get (putAll m l) c.1 = c.2 := by
  induction l generalizing m with
  | nil => cases h
  | cons q rest ih =>
    change Memory.get (putAll (Memory.put m q.1 q.2) rest) c.1 = c.2
    by_cases hr : c ∈ rest
    · exact ih _ hr fun e he => hu e (List.mem_cons_of_mem _ he)
    · obtain rfl : c = q := (List.mem_cons.mp h).resolve_right hr
      rw [Memory.get_putAll_of_not_mem _ _ fun e he hk => hr (hu e (List.mem_cons_of_mem _ he) hk ▸ he)]
      simp

/-! ## Keys -/

variable (s : State)

theorem memKey_lt (fc : BitVec 3) (a : Long) : memKey s fc a < 2 ^ 35 := by
  unfold memKey
  have h1 := (s.platform.bank[fc.toNat]'fc.isLt).isLt
  have h2 := a.isLt
  omega

@[simp] theorem memKey_inj (fc : BitVec 3) (a b : Long) : memKey s fc a = memKey s fc b ↔ a = b := by
  unfold memKey
  constructor
  · intro h
    exact BitVec.eq_of_toNat_eq (by omega)
  · rintro rfl
    rfl

/-- A key depends on the platform only. -/
theorem memKey_congr {s t : State} (h : t.platform = s.platform) (fc : BitVec 3) (a : Long) :
    memKey t fc a = memKey s fc a := by
  unfold memKey
  rw [h]

@[simp] theorem memKey_poke (fc fc' : BitVec 3) (sz : Size) (a b : Long) (v : BitVec sz.bits) :
    memKey (poke s fc sz a v) fc' b = memKey s fc' b := memKey_congr (by simp) _ _

@[simp] theorem memKey_pokeByte (fc fc' : BitVec 3) (a b : Long) (v : Byte) :
    memKey (pokeByte s fc a v) fc' b = memKey s fc' b := memKey_congr (by simp) _ _

/-- A byte depends on memory and the platform only. -/
theorem byteAt_congr {s t : State} (hm : t.mem = s.mem) (hp : t.platform = s.platform) (fc : BitVec 3) (a : Long) :
    byteAt t fc a = byteAt s fc a := by
  unfold byteAt
  rw [hm, memKey_congr hp]

/-- A value in memory depends on memory and the platform only. -/
theorem peek_congr {s t : State} (hm : t.mem = s.mem) (hp : t.platform = s.platform) (fc : BitVec 3) (sz : Size)
    (a : Long) : peek t fc sz a = peek s fc sz a := by
  cases sz <;> simp [peek, byteAt_congr hm hp]

/-! ## Reading after writing -/

@[simp] theorem byteAt_pokeByte_same (fc : BitVec 3) (a : Long) (v : Byte) : byteAt (pokeByte s fc a v) fc a = v := by
  unfold byteAt
  rw [memKey_pokeByte]
  exact Memory.get_put_same _ _ _

theorem byteAt_pokeByte_ne {fc fc' : BitVec 3} {a b : Long} (v : Byte) (h : memKey s fc' b ≠ memKey s fc a) :
    byteAt (pokeByte s fc a v) fc' b = byteAt s fc' b := by
  unfold byteAt
  rw [memKey_pokeByte]
  exact Memory.get_put_ne _ _ h

theorem byteAt_pokeByte_addr {fc : BitVec 3} {a b : Long} (v : Byte) (h : b ≠ a) :
    byteAt (pokeByte s fc a v) fc b = byteAt s fc b :=
  byteAt_pokeByte_ne s v (by simpa using h)

/-- A write changes no byte outside the operand. -/
theorem byteAt_poke_other {fc fc' : BitVec 3} {sz : Size} {a b : Long} (v : BitVec sz.bits)
    (h : ∀ k < sz.bytes, memKey s fc' b ≠ memKey s fc (a + BitVec.ofNat 32 k)) :
    byteAt (poke s fc sz a v) fc' b = byteAt s fc' b := by
  cases sz with
  | byte =>
    exact byteAt_pokeByte_ne s _ (by simpa using h 0 (by decide))
  | word =>
    unfold poke
    rw [byteAt_pokeByte_ne _ _ (by simpa using h 1 (by decide)), byteAt_pokeByte_ne _ _ (by simpa using h 0 (by decide))]
  | long =>
    unfold poke
    rw [byteAt_pokeByte_ne _ _ (by simpa using h 3 (by decide)), byteAt_pokeByte_ne _ _ (by simpa using h 2 (by decide)),
      byteAt_pokeByte_ne _ _ (by simpa using h 1 (by decide)), byteAt_pokeByte_ne _ _ (by simpa using h 0 (by decide))]

theorem add_ne_self {a k : Long} (h : k ≠ 0) : a + k ≠ a := by
  intro e
  exact h (by simpa using e)

/-- What was written is read back (20_memory R84). -/
@[simp] theorem peek_poke_same (fc : BitVec 3) (sz : Size) (a : Long) (v : BitVec sz.bits) :
    peek (poke s fc sz a v) fc sz a = v := by
  cases sz with
  | byte => simp [peek, poke]
  | word =>
    simp only [peek, poke]
    rw [byteAt_pokeByte_same, byteAt_pokeByte_addr _ _ (Ne.symm (add_ne_self (by decide))), byteAt_pokeByte_same]
    ext i hi
    change i < 16 at hi
    rw [← BitVec.getLsbD_eq_getElem, ← BitVec.getLsbD_eq_getElem]
    rw [show (BitVec.extractLsb' 8 8 v ++ BitVec.extractLsb' 0 8 v : BitVec Size.word.bits) =
      (BitVec.extractLsb' 8 8 v ++ BitVec.extractLsb' 0 8 v : BitVec (8 + 8)) from rfl, BitVec.getLsbD_append]
    split
    · simp [*]
    · rw [BitVec.getLsbD_extractLsb']
      simp [show i - 8 < 8 by omega, show 8 + (i - 8) = i by omega]
  | long =>
    have h01 : a ≠ a + 1 := Ne.symm (add_ne_self (by decide))
    have h02 : a ≠ a + 2 := Ne.symm (add_ne_self (by decide))
    have h03 : a ≠ a + 3 := Ne.symm (add_ne_self (by decide))
    have h12 : a + 1 ≠ a + 2 := by simp
    have h13 : a + 1 ≠ a + 3 := by simp
    have h23 : a + 2 ≠ a + 3 := by simp
    simp only [peek, poke]
    rw [byteAt_pokeByte_same, byteAt_pokeByte_addr _ _ h23, byteAt_pokeByte_same, byteAt_pokeByte_addr _ _ h13,
      byteAt_pokeByte_addr _ _ h12, byteAt_pokeByte_same, byteAt_pokeByte_addr _ _ h03, byteAt_pokeByte_addr _ _ h02,
      byteAt_pokeByte_addr _ _ h01, byteAt_pokeByte_same]
    ext i hi
    change i < 32 at hi
    rw [← BitVec.getLsbD_eq_getElem, ← BitVec.getLsbD_eq_getElem]
    rw [show (BitVec.extractLsb' 24 8 v ++ BitVec.extractLsb' 16 8 v ++ BitVec.extractLsb' 8 8 v ++
        BitVec.extractLsb' 0 8 v : BitVec Size.long.bits) =
      (BitVec.extractLsb' 24 8 v ++ BitVec.extractLsb' 16 8 v ++ BitVec.extractLsb' 8 8 v ++
        BitVec.extractLsb' 0 8 v : BitVec (8 + 8 + 8 + 8)) from rfl, BitVec.getLsbD_append, BitVec.getLsbD_append,
      BitVec.getLsbD_append]
    split
    · simp [*]
    · split
      · rw [BitVec.getLsbD_extractLsb']
        simp [show i - 8 < 8 by omega, show 8 + (i - 8) = i by omega]
      · split
        · rw [BitVec.getLsbD_extractLsb']
          simp [show i - 8 - 8 < 8 by omega, show 16 + (i - 8 - 8) = i by omega]
        · rw [BitVec.getLsbD_extractLsb']
          simp [show i - 8 - 8 - 8 < 8 by omega, show 24 + (i - 8 - 8 - 8) = i by omega]

/-- A write keeps the canonical form of memory. -/
theorem Memory.wf_pokeByte {s : State} (fc : BitVec 3) (a : Long) (v : Byte) (h : Memory.wf s.mem) :
    Memory.wf (pokeByte s fc a v).mem := Memory.wf_put v h (memKey_lt s fc a)

/-- A write of any size keeps the canonical form of memory. -/
theorem Memory.wf_poke {s : State} (fc : BitVec 3) (sz : Size) (a : Long) (v : BitVec sz.bits) (h : Memory.wf s.mem) :
    Memory.wf (poke s fc sz a v).mem := by
  have key := fun (t : State) (b : Long) (x : Byte) => @Memory.wf_pokeByte t fc b x
  cases sz
  · exact key _ _ _ h
  · exact key _ _ _ (key _ _ _ h)
  · exact key _ _ _ (key _ _ _ (key _ _ _ (key _ _ _ h)))

/-- The canonical form after a list of stores. -/
theorem Memory.wf_stores {s : State} (ws : List Store) (h : Memory.wf s.mem) :
    Memory.wf (ws.foldl Store.apply s).mem := by
  induction ws generalizing s with
  | nil => exact h
  | cons w rest ih => exact ih (Memory.wf_poke _ _ _ _ h)

/-! ## What an operand access leaves -/

@[simp] theorem withRecords_records (s : State) : withRecords s.records s = s := rfl

@[simp] theorem records_withRecords (r : CacheRecords) (s : State) : (withRecords r s).records = r := rfl

@[simp] theorem withRecords_withRecords (q r : CacheRecords) (s : State) :
    withRecords q (withRecords r s) = withRecords q s := rfl

theorem bypassed_off {s : State} (h : dcacheOn s = false) (fc : BitVec 3) (a : Long) : bypassed s fc a = s.records := by
  simp [bypassed, h]

/-- With the data cache off a read changes nothing. -/
theorem afterRead_off {s : State} (h : dcacheOn s = false) (fc : BitVec 3) (a : Long) (n : Nat) : afterRead s fc a n = s := by
  have key : ∀ (l : List Long) (r : CacheRecords), l.foldl (fun r x => bypassed (withRecords r s) fc x) r = r := by
    intro l
    induction l with
    | nil => intro r; rfl
    | cons x rest ih =>
      intro r
      rw [List.foldl_cons, bypassed_off (by exact h)]
      exact ih r
  unfold afterRead
  rw [key]
  rfl

/-- The state after a read differs in the records of the caches only. -/
theorem afterRead_eq (fc : BitVec 3) (a : Long) (n : Nat) :
    afterRead s fc a n = withRecords (afterRead s fc a n).records s := rfl

/-- What is pushed or invalidated leaves the cache: the bytes that may be old become fewer. -/
theorem bypassed_staleData (fc : BitVec 3) (a : Long) : (bypassed s fc a).staleData ⊆ s.staleData := by
  unfold bypassed
  split
  · exact List.filter_subset_self _
  · exact fun _ h => h

theorem afterRead_staleData (fc : BitVec 3) (a : Long) (n : Nat) : (afterRead s fc a n).staleData ⊆ s.staleData := by
  have key : ∀ (l : List Long) (r : CacheRecords),
      (l.foldl (fun r x => bypassed (withRecords r s) fc x) r).staleData ⊆ r.staleData := by
    intro l
    induction l with
    | nil => exact fun r _ h => h
    | cons x rest ih => exact fun r _ hk => bypassed_staleData (withRecords r s) fc x (ih _ hk)
  exact key (addrsOf a n) s.records

/-- With the data cache in use a write adds no byte that may be old in it. -/
theorem pokeByte_staleData {s : State} (h : dcacheOn s = true) (fc : BitVec 3) (a : Long) (v : Byte) :
    (pokeByte s fc a v).staleData ⊆ s.staleData := by
  simp only [pokeByte, h]
  exact bypassed_staleData s fc a

/-! ## Memory, devices, read-only memory (92 D4) -/

/-- A read that no device answers gives the bytes of memory. -/
theorem readBus_mem {s : State} {fc : BitVec 3} {sz : Size} {a : Long}
    (h : touches s.platform.devices fc a sz.bytes = false) : readBus s fc sz a = (some (peek s fc sz a), s) := by
  simp [readBus, h]

/-- An aligned access is one bus transfer (20_memory R87). -/
theorem transfers_aligned {sz : Size} {a : Long} (h : a.toNat % sz.bytes = 0) : transfers a sz.bytes = [(a, sz.bytes)] := by
  cases sz with
  | byte => rfl
  | word =>
    have h0 : a.getLsbD 0 = false := by
      simp only [Size.bytes] at h
      simp [BitVec.getLsbD, Nat.testBit_zero, h]
    simp only [transfers, Size.bytes, h0]
    rfl
  | long =>
    simp only [Size.bytes] at h
    have h0 : a.getLsbD 0 = false := by
      simp [BitVec.getLsbD, Nat.testBit_zero, show a.toNat % 2 = 0 by omega]
    have h1 : a.getLsbD 1 = false := by
      simp [BitVec.getLsbD, Nat.testBit_succ, show a.toNat / 2 % 2 = 0 by omega]
    simp only [transfers, Size.bytes, h0, h1]
    rfl

/-- What transfers that devices answer leave: the record of the bus cycles and the draws taken. -/
theorem readTransfers_state (fc : BitVec 3) (l : List (Long × Nat)) (v : BitVec 128) (s : State) :
    ∃ b n, (readTransfers fc l v s).2 = { s with bus := b, draws := n } := by
  induction l generalizing v s with
  | nil => exact ⟨s.bus, s.draws, rfl⟩
  | cons p rest ih =>
    by_cases h : touches s.platform.devices fc p.1 p.2 = true
    · simp only [readTransfers, h, if_true]
      split
      · next w _ =>
        obtain ⟨b, n, h⟩ := ih (v <<< (8 * p.2) ||| lowBytes p.2 w) (deviceCycle s fc p.1 p.2 none).2
        exact ⟨b, n, h⟩
      · exact ⟨_, _, rfl⟩
    · simp only [readTransfers, h]
      exact ih _ s

/-- A read changes the record of bus cycles and the draws only, and those only where a device stands. -/
theorem readBus_state (s : State) (fc : BitVec 3) (sz : Size) (a : Long) :
    ∃ b n, (readBus s fc sz a).2 = { s with bus := b, draws := n } := by
  unfold readBus
  split
  · exact readTransfers_state fc _ 0 s
  · exact ⟨s.bus, s.draws, rfl⟩

@[simp] theorem lowBytes_setWidth (sz : Size) (w : BitVec 128) :
    (lowBytes sz.bytes w).setWidth sz.bits = w.setWidth sz.bits := by
  cases sz <;> simp [lowBytes, Size.bytes, Size.bits]

/-- An aligned read that a device answers: its answer, and the cycle recorded. -/
theorem readBus_aligned {s : State} {fc : BitVec 3} {sz : Size} {a : Long}
    (h : touches s.platform.devices fc a sz.bytes = true) (ha : a.toNat % sz.bytes = 0) :
    readBus s fc sz a = ((deviceCycle s fc a sz.bytes none).1.map fun v => v.setWidth sz.bits,
      (deviceCycle s fc a sz.bytes none).2) := by
  simp only [readBus, h, if_true, transfers_aligned ha, readTransfers]
  split
  · next w e => simp [e]
  · next e => simp [e]

/-- An aligned write that a device answers: whether it takes it, and the cycle recorded. -/
theorem writeBus_aligned {s t : State} {fc : BitVec 3} {sz : Size} {a : Long} {v : BitVec 128}
    (h : touches s.platform.devices fc a sz.bytes = true) (ha : a.toNat % sz.bytes = 0) :
    writeBus s fc a sz.bytes v t = ((deviceCycle s fc a sz.bytes (some (lowBytes sz.bytes v))).1.isSome,
      afterRead (deviceCycle s fc a sz.bytes (some (lowBytes sz.bytes v))).2 fc a sz.bytes) := by
  simp only [writeBus, h, if_true, transfers_aligned ha, writeTransfers, Nat.sub_self, Nat.mul_zero,
    BitVec.ushiftRight_zero]
  split
  · next e => simp [e]
  · next e => simp at e; simp [e]

@[simp] theorem romByte_mem (s : State) (fc : BitVec 3) (a : Long) (v : Byte) :
    (romByte s fc a v).mem = s.mem := by
  unfold romByte
  simp only
  split <;> rfl
@[simp] theorem romByte_platform (s : State) (fc : BitVec 3) (a : Long) (v : Byte) :
    (romByte s fc a v).platform = s.platform := by
  unfold romByte
  simp only
  split <;> rfl
@[simp] theorem romByte_bus (s : State) (fc : BitVec 3) (a : Long) (v : Byte) :
    (romByte s fc a v).bus = s.bus := by
  unfold romByte
  simp only
  split <;> rfl

/-- Bytes written one after another at places that differ: each is there, but in read-only memory. -/
theorem writeBytes_list (fc : BitVec 3) (l : List (Long × Byte)) (s : State) (hl : l.Pairwise fun p q => p.1 ≠ q.1) :
    let t := l.foldl (fun s p => if touches s.platform.roms fc p.1 1 then romByte s fc p.1 p.2 else pokeByte s fc p.1 p.2) s
    t.platform = s.platform ∧ t.bus = s.bus ∧ (∀ x, (∀ p ∈ l, p.1 ≠ x) → byteAt t fc x = byteAt s fc x)
      ∧ ∀ p ∈ l, byteAt t fc p.1 = if touches s.platform.roms fc p.1 1 then byteAt s fc p.1 else p.2 := by
  induction l generalizing s with
  | nil => exact ⟨rfl, rfl, fun _ _ => rfl, nofun⟩
  | cons q rest ih =>
    rw [List.pairwise_cons] at hl
    have hq : ∃ u, (if touches s.platform.roms fc q.1 1 then romByte s fc q.1 q.2 else pokeByte s fc q.1 q.2) = u
        ∧ u.platform = s.platform ∧ u.bus = s.bus ∧ (∀ x, q.1 ≠ x → byteAt u fc x = byteAt s fc x)
        ∧ byteAt u fc q.1 = if touches s.platform.roms fc q.1 1 then byteAt s fc q.1 else q.2 := by
      by_cases h : touches s.platform.roms fc q.1 1 = true
      · refine ⟨_, if_pos h, by simp, by simp, fun x _ => byteAt_congr (by simp) (by simp) _ _, ?_⟩
        rw [if_pos h]
        exact byteAt_congr (by simp) (by simp) _ _
      · refine ⟨_, if_neg h, by simp, by simp, fun x hx => byteAt_pokeByte_addr s _ (Ne.symm hx), ?_⟩
        rw [if_neg h]
        exact byteAt_pokeByte_same s _ _ _
    obtain ⟨u, hu, h1, h2, h3, h4⟩ := hq
    obtain ⟨i1, i2, i3, i4⟩ := ih u hl.2
    simp only [List.foldl_cons]
    rw [hu]
    refine ⟨i1.trans h1, i2.trans h2, fun x hx => ?_, fun p hp => ?_⟩
    · rw [i3 x fun p hp => hx p (List.mem_cons_of_mem _ hp)]
      exact h3 x (hx q (by simp))
    · rcases List.mem_cons.mp hp with rfl | hp
      · rw [i3 _ fun r hr => Ne.symm (hl.1 r hr), h4]
      · rw [i4 p hp, h1, h3 _ (hl.1 p hp)]

theorem zip_bytesOf (a : Long) (n : Nat) (v : BitVec 128) :
    (addrsOf a n).zip (bytesOf n v) = (List.range n).map fun k =>
       (a + BitVec.ofNat 32 k, v.extractLsb' (8 * (n - 1 - k)) 8) := by
  unfold addrsOf bytesOf
  induction List.range n with
  | nil => rfl
  | cons k l ih => simp [ih]

theorem addr_ne {a : Long} {j k : Nat} (hj : j < 2 ^ 32) (hk : k < 2 ^ 32) (h : j ≠ k) :
    a + BitVec.ofNat 32 j ≠ a + BitVec.ofNat 32 k := by
  intro e
  have := (BitVec.add_right_inj a).mp e
  have := congrArg BitVec.toNat this
  simp at this
  omega

/-- What a write of bytes to memory can do: the bytes outside stay, each byte is there but in read-only memory. -/
theorem writeBytes_spec (s : State) (fc : BitVec 3) (a : Long) {n : Nat} (hn : n ≤ 16) (v : BitVec 128) :
    (writeBytes s fc a n v).platform = s.platform ∧ (writeBytes s fc a n v).bus = s.bus
      ∧ (∀ x, x ∉ addrsOf a n → byteAt (writeBytes s fc a n v) fc x = byteAt s fc x)
      ∧ ∀ k < n, byteAt (writeBytes s fc a n v) fc (a + BitVec.ofNat 32 k)
        = if touches s.platform.roms fc (a + BitVec.ofNat 32 k) 1 then byteAt s fc (a + BitVec.ofNat 32 k)
          else v.extractLsb' (8 * (n - 1 - k)) 8 := by
  have hp : ((addrsOf a n).zip (bytesOf n v)).Pairwise fun p q => p.1 ≠ q.1 := by
    rw [zip_bytesOf, List.pairwise_map]
    refine List.nodup_range.imp_of_mem fun {j k} hj hk h => addr_ne ?_ ?_ h
    · have := List.mem_range.mp hj; omega
    · have := List.mem_range.mp hk; omega
  obtain ⟨h1, h2, h3, h4⟩ := writeBytes_list fc _ s hp
  refine ⟨h1, h2, fun x hx => h3 x fun p hp e => hx (e ▸ (List.of_mem_zip hp).1), fun k hk => ?_⟩
  refine h4 (a + BitVec.ofNat 32 k, v.extractLsb' (8 * (n - 1 - k)) 8) ?_
  rw [zip_bytesOf]
  exact List.mem_map.mpr ⟨k, List.mem_range.mpr hk, rfl⟩

/-- A write to memory that can be written is taken. -/
theorem writeBus_mem {s t : State} {fc : BitVec 3} {a : Long} {n : Nat} {v : BitVec 128}
    (h : (touches s.platform.devices fc a n || touches s.platform.roms fc a n) = false) :
    writeBus s fc a n v t = (true, t) := by
  rw [Bool.or_eq_false_iff] at h
  simp [writeBus, h.1, h.2]

end Sys2Proof.Machine
end

