-- ==== Sys2Proof/Laws/Exec.lean ====
section
/-! SUPPORT. How the computations inside an instruction run, and how an instruction ends: one law per combinator, per
operand access and per ending. Proofs about an instruction cite these and unfold only the instruction. -/

namespace Sys2Proof.Machine

/-! ## Running a computation -/

section
variable {α β : Type} (s : State)

theorem Exec.bind_run (m : Exec α) (f : α → Exec β) :
    (m >>= f) s = match m s with
      | .ok a t => f a t
      | .error e t => .error e t := by
  change EStateM.bind m f s = _
  unfold EStateM.bind
  cases m s <;> rfl

/-- The next computation runs where the first one ends. -/
theorem Exec.bind_ok {m : Exec α} {a : α} {t : State} (h : m s = .ok a t) (f : α → Exec β) : (m >>= f) s = f a t := by
  rw [Exec.bind_run, h]

/-- A computation that ends early ends the whole. -/
theorem Exec.bind_error {m : Exec α} {e : Abort} {t : State} (h : m s = .error e t) (f : α → Exec β) :
    (m >>= f) s = .error e t := by
  rw [Exec.bind_run, h]

@[simp] theorem Exec.pure_run (a : α) : (pure a : Exec α) s = .ok a s := rfl

@[simp] theorem Exec.throw_run (e : Abort) : (throw e : Exec α) s = .error e s := rfl

@[simp] theorem Exec.look_bind (g : State → α) (f : α → Exec β) : (look g >>= f) s = f (g s) s := by
  rw [Exec.bind_run]; rfl

@[simp] theorem Exec.change_bind (g : State → State) (f : Unit → Exec β) : (change g >>= f) s = f () (g s) := by
  rw [Exec.bind_run]; rfl

@[simp] theorem Exec.pure_bind (a : α) (f : α → Exec β) : ((pure a : Exec α) >>= f) s = f a s := by
  rw [Exec.bind_run]; rfl

@[simp] theorem Exec.look_run (g : State → α) : look g s = .ok (g s) s := rfl

@[simp] theorem Exec.change_run (g : State → State) : change g s = .ok () (g s) := rfl

@[simp] theorem Exec.setFlags_bind (g : Ccr → Ccr) (f : Unit → Exec β) :
    (setFlags g >>= f) s = f () (s.setCcr (g s.ccr)) := Exec.change_bind s _ f

@[simp] theorem Exec.getFlags_bind (f : Ccr → Exec β) : (getFlags >>= f) s = f s.ccr s := Exec.look_bind s _ f

@[simp] theorem Exec.getD_bind (sz : Size) (n : Reg) (f : BitVec sz.bits → Exec β) :
    (getD sz n >>= f) s = f (lowPart sz (s.dreg n)) s := Exec.look_bind s _ f

@[simp] theorem lowPart_long (v : Long) : lowPart .long v = v := BitVec.setWidth_eq v

@[simp] theorem withLow_long (old v : Long) : withLow old .long v = v := rfl

/-- `getD_bind` at each size, where the size is known. -/
@[simp] theorem Exec.getD_bind_byte (n : Reg) (f : Byte → Exec β) :
    (@bind Exec _ (BitVec 8) β (getD .byte n : Exec (BitVec 8)) f) s = f (lowPart .byte (s.dreg n)) s :=
  Exec.look_bind s _ f

@[simp] theorem Exec.getD_bind_word (n : Reg) (f : Word → Exec β) :
    (@bind Exec _ (BitVec 16) β (getD .word n : Exec (BitVec 16)) f) s = f (lowPart .word (s.dreg n)) s :=
  Exec.look_bind s _ f

@[simp] theorem Exec.getD_bind_long (n : Reg) (f : Long → Exec β) :
    (@bind Exec _ (BitVec 32) β (getD .long n : Exec (BitVec 32)) f) s = f (s.dreg n) s := by
  rw [show (@bind Exec _ (BitVec 32) β (getD .long n : Exec (BitVec 32)) f) s = f (lowPart .long (s.dreg n)) s from
    Exec.look_bind s _ f, lowPart_long]

@[simp] theorem Exec.putD_bind (sz : Size) (n : Reg) (v : BitVec sz.bits) (f : Unit → Exec β) :
    (putD sz n v >>= f) s = f () (s.setDreg n (withLow (s.dreg n) sz v)) := Exec.change_bind s _ f

@[simp] theorem Exec.getA_bind (n : Reg) (f : Long → Exec β) : (getA n >>= f) s = f (s.areg n) s := Exec.look_bind s _ f

@[simp] theorem Exec.putA_bind (n : Reg) (v : Long) (f : Unit → Exec β) :
    (putA n v >>= f) s = f () (s.setAreg n v) := Exec.change_bind s _ f

@[simp] theorem Exec.drawBit_bind (f : Bool → Exec β) :
    (drawBit >>= f) s = f (Config.freeBit s.draws) { s with draws := s.draws + 1 } := by
  rw [Exec.bind_run]; rfl

@[simp] theorem Exec.drawByte_bind (f : Byte → Exec β) :
    (drawByte >>= f) s = f (Config.freeByte s.draws) { s with draws := s.draws + 1 } := by
  rw [Exec.bind_run]; rfl

@[simp] theorem Exec.refuse_run (r : Refusal) : (refuse r : Exec α) s = .error (.refuse r) s := rfl

@[simp] theorem Exec.illegal_run : (illegalInstruction : Exec α) s = .error (.pre 4) s := rfl

theorem Exec.refuse_bind (r : Refusal) (f : α → Exec β) : ((refuse r : Exec α) >>= f) s = .error (.refuse r) s := by
  rw [Exec.bind_run]; rfl

/-- The privilege check in supervisor mode. -/
theorem needSupervisor_super {s : State} (h : s.super = true) (f : Unit → Exec β) : (needSupervisor >>= f) s = f () s := by
  rw [Exec.bind_run]
  simp [needSupervisor, h]

/-- The privilege check in user mode (60_exceptions R546). -/
theorem needSupervisor_user {s : State} (h : s.super = false) (f : Unit → Exec β) :
    (needSupervisor >>= f) s = .error (.pre 8) s := by
  rw [Exec.bind_run]
  simp [needSupervisor, h]

theorem Exec.ite_run (c : Prop) [Decidable c] (m n : Exec α) : (if c then m else n) s = if c then m s else n s := by
  split <;> rfl

end

/-! ## Operand memory -/

variable {s : State}

/-- A read of memory that does not fault gives the bytes at the address (20_memory R84). -/
theorem readCycle_ok {c : Cycle} {sz : Size} {a : Long} (hf : readFaults s c.locked c.fc a sz.bytes = false)
    (hs : staleAccess s c.fc a sz.bytes = false) (hd : touches s.platform.devices c.fc a sz.bytes = false) :
    readCycle c sz a s = .ok (peek s c.fc sz a) (afterRead s c.fc a sz.bytes) := by
  simp [readCycle, hf, hs, readBus_mem hd]

/-- What a completed read did. -/
theorem readCycle_inv {c : Cycle} {sz : Size} {a : Long} {v : BitVec sz.bits} {t : State}
    (h : readCycle c sz a s = .ok v t) :
    readFaults s c.locked c.fc a sz.bytes = false ∧ staleAccess s c.fc a sz.bytes = false
      ∧ ∃ u, readBus s c.fc sz a = (some v, u) ∧ t = afterRead u c.fc a sz.bytes := by
  unfold readCycle at h
  split at h
  · cases h
  · split at h
    · cases h
    · split at h
      · cases h
        simp_all
      · cases h

/-- What a completed operand read did. -/
theorem readMem_inv {sz : Size} {a : Long} {v : BitVec sz.bits} {t : State} (h : readMem sz a s = .ok v t) :
    readFaults s false s.dataFc a sz.bytes = false ∧ staleAccess s s.dataFc a sz.bytes = false
      ∧ ∃ u, readBus s s.dataFc sz a = (some v, u) ∧ t = afterRead u s.dataFc a sz.bytes := readCycle_inv h

/-- A faulting operand read abandons the instruction (60_exceptions R519). -/
theorem readMem_fault {sz : Size} {a : Long} (h : readFaults s false s.dataFc a sz.bytes = true) :
    readMem sz a s = .error (.restart (readFault (normalCycle s.dataFc) sz a)) s := by
  simp [readMem, readCycle, normalCycle, h]

/-- A store to memory that can be written. -/
def Store.plain (s : State) (w : Store) : Prop :=
  w.fails s = false ∧ w.stale s = false
    ∧ (touches s.platform.devices w.c.fc w.a w.sz.bytes || touches s.platform.roms w.c.fc w.a w.sz.bytes) = false

/-- Such a store is done. -/
theorem Store.run_plain {w : Store} (h : w.plain s) : w.run s = (true, w.apply s) := by
  simp [Store.run, h.1, writeBus_mem h.2.2]

/-- A store that fails by its address does nothing. -/
theorem Store.run_fails {w : Store} (h : w.fails s = true) : w.run s = (false, s) := by
  simp [Store.run, h]

/-- An operand widened to a register and cut back. -/
theorem setWidth_back {sz : Size} (v : BitVec sz.bits) : (v.setWidth 32).setWidth sz.bits = v := by
  have h : sz.bits ≤ 32 := by cases sz <;> decide
  rw [BitVec.setWidth_setWidth_of_le _ h, BitVec.setWidth_eq]

/-- A single store that can be done is done. -/
theorem storeAll_one {w : Store} {d : Done} (h : w.plain s) : storeAll [w] d s = .ok d (w.apply s) := by
  simp [storeAll, runStores, Store.run_plain h, h.2.1]

/-- A store that fails outside a locked sequence is left to the handler (60_exceptions R519). -/
theorem storeAll_fault {w : Store} {d : Done} (hf : w.fails s = true) (hl : w.c.locked = false) :
    storeAll [w] d s = .error (.write w.fault [] d) s := by
  simp [storeAll, runStores, Store.run_fails hf, hf, hl]

/-- A store in the space of a function code. -/
theorem store_ok {c : Cycle} {sz : Size} {a : Long} {v : BitVec sz.bits} {d : Done}
    (hf : writeFaults s c.fc a sz.bytes = false) (hs : staleAccess s c.fc a sz.bytes = false)
    (hd : (touches s.platform.devices c.fc a sz.bytes || touches s.platform.roms c.fc a sz.bytes) = false) :
    store c sz a v d s = .ok d (poke s c.fc sz a v) := by
  unfold store
  rw [storeAll_one (w := { c := c, sz := sz, a := a, v := v.setWidth 32 }) ⟨hf, hs, hd⟩]
  simp only [Store.apply, setWidth_back]

/-- An operand written (20_memory R84). -/
theorem writeMem_ok {sz : Size} {a : Long} {v : BitVec sz.bits} {d : Done}
    (hf : writeFaults s s.dataFc a sz.bytes = false) (hs : staleAccess s s.dataFc a sz.bytes = false)
    (hd : (touches s.platform.devices s.dataFc a sz.bytes || touches s.platform.roms s.dataFc a sz.bytes) = false) :
    writeMem sz a v d s = .ok d (poke s s.dataFc sz a v) := store_ok (c := normalCycle s.dataFc) hf hs hd

/-- An operand write that fails leaves memory to the handler (60_exceptions R519). -/
theorem writeMem_fault {sz : Size} {a : Long} {v : BitVec sz.bits} {d : Done}
    (hf : writeFaults s s.dataFc a sz.bytes = true) :
    writeMem sz a v d s = .error (.write (writeFault (normalCycle s.dataFc) sz a v) [] d) s := by
  unfold writeMem store
  rw [storeAll_fault (w := { c := normalCycle s.dataFc, sz := sz, a := a, v := v.setWidth 32 }) hf rfl]
  simp only [Store.fault, setWidth_back]

/-! ## The end of an instruction (60_exceptions R554, R576) -/

/-- An instruction whose body is done. -/
theorem complete_ok {i : Instr} {body : Exec Done} {d : Done} {t : State} (h : body s = .ok d t) :
    complete i body s = finish s (nextPc i s) d t := by
  simp [complete, h]

/-- An instruction whose body ends early. -/
theorem complete_error {i : Instr} {body : Exec Done} {e : Abort} {t : State} (h : body s = .error e t) :
    complete i body s = abort s (nextPc i s) e t := by
  simp [complete, h]

/-- An instruction that is not traced and falls through. -/
theorem finish_seq {before t : State} {p : Long} (h : before.traceAll = false) :
    finish before p .seq t = .next { t with pc := p } := by
  simp [finish, traceIf, h]

/-- An instruction that is not traced and wrote SR. -/
theorem finish_sr {before t : State} {p : Long} (h : before.traceFlow = false) :
    finish before p .sr t = .next { t with pc := p, stalePipe := [] } := by
  simp [finish, traceIf, h]

/-- An instruction that is not traced and changed the flow to an even address. -/
theorem finish_jump {before t : State} {p a : Long} (h : before.traceFlow = false) (ha : a.getLsbD 0 = false) :
    finish before p (.jump a) t = .next { t with pc := a, stalePipe := [] } := by
  simp only [finish, ha, traceIf, h]
  rfl

/-- An odd target is an address error (60_exceptions R536). -/
theorem finish_odd {before t : State} {p a : Long} (ha : a.getLsbD 0 = true) :
    finish before p (.jump a) t = takeAddressError t before.pc a := by
  simp only [finish, ha]
  rfl

/-- A body that is done, not traced, falling through. -/
theorem complete_seq {i : Instr} {body : Exec Done} {t : State} (h : body s = .ok .seq t) (ht : s.traceAll = false) :
    complete i body s = .next { t with pc := nextPc i s } := by
  rw [complete_ok h, finish_seq ht]

/-! ## Operands (30_encoding R150 to R161) -/

/-- A value read through an operand: its place, then its value. -/
theorem readEa_eq (sz : Size) (own : Nat) (e : Ea) : readEa sz own e = operand sz own e >>= fun l => readLoc sz l := rfl

@[simp] theorem operand_dn (sz : Size) (own : Nat) (r : Reg) : operand sz own (.dn r) s = .ok (.dreg r) s := rfl

@[simp] theorem operand_an (sz : Size) (own : Nat) (r : Reg) : operand sz own (.an r) s = .ok (.areg r) s := rfl

@[simp] theorem operand_imm (sz : Size) (own : Nat) (v : Long) : operand sz own (.imm v) s = .ok (.imm v) s := rfl

@[simp] theorem operand_ind (sz : Size) (own : Nat) (r : Reg) : operand sz own (.ind r) s = .ok (.mem (s.areg r)) s := rfl

@[simp] theorem operand_postInc (sz : Size) (own : Nat) (r : Reg) :
    operand sz own (.postInc r) s = .ok (.mem (s.areg r)) (s.setAreg r (s.areg r + stepOf sz.bytes r)) := rfl

@[simp] theorem operand_preDec (sz : Size) (own : Nat) (r : Reg) :
    operand sz own (.preDec r) s =
      .ok (.mem (s.areg r - stepOf sz.bytes r)) (s.setAreg r (s.areg r - stepOf sz.bytes r)) := rfl

end Sys2Proof.Machine
end

