-- ==== Sys2Proof/Laws/Operands.lean ====
section
/-! SUPPORT. What evaluating an operand can do, said once: the register its mode steps, the records of lines that its
reads pushed and of bus cycles that devices answered, and nothing else (30_encoding R150 to R161). -/

namespace Sys2Proof.Machine

variable {s t : State}

/-- What reads change: the records of the caches, and of bus cycles that devices answered. -/
def ReadEffect (s t : State) : Prop := ∃ r b n, r.staleData ⊆ s.staleData ∧ t = withBus b n (withRecords r s)

theorem ReadEffect.refl (s : State) : ReadEffect s s := ⟨s.records, s.bus, s.draws, fun _ h => h, rfl⟩

theorem ReadEffect.trans {u : State} (h : ReadEffect s u) (h' : ReadEffect u t) : ReadEffect s t := by
  obtain ⟨r, b, n, hr, rfl⟩ := h
  obtain ⟨r', b', n', hr', rfl⟩ := h'
  exact ⟨r', b', n', fun _ h => hr (hr' h), rfl⟩

theorem ReadEffect.afterRead (s : State) (fc : BitVec 3) (a : Long) (n : Nat) : ReadEffect s (afterRead s fc a n) :=
  ⟨_, s.bus, s.draws, afterRead_staleData s fc a n, rfl⟩

theorem readBus_effect {fc : BitVec 3} {sz : Size} {a : Long} {v : Option (BitVec sz.bits)}
    (h : readBus s fc sz a = (v, t)) : ReadEffect s t := by
  obtain ⟨b, n, hb⟩ := readBus_state s fc sz a
  rw [h] at hb
  exact ⟨s.records, b, n, fun _ h => h, hb⟩

/-- What a read leaves. -/
theorem readCycle_effect {c : Cycle} {sz : Size} {a : Long} {v : BitVec sz.bits} (h : readCycle c sz a s = .ok v t) :
    ReadEffect s t := by
  obtain ⟨-, -, u, hu, rfl⟩ := readCycle_inv h
  exact (readBus_effect hu).trans (ReadEffect.afterRead u _ _ _)

/-- What an operand read leaves. -/
theorem readMem_effect {sz : Size} {a : Long} {v : BitVec sz.bits} (h : readMem sz a s = .ok v t) : ReadEffect s t :=
  readCycle_effect h

/-- The part after a computation that is done. -/
theorem Exec.bind_inv {α β : Type} {m : Exec α} {f : α → Exec β} {b : β} (h : (m >>= f) s = .ok b t) :
    ∃ a u, m s = .ok a u ∧ f a u = .ok b t := by
  rw [Exec.bind_run] at h
  split at h
  · exact ⟨_, _, by assumption, h⟩
  · cases h

/-- What the address of an index operand leaves. -/
theorem indexAddress_effect {base a : Long} {x : Index} (h : indexAddress base x s = .ok a t) : ReadEffect s t := by
  unfold indexAddress at h
  split at h
  · cases h
    exact ReadEffect.refl s
  · rw [Exec.look_bind] at h
    split at h
    · cases h
      exact ReadEffect.refl s
    · obtain ⟨p, u, hp, hu⟩ := Exec.bind_inv h
      cases hu
      exact readMem_effect hp
    · obtain ⟨p, u, hp, hu⟩ := Exec.bind_inv h
      cases hu
      exact readMem_effect hp

theorem stepped_staleData (bytes : Nat) (e : Ea) (s : State) : (stepped bytes e s).staleData = s.staleData := by
  cases e <;> simp [stepped]

theorem OperandEffect.of_stepped {bytes : Nat} {e : Ea} (h : t = stepped bytes e s) : OperandEffect bytes e s t :=
  ⟨t.records, t.bus, t.draws, by rw [h]; exact fun _ hk => stepped_staleData bytes e s ▸ hk, by rw [← h]; rfl⟩

/-- What an address computation leaves. -/
theorem eaAddress_inv {bytes own : Nat} {e : Ea} {a : Long} (h : eaAddress bytes own e s = .ok a t) :
    OperandEffect bytes e s t := by
  cases e <;> simp only [eaAddress] at h
  case idx => rw [Exec.look_bind] at h; exact indexAddress_effect h
  case pcIdx => rw [Exec.look_bind] at h; exact indexAddress_effect h
  all_goals (cases h <;> exact OperandEffect.of_stepped rfl)

/-- What finding an operand's place leaves. -/
theorem operand_inv {sz : Size} {own : Nat} {e : Ea} {l : Loc} (h : operand sz own e s = .ok l t) :
    OperandEffect sz.bytes e s t := by
  unfold operand at h
  split at h
  · cases h; exact OperandEffect.of_stepped rfl
  · cases h; exact OperandEffect.of_stepped rfl
  · cases h; exact OperandEffect.of_stepped rfl
  · obtain ⟨a, u, ha, hu⟩ := Exec.bind_inv h
    cases hu
    exact eaAddress_inv ha

/-- What reading a place leaves. -/
theorem readLoc_inv {sz : Size} {l : Loc} {v : BitVec sz.bits} (h : readLoc sz l s = .ok v t) : ReadEffect s t := by
  cases l with
  | mem a => exact readMem_effect h
  | _ => cases h; exact ReadEffect.refl s

theorem OperandEffect.read {bytes : Nat} {e : Ea} {u : State} (h : OperandEffect bytes e s t) (h' : ReadEffect t u) :
    OperandEffect bytes e s u := by
  obtain ⟨r, b, n, hr, rfl⟩ := h
  obtain ⟨r', b', n', hr', rfl⟩ := h'
  exact ⟨r', b', n', fun _ h => hr (hr' h), rfl⟩

/-- What reading an operand leaves. -/
theorem readEa_inv {sz : Size} {own : Nat} {e : Ea} {v : BitVec sz.bits} (h : readEa sz own e s = .ok v t) :
    OperandEffect sz.bytes e s t := by
  obtain ⟨l, u, hl, hu⟩ := Exec.bind_inv h
  exact (operand_inv hl).read (readLoc_inv hu)

/-! ## How reading an operand stops -/

/-- A fault or a refusal that abandons the instruction with nothing done. -/
def ReadStop (e : Abort) : Prop := (∃ f, e = .restart f) ∨ ∃ r, e = .refuse r

theorem readMem_stop {sz : Size} {a : Long} {e : Abort} (h : readMem sz a s = .error e t) : ReadStop e := by
  unfold readMem readCycle at h
  split at h
  · cases h; exact .inl ⟨_, rfl⟩
  · split at h
    · cases h; exact .inr ⟨_, rfl⟩
    · split at h
      · cases h
      · cases h; exact .inl ⟨_, rfl⟩

/-- Where a computation in two parts stops. -/
theorem Exec.bind_stop {α β : Type} {m : Exec α} {f : α → Exec β} {e : Abort} (h : (m >>= f) s = .error e t) :
    m s = .error e t ∨ ∃ a u, m s = .ok a u ∧ f a u = .error e t := by
  rw [Exec.bind_run] at h
  split at h
  · exact .inr ⟨_, _, by assumption, h⟩
  · cases h; exact .inl (by assumption)

theorem indexAddress_stop {base : Long} {x : Index} {e : Abort} (h : indexAddress base x s = .error e t) : ReadStop e := by
  unfold indexAddress at h
  split at h
  · cases h
  · rw [Exec.look_bind] at h
    split at h
    · cases h
    · rcases Exec.bind_stop h with h | ⟨_, _, _, h⟩
      · exact readMem_stop h
      · cases h
    · rcases Exec.bind_stop h with h | ⟨_, _, _, h⟩
      · exact readMem_stop h
      · cases h

/-- How an address computation of a mode that has one stops. -/
theorem eaAddress_stop {bytes own : Nat} {e : Ea} {x : Abort} (hd : ∀ r, e ≠ .dn r) (ha : ∀ r, e ≠ .an r)
    (hi : ∀ v, e ≠ .imm v) (h : eaAddress bytes own e s = .error x t) : ReadStop x := by
  cases e <;> simp only [eaAddress] at h
  case dn r => exact absurd rfl (hd r)
  case an r => exact absurd rfl (ha r)
  case imm v => exact absurd rfl (hi v)
  case idx => rw [Exec.look_bind] at h; exact indexAddress_stop h
  case pcIdx => rw [Exec.look_bind] at h; exact indexAddress_stop h
  all_goals cases h

/-- How reading an operand stops, whatever its mode. -/
theorem readEa_stop {sz : Size} {own : Nat} {e : Ea} {x : Abort} (h : readEa sz own e s = .error x t) : ReadStop x := by
  rcases Exec.bind_stop h with h | ⟨l, u, _, h⟩
  · unfold operand at h
    split at h
    · cases h
    · cases h
    · cases h
    · next hd ha hi =>
      rcases Exec.bind_stop h with h | ⟨_, _, _, h⟩
      · exact eaAddress_stop hd ha hi h
      · cases h
  · cases l with
    | mem a => exact readMem_stop h
    | _ => cases h

/-- How the early read of a pointer stops. -/
theorem pointerRead_stop {own n : Nat} {e : Ea} {x : Abort} (h : pointerRead own n e s = .error x t) : ReadStop x := by
  have key : ∀ (i : Index) (mk : Index → Ea), (∀ j r, mk j ≠ .dn r) → (∀ j r, mk j ≠ .an r) → (∀ j v, mk j ≠ .imm v) →
      (match withoutOuter i with
        | some j => if j.words.length ≤ n then (do let _ ← eaAddress 4 own (mk j); return () : Exec Unit) else return ()
        | none => return ()) s = .error x t → ReadStop x := fun i mk hd ha hi h => by
    cases hj : withoutOuter i with
    | none => rw [hj] at h; cases h
    | some j =>
      rw [hj] at h
      simp only [Exec.ite_run] at h
      split at h
      · rcases Exec.bind_stop h with h | ⟨_, _, _, h⟩
        · exact eaAddress_stop (hd j) (ha j) (hi j) h
        · cases h
      · cases h
  cases e
  case idx r i => exact key i (.idx r) nofun nofun nofun h
  case pcIdx i => exact key i .pcIdx nofun nofun nofun h
  all_goals cases h

end Sys2Proof.Machine
end

