-- ==== Sys2Proof/Laws/Cycle.lean ====
section
/-! SUPPORT. How an instruction ends of which a word cannot be had: the operand reads before that word, and the fetch, end in
an access error or a refusal, and nothing else is done (60_exceptions R531, 30_encoding R161; log 48). -/

namespace Sys2Proof.Machine

variable {s t : State}

theorem fetchStopped_stop {α : Type} {f : Option FetchStop} {e : Abort}
    (h : (fetchStopped f : Exec α) s = .error e t) : ReadStop e := by
  unfold fetchStopped at h
  split at h
  · cases h; exact .inl ⟨_, rfl⟩
  · cases h; exact .inr ⟨_, rfl⟩
  · cases h; exact .inr ⟨_, rfl⟩

theorem earlyReads_stop {i : Instr} {n : Nat} {e : Abort} (h : earlyReads i n s = .error e t) : ReadStop e := by
  unfold earlyReads at h
  split at h
  · simp only [Exec.ite_run] at h
    split at h
    · exact pointerRead_stop h
    · rcases Exec.bind_stop h with h | ⟨_, _, _, h⟩
      · exact readEa_stop h
      · exact pointerRead_stop h
  · next j _ =>
    cases ho : lastOperand i with
    | some e => rw [ho] at h; exact pointerRead_stop h
    | none => rw [ho] at h; cases h

/-- All that an instruction does of which a word cannot be had. -/
theorem runPartly_spec {ws : List Word} {stop : Exec Empty} (hs : ∀ {e u v}, stop u = .error e v → ReadStop e) :
    (∃ r, runPartly ws stop s = .refused r) ∨ ∃ f u, runPartly ws stop s = takeAccessError (s.undone u) s.pc f .none [] := by
  unfold runPartly
  simp only
  split
  · next d _ _ => exact d.elim
  · next e u h =>
    have he : ReadStop e := by
      cases hb : (if s.movemEa.isSome then none else beginning ws) with
      | none => rw [hb] at h; exact hs h
      | some i =>
        rw [hb] at h
        rcases Exec.bind_stop h with h | ⟨_, _, _, h⟩
        · exact earlyReads_stop h
        · exact hs h
    rcases he with ⟨f, rfl⟩ | ⟨r, rfl⟩
    · exact .inr ⟨f, u, rfl⟩
    · exact .inl ⟨r, rfl⟩

/-- All that the step does there: a refusal, the privilege violation of a privileged word in user mode, or an access error. -/
theorem runCut_spec {ws : List Word} {stop : Exec Empty} (hs : ∀ {e u v}, stop u = .error e v → ReadStop e) :
    (∃ r, runCut ws stop s = .refused r) ∨ runCut ws stop s = takePre s s 8
      ∨ ∃ f u, runCut ws stop s = takeAccessError (s.undone u) s.pc f .none [] := by
  unfold runCut
  split
  · exact (runPartly_spec hs).imp_right .inr
  · split
    · exact .inl ⟨_, rfl⟩
    · split
      · exact .inr (.inl rfl)
      · exact (runPartly_spec hs).imp_right .inr

end Sys2Proof.Machine
end

