-- ==== Sys2Proof/Laws/Decode.lean ====
section
/-! SUPPORT. The decoder on the words the encoder writes, piece by piece: operation word fields, immediates,
displacements, index words and operands (30_encoding R142 to R150). -/

namespace Sys2Proof

section
variable {α β : Type} (ws : List Word)

theorem Dec.bind_run (m : Dec α) (f : α → Dec β) :
    (m >>= f) ws = match m ws with
      | .ok a t => f a t
      | .error e t => .error e t := by
  change EStateM.bind m f ws = _
  unfold EStateM.bind
  cases m ws <;> rfl

/-- The next parser runs on what the first one leaves. -/
theorem Dec.bind_ok {m : Dec α} {a : α} {rest : List Word} (h : m ws = .ok a rest) (f : α → Dec β) :
    (m >>= f) ws = f a rest := by
  rw [Dec.bind_run, h]

@[simp] theorem Dec.pure_run (a : α) : (pure a : Dec α) ws = .ok a ws := rfl

@[simp] theorem Dec.pure_bind (a : α) (f : α → Dec β) : ((pure a : Dec α) >>= f) ws = f a ws := by
  rw [Dec.bind_run]
  rfl

@[simp] theorem nextWord_bind (w : Word) (f : Word → Dec β) : (nextWord >>= f) (w :: ws) = f w ws := by
  rw [Dec.bind_run]
  rfl

@[simp] theorem nextWord_run (w : Word) : nextWord (w :: ws) = .ok w ws := rfl

theorem mustBe_bind {b : Bool} (h : b = true) (f : Unit → Dec β) : (mustBe b >>= f) ws = f () ws := by
  subst h
  rw [Dec.bind_run]
  rfl

end

/-- A field of two pieces gives its high piece back. -/
theorem extract_high {m n : Nat} (a : BitVec m) (b : BitVec n) : (a ++ b).extractLsb' n m = a := by
  apply BitVec.eq_of_getLsbD_eq
  intro i hi
  rw [BitVec.getLsbD_extractLsb', BitVec.getLsbD_append]
  simp [hi]

/-- A field of two pieces gives its low piece back. -/
theorem extract_low {m n : Nat} (a : BitVec m) (b : BitVec n) : (a ++ b).extractLsb' 0 n = b := by
  apply BitVec.eq_of_getLsbD_eq
  intro i hi
  rw [BitVec.getLsbD_extractLsb', BitVec.getLsbD_append]
  simp [hi]

/-- Bits of the high piece of a field. -/
theorem extract_of_high {m n : Nat} (a : BitVec m) (b : BitVec n) (s l : Nat) :
    (a ++ b).extractLsb' (n + s) l = a.extractLsb' s l := by
  apply BitVec.eq_of_getLsbD_eq
  intro i hi
  rw [BitVec.getLsbD_extractLsb', BitVec.getLsbD_append, BitVec.getLsbD_extractLsb']
  simp [hi, Nat.add_assoc]

/-- Bits of the low piece of a field. -/
theorem extract_of_low {m n : Nat} (a : BitVec m) (b : BitVec n) (s l : Nat) (h : s + l ≤ n) :
    (a ++ b).extractLsb' s l = b.extractLsb' s l := by
  apply BitVec.eq_of_getLsbD_eq
  intro i hi
  rw [BitVec.getLsbD_extractLsb', BitVec.getLsbD_append, BitVec.getLsbD_extractLsb']
  simp [hi, show s + i < n by omega]

/-- A field cut out whole is itself. -/
theorem extract_whole {n : Nat} (a : BitVec n) : a.extractLsb' 0 n = a := by
  apply BitVec.eq_of_getLsbD_eq
  intro i hi
  simp [hi]

/-- An operation word is decoded by its fields. -/
theorem decodeOp_opword (l : BitVec 4) (a b m x : BitVec 3) : decodeOp (opword l a b m x) = decodeFields l a b m x := by
  have h1 : (opword l a b m x).extractLsb' 12 4 = l := by
    unfold opword
    rw [show (12 : Nat) = 3 + (3 + (3 + 3)) from rfl, extract_of_high, extract_of_high, extract_of_high]
    exact extract_high l a
  have h2 : (opword l a b m x).extractLsb' 9 3 = a := by
    unfold opword
    rw [show (9 : Nat) = 3 + (3 + 3) from rfl, extract_of_high, extract_of_high]
    exact (extract_of_high (l ++ a) b 0 3).trans (extract_low l a)
  have h3 : (opword l a b m x).extractLsb' 6 3 = b := by
    unfold opword
    rw [show (6 : Nat) = 3 + 3 from rfl, extract_of_high]
    exact (extract_of_high (l ++ a ++ b) m 0 3).trans (extract_low (l ++ a) b)
  have h4 : (opword l a b m x).extractLsb' 3 3 = m := by
    unfold opword
    exact (extract_of_high (l ++ a ++ b ++ m) x 0 3).trans (extract_low (l ++ a ++ b) m)
  have h5 : (opword l a b m x).extractLsb' 0 3 = x := extract_low _ x
  unfold decodeOp
  rw [h1, h2, h3, h4, h5]

/-- The words of an operation word and what follows. -/
theorem decodeWords_cons (w : Word) (ws : List Word) : decodeWords (w :: ws) = decodeOp w ws := by
  unfold decodeWords
  rw [nextWord_bind]

/-! ## Immediates and displacements -/

theorem hi_lo (v : Long) : hiWord v ++ loWord v = v := by
  apply BitVec.eq_of_getLsbD_eq
  intro i hi
  rw [show (hiWord v ++ loWord v).getLsbD i = _ from BitVec.getLsbD_append]
  by_cases h : i < 16
  · simp [h]
  · simp [h, show i - 16 < 16 by omega, show 16 + (i - 16) = i by omega]

theorem nextLong_run (v : Long) (ws : List Word) : nextLong (longWords v ++ ws) = .ok v ws := by
  change (nextWord >>= _) (hiWord v :: loWord v :: ws) = _
  rw [nextWord_bind, nextWord_bind, Dec.pure_run, hi_lo]

theorem setWidth_of_fits {v : Long} {n : Nat} (h : v.toNat < 2 ^ n) : (v.setWidth n).setWidth 32 = v := by
  apply BitVec.eq_of_toNat_eq
  have := v.isLt
  simp only [BitVec.toNat_setWidth]
  rw [Nat.mod_eq_of_lt h, Nat.mod_eq_of_lt this]

theorem nextImm_run {sz : Size} {v : Long} (h : immFits sz v = true) (ws : List Word) :
    nextImm sz (immWords sz v ++ ws) = .ok v ws := by
  have h' : v.toNat < 2 ^ sz.bits := of_decide_eq_true h
  cases sz with
  | byte =>
    change (nextWord >>= _) ((v.setWidth 8).setWidth 16 :: ws) = _
    rw [nextWord_bind, Dec.pure_run]
    congr 1
    refine Eq.trans ?_ (setWidth_of_fits h')
    apply BitVec.eq_of_toNat_eq
    simp only [BitVec.toNat_setWidth]
    change v.toNat % 256 % 65536 % 256 % 4294967296 = v.toNat % 256 % 4294967296
    omega
  | word =>
    change (nextWord >>= _) (loWord v :: ws) = _
    rw [nextWord_bind, Dec.pure_run]
    congr 1
    refine Eq.trans ?_ (setWidth_of_fits h')
    apply BitVec.eq_of_toNat_eq
    simp
    rfl
  | long => exact nextLong_run v ws

theorem nextDisp_run (d : Disp) (ws : List Word) : nextDisp d.code (d.words ++ ws) = .ok d ws := by
  cases d with
  | null => rfl
  | word w => rfl
  | long v =>
    change (nextLong >>= _) (longWords v ++ ws) = _
    rw [Dec.bind_ok _ (nextLong_run v ws), Dec.pure_run]

/-! ## Index words and operands -/

/-- A bit of the high piece of a field. -/
theorem getLsbD_high {m n : Nat} (a : BitVec m) (b : BitVec n) (i : Nat) : (a ++ b).getLsbD (n + i) = a.getLsbD i := by
  rw [BitVec.getLsbD_append]
  simp

/-- A bit of the low piece of a field. -/
theorem getLsbD_low {m n : Nat} (a : BitVec m) (b : BitVec n) (i : Nat) (h : i < n) :
    (a ++ b).getLsbD i = b.getLsbD i := by
  rw [BitVec.getLsbD_append]
  simp [h]

theorem bit_zero (b : Bool) : (bit b).getLsbD 0 = b := by cases b <;> rfl

/-- The index fields of an extension word. -/
theorem indexReg_run (x : IndexReg) (b : BitVec 9) : indexReg (x.bits ++ b) = x := by
  have h1 : (x.bits ++ b : Word).extractLsb' 12 4 = x.reg := by
    rw [show (x.bits ++ b : Word) = x.reg ++ (bit x.long ++ (x.scale ++ b)) from ?_]
    · exact extract_high x.reg _
    · unfold IndexReg.bits
      rw [BitVec.append_assoc, BitVec.append_assoc]
      rfl
  have h2 : (x.bits ++ b : Word).extractLsb' 9 2 = x.scale := by
    refine (extract_of_high x.bits b 0 2).trans ?_
    exact extract_low (x.reg ++ bit x.long) x.scale
  have h3 : (x.bits ++ b : Word).getLsbD 11 = x.long :=
    (getLsbD_high x.bits b 2).trans ((getLsbD_high (x.reg ++ bit x.long) x.scale 0).trans
      ((getLsbD_low x.reg (bit x.long) 0 (by decide)).trans (bit_zero x.long)))
  unfold indexReg
  rw [h1, h2, h3]

/-- A displacement has a size code. -/
theorem Disp.code_ne (d : Disp) : d.code ≠ 0 := by
  cases d with
  | null => exact (by decide : (1 : BitVec 2) ≠ 0)
  | word _ => exact (by decide : (2 : BitVec 2) ≠ 0)
  | long _ => exact (by decide : (3 : BitVec 2) ≠ 0)

/-- The codes of an outer displacement: none of them is 0, and its high bit says which indirection it is. -/
theorem code_pre (is : Bool) : ∀ c : BitVec 2, c ≠ 0 → iisOk is ((0 : BitVec 1) ++ c) = true ∧
    (((0 : BitVec 1) ++ c : BitVec 3) == 0) = false ∧ ((0 : BitVec 1) ++ c).getLsbD 2 = false := by
  cases is <;> decide

theorem code_post : ∀ c : BitVec 2, c ≠ 0 → iisOk false ((1 : BitVec 1) ++ c) = true ∧
    (((1 : BitVec 1) ++ c : BitVec 3) == 0) = false ∧ ((1 : BitVec 1) ++ c).getLsbD 2 = true := by
  decide

theorem nextIndex_run {x : Index} (h : x.wf = true) (ws : List Word) : nextIndex (x.words ++ ws) = .ok x ws := by
  cases x with
  | brief x d8 =>
    change (nextWord >>= _) ((x.bits ++ (0 : BitVec 1) ++ d8) :: ws) = _
    rw [nextWord_bind]
    have h8 : (x.bits ++ (0 : BitVec 1) ++ d8 : Word).getLsbD 8 = false :=
      (getLsbD_high (x.bits ++ (0 : BitVec 1)) d8 0).trans (getLsbD_low x.bits (0 : BitVec 1) 0 (by decide))
    have hr : indexReg (x.bits ++ (0 : BitVec 1) ++ d8) = x := by
      rw [show (x.bits ++ (0 : BitVec 1) ++ d8 : Word) = x.bits ++ ((0 : BitVec 1) ++ d8) from BitVec.append_assoc ..]
      exact indexReg_run x _
    have hd : (x.bits ++ (0 : BitVec 1) ++ d8 : Word).setWidth 8 = d8 := by
      apply BitVec.eq_of_getLsbD_eq
      intro i hi
      rw [BitVec.getLsbD_setWidth, show (x.bits ++ (0 : BitVec 1) ++ d8 : Word).getLsbD i = _ from BitVec.getLsbD_append]
      simp [hi]
    simp only [h8, hr, hd]
    rfl
  | full x bs is bd ind =>
    change (nextWord >>= _)
      ((x.bits ++ (1 : BitVec 1) ++ bit bs ++ bit is ++ bd.code ++ (0 : BitVec 1) ++ ind.code) ::
        (bd.words ++ ind.words ++ ws)) = _
    let w : Word := x.bits ++ (1 : BitVec 1) ++ bit bs ++ bit is ++ bd.code ++ (0 : BitVec 1) ++ ind.code
    have e : w = x.bits ++ ((1 : BitVec 1) ++ (bit bs ++ (bit is ++ (bd.code ++ ((0 : BitVec 1) ++ ind.code))))) := by
      change x.bits ++ (1 : BitVec 1) ++ bit bs ++ bit is ++ bd.code ++ (0 : BitVec 1) ++ ind.code = _
      repeat rw [BitVec.append_assoc]
      rfl
    have hr : indexReg w = x := by rw [e]; exact indexReg_run x _
    have h8 : w.getLsbD 8 = true :=
      (getLsbD_high _ ind.code 5).trans ((getLsbD_high _ (0 : BitVec 1) 4).trans ((getLsbD_high _ bd.code 2).trans
        ((getLsbD_high _ (bit is) 1).trans ((getLsbD_high _ (bit bs) 0).trans
          (getLsbD_low x.bits (1 : BitVec 1) 0 (by decide))))))
    have h7 : w.getLsbD 7 = bs :=
      (getLsbD_high _ ind.code 4).trans ((getLsbD_high _ (0 : BitVec 1) 3).trans ((getLsbD_high _ bd.code 1).trans
        ((getLsbD_high _ (bit is) 0).trans ((getLsbD_low _ (bit bs) 0 (by decide)).trans (bit_zero bs)))))
    have h6 : w.getLsbD 6 = is :=
      (getLsbD_high _ ind.code 3).trans ((getLsbD_high _ (0 : BitVec 1) 2).trans ((getLsbD_high _ bd.code 0).trans
        ((getLsbD_low _ (bit is) 0 (by decide)).trans (bit_zero is))))
    have h3 : w.getLsbD 3 = false :=
      (getLsbD_high _ ind.code 0).trans (getLsbD_low _ (0 : BitVec 1) 0 (by decide))
    have h45 : (w.extractLsb' 4 2 : BitVec 2) = bd.code :=
      (extract_of_high _ ind.code 1 2).trans ((extract_of_high _ (0 : BitVec 1) 0 2).trans (extract_low _ bd.code))
    have h02 : (w.extractLsb' 0 3 : BitVec 3) = ind.code := extract_low _ ind.code
    have hbd : (bd.code != 0) = true := by cases bd <;> rfl
    have hii : iisOk is ind.code = true := by
      cases ind with
      | none => cases is <;> rfl
      | pre od => exact (code_pre is od.code od.code_ne).1
      | post od =>
        cases is with
        | true => cases h
        | false => exact (code_post od.code od.code_ne).1
    have hfull : nextFull w (bd.words ++ (ind.words ++ ws)) = .ok (.full x bs is bd ind) ws := by
      unfold nextFull
      simp only [h6, h02, h45, h3, hr, h7]
      rw [mustBe_bind _ (by rw [hbd, hii]; rfl), Dec.bind_ok _ (nextDisp_run bd _)]
      cases ind with
      | none => rfl
      | pre od =>
        have h0 : ((Indirect.pre od).code == 0) = false := (code_pre false od.code od.code_ne).2.1
        have h1 : ((Indirect.pre od).code.extractLsb' 0 2 : BitVec 2) = od.code := extract_low _ od.code
        have h2 : (Indirect.pre od).code.getLsbD 2 = false := (code_pre false od.code od.code_ne).2.2
        simp only [h0, h1, h2, Bool.false_eq_true, if_false]
        change (nextDisp od.code >>= _) (od.words ++ ws) = _
        rw [Dec.bind_ok _ (nextDisp_run od ws), Dec.pure_bind, Dec.pure_run]
      | post od =>
        have h0 : ((Indirect.post od).code == 0) = false := (code_post od.code od.code_ne).2.1
        have h1 : ((Indirect.post od).code.extractLsb' 0 2 : BitVec 2) = od.code := extract_low _ od.code
        have h2 : (Indirect.post od).code.getLsbD 2 = true := (code_post od.code od.code_ne).2.2
        simp only [h0, h1, h2, Bool.false_eq_true, if_false, if_true]
        change (nextDisp od.code >>= _) (od.words ++ ws) = _
        rw [Dec.bind_ok _ (nextDisp_run od ws), Dec.pure_bind, Dec.pure_run]
    change (nextWord >>= _) (w :: (bd.words ++ ind.words ++ ws)) = _
    rw [nextWord_bind, List.append_assoc]
    simp only [h8, if_true]
    exact hfull

/-- The mode and register fields of an operand name its mode. -/
theorem eaKind_mode (e : Ea) : eaKind e.mode e.reg = some e.kind := by cases e <;> rfl

/-- An operand's words are parsed back. -/
theorem eaTail_run {sz : Size} {e : Ea} (h : e.wf sz = true) (ws : List Word) :
    eaTail e.kind sz e.reg (e.words sz ++ ws) = .ok e ws := by
  cases e
  case idx r x =>
    change (nextIndex >>= _) (x.words ++ ws) = _
    rw [Dec.bind_ok _ (nextIndex_run h ws), Dec.pure_run]
    rfl
  case pcIdx x =>
    change (nextIndex >>= _) (x.words ++ ws) = _
    rw [Dec.bind_ok _ (nextIndex_run h ws), Dec.pure_run]
  case absL a =>
    change (nextLong >>= _) (longWords a ++ ws) = _
    rw [Dec.bind_ok _ (nextLong_run a ws), Dec.pure_run]
  case imm v =>
    change (nextImm sz >>= _) (immWords sz v ++ ws) = _
    rw [Dec.bind_ok _ (nextImm_run h ws), Dec.pure_run]
  all_goals rfl

/-- A mode an instruction takes. -/
theorem eaMode_run {c : Cat} {sz : Size} {e : Ea} (h : eaOk c sz e = true) (ws : List Word) :
    eaMode c sz e.mode e.reg ws = .ok e.kind ws := by
  unfold eaOk at h
  rw [Bool.and_eq_true] at h
  unfold eaMode
  rw [eaKind_mode]
  simp only [h.1, if_true]
  rfl

/-- An operand of an instruction is parsed back. -/
theorem nextEa_run {c : Cat} {sz : Size} {e : Ea} (h : eaOk c sz e = true) (ws : List Word) :
    nextEa c sz e.mode e.reg (e.words sz ++ ws) = .ok e ws := by
  have hw : e.wf sz = true := by
    unfold eaOk at h
    rw [Bool.and_eq_true] at h
    exact h.2
  unfold nextEa
  rw [Dec.bind_ok _ (eaMode_run h _), eaTail_run hw]

/-- An instruction of one operand. -/
theorem onlyEa_run {c : Cat} {sz : Size} {e : Ea} {mk : Ea → Instr} (h : eaOk c sz e = true) (ws : List Word) :
    onlyEa c sz e.mode e.reg mk (e.words sz ++ ws) = .ok (mk e) ws := by
  unfold onlyEa
  rw [Dec.bind_ok _ (nextEa_run h ws), Dec.pure_run]

/-- An instruction of an immediate and an operand. -/
theorem immThenEa_run {c : Cat} {sz : Size} {e : Ea} {v : Long} {mk : Long → Ea → Instr} (hv : immFits sz v = true)
    (h : eaOk c sz e = true) (ws : List Word) :
    immThenEa c sz e.mode e.reg mk (immWords sz v ++ e.words sz ++ ws) = .ok (mk v e) ws := by
  have hw : e.wf sz = true := by
    unfold eaOk at h
    rw [Bool.and_eq_true] at h
    exact h.2
  unfold immThenEa
  rw [Dec.bind_ok _ (eaMode_run h _), List.append_assoc, Dec.bind_ok _ (nextImm_run hv _),
    Dec.bind_ok _ (eaTail_run hw ws), Dec.pure_run]

/-- An instruction of an extension word of its own and an operand. -/
theorem wordThenEa_run {α : Type} {c : Cat} {sz : Size} {e : Ea} {own : Word → Dec α} {w : Word} {a : α}
    {mk : α → Ea → Instr} (ho : ∀ ws, own w ws = .ok a ws) (h : eaOk c sz e = true) (ws : List Word) :
    wordThenEa c sz e.mode e.reg own mk (w :: (e.words sz ++ ws)) = .ok (mk a e) ws := by
  have hw : e.wf sz = true := by
    unfold eaOk at h
    rw [Bool.and_eq_true] at h
    exact h.2
  unfold wordThenEa
  rw [Dec.bind_ok _ (eaMode_run h _), nextWord_bind, Dec.bind_ok _ (ho _), Dec.bind_ok _ (eaTail_run hw ws),
    Dec.pure_run]

end Sys2Proof
end

