-- ==== Sys2Proof/Laws/Frame.lean ====
section
/-! SUPPORT. What each update of the state keeps, and how frames compose: a proof of an instruction's frame chains these
and never unfolds a record update. -/

namespace Sys2Proof.Machine

variable {s t u : State}

/-! ## The PC moved past an instruction -/

/-- A body that is done, not traced, falling through. -/
theorem complete_past {i : Instr} {body : Exec Done} (h : body s = .ok .seq t) (ht : s.traceAll = false) :
    complete i body s = .next (past i s t) := complete_seq h ht

@[simp] theorem past_ccr (i : Instr) (s t : State) : (past i s t).ccr = t.ccr := rfl

@[simp] theorem past_dreg (i : Instr) (s t : State) (n : Reg) : (past i s t).dreg n = t.dreg n := rfl

@[simp] theorem past_areg (i : Instr) (s t : State) (n : Reg) : (past i s t).areg n = t.areg n := rfl

@[simp] theorem past_sp (i : Instr) (s t : State) : (past i s t).sp = t.sp := rfl

@[simp] theorem past_sr (i : Instr) (s t : State) : (past i s t).sr = t.sr := rfl

@[simp] theorem past_pc (i : Instr) (s t : State) : (past i s t).pc = nextPc i s := rfl

@[simp] theorem past_mem (i : Instr) (s t : State) : (past i s t).mem = t.mem := rfl

@[simp] theorem withDraws_ccr (n : Nat) (s : State) : (withDraws n s).ccr = s.ccr := rfl

@[simp] theorem withDraws_dreg (n : Nat) (s : State) (r : Reg) : (withDraws n s).dreg r = s.dreg r := rfl

@[simp] theorem withDraws_areg (n : Nat) (s : State) (r : Reg) : (withDraws n s).areg r = s.areg r := rfl

@[simp] theorem withDraws_dataFc (n : Nat) (s : State) : (withDraws n s).dataFc = s.dataFc := rfl

@[simp] theorem withDraws_draws (n : Nat) (s : State) : (withDraws n s).draws = n := rfl

@[simp] theorem withDraws_withDraws (m n : Nat) (s : State) : withDraws m (withDraws n s) = withDraws m s := rfl

@[simp] theorem withDraws_self (s : State) : withDraws s.draws s = s := rfl

/-- A free bit is drawn. -/
theorem drawBit_then {β : Type} (s : State) (f : Bool → Exec β) :
    (drawBit >>= f) s = f (Config.freeBit s.draws) (withDraws (s.draws + 1) s) := Exec.drawBit_bind s f

/-- A free byte is drawn. -/
theorem drawByte_then {β : Type} (s : State) (f : Byte → Exec β) :
    (drawByte >>= f) s = f (Config.freeByte s.draws) (withDraws (s.draws + 1) s) := Exec.drawByte_bind s f

/-! ## Register numbers -/

theorem dNum_inj {m n : Reg} : dNum m = dNum n ↔ m = n := by
  constructor
  · intro h
    have := congrArg (fun x : GReg => (x.extractLsb' 0 3 : BitVec 3)) h
    revert this h m n
    decide
  · rintro rfl; rfl

theorem greg_dNum (n : Reg) : s.greg (dNum n) = s.dreg n := by
  have h1 : (dNum n).getLsbD 3 = false := by revert n; decide
  have h2 : ((dNum n).extractLsb' 0 3 : BitVec 3) = n := by revert n; decide
  simp only [State.greg, h1, h2]
  rfl

theorem greg_aNum (n : Reg) : s.greg (aNum n) = s.areg n := by
  have h1 : (aNum n).getLsbD 3 = true := by revert n; decide
  have h2 : ((aNum n).extractLsb' 0 3 : BitVec 3) = n := by revert n; decide
  simp only [State.greg, h1, h2]
  rfl

/-- Every general register is a data or an address register. -/
theorem greg_cases (i : GReg) : (∃ n, i = dNum n) ∨ ∃ n, i = aNum n := by
  cases h : i.getLsbD 3
  · exact .inl ⟨i.extractLsb' 0 3, by revert h; revert i; decide⟩
  · exact .inr ⟨i.extractLsb' 0 3, by revert h; revert i; decide⟩

theorem dNum_ne_aNum (m n : Reg) : dNum m ≠ aNum n := by revert m n; decide

theorem aNum_inj {m n : Reg} : aNum m = aNum n ↔ m = n := by revert m n; decide

theorem setGreg_dNum (n : Reg) (v : Long) : s.setGreg (dNum n) v = s.setDreg n v := by
  have h1 : (dNum n).getLsbD 3 = false := by revert n; decide
  have h2 : ((dNum n).extractLsb' 0 3 : BitVec 3) = n := by revert n; decide
  unfold State.setGreg
  rw [h1, h2]
  rfl

theorem setGreg_aNum (n : Reg) (v : Long) : s.setGreg (aNum n) v = s.setAreg n v := by
  have h1 : (aNum n).getLsbD 3 = true := by revert n; decide
  have h2 : ((aNum n).extractLsb' 0 3 : BitVec 3) = n := by revert n; decide
  unfold State.setGreg
  rw [h1, h2]
  rfl

theorem setAreg_seven (v : Long) : s.setAreg 7 v = s.setSp v := rfl

/-! ## Frames -/

theorem KeptControl.refl (s : State) : KeptControl s s := by constructor <;> rfl

theorem KeptControl.trans (h : KeptControl s u) (h' : KeptControl u t) : KeptControl s t := by
  constructor
  · exact h'.vbr.trans h.vbr
  · exact h'.sfc.trans h.sfc
  · exact h'.dfc.trans h.dfc
  · exact h'.cacr.trans h.cacr
  · exact h'.iacr0.trans h.iacr0
  · exact h'.iacr1.trans h.iacr1
  · exact h'.dacr0.trans h.dacr0
  · exact h'.dacr1.trans h.dacr1
  · exact h'.acuStatus.trans h.acuStatus
  · exact h'.acuTcr.trans h.acuTcr
  · exact h'.ipl.trans h.ipl
  · exact h'.iplPrev.trans h.iplPrev
  · exact h'.pending.trans h.pending
  · exact h'.cdis.trans h.cdis
  · exact h'.platform.trans h.platform

theorem Kept.refl (s : State) : Kept s s [] [] := by
  constructor
  case control => exact KeptControl.refl s
  all_goals (intros; rfl)

/-- The supervisor bit is in the system byte. -/
theorem Kept.super {r : List GReg} {k : List Nat} (h : Kept s t r k) : t.super = s.super := by
  have := congrArg (fun x : BitVec 11 => x.getLsbD 8) h.system
  simpa [State.super, srS] using this

/-- The master bit is in the system byte. -/
theorem Kept.srM {r : List GReg} {k : List Nat} (h : Kept s t r k) : srM t.sr = Machine.srM s.sr := by
  have := congrArg (fun x : BitVec 11 => x.getLsbD 7) h.system
  simpa [Machine.srM] using this

/-- Frames compose. -/
theorem Kept.trans {r r' : List GReg} {k k' : List Nat} (h : Kept s u r k) (h' : Kept u t r' k') :
    Kept s t (r ++ r') (k ++ k') := by
  have hs := h.super
  have hm := h.srM
  constructor
  case control => exact h.control.trans h'.control
  case reg =>
    intro i hi
    rw [List.mem_append, not_or] at hi
    exact (h'.reg i hi.2).trans (h.reg i hi.1)
  case usp =>
    intro hi
    rw [List.mem_append, not_or] at hi
    exact (h'.usp (by rw [hs]; exact hi.imp_right (·.2))).trans (h.usp (hi.imp_right (·.1)))
  case isp =>
    intro hi
    rw [List.mem_append, not_or] at hi
    exact (h'.isp (by rw [hs, hm]; exact hi.imp_right (·.imp_right (·.2)))).trans
      (h.isp (hi.imp_right (·.imp_right (·.1))))
  case msp =>
    intro hi
    rw [List.mem_append, not_or] at hi
    exact (h'.msp (by rw [hs, hm]; exact hi.imp_right (·.imp_right (·.2)))).trans
      (h.msp (hi.imp_right (·.imp_right (·.1))))
  case system => exact h'.system.trans h.system
  case memory =>
    intro fc a hi
    rw [List.mem_append, not_or] at hi
    exact (h'.memory fc a (by rw [memKey_congr h.control.platform]; exact hi.2)).trans (h.memory fc a hi.1)
  case run => exact h'.run.trans h.run
  case outputs => exact h'.outputs.trans h.outputs

/-- A frame with larger lists. -/
theorem Kept.mono {r r' : List GReg} {k k' : List Nat} (h : Kept s t r k) (hr : r ⊆ r') (hk : k ⊆ k') :
    Kept s t r' k' := by
  constructor
  case control => exact h.control
  case reg => exact fun i hi => h.reg i fun hi' => hi (hr hi')
  case usp => exact fun hi => h.usp (hi.imp_right fun hi hi' => hi (hr hi'))
  case isp => exact fun hi => h.isp (hi.imp_right (·.imp_right fun hi hi' => hi (hr hi')))
  case msp => exact fun hi => h.msp (hi.imp_right (·.imp_right fun hi hi' => hi (hr hi')))
  case system => exact h.system
  case memory => exact fun fc a hi => h.memory fc a fun hi' => hi (hk hi')
  case run => exact h.run
  case outputs => exact h.outputs

theorem Kept.setDreg (s : State) (n : Reg) (v : Long) : Kept s (s.setDreg n v) [dNum n] [] := by
  constructor
  case control => constructor <;> rfl
  case reg =>
    intro i hi
    rcases greg_cases i with ⟨m, rfl⟩ | ⟨m, rfl⟩
    · rw [greg_dNum, greg_dNum]
      exact State.dreg_setDreg_ne s (fun e => hi (by simp [e])) v
    · rw [greg_aNum, greg_aNum, State.areg_setDreg]
  all_goals (intros; rfl)

theorem Kept.setCcr (s : State) (f : Ccr) : Kept s (s.setCcr f) [] [] := by
  constructor
  case control => constructor <;> rfl
  case reg =>
    intro i _
    rcases greg_cases i with ⟨m, rfl⟩ | ⟨m, rfl⟩
    · rw [greg_dNum, greg_dNum, State.dreg_setCcr]
    · rw [greg_aNum, greg_aNum, State.areg_setCcr]
  case system =>
    apply BitVec.eq_of_getLsbD_eq
    intro i hi
    rw [BitVec.getLsbD_extractLsb', BitVec.getLsbD_extractLsb', State.sr_setCcr, srWithCcr_getLsbD _ _ (by omega)]
  all_goals (intros; rfl)

theorem Kept.setSp (s : State) (v : Long) : Kept s (s.setSp v) [15] [] := by
  constructor
  case control => constructor <;> simp
  case reg =>
    intro i hi
    rcases greg_cases i with ⟨m, rfl⟩ | ⟨m, rfl⟩
    · rw [greg_dNum, greg_dNum, State.dreg_setSp]
    · have : m ≠ 7 := fun e => hi (by rw [e]; decide)
      rw [greg_aNum, greg_aNum, ← setAreg_seven]
      exact State.areg_setAreg_ne s this v
  case usp => intro h; rw [State.setSp_eq]; simp_all
  case isp => intro h; rw [State.setSp_eq]; rcases h with h | h | h <;> simp_all
  case msp => intro h; rw [State.setSp_eq]; rcases h with h | h | h <;> simp_all
  case system => simp
  case memory => intro fc a _; exact byteAt_congr (by simp) (by simp) fc a
  case run => simp
  case outputs => simp

theorem Kept.setAreg (s : State) (n : Reg) (v : Long) : Kept s (s.setAreg n v) [aNum n] [] := by
  by_cases hn : n = 7
  · subst hn
    exact Kept.setSp s v
  · have h7 := reg_lt_seven hn
    constructor
    case control => constructor <;> simp
    case reg =>
      intro i hi
      rcases greg_cases i with ⟨m, rfl⟩ | ⟨m, rfl⟩
      · rw [greg_dNum, greg_dNum, State.dreg_setAreg]
      · rw [greg_aNum, greg_aNum]
        exact State.areg_setAreg_ne s (fun e => hi (by simp [e])) v
    case usp => intro _; rw [State.setAreg_eq]; simp [h7]
    case isp => intro _; rw [State.setAreg_eq]; simp [h7]
    case msp => intro _; rw [State.setAreg_eq]; simp [h7]
    case system => simp
    case memory => intro fc a _; exact byteAt_congr (by simp) (by simp) fc a
    case run => simp
    case outputs => simp

theorem Kept.setGreg (s : State) (i : GReg) (v : Long) : Kept s (s.setGreg i v) [i] [] := by
  rcases greg_cases i with ⟨m, rfl⟩ | ⟨m, rfl⟩
  · rw [setGreg_dNum]; exact Kept.setDreg s m v
  · rw [setGreg_aNum]; exact Kept.setAreg s m v

/-- The fields of the model's own, and the PC, are in no frame. -/
theorem Kept.own (s : State) (p : Long) (r : CacheRecords) (b : List BusAccess) (n : Nat) (m : Option Long) :
    Kept s { withBus b n (withRecords r s) with pc := p, movemEa := m } [] [] := by
  constructor
  case control => constructor <;> rfl
  case reg =>
    intro i _
    rcases greg_cases i with ⟨m, rfl⟩ | ⟨m, rfl⟩
    · rw [greg_dNum, greg_dNum]; rfl
    · rw [greg_aNum, greg_aNum]; rfl
  all_goals (intros; rfl)

theorem Kept.pc (s : State) (p : Long) : Kept s { s with pc := p } [] [] := Kept.own s p s.records s.bus s.draws s.movemEa

/-- Moving the PC past an instruction keeps everything. -/
theorem Kept.past {i : Instr} {s t : State} {r : List GReg} {k : List Nat} (h : Kept s t r k) : Kept s (past i s t) r k :=
  (h.trans (Kept.pc t _)).mono (by simp) (by simp)

theorem Kept.withRecords (s : State) (r : CacheRecords) : Kept s (withRecords r s) [] [] :=
  Kept.own s s.pc r s.bus s.draws s.movemEa

theorem Kept.withDraws (s : State) (n : Nat) : Kept s (withDraws n s) [] [] :=
  Kept.own s s.pc s.records s.bus n s.movemEa

/-- A read keeps everything. -/
theorem ReadEffect.kept (h : ReadEffect s t) : Kept s t [] [] := by
  obtain ⟨r, b, n, -, rfl⟩ := h
  exact Kept.own s s.pc r b n s.movemEa

theorem keysAt_congr {s t : State} (h : t.platform = s.platform) (fc : BitVec 3) (a : Long) (n : Nat) :
    keysAt t fc a n = keysAt s fc a n := by
  unfold keysAt
  exact List.map_congr_left fun x _ => memKey_congr h fc x

theorem mem_keysAt {s : State} {fc : BitVec 3} {a : Long} {n k : Nat} (h : k < n) :
    memKey s fc (a + BitVec.ofNat 32 k) ∈ keysAt s fc a n :=
  List.mem_map_of_mem (List.mem_map.mpr ⟨k, List.mem_range.mpr h, rfl⟩)

theorem Kept.poke (s : State) (fc : BitVec 3) (sz : Size) (a : Long) (v : BitVec sz.bits) :
    Kept s (poke s fc sz a v) [] (keysAt s fc a sz.bytes) := by
  constructor
  case control => constructor <;> simp
  case reg =>
    intro i _
    rcases greg_cases i with ⟨m, rfl⟩ | ⟨m, rfl⟩
    · rw [greg_dNum, greg_dNum, State.dreg_poke]
    · rw [greg_aNum, greg_aNum, State.areg_poke]
  case memory =>
    intro fc' b hb
    refine byteAt_poke_other s v fun k hk e => hb ?_
    rw [e]
    exact mem_keysAt hk
  all_goals simp

/-- An operand evaluation keeps everything but the register its mode steps. -/
theorem OperandEffect.kept {bytes : Nat} {e : Ea} (h : OperandEffect bytes e s t) : Kept s t (steppedRegs e) [] := by
  obtain ⟨r, b, n, -, rfl⟩ := h
  have step : ∀ q, Kept s (stepped bytes e s) q [] → Kept s (withBus b n (Machine.withRecords r (stepped bytes e s))) q [] :=
    fun q h => (h.trans (Kept.own _ _ r b n _)).mono (by simp) (by simp)
  apply step
  cases e
  case postInc r => exact Kept.setAreg s r _
  case preDec r => exact Kept.setAreg s r _
  all_goals exact Kept.refl s

/-- A value stored at a place keeps everything else. -/
theorem Kept.stored (s : State) (sz : Size) (l : Loc) (v : BitVec sz.bits) :
    Kept s (stored sz l v s) (placeRegs l) (placeKeys s sz l) := by
  cases l
  case dreg r => exact Kept.setDreg s r _
  case areg r => exact Kept.setAreg s r _
  case mem a => exact Kept.poke s _ sz a v
  case imm => exact Kept.refl s

end Sys2Proof.Machine
end

