-- ==== Sys2Proof/Laws/Stores.lean ====
section
/-! SUPPORT. When an access faults or is stale depends on a few fields only; what storing at a place does; what any
write leaves, to memory or a device (20_memory R87); the shapes that read an operand and replace it (30_encoding R160). -/

namespace Sys2Proof.Machine

variable {s t : State}

/-- The fields the fate of an access depends on; fewer cached bytes may be old. -/
structure SameAccess (s t : State) : Prop where
  platform : t.platform = s.platform
  dacr0 : t.dacr0 = s.dacr0
  dacr1 : t.dacr1 = s.dacr1
  cacr : t.cacr = s.cacr
  cdis : t.cdis = s.cdis
  dcache : t.dcache = s.dcache
  stale : dcacheOn s = true → t.staleData ⊆ s.staleData

theorem SameAccess.refl (s : State) : SameAccess s s := ⟨rfl, rfl, rfl, rfl, rfl, rfl, fun _ _ h => h⟩

theorem SameAccess.dcacheOn (h : SameAccess s t) : dcacheOn t = Machine.dcacheOn s := by
  unfold Machine.dcacheOn
  rw [h.cacr, h.cdis]

theorem SameAccess.trans {u : State} (h : SameAccess s u) (h' : SameAccess u t) : SameAccess s t :=
  ⟨h'.platform.trans h.platform, h'.dacr0.trans h.dacr0, h'.dacr1.trans h.dacr1, h'.cacr.trans h.cacr,
    h'.cdis.trans h.cdis, h'.dcache.trans h.dcache,
    fun on _ hk => h.stale on (h'.stale (by rw [h.dcacheOn]; exact on) hk)⟩

theorem SameAccess.dataAttr (h : SameAccess s t) (fc : BitVec 3) (a : Long) : dataAttr t fc a = Machine.dataAttr s fc a := by
  unfold Machine.dataAttr
  rw [h.dacr0, h.dacr1]

theorem SameAccess.busErrorAt (h : SameAccess s t) (fc : BitVec 3) (a : Long) (w : Bool) :
    busErrorAt t fc a w = Machine.busErrorAt s fc a w := by
  unfold Machine.busErrorAt
  rw [h.platform]

theorem SameAccess.readFaults (h : SameAccess s t) (l : Bool) (fc : BitVec 3) (a : Long) (n : Nat) :
    readFaults t l fc a n = Machine.readFaults s l fc a n := by
  unfold Machine.readFaults
  simp only [h.dataAttr, h.busErrorAt]

theorem SameAccess.writeFaults (h : SameAccess s t) (fc : BitVec 3) (a : Long) (n : Nat) :
    writeFaults t fc a n = Machine.writeFaults s fc a n := by
  unfold Machine.writeFaults
  simp only [h.dataAttr, h.busErrorAt]

theorem SameAccess.staleAccess (h : SameAccess s t) {fc : BitVec 3} {a : Long} {n : Nat}
    (hs : staleAccess s fc a n = false) : staleAccess t fc a n = false := by
  unfold Machine.staleAccess at hs ⊢
  rw [List.any_eq_false] at hs ⊢
  intro x hx ht
  refine hs x hx ?_
  unfold staleAt at ht ⊢
  simp only [h.dcacheOn, h.dcache, h.dataAttr, memKey_congr h.platform] at ht
  rw [Bool.and_eq_true, Bool.or_eq_true, Bool.and_eq_true] at ht ⊢
  refine ⟨ht.1, ht.2.imp id fun hc => ⟨hc.1, ?_⟩⟩
  obtain ⟨y, hy, hk⟩ := List.any_eq_true.mp hc.2
  rw [Bool.and_eq_true, h.platform] at hk
  refine List.any_eq_true.mpr ⟨y, hy, ?_⟩
  rw [Bool.and_eq_true]
  exact ⟨List.contains_iff_mem.mpr (h.stale ht.1 (List.contains_iff_mem.mp hk.1)), hk.2⟩

theorem SameAccess.writable (h : SameAccess s t) {fc : BitVec 3} {a : Long} {n : Nat} (hw : Writable s fc a n) :
    Writable t fc a n :=
  ⟨(h.writeFaults fc a n).trans hw.1, h.staleAccess hw.2.1, by rw [h.platform]; exact hw.2.2⟩

theorem SameAccess.readable (h : SameAccess s t) {fc : BitVec 3} {a : Long} {n : Nat} (hw : Readable s fc a n) :
    Readable t fc a n :=
  ⟨(h.readFaults false fc a n).trans hw.1, h.staleAccess hw.2.1, by rw [h.platform]; exact hw.2.2⟩

theorem SameAccess.setCcr (s : State) (f : Ccr) : SameAccess s (s.setCcr f) := ⟨rfl, rfl, rfl, rfl, rfl, rfl, fun _ _ h => h⟩

theorem SameAccess.setDreg (s : State) (n : Reg) (v : Long) : SameAccess s (s.setDreg n v) :=
  ⟨rfl, rfl, rfl, rfl, rfl, rfl, fun _ _ h => h⟩

theorem SameAccess.setAreg (s : State) (n : Reg) (v : Long) : SameAccess s (s.setAreg n v) := by
  constructor
  case stale => simp
  all_goals simp

theorem SameAccess.setSp (s : State) (v : Long) : SameAccess s (s.setSp v) := by
  constructor
  case stale => simp
  all_goals simp

theorem SameAccess.afterRead (s : State) (fc : BitVec 3) (a : Long) (n : Nat) : SameAccess s (afterRead s fc a n) :=
  ⟨rfl, rfl, rfl, rfl, rfl, rfl, fun _ => afterRead_staleData s fc a n⟩

theorem ReadEffect.access (h : ReadEffect s t) : SameAccess s t := by
  obtain ⟨r, b, n, hr, rfl⟩ := h
  exact ⟨rfl, rfl, rfl, rfl, rfl, rfl, fun _ => hr⟩

theorem SameAccess.withDraws (s : State) (n : Nat) : SameAccess s (withDraws n s) :=
  ⟨rfl, rfl, rfl, rfl, rfl, rfl, fun _ _ h => h⟩

theorem SameAccess.pokeByte (s : State) (fc : BitVec 3) (a : Long) (v : Byte) : SameAccess s (pokeByte s fc a v) := by
  exact ⟨rfl, rfl, rfl, rfl, rfl, rfl, fun on => pokeByte_staleData on fc a v⟩

theorem SameAccess.poke (s : State) (fc : BitVec 3) (sz : Size) (a : Long) (v : BitVec sz.bits) :
    SameAccess s (poke s fc sz a v) := by
  have key := fun (t : State) (b : Long) (x : Byte) => SameAccess.pokeByte t fc b x
  cases sz
  · exact key _ _ _
  · exact (key _ _ _).trans (key _ _ _)
  · exact (((key _ _ _).trans (key _ _ _)).trans (key _ _ _)).trans (key _ _ _)

theorem SameAccess.stores (s : State) (ws : List Store) : SameAccess s (ws.foldl Store.apply s) := by
  induction ws generalizing s with
  | nil => exact SameAccess.refl s
  | cons w rest ih => exact (SameAccess.poke s _ _ _ _).trans (ih _)

theorem OperandEffect.access {bytes : Nat} {e : Ea} (h : OperandEffect bytes e s t) : SameAccess s t := by
  obtain ⟨r, b, n, hr, rfl⟩ := h
  refine SameAccess.trans (u := stepped bytes e s) ?_
    ⟨rfl, rfl, rfl, rfl, rfl, rfl, fun _ => by rw [stepped_staleData]; exact hr⟩
  cases e
  case postInc r => exact SameAccess.setAreg s r _
  case preDec r => exact SameAccess.setAreg s r _
  all_goals exact SameAccess.refl s

/-! ## Several stores -/

theorem SameAccess.plain (h : SameAccess s t) {w : Store} (hw : w.plain s) : w.plain t :=
  ⟨(h.writeFaults _ _ _).trans hw.1, h.staleAccess hw.2.1, by rw [h.platform]; exact hw.2.2⟩

/-- Stores to memory that can be written are done in order. -/
theorem runStores_ok {ws : List Store} (h : ∀ w ∈ ws, w.plain s) : runStores ws s = ([], ws.foldl Store.apply s) := by
  induction ws generalizing s with
  | nil => rfl
  | cons w rest ih =>
    have hw := h w (by simp)
    have hr : ∀ x ∈ rest, x.plain (w.apply s) := fun x hx =>
      (SameAccess.poke s w.c.fc w.sz w.a _).plain (h x (List.mem_cons_of_mem _ hx))
    simp [runStores, Store.run_plain hw, ih hr]

/-- The stores an instruction ends with, to memory that can be written. -/
theorem storeAll_ok {ws : List Store} {d : Done} (h : ∀ w ∈ ws, w.plain s) :
    storeAll ws d s = .ok d (ws.foldl Store.apply s) := by
  have h1 : (ws.any fun w => !w.fails s && w.stale s) = false := by
    rw [List.any_eq_false]
    intro w hw
    simp [(h w hw).2.1]
  simp [storeAll, h1, runStores_ok h]

/-! ## What any write leaves, to memory, read-only memory or a device -/

/-- What writes change: memory, in its canonical form, the records of the caches, whose keys stay within the eight banks,
the record of bus cycles and the draws. -/
def WriteEffect (s t : State) : Prop :=
  ∃ m r b n, t = { withRecords r s with mem := m, bus := b, draws := n } ∧ (Memory.wf s.mem → Memory.wf m)
    ∧ ((∀ c ∈ s.dirty, c.1 < 2 ^ 35) → ∀ c ∈ r.dirty, c.1 < 2 ^ 35)
    ∧ ((∀ c ∈ s.romCells, c.1 < 2 ^ 35) → ∀ c ∈ r.romCells, c.1 < 2 ^ 35)
    ∧ ((∀ k ∈ s.staleData, k < 2 ^ 35) → ∀ k ∈ r.staleData, k < 2 ^ 35)

theorem WriteEffect.refl (s : State) : WriteEffect s s :=
  ⟨s.mem, s.records, s.bus, s.draws, rfl, fun h => h, fun h => h, fun h => h, fun h => h⟩

theorem WriteEffect.trans {u : State} (h : WriteEffect s u) (h' : WriteEffect u t) : WriteEffect s t := by
  obtain ⟨m, r, b, n, rfl, h1, h2, h3, h4⟩ := h
  obtain ⟨m', r', b', n', rfl, h1', h2', h3', h4'⟩ := h'
  exact ⟨m', r', b', n', rfl, fun h => h1' (h1 h), fun h => h2' (h2 h), fun h => h3' (h3 h), fun h => h4' (h4 h)⟩

theorem mem_addKey {k n : Nat} {l : List Nat} (h : k ∈ addKey n l) : k = n ∨ k ∈ l := by
  unfold addKey at h
  split at h
  · exact .inr h
  · exact List.mem_cons.mp h

/-- The records after an access are among those before it. -/
theorem bypassed_dirty (s : State) (fc : BitVec 3) (a : Long) : (bypassed s fc a).dirty ⊆ s.dirty := by
  unfold bypassed
  split
  · exact List.filter_subset_self _
  · exact fun _ h => h

theorem afterRead_dirty (s : State) (fc : BitVec 3) (a : Long) (n : Nat) : (afterRead s fc a n).dirty ⊆ s.dirty := by
  have key : ∀ (l : List Long) (r : CacheRecords),
      (l.foldl (fun r x => bypassed (withRecords r s) fc x) r).dirty ⊆ r.dirty := by
    intro l
    induction l with
    | nil => exact fun r _ h => h
    | cons x rest ih => exact fun r _ hk => bypassed_dirty (withRecords r s) fc x (ih _ hk)
  exact key (addrsOf a n) s.records

theorem bypassed_romCells (s : State) (fc : BitVec 3) (a : Long) : (bypassed s fc a).romCells ⊆ s.romCells := by
  unfold bypassed
  split
  · exact List.filter_subset_self _
  · exact fun _ h => h

theorem afterRead_romCells (s : State) (fc : BitVec 3) (a : Long) (n : Nat) :
    (afterRead s fc a n).romCells ⊆ s.romCells := by
  have key : ∀ (l : List Long) (r : CacheRecords),
      (l.foldl (fun r x => bypassed (withRecords r s) fc x) r).romCells ⊆ r.romCells := by
    intro l
    induction l with
    | nil => exact fun r _ h => h
    | cons x rest ih => exact fun r _ hk => bypassed_romCells (withRecords r s) fc x (ih _ hk)
  exact key (addrsOf a n) s.records

theorem WriteEffect.afterRead (s : State) (fc : BitVec 3) (a : Long) (n : Nat) : WriteEffect s (afterRead s fc a n) :=
  ⟨s.mem, _, s.bus, s.draws, rfl, fun h => h, fun h _ hc => h _ (afterRead_dirty s fc a n hc),
    fun h _ hc => h _ (afterRead_romCells s fc a n hc),
    fun h _ hk => h _ (afterRead_staleData s fc a n hk)⟩

/-- Dirty bytes after a cached write: those before, or the byte written. -/
theorem mem_dirtyAfterWrite {c : Host.Cell} {fc : BitVec 3} {a : Long} {v : Byte}
    (h : c ∈ dirtyAfterWrite s fc a v) : c.1 = memKey s fc a ∨ c ∈ s.dirty := by
  simp only [dirtyAfterWrite] at h
  split at h
  · split at h
    · exact .inr h
    · rcases List.mem_cons.mp h with rfl | h
      · exact .inl rfl
      · exact .inr h
  · obtain ⟨e, he, rfl⟩ := List.mem_map.mp h
    split
    · exact .inl rfl
    · exact .inr he

theorem mem_dirtyAfterAround {c : Host.Cell} {k : Nat} (h : c ∈ dirtyAfterAround s k) : c.1 = k ∨ c ∈ s.dirty := by
  unfold dirtyAfterAround at h
  split at h
  · rcases List.mem_cons.mp h with rfl | h
    · exact .inl rfl
    · exact .inr h
  · exact .inr h

/-- What lines may hold of read-only bytes after a cached write: what they may have held, or a value of the byte written. -/
theorem mem_romAfterWrite {c : Host.Cell} {fc : BitVec 3} {a : Long} {v : Byte} (h : c ∈ romAfterWrite s fc a v) :
    c.1 = memKey s fc a ∨ c ∈ s.romCells := by
  simp only [romAfterWrite, List.cons_append, List.mem_cons, List.mem_append, List.mem_filter] at h
  rcases h with rfl | h | h
  · exact .inl rfl
  · split at h
    · cases h
    · split at h
      · rw [List.mem_singleton] at h
        exact .inl (by rw [h])
      · exact .inr (List.mem_filter.mp h).1
  · exact .inr h.1

theorem WriteEffect.pokeByte (s : State) (fc : BitVec 3) (a : Long) (v : Byte) : WriteEffect s (pokeByte s fc a v) := by
  refine ⟨_, (Machine.pokeByte s fc a v).records, s.bus, s.draws, rfl, Memory.wf_pokeByte fc a v, fun h c hc => ?_,
    fun h c hc => h c ?_, fun h k hk => ?_⟩
  · have hk := memKey_lt s fc a
    simp only [Machine.pokeByte, State.records] at hc
    split at hc
    · rcases mem_dirtyAfterAround hc with e | hc
      · rw [e]
        exact hk
      · exact h c hc
    · split at hc
      · rcases mem_dirtyAfterWrite hc with e | hc
        · rw [e]
          exact hk
        · exact h c hc
      · exact h c (bypassed_dirty s fc a hc)
  · simp only [Machine.pokeByte, State.records] at hc
    split at hc
    · exact bypassed_romCells s fc a (List.mem_filter.mp hc).1
    · exact bypassed_romCells s fc a hc
  · simp only [Machine.pokeByte, State.records] at hk
    split at hk
    · rcases mem_addKey hk with rfl | hk
      · exact memKey_lt s fc a
      · exact h k (bypassed_staleData s fc a hk)
    · exact h k (bypassed_staleData s fc a hk)

theorem WriteEffect.poke (s : State) (fc : BitVec 3) (sz : Size) (a : Long) (v : BitVec sz.bits) :
    WriteEffect s (poke s fc sz a v) := by
  have key := fun (t : State) (b : Long) (x : Byte) => WriteEffect.pokeByte t fc b x
  cases sz
  · exact key _ _ _
  · exact (key _ _ _).trans (key _ _ _)
  · exact (((key _ _ _).trans (key _ _ _)).trans (key _ _ _)).trans (key _ _ _)

theorem WriteEffect.romByte (s : State) (fc : BitVec 3) (a : Long) (v : Byte) : WriteEffect s (romByte s fc a v) := by
  refine ⟨s.mem, (Machine.romByte s fc a v).records, s.bus, s.draws, ?_, fun h => h, fun h c hc => ?_, fun h c hc => ?_,
    fun h k hk => ?_⟩
  · unfold Machine.romByte
    simp only
    split <;> rfl
  · have h' := fun c hc => h c (afterRead_dirty s fc a 1 hc)
    unfold Machine.romByte at hc
    simp only at hc
    split at hc
    · rcases mem_dirtyAfterWrite hc with e | hc
      · rw [e]
        exact memKey_lt _ fc a
      · exact h' c hc
    · exact h' c hc
  · have h' := fun c hc => h c (afterRead_romCells s fc a 1 hc)
    unfold Machine.romByte at hc
    simp only at hc
    split at hc
    · rcases mem_romAfterWrite hc with e | hc
      · rw [e]
        exact memKey_lt _ fc a
      · exact h' c hc
    · exact h' c hc
  · have h' := fun k hk => h k (afterRead_staleData s fc a 1 hk)
    unfold Machine.romByte at hk
    simp only at hk
    split at hk
    · rcases mem_addKey hk with rfl | hk
      · exact memKey_lt s fc a
      · exact h' k hk
    · exact h' k hk

theorem WriteEffect.writeBytes (s : State) (fc : BitVec 3) (a : Long) (n : Nat) (v : BitVec 128) :
    WriteEffect s (writeBytes s fc a n v) := by
  unfold Machine.writeBytes
  induction (addrsOf a n).zip (bytesOf n v) generalizing s with
  | nil => exact WriteEffect.refl s
  | cons p rest ih =>
    rw [List.foldl_cons]
    refine WriteEffect.trans ?_ (ih _)
    split
    · exact WriteEffect.romByte s fc p.1 p.2
    · exact WriteEffect.pokeByte s fc p.1 p.2

theorem WriteEffect.deviceCycle (s : State) (fc : BitVec 3) (a : Long) (n : Nat) (d : Option (BitVec 128)) :
    WriteEffect s (deviceCycle s fc a n d).2 :=
  ⟨s.mem, s.records, _, _, rfl, fun h => h, fun h => h, fun h => h, fun h => h⟩

theorem WriteEffect.writeTransfers (fc : BitVec 3) (v : BitVec 128) (l : List (Long × Nat)) (left : Nat) (s : State) :
    WriteEffect s (writeTransfers fc v l left s).2 := by
  induction l generalizing left s with
  | nil => exact WriteEffect.refl s
  | cons p rest ih =>
    unfold Machine.writeTransfers
    simp only
    split
    · split
      · exact ((WriteEffect.deviceCycle s fc p.1 p.2 _).trans (WriteEffect.afterRead _ fc p.1 p.2)).trans (ih _ _)
      · exact (WriteEffect.deviceCycle s fc p.1 p.2 _).trans (WriteEffect.afterRead _ fc p.1 p.2)
    · exact (WriteEffect.writeBytes s fc p.1 p.2 _).trans (ih _ _)

/-- What a write leaves, whatever stands there. -/
theorem WriteEffect.writeBus {fc : BitVec 3} {a : Long} {n : Nat} {v : BitVec 128} (h : WriteEffect s t) :
    WriteEffect s (writeBus s fc a n v t).2 := by
  unfold Machine.writeBus
  split
  · exact WriteEffect.writeTransfers fc v _ n s
  · split
    · exact WriteEffect.writeBytes s fc a n v
    · exact h

/-- What a store leaves, whether it fails or not. -/
theorem WriteEffect.run (s : State) (w : Store) : WriteEffect s (w.run s).2 := by
  unfold Store.run
  split
  · exact WriteEffect.refl s
  · exact WriteEffect.writeBus (WriteEffect.poke s _ _ _ _)

/-- What stores leave, those that fail among them. -/
theorem WriteEffect.runStores (ws : List Store) (s : State) : WriteEffect s (runStores ws s).2 := by
  induction ws generalizing s with
  | nil => exact WriteEffect.refl s
  | cons w rest ih =>
    unfold Machine.runStores
    simp only
    split
    · exact (WriteEffect.run s w).trans (ih _)
    · split
      · exact WriteEffect.run s w
      · exact (WriteEffect.run s w).trans (ih _)

/-- The first store of a locked sequence that fails ends it (49 R432). -/
theorem runStores_locked {w : Store} {rest : List Store} (h : (w.run s).1 = false) (hl : w.c.locked = true) :
    runStores (w :: rest) s = ([w], (w.run s).2) := by
  simp [runStores, h, hl]

/-! ## What an operand evaluation leaves of the registers and the status -/

theorem OperandEffect.dreg {bytes : Nat} {e : Ea} (h : OperandEffect bytes e s t) (n : Reg) : t.dreg n = s.dreg n := by
  obtain ⟨r, b, m, -, rfl⟩ := h
  change (stepped bytes e s).dreg n = _
  cases e <;> simp [stepped]

theorem OperandEffect.sr {bytes : Nat} {e : Ea} (h : OperandEffect bytes e s t) : t.sr = s.sr := by
  obtain ⟨r, b, m, -, rfl⟩ := h
  change (stepped bytes e s).sr = _
  cases e <;> simp [stepped]

theorem OperandEffect.ccr {bytes : Nat} {e : Ea} (h : OperandEffect bytes e s t) : t.ccr = s.ccr := by
  unfold State.ccr
  rw [h.sr]

theorem OperandEffect.super {bytes : Nat} {e : Ea} (h : OperandEffect bytes e s t) : t.super = s.super := by
  unfold State.super
  rw [h.sr]

theorem OperandEffect.dataFc {bytes : Nat} {e : Ea} (h : OperandEffect bytes e s t) : t.dataFc = s.dataFc := by
  unfold State.dataFc
  rw [h.super]

theorem OperandEffect.pc {bytes : Nat} {e : Ea} (h : OperandEffect bytes e s t) : t.pc = s.pc := by
  obtain ⟨r, b, m, -, rfl⟩ := h
  change (stepped bytes e s).pc = _
  cases e <;> simp [stepped]

theorem OperandEffect.mem {bytes : Nat} {e : Ea} (h : OperandEffect bytes e s t) : t.mem = s.mem := by
  obtain ⟨r, b, m, -, rfl⟩ := h
  change (stepped bytes e s).mem = _
  cases e <;> simp [stepped]

/-! ## Places -/

theorem CanStore.congr {sz : Size} {l : Loc} (h : CanStore sz l s) (ha : SameAccess s t) (hf : t.dataFc = s.dataFc) :
    CanStore sz l t := by
  cases l with
  | mem a =>
    unfold CanStore at h ⊢
    simp only [hf]
    exact ha.writable h
  | imm v => exact h
  | dreg r => trivial
  | areg r => trivial

/-- A place that can be written is written (30_encoding R151, R152, R160). -/
theorem writeLoc_ok {sz : Size} {l : Loc} {v : BitVec sz.bits} {d : Done} (h : CanStore sz l s) :
    writeLoc sz l v d s = .ok d (stored sz l v s) := by
  cases l with
  | dreg r => rfl
  | areg r => rfl
  | mem a => exact writeMem_ok h.1 h.2.1 h.2.2
  | imm v => exact absurd h id

/-- An operand that is found, read and writable is replaced. -/
theorem rmwEa_ok {sz : Size} {own : Nat} {e : Ea} {f : BitVec sz.bits → Exec (BitVec sz.bits)} {s1 s2 s3 : State} {l : Loc}
    {d v : BitVec sz.bits} (h1 : operand sz own e s = .ok l s1) (h2 : readLoc sz l s1 = .ok d s2)
    (h3 : f d s2 = .ok v s3) (h4 : CanStore sz l s3) : rmwEa sz own e f s = .ok .seq (stored sz l v s3) := by
  unfold rmwEa
  rw [Exec.bind_ok _ h1, Exec.bind_ok _ h2, Exec.bind_ok _ h3, writeLoc_ok h4]

theorem placeKeys_congr {s t : State} {sz : Size} {l : Loc} (hp : t.platform = s.platform) (hf : t.dataFc = s.dataFc) :
    placeKeys t sz l = placeKeys s sz l := by
  cases l with
  | mem a => simp only [placeKeys, hf, keysAt_congr hp]
  | _ => rfl

end Sys2Proof.Machine
end

