-- ==== Sys2Proof/Laws/Stack.lean ====
section
/-! SUPPORT. Changes of the flow, and what is pushed and popped (00_scope 5.3, 60_exceptions R554). -/

namespace Sys2Proof.Machine

variable {s t : State}

/-- An instruction traced by T1 only is traced by T1 or T0. -/
theorem traceAll_of_flow (h : s.traceFlow = false) : s.traceAll = false := by
  unfold State.traceFlow at h
  rw [Bool.or_eq_false_iff] at h
  exact h.1

/-- A body that goes on at an even address, not traced. -/
theorem complete_jump {i : Instr} {body : Exec Done} {p : Long} (h : body s = .ok (.jump p) t)
    (ht : s.traceFlow = false) (hp : p.getLsbD 0 = false) : complete i body s = .next (jumped p t) := by
  rw [complete_ok h, finish_jump ht hp]
  rfl

/-- A body that goes on at an odd address: an address error (60_exceptions R536). -/
theorem complete_odd {i : Instr} {body : Exec Done} {p : Long} (h : body s = .ok (.jump p) t)
    (hp : p.getLsbD 0 = true) : complete i body s = takeAddressError t s.pc p := by
  rw [complete_ok h, finish_odd hp]

/-- A body that wrote SR, not traced. -/
theorem complete_sr {i : Instr} {body : Exec Done} (h : body s = .ok .sr t) (ht : s.traceFlow = false) :
    complete i body s = .next (jumped (nextPc i s) t) := by
  rw [complete_ok h, finish_sr ht]
  rfl

/-- The bytes of a part of a range are in the range. -/
theorem addrsOf_part {a b x : Long} {n k : Nat} (j : Nat) (hb : b = a + BitVec.ofNat 32 j) (hk : j + k ≤ n)
    (hx : x ∈ addrsOf b k) : x ∈ addrsOf a n := by
  subst hb
  simp only [addrsOf, List.mem_map, List.mem_range] at hx ⊢
  obtain ⟨i, hi, rfl⟩ := hx
  exact ⟨j + i, by omega, by rw [BitVec.ofNat_add, BitVec.add_assoc]⟩

/-- A part of a readable range is readable. -/
theorem Readable.part {fc : BitVec 3} {a b : Long} {n k : Nat} (h : Readable s fc a n) (j : Nat)
    (hb : b = a + BitVec.ofNat 32 j) (hk : j + k ≤ n) : Readable s fc b k := by
  unfold Readable readFaults staleAccess touches at h ⊢
  rw [List.any_eq_false, List.any_eq_false, List.any_eq_false] at h ⊢
  exact ⟨fun x hx => h.1 x (addrsOf_part j hb hk hx), fun x hx => h.2.1 x (addrsOf_part j hb hk hx),
    fun x hx => h.2.2 x (addrsOf_part j hb hk hx)⟩

/-- A part of a writable range is writable. -/
theorem Writable.part {fc : BitVec 3} {a b : Long} {n k : Nat} (h : Writable s fc a n) (j : Nat)
    (hb : b = a + BitVec.ofNat 32 j) (hk : j + k ≤ n) : Writable s fc b k := by
  unfold Writable writeFaults staleAccess touches at h ⊢
  rw [Bool.or_eq_false_iff, List.any_eq_false, List.any_eq_false, List.any_eq_false, List.any_eq_false] at h ⊢
  exact ⟨fun x hx => h.1 x (addrsOf_part j hb hk hx), fun x hx => h.2.1 x (addrsOf_part j hb hk hx),
    fun x hx => h.2.2.1 x (addrsOf_part j hb hk hx), fun x hx => h.2.2.2 x (addrsOf_part j hb hk hx)⟩

/-- A readable operand is read; the read changes the records of the caches only. -/
theorem readMem_ok {sz : Size} {a : Long} (h : Readable s s.dataFc a sz.bytes) :
    ∃ r, readMem sz a s = .ok (peek s s.dataFc sz a) (withRecords r s) :=
  ⟨_, readCycle_ok (c := normalCycle s.dataFc) h.1 h.2.1 h.2.2⟩

/-- A change of the flow keeps everything but the PC. -/
theorem Kept.jumped {r : List GReg} {k : List Nat} (p : Long) (h : Kept s t r k) : Kept s (jumped p t) r k :=
  (h.trans (Kept.own t p { t.records with stalePipe := [] } t.bus t.draws t.movemEa)).mono (by simp) (by simp)

/-- `Push32` (00_scope 5.3). -/
theorem pushLong_ok {v : Long} {d : Done} (h : Writable s s.dataFc (s.sp - 4) 4) :
    pushLong v d s = .ok d (pushed v s) := by
  have h' := (SameAccess.setSp s (s.sp - 4)).writable h
  unfold pushLong
  rw [Exec.look_bind, Exec.change_bind, writeMem_ok]
  · rw [State.dataFc_setSp]
    rfl
  · rw [State.dataFc_setSp]
    exact h'.1
  · rw [State.dataFc_setSp]
    exact h'.2.1
  · rw [State.dataFc_setSp]
    exact h'.2.2

theorem Kept.pushed (s : State) (v : Long) : Kept s (pushed v s) [15] (keysAt s s.dataFc (s.sp - 4) 4) := by
  refine ((Kept.setSp s (s.sp - 4)).trans (Kept.poke _ s.dataFc .long (s.sp - 4) v)).mono (by simp) ?_
  rw [keysAt_congr (s := s) (by simp)]
  simp

/-- `Pop32` (00_scope 5.3). -/
theorem popLong_ok (h : Readable s s.dataFc s.sp 4) :
    ∃ l, popLong s = .ok (peek s s.dataFc .long s.sp) ((withRecords l s).setSp (s.sp + 4)) := by
  obtain ⟨l, hl⟩ := readMem_ok (sz := .long) h
  refine ⟨l, ?_⟩
  unfold popLong
  rw [Exec.look_bind, Exec.bind_ok _ hl, Exec.change_bind, Exec.pure_run]

/-- `Pop16` (00_scope 5.3). -/
theorem popWord_ok (h : Readable s s.dataFc s.sp 2) :
    ∃ l, popWord s = .ok (peek s s.dataFc .word s.sp) ((withRecords l s).setSp (s.sp + 2)) := by
  obtain ⟨l, hl⟩ := readMem_ok (sz := .word) h
  refine ⟨l, ?_⟩
  unfold popWord
  rw [Exec.look_bind, Exec.bind_ok _ hl, Exec.change_bind, Exec.pure_run]

end Sys2Proof.Machine
end

