-- ==== Sys2Proof/Laws/Entry.lean ====
section
/-! SUPPORT. Taking an exception, said once: what an exception that can be entered leaves in the registers, on the stack and
in memory (60_exceptions R501 to R508). -/

namespace Sys2Proof.Machine

variable {s t : State}

/-! ## A new SR -/

theorem putSr_withSr (s : State) (v : Word) : s.putSr v = withSr v s := by
  rw [State.putSr_eq]
  cases h : s.pending <;> simp [withSr, h]

/-- All that a write of SR can do: it refuses T1 = T0 = 1, or SR is the value without its unassigned bits. -/
theorem loadSr_run (s : State) (v : Word) : loadSr v s =
    if srT1 v && srT0 v then .error (.refuse .reservedTraceMode) s else .ok () (withSr (v &&& srImplemented) s) := by
  rw [loadSr, putSr_withSr]

/-! ## Fields one after another -/

theorem foldl_bytes (fs : List Field) (k : Nat) :
    fs.foldl (fun n f => n + f.sz.bytes) k = k + fieldBytes fs := by
  unfold fieldBytes
  induction fs generalizing k with
  | nil => rfl
  | cons f rest ih =>
    simp only [List.foldl_cons]
    rw [ih (k + f.sz.bytes), ih (0 + f.sz.bytes)]
    omega

theorem fieldBytes_cons (f : Field) (fs : List Field) : fieldBytes (f :: fs) = f.sz.bytes + fieldBytes fs := by
  change (f :: fs).foldl _ 0 = _
  rw [List.foldl_cons, foldl_bytes]
  omega

theorem fieldBytes_append (fs gs : List Field) : fieldBytes (fs ++ gs) = fieldBytes fs + fieldBytes gs := by
  induction fs with
  | nil => rw [List.nil_append]; change _ = 0 + _; omega
  | cons f rest ih => rw [List.cons_append, fieldBytes_cons, fieldBytes_cons, ih]; omega

/-- A byte outside the fields is as before. -/
theorem byteAt_fields_other {fc : BitVec 3} {b : Long} (fs : List Field) (s : State) (a : Long)
    (h : memKey s fc b ∉ keysAt s 5 a (fieldBytes fs)) :
    byteAt ((fieldStores a fs).foldl Store.apply s) fc b = byteAt s fc b := by
  induction fs generalizing s a with
  | nil => rfl
  | cons f rest ih =>
    rw [fieldBytes_cons] at h
    have hp : (poke s 5 f.sz a (f.v.setWidth f.sz.bits)).platform = s.platform := (SameAccess.poke s 5 f.sz a _).platform
    change byteAt ((fieldStores (a + BitVec.ofNat 32 f.sz.bytes) rest).foldl Store.apply
      (poke s 5 f.sz a (f.v.setWidth f.sz.bits))) fc b = _
    rw [ih]
    · refine byteAt_poke_other s _ fun k hk e => h ?_
      rw [e]
      exact mem_keysAt (by omega)
    · rw [memKey_congr hp, keysAt_congr hp]
      intro hm
      refine h ?_
      obtain ⟨x, hx, hk⟩ := List.mem_map.mp hm
      exact List.mem_map.mpr ⟨x, addrsOf_part f.sz.bytes rfl (Nat.le_refl _) hx, hk⟩

/-- An operand outside the fields reads as before. -/
theorem peek_fields_other {sz : Size} {b : Long} (fs : List Field) (s : State) (a : Long)
    (h : ∀ j < sz.bytes, ∀ k < fieldBytes fs, b + BitVec.ofNat 32 j ≠ a + BitVec.ofNat 32 k) :
    peek ((fieldStores a fs).foldl Store.apply s) 5 sz b = peek s 5 sz b := by
  have key : ∀ j < sz.bytes, byteAt ((fieldStores a fs).foldl Store.apply s) 5 (b + BitVec.ofNat 32 j) =
      byteAt s 5 (b + BitVec.ofNat 32 j) := by
    intro j hj
    refine byteAt_fields_other fs s a fun hm => ?_
    obtain ⟨x, hx, hk⟩ := List.mem_map.mp hm
    obtain ⟨k, hk', rfl⟩ := List.mem_map.mp hx
    rw [memKey_inj] at hk
    exact h j hj k (List.mem_range.mp hk') hk.symm
  have h0 : b + BitVec.ofNat 32 0 = b := by simp
  cases sz with
  | byte => exact h0 ▸ key 0 (by decide)
  | word =>
    have k0 := key 0 (by decide)
    rw [h0] at k0
    simp only [peek]
    rw [k0, show b + 1 = b + BitVec.ofNat 32 1 from rfl, key 1 (by decide)]
  | long =>
    have k0 := key 0 (by decide)
    rw [h0] at k0
    simp only [peek]
    rw [k0, show b + 1 = b + BitVec.ofNat 32 1 from rfl, key 1 (by decide), show b + 2 = b + BitVec.ofNat 32 2 from rfl,
      key 2 (by decide), show b + 3 = b + BitVec.ofNat 32 3 from rfl, key 3 (by decide)]

/-- Fields stored are read back. -/
theorem fieldsAt_stores (fs : List Field) (s : State) (a : Long) (h : fieldBytes fs ≤ 2 ^ 32) :
    FieldsAt ((fieldStores a fs).foldl Store.apply s) a fs := by
  induction fs generalizing s a with
  | nil => trivial
  | cons f rest ih =>
    rw [fieldBytes_cons] at h
    refine ⟨?_, ih _ _ (by omega)⟩
    change peek ((fieldStores (a + BitVec.ofNat 32 f.sz.bytes) rest).foldl Store.apply
      (poke s 5 f.sz a (f.v.setWidth f.sz.bits))) 5 f.sz a = _
    rw [peek_fields_other, peek_poke_same]
    intro j hj k hk e
    have hb : f.sz.bytes ≤ 4 := by cases f.sz <;> decide
    rw [BitVec.add_assoc, BitVec.add_right_inj, ← BitVec.ofNat_add] at e
    have := congrArg BitVec.toNat e
    simp only [BitVec.toNat_ofNat] at this
    omega

theorem FieldsAt.congr (h : ∀ sz a, peek t 5 sz a = peek s 5 sz a) {a : Long} {fs : List Field} (hf : FieldsAt s a fs) :
    FieldsAt t a fs := by
  induction fs generalizing a with
  | nil => trivial
  | cons f rest ih => exact ⟨(h _ _).trans hf.1, ih hf.2⟩

/-- None of the stores of a writable range fails or is stale. -/
theorem fieldStores_fine (fs : List Field) (a : Long) (n : Nat) (b : Long) (j : Nat) (hw : Writable s 5 a n)
    (hb : b = a + BitVec.ofNat 32 j) (hn : j + fieldBytes fs ≤ n) :
    ∀ w ∈ fieldStores b fs, w.plain s := by
  induction fs generalizing b j with
  | nil => intro w hw; cases hw
  | cons f rest ih =>
    rw [fieldBytes_cons] at hn
    intro w hm
    rcases List.mem_cons.mp hm with rfl | hm
    · exact hw.part (k := f.sz.bytes) j hb (by omega)
    · exact ih _ (j + f.sz.bytes) (by rw [hb, BitVec.add_assoc, ← BitVec.ofNat_add]) (by omega) w hm

/-! ## The frame and the vector -/

/-- A frame that can be written is written (60_exceptions R504). -/
theorem stackFrame_ok {fs : List Field} (hw : Writable s 5 (s.sp - BitVec.ofNat 32 (fieldBytes fs)) (fieldBytes fs)) :
    stackFrame s fs = .ok ((fieldStores (s.sp - BitVec.ofNat 32 (fieldBytes fs)) fs).foldl Store.apply
      (s.setSp (s.sp - BitVec.ofNat 32 (fieldBytes fs)))) := by
  have hf := fieldStores_fine fs _ _ (s.sp - BitVec.ofNat 32 (fieldBytes fs)) 0 hw (by simp) (by omega)
  have h1 : (fieldStores (s.sp - BitVec.ofNat 32 (fieldBytes fs)) fs).find? (Store.fails s) = none := by
    rw [List.find?_eq_none]
    intro w hm
    simp [(hf w hm).1]
  have h2 : (fieldStores (s.sp - BitVec.ofNat 32 (fieldBytes fs)) fs).any (Store.stale s) = false := by
    rw [List.any_eq_false]
    intro w hm
    simp [(hf w hm).2.1]
  have h3 := runStores_ok (s := s.setSp (s.sp - BitVec.ofNat 32 (fieldBytes fs)))
    (fun w hm => (SameAccess.setSp s _).plain (hf w hm))
  simp only [stackFrame, h1, h2, h3]
  rfl

/-- A vector that can be read and holds an even address is taken (60_exceptions R505). -/
theorem jumpVector_ok {vec : BitVec 8} (hr : Readable s 5 (vectorAddress s vec) 4)
    (he : (peek s 5 .long (vectorAddress s vec)).getLsbD 0 = false) :
    ∃ l : CacheRecords, l.staleData ⊆ s.staleData
      ∧ jumpVector s vec = .ok (jumped (peek s 5 .long (vectorAddress s vec)) (withRecords l s)) := by
  refine ⟨(afterRead s 5 (vectorAddress s vec) 4).records, afterRead_staleData s _ _ _, ?_⟩
  simp only [jumpVector, hr.1, hr.2.1, readBus_mem (sz := .long) hr.2.2, he]
  rfl

theorem srException_srS (v : Word) : srS (srException v) = true := by
  simp [srS, srException]

theorem srException_srM (v : Word) : srM (srException v) = srM v := by
  simp [srM, srException]

theorem entryState_super (s : State) : (entryState s).super = true := srException_srS s.sr

theorem entryState_srM (s : State) : srM (entryState s).sr = srM s.sr := srException_srM s.sr

theorem SameAccess.entryState (s : State) : SameAccess s (entryState s) :=
  ⟨rfl, rfl, rfl, rfl, rfl, rfl, fun _ _ h => h⟩

theorem KeptControl.own (s : State) (v : Word) (p : Long) (r : CacheRecords) (m : Option Long) :
    KeptControl s { withRecords r s with sr := v, pc := p, movemEa := m } := by
  constructor <;> rfl

/-- What stores of fields keep of the state. -/
theorem stores_kept (ws : List Store) (s : State) : KeptControl s (ws.foldl Store.apply s) := by
  induction ws generalizing s with
  | nil => exact KeptControl.refl s
  | cons w rest ih => exact (Kept.poke s w.c.fc w.sz w.a _).control.trans (ih _)

/-- What stacking fields at `b` leaves of a supervisor state: the fields below the active stack pointer, and all else as
before. -/
structure Stacked (s t : State) (b : Long) (fs : List Field) : Prop where
  d : t.d = s.d
  a : t.a = s.a
  usp : t.usp = s.usp
  isp : srM s.sr = true → t.isp = s.isp
  msp : srM s.sr = false → t.msp = s.msp
  sr : t.sr = s.sr
  pc : t.pc = s.pc
  sp : t.sp = b
  run : t.run = s.run
  outputs : t.outputs = s.outputs
  draws : t.draws = s.draws
  movemEa : t.movemEa = s.movemEa
  control : KeptControl s t
  access : SameAccess s t
  fields : FieldsAt t b fs
  memory : ∀ fc x, memKey s fc x ∉ keysAt s 5 b (fieldBytes fs) → byteAt t fc x = byteAt s fc x
  other : ∀ x, (∀ j < 4, ∀ k < fieldBytes fs, x + BitVec.ofNat 32 j ≠ b + BitVec.ofNat 32 k) →
    peek t 5 .long x = peek s 5 .long x

/-- The fields of the state that stores leave alone. -/
theorem stores_registers (ws : List Store) (s : State) :
    (ws.foldl Store.apply s).d = s.d ∧ (ws.foldl Store.apply s).a = s.a ∧ (ws.foldl Store.apply s).usp = s.usp
      ∧ (ws.foldl Store.apply s).isp = s.isp ∧ (ws.foldl Store.apply s).msp = s.msp
      ∧ (ws.foldl Store.apply s).sr = s.sr ∧ (ws.foldl Store.apply s).pc = s.pc ∧ (ws.foldl Store.apply s).run = s.run
      ∧ (ws.foldl Store.apply s).outputs = s.outputs ∧ (ws.foldl Store.apply s).draws = s.draws
      ∧ (ws.foldl Store.apply s).movemEa = s.movemEa := by
  induction ws generalizing s with
  | nil => exact ⟨rfl, rfl, rfl, rfl, rfl, rfl, rfl, rfl, rfl, rfl, rfl⟩
  | cons w rest ih =>
    have h := ih (w.apply s)
    rw [List.foldl_cons]
    simpa only [Store.apply, poke_d, poke_a, poke_usp, poke_isp, poke_msp, poke_sr, poke_pc, poke_run, poke_outputs,
      poke_draws, poke_movemEa] using h

/-- A frame that can be written is written (60_exceptions R504). -/
theorem stackFrame_stacked {fs : List Field} {a : Long} (hs : s.super = true)
    (ha : s.sp - BitVec.ofNat 32 (fieldBytes fs) = a) (hw : Writable s 5 a (fieldBytes fs)) (h32 : fieldBytes fs ≤ 2 ^ 32) :
    ∃ t, stackFrame s fs = .ok t ∧ Stacked s t a fs := by
  refine ⟨(fieldStores a fs).foldl Store.apply (s.setSp a), ?_, ?_⟩
  · rw [stackFrame_ok (by rw [ha]; exact hw), ha]
  have hp : (s.setSp a).platform = s.platform := State.setSp_platform s a
  obtain ⟨h1, h2, h3, h4, h5, h6, h7, h8, h9, h10, h11⟩ := stores_registers (fieldStores a fs) (s.setSp a)
  constructor
  case d => rw [h1, State.setSp_d]
  case a => rw [h2, State.setSp_a]
  case usp => rw [h3]; simp [State.setSp, hs]; split <;> rfl
  case isp => intro hm; rw [h4]; simp [State.setSp, hs, hm]
  case msp => intro hm; rw [h5]; simp [State.setSp, hs, hm]
  case sr => rw [h6, State.setSp_sr]
  case pc => rw [h7, State.setSp_pc]
  case sp =>
    have key : ∀ t : State, t.usp = (s.setSp a).usp → t.isp = (s.setSp a).isp → t.msp = (s.setSp a).msp →
        t.sr = (s.setSp a).sr → t.sp = (s.setSp a).sp := by
      intro t k1 k2 k3 k4
      unfold State.sp State.super
      rw [k1, k2, k3, k4]
    rw [key _ h3 h4 h5 h6, State.sp_setSp]
  case run => rw [h8, State.setSp_run]
  case outputs => rw [h9, State.setSp_outputs]
  case draws => rw [h10, State.setSp_draws]
  case movemEa => rw [h11, State.setSp_movemEa]
  case control => exact (Kept.setSp s a).control.trans (stores_kept _ _)
  case access => exact (SameAccess.setSp s a).trans (SameAccess.stores _ _)
  case fields => exact fieldsAt_stores fs _ _ h32
  case memory =>
    intro fc b hb
    rw [byteAt_fields_other]
    · exact byteAt_congr (State.setSp_mem s a) hp fc b
    · rw [memKey_congr hp, keysAt_congr hp]
      exact hb
  case other =>
    intro b hb
    rw [peek_fields_other (sz := .long) fs _ _ hb]
    exact peek_congr (State.setSp_mem s a) hp 5 .long b

/-- An exception that can be entered is entered (60_exceptions R501). -/
theorem enter_ok {vec : BitVec 8} {fmt : BitVec 4} {p : Long} {extra : List Field} {n : Nat}
    (hn : 8 + fieldBytes extra = n) (h32 : n ≤ 2 ^ 32) (h : CanEnter s vec n) :
    ∃ t, enter s vec fmt p extra = .ok t ∧ EnteredFrom s t vec fmt p n
      ∧ FieldsAt t (t.sp + 8) extra ∧ t.outputs = s.outputs ∧ t.draws = s.draws ∧ t.movemEa = none ∧ SameAccess s t
      ∧ ∀ x, (∀ j < 4, ∀ k < n, x + BitVec.ofNat 32 j ≠ frameAt s n + BitVec.ofNat 32 k) →
        peek t 5 .long x = peek s 5 .long x := by
  obtain ⟨hw, hr, hd, he⟩ := h
  have hb : fieldBytes (commonFields s.sr p fmt vec ++ extra) = n := by
    rw [fieldBytes_append]
    exact hn
  have ha : SameAccess s (entryState s) := SameAccess.entryState s
  obtain ⟨u, hs, hu⟩ := stackFrame_stacked (s := entryState s) (a := frameAt s n) (entryState_super s)
    (by rw [hb]; rfl) (by rw [hb]; exact ha.writable hw) (by rw [hb]; exact h32)
  have hv : vectorAddress u vec = vectorAddress s vec := by
    unfold vectorAddress
    rw [hu.control.vbr]
    rfl
  have hpk : peek u 5 .long (vectorAddress s vec) = peek s 5 .long (vectorAddress s vec) := by
    rw [hu.other _ (by rw [hb]; exact hd)]
    exact peek_congr rfl rfl 5 .long _
  obtain ⟨l, hl, hj⟩ := jumpVector_ok (s := u) (vec := vec) (by rw [hv]; exact (ha.trans hu.access).readable hr)
    (by rw [hv, hpk]; exact he)
  rw [hv, hpk] at hj
  have hf := hu.fields
  refine ⟨jumped (peek s 5 .long (vectorAddress s vec)) (withRecords l u), ?_, ?_, ?_, hu.outputs, hu.draws, hu.movemEa,
    (ha.trans hu.access).trans ⟨rfl, rfl, rfl, rfl, rfl, rfl, fun _ => hl⟩,
    fun x hx => (peek_congr rfl rfl 5 .long x).trans ((hu.other x (by rw [hb]; exact hx)).trans (peek_congr rfl rfl 5 .long x))⟩
  · unfold enter
    change (stackFrame (entryState s) _).andThen _ = _
    rw [hs]
    exact hj
  · constructor
    case sr => exact hu.sr
    case sp => exact hu.sp
    case pc => rfl
    case srCopy =>
      change peek _ 5 .word u.sp = _
      rw [hu.sp]
      refine Eq.trans (peek_congr rfl rfl 5 .word _) (hf.1.trans ?_)
      simp [wordField]
    case pcCopy =>
      change peek _ 5 .long (u.sp + 2) = _
      rw [hu.sp]
      refine Eq.trans (peek_congr rfl rfl 5 .long _) (hf.2.1.trans ?_)
      simp [longField]
    case format =>
      change peek _ 5 .word (u.sp + 6) = _
      rw [hu.sp]
      have h6 : frameAt s n + 6 = frameAt s n + BitVec.ofNat 32 2 + BitVec.ofNat 32 4 := by rw [BitVec.add_assoc]; rfl
      rw [h6]
      refine Eq.trans (peek_congr rfl rfl 5 .word _) (hf.2.2.1.trans ?_)
      simp [wordField]
    case d => exact hu.d
    case a => exact hu.a
    case usp => exact hu.usp
    case isp => exact fun hm => hu.isp (by rw [entryState_srM]; exact hm)
    case msp => exact fun hm => hu.msp (by rw [entryState_srM]; exact hm)
    case control =>
      exact ((KeptControl.own s (srException s.sr) s.pc s.records none).trans hu.control).trans
        (KeptControl.own u u.sr _ { l with stalePipe := [] } u.movemEa)
    case memory =>
      intro fc a hk
      refine Eq.trans (byteAt_congr rfl rfl fc a) ((hu.memory fc a ?_).trans (byteAt_congr rfl rfl fc a))
      rw [memKey_congr ha.platform, keysAt_congr ha.platform, hb]
      exact hk
    case run => exact hu.run
  · change FieldsAt _ (u.sp + 8) extra
    rw [hu.sp]
    have h8 : frameAt s n + 8 = frameAt s n + BitVec.ofNat 32 2 + BitVec.ofNat 32 4 + BitVec.ofNat 32 2 := by
      rw [BitVec.add_assoc, BitVec.add_assoc]
      rfl
    rw [h8]
    exact FieldsAt.congr (s := u) (t := jumped (peek s 5 .long (vectorAddress s vec)) (withRecords l u))
      (fun sz a => peek_congr rfl rfl 5 sz a) hf.2.2.2

end Sys2Proof.Machine
end

