-- ==== Sys2Proof/Laws/Shapes.lean ====
section
/-! SUPPORT. What the shapes of Machine/Shared.lean do once their operands are found: one law per shape. -/

namespace Sys2Proof.Machine

variable {s s1 s2 : State} {sz : Size} {l : Loc}

/-- `<ea>,Dn` with a readable source. -/
theorem eaToD_ok {n : Reg} {e : Ea} {f : BitVec sz.bits → BitVec sz.bits → BitVec sz.bits}
    {fl : BitVec sz.bits → BitVec sz.bits → BitVec sz.bits → Ccr → Ccr} {v : BitVec sz.bits}
    (h : readEa sz 0 e s = .ok v s1) :
    eaToD sz n e f fl s = .ok .seq ((s1.setCcr (fl v (lowPart sz (s.dreg n)) (f v (lowPart sz (s.dreg n))) s.ccr)).setDreg n
      (withLow (s.dreg n) sz (f v (lowPart sz (s.dreg n))))) := by
  have he := readEa_inv h
  unfold eaToD
  rw [Exec.bind_ok _ h]
  simp only [Exec.getD_bind, Exec.setFlags_bind, Exec.putD_bind, Exec.pure_run, he.dreg, he.ccr, State.dreg_setCcr]

/-- `Dn,<ea>` with a destination that is found, read and writable. -/
theorem dToEa_ok {n : Reg} {e : Ea} {f : BitVec sz.bits → BitVec sz.bits → BitVec sz.bits}
    {fl : BitVec sz.bits → BitVec sz.bits → BitVec sz.bits → Ccr → Ccr} {d : BitVec sz.bits}
    (h1 : operand sz 0 e s = .ok l s1) (h2 : readLoc sz l s1 = .ok d s2) (h3 : CanStore sz l s2) :
    dToEa sz n e f fl s = .ok .seq (stored sz l (f (lowPart sz (s.dreg n)) d)
      (s2.setCcr (fl (lowPart sz (s.dreg n)) d (f (lowPart sz (s.dreg n)) d) s.ccr))) := by
  have he := (operand_inv h1).read (readLoc_inv h2)
  refine rmwEa_ok h1 h2 ?_ (h3.congr (SameAccess.setCcr _ _) (by simp))
  simp only [Exec.getD_bind, Exec.setFlags_bind, Exec.pure_run, he.dreg, he.ccr]

/-- `#imm,<ea>` with a destination that is found, read and writable. -/
theorem immToEa_ok {imm : Long} {e : Ea} {f : BitVec sz.bits → BitVec sz.bits → BitVec sz.bits}
    {fl : BitVec sz.bits → BitVec sz.bits → BitVec sz.bits → Ccr → Ccr} {d : BitVec sz.bits}
    (h1 : operand sz (immCount sz) e s = .ok l s1) (h2 : readLoc sz l s1 = .ok d s2) (h3 : CanStore sz l s2) :
    immToEa sz imm e f fl s = .ok .seq (stored sz l (f (lowPart sz imm) d)
      (s2.setCcr (fl (lowPart sz imm) d (f (lowPart sz imm) d) s.ccr))) := by
  have he := (operand_inv h1).read (readLoc_inv h2)
  refine rmwEa_ok h1 h2 ?_ (h3.congr (SameAccess.setCcr _ _) (by simp))
  simp only [Exec.setFlags_bind, Exec.pure_run, he.ccr]

/-- One operand that is found, read and writable. -/
theorem onEa_ok {e : Ea} {f : Ccr → BitVec sz.bits → BitVec sz.bits} {fl : BitVec sz.bits → BitVec sz.bits → Ccr → Ccr}
    {d : BitVec sz.bits} (h1 : operand sz 0 e s = .ok l s1) (h2 : readLoc sz l s1 = .ok d s2) (h3 : CanStore sz l s2) :
    onEa sz e f fl s = .ok .seq (stored sz l (f s.ccr d) (s2.setCcr (fl d (f s.ccr d) s.ccr))) := by
  have he := (operand_inv h1).read (readLoc_inv h2)
  refine rmwEa_ok h1 h2 ?_ (h3.congr (SameAccess.setCcr _ _) (by simp))
  simp only [Exec.getFlags_bind, Exec.setFlags_bind, Exec.pure_run, he.ccr]

end Sys2Proof.Machine
end

