-- ==== Sys2Proof/Tests/Slice0.lean ====
section
/-! SUPPORT. Tests: well-formedness refusals, words written out from the encodings of spec/, single steps with the results
of spec/95_test_vectors or of a hand calculation, and for every statement states that meet its hypotheses. -/

namespace Sys2Proof.Tests

open Sys2Proof Sys2Proof.Machine Sys2Proof.Claim

/-! ## Well-formedness: each check refuses a term (30_encoding R143, R146, R148, R171, 47 R351) -/

theorem test_wf_immediate_too_wide : (Instr.addi .byte 0x100 (.dn 0)).wf = false := by decide
theorem test_wf_data_alterable : (Instr.ori .word 1 (.an 0)).wf = false := by decide
theorem test_wf_no_immediate : (Instr.cmpi .word 1 (.imm 0)).wf = false := by decide
theorem test_wf_data : (Instr.muluW 0 (.an 0)).wf = false := by decide
theorem test_wf_address_register_byte : (Instr.cmpB 0 (.an 0)).wf = false := by decide
theorem test_wf_memory_alterable : (Instr.addDnEaW 0 (.dn 0)).wf = false := by decide
theorem test_wf_alterable : (Instr.addq .word 1 (.pcDisp 0)).wf = false := by decide
theorem test_wf_control : (Instr.lea 0 (.postInc 0)).wf = false := by decide
theorem test_wf_control_predecrement : (Instr.movemToMem .w 1 (.postInc 0)).wf = false := by decide
theorem test_wf_control_postincrement : (Instr.movemToReg .w 1 (.preDec 0)).wf = false := by decide
theorem test_wf_field_source : (Instr.bftst ⟨.imm 0, .imm 0⟩ (.postInc 0)).wf = false := by decide
theorem test_wf_field_destination : (Instr.bfset ⟨.imm 0, .imm 0⟩ (.pcDisp 0)).wf = false := by decide
theorem test_wf_postindexed_without_index :
    (Instr.tst .word (.idx 0 (.full ⟨0, false, 0⟩ false true .null (.post .null)))).wf = false := by decide
theorem test_wf_branch_byte_zero : (Instr.bra (.byte 0)).wf = false := by decide
theorem test_wf_branch_byte_ones : (Instr.bcc .ne (.byte 0xFF)).wf = false := by decide
theorem test_wf_branch_condition : (Instr.bcc .f (.word 2)).wf = false := by decide
theorem test_wf_owned_fline : (Instr.fline 0x600).wf = false ∧ (Instr.fline 0x400).wf = true := by decide

/-! ## Decoding: words written out from the encodings of 30_encoding and 40 to 49 -/

theorem test_decode_immediate :
    decode [0x0600, 0x0012] = .ok (.addi .byte 0x12 (.dn 0)) ∧ decode [0x0450, 0x1234] = .ok (.subi .word 0x1234 (.ind 0))
    ∧ decode [0x0298, 0x1234, 0x5678] = .ok (.andi .long 0x12345678 (.postInc 0))
    ∧ decode [0x0021, 0xFF80] = .ok (.ori .byte 0x80 (.preDec 1))
    ∧ decode [0x0A6A, 0x0001, 0xFFFE] = .ok (.eori .word 1 (.disp 2 0xFFFE))
    ∧ decode [0x0CBA, 0, 1, 0x0010] = .ok (.cmpi .long 1 (.pcDisp 0x10)) := by decide
theorem test_decode_to_status :
    decode [0x003C, 0x0010] = .ok (.oriCcr 0x10) ∧ decode [0x007C, 0x0700] = .ok (.oriSr 0x700)
    ∧ decode [0x023C, 0x00EF] = .ok (.andiCcr 0xEF) ∧ decode [0x027C, 0xF8FF] = .ok (.andiSr 0xF8FF)
    ∧ decode [0x0A3C, 0x0001] = .ok (.eoriCcr 1) ∧ decode [0x0A7C, 0x2000] = .ok (.eoriSr 0x2000) := by decide
theorem test_decode_bits :
    decode [0x0801, 0x0007] = .ok (.btstImm 7 (.dn 1)) ∧ decode [0x0850, 0x0003] = .ok (.bchgImm 3 (.ind 0))
    ∧ decode [0x0890, 0x0003] = .ok (.bclrImm 3 (.ind 0)) ∧ decode [0x08D0, 0x0003] = .ok (.bsetImm 3 (.ind 0))
    ∧ decode [0x0501] = .ok (.btstReg 2 (.dn 1)) ∧ decode [0x0541] = .ok (.bchgReg 2 (.dn 1))
    ∧ decode [0x0581] = .ok (.bclrReg 2 (.dn 1)) ∧ decode [0x05C1] = .ok (.bsetReg 2 (.dn 1)) := by decide
theorem test_decode_line0_others :
    decode [0x0308, 0x0010] = .ok (.movep .wordToReg 1 0 0x10) ∧ decode [0x03C8, 0x0010] = .ok (.movep .longToMem 1 0 0x10)
    ∧ decode [0x02D0, 0x3000] = .ok (.cmp2 .word 3 (.ind 0)) ∧ decode [0x04D0, 0x9800] = .ok (.chk2 .long 9 (.ind 0))
    ∧ decode [0x0CD0, 0x0081] = .ok (.cas .word 1 2 (.ind 0))
    ∧ decode [0x0EFC, 0x8081, 0x90C3] = .ok (.cas2 .l ⟨8, 2, 1⟩ ⟨9, 3, 3⟩)
    ∧ decode [0x0E50, 0x1800] = .ok (.moves .word true 1 (.ind 0)) ∧ decode [0x06C0] = .illegal := by decide
theorem test_decode_move :
    decode [0x1401] = .ok (.move .byte (.dn 1) (.dn 2)) ∧ decode [0x3218] = .ok (.move .word (.postInc 0) (.dn 1))
    ∧ decode [0x23C0, 0x0001, 0x0000] = .ok (.move .long (.dn 0) (.absL 0x10000))
    ∧ decode [0x3241] = .ok (.movea .w 1 (.dn 1)) ∧ decode [0x227C, 0, 4] = .ok (.movea .l 1 (.imm 4))
    ∧ decode [0x1240] = .illegal := by decide
theorem test_decode_index_words :
    decode [0x2030, 0x1802] = .ok (.move .long (.idx 0 (.brief ⟨1, true, 0⟩ 2)) (.dn 0))
    ∧ decode [0x2030, 0x9D26, 0x1234, 0x5678] = .ok (.move .long (.idx 0 (.full ⟨9, true, 2⟩ false false
        (.word 0x1234) (.post (.word 0x5678)))) (.dn 0))
    ∧ decode [0x203B, 0x01F1, 2, 3] = .ok (.move .long (.pcIdx (.full ⟨0, false, 0⟩ true true (.long 0x00020003)
        (.pre .null))) (.dn 0)) ∧ decode [0x2030, 0x0100] = .reserved ∧ decode [0x2030] = .truncated := by decide
theorem test_decode_one_operand :
    decode [0x4001] = .ok (.negx .byte (.dn 1)) ∧ decode [0x4250] = .ok (.clr .word (.ind 0))
    ∧ decode [0x4481] = .ok (.neg .long (.dn 1)) ∧ decode [0x4618] = .ok (.not .byte (.postInc 0))
    ∧ decode [0x40C1] = .ok (.moveFromSr (.dn 1)) ∧ decode [0x42C1] = .ok (.moveFromCcr (.dn 1))
    ∧ decode [0x44FC, 0x001F] = .ok (.moveToCcr (.imm 0x1F)) ∧ decode [0x46C1] = .ok (.moveToSr (.dn 1))
    ∧ decode [0x4801] = .ok (.nbcd (.dn 1)) ∧ decode [0x4A7C, 0x0001] = .ok (.tst .word (.imm 1))
    ∧ decode [0x4AD0] = .ok (.tas (.ind 0)) ∧ decode [0x4841] = .ok (.swap 1) ∧ decode [0x484B] = .ok (.bkpt 3)
    ∧ decode [0x4850] = .ok (.pea (.ind 0)) ∧ decode [0x4881] = .ok (.extW 1) ∧ decode [0x48C1] = .ok (.extL 1)
    ∧ decode [0x49C1] = .ok (.extbL 1) ∧ decode [0x4AFC] = .ok .illegal := by decide
theorem test_decode_line4_long :
    decode [0x4C01, 0x2003] = .ok (.muluL 2 3 false (.dn 1)) ∧ decode [0x4C01, 0x2C03] = .ok (.mulsL 2 3 true (.dn 1))
    ∧ decode [0x4C41, 0x2003] = .ok (.divuL 2 3 false (.dn 1)) ∧ decode [0x4C41, 0x2C03] = .ok (.divsL 2 3 true (.dn 1))
    ∧ decode [0x4C01, 0x8000] = .reserved
    ∧ decode [0x48A0, 0x0101] = .ok (.movemToMem .w 0x101 (.preDec 0))
    ∧ decode [0x4CDF, 0x0103] = .ok (.movemToReg .l 0x103 (.postInc 7)) := by decide
theorem test_decode_system :
    decode [0x4E45] = .ok (.trap 5) ∧ decode [0x4E56, 0xFFF8] = .ok (.linkW 6 0xFFF8)
    ∧ decode [0x480E, 0xFFFF, 0xFFF8] = .ok (.linkL 6 0xFFFFFFF8) ∧ decode [0x4E5E] = .ok (.unlk 6)
    ∧ decode [0x4E62] = .ok (.moveToUsp 2) ∧ decode [0x4E6A] = .ok (.moveFromUsp 2) ∧ decode [0x4E70] = .ok .reset
    ∧ decode [0x4E71] = .ok .nop ∧ decode [0x4E72, 0x2000] = .ok (.stop 0x2000) ∧ decode [0x4E73] = .ok .rte
    ∧ decode [0x4E74, 0x0008] = .ok (.rtd 8) ∧ decode [0x4E75] = .ok .rts ∧ decode [0x4E76] = .ok .trapv
    ∧ decode [0x4E77] = .ok .rtr ∧ decode [0x4E7A, 0x0801] = .ok (.movecFrom 0 0x801)
    ∧ decode [0x4E7B, 0x9002] = .ok (.movecTo 9 2) ∧ decode [0x4E91] = .ok (.jsr (.ind 1))
    ∧ decode [0x4EF9, 0, 0x2000] = .ok (.jmp (.absL 0x2000)) := by decide
theorem test_decode_checks_and_lea :
    decode [0x4391] = .ok (.chkW 1 (.ind 1)) ∧ decode [0x4311] = .ok (.chkL 1 (.ind 1))
    ∧ decode [0x43FA, 0x0004] = .ok (.lea 1 (.pcDisp 4)) ∧ decode [0x4E7F] = .illegal := by decide
theorem test_decode_line5 :
    decode [0x5001] = .ok (.addq .byte 0 (.dn 1)) ∧ decode [0x5F89] = .ok (.subq .long 7 (.an 1))
    ∧ decode [0x57C1] = .ok (.scc .eq (.dn 1)) ∧ decode [0x51C9, 0xFFFE] = .ok (.dbcc .f 1 0xFFFE)
    ∧ decode [0x56FC] = .ok (.trapcc .ne .none) ∧ decode [0x50FA, 0x1234] = .ok (.trapcc .t (.word 0x1234))
    ∧ decode [0x5FFB, 0x1234, 0x5678] = .ok (.trapcc .le (.long 0x12345678)) := by decide
theorem test_decode_branches :
    decode [0x6006] = .ok (.bra (.byte 6)) ∧ decode [0x6100, 0x1000] = .ok (.bsr (.word 0x1000))
    ∧ decode [0x62FF, 0x0001, 0x0000] = .ok (.bcc .hi (.long 0x10000)) ∧ decode [0x76FF] = .ok (.moveq 3 0xFF)
    ∧ decode [0x7100] = .illegal := by decide
theorem test_decode_line8 :
    decode [0x8210] = .ok (.orEaDnB 1 (.ind 0)) ∧ decode [0x8250] = .ok (.orEaDnW 1 (.ind 0))
    ∧ decode [0x8290] = .ok (.orEaDnL 1 (.ind 0)) ∧ decode [0x8310] = .ok (.orDnEaB 1 (.ind 0))
    ∧ decode [0x8350] = .ok (.orDnEaW 1 (.ind 0)) ∧ decode [0x8390] = .ok (.orDnEaL 1 (.ind 0))
    ∧ decode [0x82C0] = .ok (.divuW 1 (.dn 0)) ∧ decode [0x83C0] = .ok (.divsW 1 (.dn 0))
    ∧ decode [0x8308] = .ok (.sbcd true 1 0) ∧ decode [0x8340, 0x0102] = .ok (.pack false 1 0 0x102)
    ∧ decode [0x8388, 0x3030] = .ok (.unpk true 1 0 0x3030) := by decide
theorem test_decode_line9 :
    decode [0x9210] = .ok (.subEaDnB 1 (.ind 0)) ∧ decode [0x9248] = .ok (.subEaDnW 1 (.an 0))
    ∧ decode [0x9290] = .ok (.subEaDnL 1 (.ind 0)) ∧ decode [0x9310] = .ok (.subDnEaB 1 (.ind 0))
    ∧ decode [0x9350] = .ok (.subDnEaW 1 (.ind 0)) ∧ decode [0x9390] = .ok (.subDnEaL 1 (.ind 0))
    ∧ decode [0x92C0] = .ok (.suba .w 1 (.dn 0)) ∧ decode [0x93C0] = .ok (.suba .l 1 (.dn 0))
    ∧ decode [0x9348] = .ok (.subx .word true 1 0) ∧ decode [0xA123] = .ok (.aline 0x123) := by decide
theorem test_decode_lineB :
    decode [0xB210] = .ok (.cmpB 1 (.ind 0)) ∧ decode [0xB250] = .ok (.cmpW 1 (.ind 0))
    ∧ decode [0xB290] = .ok (.cmpL 1 (.ind 0)) ∧ decode [0xB2C0] = .ok (.cmpa .w 1 (.dn 0))
    ∧ decode [0xB3C0] = .ok (.cmpa .l 1 (.dn 0)) ∧ decode [0xB300] = .ok (.eorB 1 (.dn 0))
    ∧ decode [0xB340] = .ok (.eorW 1 (.dn 0)) ∧ decode [0xB380] = .ok (.eorL 1 (.dn 0))
    ∧ decode [0xB388] = .ok (.cmpm .long 1 0) := by decide
theorem test_decode_lineC :
    decode [0xC210] = .ok (.andEaDnB 1 (.ind 0)) ∧ decode [0xC250] = .ok (.andEaDnW 1 (.ind 0))
    ∧ decode [0xC290] = .ok (.andEaDnL 1 (.ind 0)) ∧ decode [0xC310] = .ok (.andDnEaB 1 (.ind 0))
    ∧ decode [0xC350] = .ok (.andDnEaW 1 (.ind 0)) ∧ decode [0xC390] = .ok (.andDnEaL 1 (.ind 0))
    ∧ decode [0xC2C0] = .ok (.muluW 1 (.dn 0)) ∧ decode [0xC3C0] = .ok (.mulsW 1 (.dn 0))
    ∧ decode [0xC300] = .ok (.abcd false 1 0) ∧ decode [0xC342] = .ok (.exgDD 1 2)
    ∧ decode [0xC34A] = .ok (.exgAA 1 2) ∧ decode [0xC38A] = .ok (.exgDA 1 2) := by decide
theorem test_decode_lineD :
    decode [0xD210] = .ok (.addEaDnB 1 (.ind 0)) ∧ decode [0xD250] = .ok (.addEaDnW 1 (.ind 0))
    ∧ decode [0xD290] = .ok (.addEaDnL 1 (.ind 0)) ∧ decode [0xD310] = .ok (.addDnEaB 1 (.ind 0))
    ∧ decode [0xD350] = .ok (.addDnEaW 1 (.ind 0)) ∧ decode [0xD390] = .ok (.addDnEaL 1 (.ind 0))
    ∧ decode [0xD2C0] = .ok (.adda .w 1 (.dn 0)) ∧ decode [0xD3C0] = .ok (.adda .l 1 (.dn 0))
    ∧ decode [0xD380] = .ok (.addx .long false 1 0) := by decide
theorem test_decode_shifts :
    decode [0xE342] = .ok (.aslReg .word (.imm 1) 2) ∧ decode [0xE022] = .ok (.asrReg .byte (.reg 0) 2)
    ∧ decode [0xE38A] = .ok (.lslReg .long (.imm 1) 2) ∧ decode [0xE04A] = .ok (.lsrReg .word (.imm 0) 2)
    ∧ decode [0xE352] = .ok (.roxlReg .word (.imm 1) 2) ∧ decode [0xE252] = .ok (.roxrReg .word (.imm 1) 2)
    ∧ decode [0xE37A] = .ok (.rolReg .word (.reg 1) 2) ∧ decode [0xE25A] = .ok (.rorReg .word (.imm 1) 2)
    ∧ decode [0xE1D0] = .ok (.aslMem (.ind 0)) ∧ decode [0xE0D0] = .ok (.asrMem (.ind 0))
    ∧ decode [0xE3D0] = .ok (.lslMem (.ind 0)) ∧ decode [0xE2D0] = .ok (.lsrMem (.ind 0))
    ∧ decode [0xE5D0] = .ok (.roxlMem (.ind 0)) ∧ decode [0xE4D0] = .ok (.roxrMem (.ind 0))
    ∧ decode [0xE7D0] = .ok (.rolMem (.ind 0)) ∧ decode [0xE6D0] = .ok (.rorMem (.ind 0)) := by decide
theorem test_decode_bit_fields :
    decode [0xE8C1, 0x0108] = .ok (.bftst ⟨.imm 4, .imm 8⟩ (.dn 1))
    ∧ decode [0xE9D0, 0x3863] = .ok (.bfextu 3 ⟨.reg 1, .reg 3⟩ (.ind 0))
    ∧ decode [0xEAC1, 0x0108] = .ok (.bfchg ⟨.imm 4, .imm 8⟩ (.dn 1))
    ∧ decode [0xEBC1, 0x3108] = .ok (.bfexts 3 ⟨.imm 4, .imm 8⟩ (.dn 1))
    ∧ decode [0xECC1, 0x0108] = .ok (.bfclr ⟨.imm 4, .imm 8⟩ (.dn 1))
    ∧ decode [0xEDC1, 0x3108] = .ok (.bfffo 3 ⟨.imm 4, .imm 8⟩ (.dn 1))
    ∧ decode [0xEEC1, 0x0108] = .ok (.bfset ⟨.imm 4, .imm 8⟩ (.dn 1))
    ∧ decode [0xEFC1, 0x3108] = .ok (.bfins 3 ⟨.imm 4, .imm 8⟩ (.dn 1)) := by decide
theorem test_decode_lineF :
    decode [0xF449] = .ok (.cinv .data .line 1) ∧ decode [0xF4F8] = .ok (.cpush .both .all 0)
    ∧ decode [0xF518] = .ok (.pflush 3 0) ∧ decode [0xF549] = .ok (.ptest false 1) ∧ decode [0xF569] = .ok (.ptest true 1)
    ∧ decode [0xF610, 0x0001, 0x0000] = .ok (.move16Abs .indToAbs 0 0x10000)
    ∧ decode [0xF621, 0xA000] = .ok (.move16Pi 1 2) ∧ decode [0xF200, 0x0000] = .ok (.fpLine 0)
    ∧ decode [0xF800] = .ok (.fline 0x800) := by decide

/-! ## Single steps; the vector of spec/95_test_vectors stands beside each -/

/-- Supervisor mode, SR = $2700, caches and access control off; instructions stand at $1000, the stack at $8000. -/
def base : State := { State.reset with pc := 0x1000, isp := 0x8000 }

/-- User mode. -/
def user : State := { base with sr := 0, usp := 0x6000 }

def d (n : Reg) (v : Long) (s : State) : State := s.setDreg n v

def a (n : Reg) (v : Long) (s : State) : State := s.setAreg n v

def sr (v : Word) (s : State) : State := { s with sr := v }

def long (x v : Long) (s : State) : State := { s with mem := (poke s 5 .long x v).mem }

def word (x : Long) (v : Word) (s : State) : State := { s with mem := (poke s 5 .word x v).mem }

/-- The next state of a step meets a test. -/
def nextAnd (o : Out) (p : State → Bool) : Bool :=
  match o with
  | .next t => p t
  | _ => false

/-- A step is refused for a reason. -/
def refuses (r : Refusal) (o : Out) : Bool :=
  match o with
  | .refused q => q == r
  | _ => false

/-- The words at the PC run. -/
def runs (ws : List Word) (s : State) (p : State → Bool) : Bool := nextAnd (step (placeInstruction s ws)) p

/-- The condition codes X, N, Z, V, C. -/
def codes (t : State) (v : BitVec 5) : Bool := t.ccr.bits == v

-- 2.1 and 2.2: E4, E7, E9, E16, M2, M4, M5, M7, M8, M9, M10, M12, M14, M15, M16, M17, M18, M19
theorem test_byte_through_stack_pointer : runs [0x101F] base (fun t => t.sp == 0x8002) = true := by decide
theorem test_brief_long_index : runs [0x2030, 0x1802] (long 0xFFFF1004 0x12345678 (a 0 0x1000 (d 1 0xFFFF0002 base)))
    (fun t => t.dreg 0 == 0x12345678) = true := by decide
theorem test_scaled_word_index : runs [0x2030, 0x0400] (long 0x1010 0x12345678 (a 0 0x1000 (d 0 4 base)))
    (fun t => t.dreg 0 == 0x12345678) = true := by decide
theorem test_memory_indirect : runs [0x2030, 0x0161, 8] (long 0x5000 0x12345678 (long 0x2008 0x5000 (a 0 0x2000 base)))
    (fun t => t.dreg 0 == 0x12345678 && t.pc == 0x1006) = true := by decide
theorem test_move_byte : runs [0x1001] (d 0 0x12345678 (d 1 0xFF base))
    (fun t => t.dreg 0 == 0x123456FF && codes t 0b01000) = true := by decide
theorem test_move_memory : runs [0x2318] (a 0 0x3000 (a 1 0x2000 (long 0x1FFC 5 base)))
    (fun t => t.areg 0 == 0x3004 && t.areg 1 == 0x1FFC && peek t 5 .long 0x1FFC == 0 && codes t 0b00100) = true := by decide
theorem test_movea_word : runs [0x3041] (d 1 0xFFFE base) (fun t => t.areg 0 == 0xFFFFFFFE && codes t 0) = true := by decide
theorem test_moveq : runs [0x76FF] base (fun t => t.dreg 3 == 0xFFFFFFFF && codes t 0b01000) = true := by decide
theorem test_movem_down : runs [0x48E7, 0xC080] (a 7 0x2000 (d 0 0x11111111 (d 1 0x22222222 (a 0 0x33333333 base))))
    (fun t => t.sp == 0x1FF4 && peek t 5 .long 0x1FF4 == 0x11111111 && peek t 5 .long 0x1FFC == 0x33333333) = true := by
  decide
theorem test_movem_up : runs [0x4CDF, 0x0103] (a 7 0x1FF4 (long 0x1FF8 0x22222222 (long 0x1FFC 0x33333333 base)))
    (fun t => t.sp == 0x2000 && t.dreg 1 == 0x22222222 && t.areg 0 == 0x33333333) = true := by decide
theorem test_movem_word_extends : runs [0x4C90, 0x0101] (a 0 0x3000 (long 0x3000 0x80000004 base))
    (fun t => t.dreg 0 == 0xFFFF8000 && t.areg 0 == 4) = true := by decide
theorem test_pea : runs [0x4850] (a 0 0x3000 (a 7 0x2000 base))
    (fun t => t.sp == 0x1FFC && peek t 5 .long 0x1FFC == 0x3000) = true := by decide
theorem test_lea : runs [0x43E8, 8] (a 0 0x1000 base) (fun t => t.areg 1 == 0x1008 && codes t 0) = true := by decide
theorem test_exg : runs [0xC188] (d 0 1 (a 0 2 base)) (fun t => t.dreg 0 == 2 && t.areg 0 == 1) = true := by decide
theorem test_link : runs [0x4E56, 0xFFF8] (a 7 0x2000 (a 6 0xAAAA0000 base))
    (fun t => peek t 5 .long 0x1FFC == 0xAAAA0000 && t.areg 6 == 0x1FFC && t.sp == 0x1FF4) = true := by decide
theorem test_unlk : runs [0x4E5E] (a 6 0x1FFC (long 0x1FFC 0xAAAA0000 base))
    (fun t => t.sp == 0x2000 && t.areg 6 == 0xAAAA0000) = true := by decide
theorem test_movep_store : runs [0x0188, 0] (a 0 0x3000 (d 0 0x1234 base))
    (fun t => peek t 5 .long 0x3000 == 0x12003400) = true := by decide
theorem test_movep_load : runs [0x0108, 0] (a 0 0x3000 (d 0 0xFFFF0000 (long 0x3000 0xAB00CD00 base)))
    (fun t => t.dreg 0 == 0xFFFFABCD) = true := by decide
theorem test_move16 : runs [0xF620, 0x9000] (a 0 0x3008 (a 1 0x2000 (long 0x3000 0x11223344 base)))
    (fun t => t.areg 0 == 0x3018 && t.areg 1 == 0x2010 && peek t 5 .long 0x2000 == 0x11223344) = true := by decide

-- 2.3: A2, A3, A5, A6, A8, A9, A11, A13, A15, A16, A18, A19, A20, A22, A24, A26, A27, A30 to A36, A38, A39, A41 to A43
theorem test_add_word : runs [0xD041] (d 0 0x1234FFFF (d 1 1 base))
    (fun t => t.dreg 0 == 0x12340000 && codes t 0b10101) = true := by decide
theorem test_add_byte : runs [0xD001] (d 0 0x80 (d 1 0x80 base)) (fun t => t.dreg 0 == 0 && codes t 0b10111) = true := by
  decide
theorem test_adda_word : runs [0xD0C1] (a 0 0x1000 (d 1 0xFFFF base)) (fun t => t.areg 0 == 0xFFF && codes t 0) = true := by
  decide
theorem test_addi : runs [0x0640, 1] (d 0 0x7FFF base) (fun t => t.dreg 0 == 0x8000 && codes t 0b01010) = true := by decide
theorem test_addq_address : runs [0x5048] (a 0 0xFFFC base) (fun t => t.areg 0 == 0x10004 && codes t 0) = true := by decide
theorem test_addx : runs [0xD181] (d 0 0xFFFFFFFF (sr 0x2714 base)) (fun t => t.dreg 0 == 0 && codes t 0b10101) = true := by
  decide
theorem test_sub : runs [0x9081] (d 1 1 base) (fun t => t.dreg 0 == 0xFFFFFFFF && codes t 0b11001) = true := by decide
theorem test_sub_byte : runs [0x9001] (d 0 0x80 (d 1 1 base)) (fun t => t.dreg 0 == 0x7F && codes t 0b00010) = true := by
  decide
theorem test_subq : runs [0x5588] (a 0 1 base) (fun t => t.areg 0 == 0xFFFFFFFF && codes t 0) = true := by decide
theorem test_subx : runs [0x9181] (sr 0x2714 base) (fun t => t.dreg 0 == 0xFFFFFFFF && codes t 0b11001) = true := by decide
theorem test_neg : runs [0x4480] (d 0 0x80000000 base) (fun t => t.dreg 0 == 0x80000000 && codes t 0b11011) = true := by
  decide
theorem test_negx : runs [0x4080] (sr 0x2714 base) (fun t => t.dreg 0 == 0xFFFFFFFF && codes t 0b11001) = true := by decide
theorem test_clr : runs [0x4240] (d 0 0x12345678 base) (fun t => t.dreg 0 == 0x12340000 && codes t 0b00100) = true := by
  decide
theorem test_cmp : runs [0xB081] (d 0 0x80000000 (d 1 1 base)) (fun t => t.dreg 0 == 0x80000000 && codes t 0b00010) = true := by
  decide
theorem test_cmpa : runs [0xB0C1] (a 0 0xFFFFFFFF (d 1 0xFFFF base)) (fun t => codes t 0b00100) = true := by decide
theorem test_cmpm : runs [0xB348] (a 0 0x3000 (a 1 0x2000 (word 0x3000 3 (word 0x2000 3 base))))
    (fun t => t.areg 0 == 0x3002 && t.areg 1 == 0x2002 && codes t 0b00100) = true := by decide
theorem test_cmp2_address : runs [0x00D0, 0x8000] (a 0 0x3000 (word 0x3000 0xF010 base))
    (fun t => t.areg 0 == 0x3000 && t.pc == 0x1004) = true := by decide
theorem test_ext : runs [0x4880] (d 0 0x12340080 base) (fun t => t.dreg 0 == 0x1234FF80 && codes t 0b01000) = true := by
  decide
theorem test_mulu : runs [0xC0C1] (d 0 0xFFFF (d 1 0xFFFF base)) (fun t => t.dreg 0 == 0xFFFE0001 && codes t 0b01000) = true := by
  decide
theorem test_muls : runs [0xC1C1] (d 0 0xFFFF (d 1 2 base)) (fun t => t.dreg 0 == 0xFFFFFFFE && codes t 0b01000) = true := by
  decide
theorem test_mulu_long : runs [0x4C01, 0] (d 0 0x10000 (d 1 0x10000 base)) (fun t => t.dreg 0 == 0 && codes t 0b00110) = true := by
  decide
theorem test_mulu_wide : runs [0x4C01, 0x0402] (d 0 0xFFFFFFFF (d 1 0xFFFFFFFF base))
    (fun t => t.dreg 2 == 0xFFFFFFFE && t.dreg 0 == 1 && codes t 0b01000) = true := by decide
theorem test_muls_long : runs [0x4C01, 0x0800] (d 0 0x40000000 (d 1 2 base))
    (fun t => t.dreg 0 == 0x80000000 && codes t 0b01010) = true := by decide
theorem test_divu : runs [0x80C1] (d 0 0x10003 (d 1 2 base)) (fun t => t.dreg 0 == 0x18001 && codes t 0b01000) = true := by
  decide
theorem test_divu_overflow : runs [0x80C1] (d 0 0x20000 (d 1 2 base))
    (fun t => t.dreg 0 == 0x20000 && t.pc == 0x1002) = true := by decide
theorem test_divs : runs [0x81C1] (d 0 0xFFFFFFF9 (d 1 2 base)) (fun t => t.dreg 0 == 0xFFFFFFFD && codes t 0b01000) = true := by
  decide
theorem test_divul : runs [0x4C41, 0x0002] (d 0 100 (d 1 7 base))
    (fun t => t.dreg 0 == 14 && t.dreg 2 == 2 && codes t 0) = true := by decide
theorem test_divu_wide_overflow : runs [0x4C41, 0x0402] (d 2 1 (d 1 1 base))
    (fun t => t.dreg 2 == 1 && t.dreg 0 == 0 && t.pc == 0x1004) = true := by decide
theorem test_divsl : runs [0x4C41, 0x0802] (d 0 0xFFFFFFF9 (d 1 2 base))
    (fun t => t.dreg 0 == 0xFFFFFFFD && t.dreg 2 == 0xFFFFFFFF && codes t 0b01000) = true := by decide

-- 2.4: L1, L2, L3, L9, L10, L11
theorem test_and : runs [0xC081] (d 0 0xF0F0F0F0 (d 1 0x0F0F0F0F base)) (fun t => t.dreg 0 == 0 && codes t 0b00100) = true := by
  decide
theorem test_andi : runs [0x0240, 0xFF] (d 0 0x1234ABCD base) (fun t => t.dreg 0 == 0x123400CD && codes t 0) = true := by
  decide
theorem test_andi_ccr : runs [0x023C, 0xFE] (sr 0x271F base) (fun t => t.sr == 0x271E) = true := by decide
theorem test_ori_ccr : runs [0x003C, 0xE0] base (fun t => t.sr == 0x2700) = true := by decide
theorem test_eori_ccr : runs [0x0A3C, 0x1F] (sr 0x2715 base) (fun t => t.sr == 0x270A) = true := by decide
theorem test_eor : runs [0xB380] (d 0 0xFFFFFFFF (d 1 0xFFFFFFFF base)) (fun t => t.dreg 0 == 0 && codes t 0b00100) = true := by
  decide
theorem test_not : runs [0x4600] (d 0 0xFF base) (fun t => t.dreg 0 == 0 && codes t 0b00100) = true := by decide
theorem test_or : runs [0x8081] (d 0 0x80000000 (d 1 1 base)) (fun t => t.dreg 0 == 0x80000001 && codes t 0b01000) = true := by
  decide

-- 2.5: H2, H4, H5, H6, H7, H8, H11, H12, H13, H14, H16 to H20, H22
theorem test_asl : runs [0xE500] (d 0 0xC0 base) (fun t => t.dreg 0 == 0 && codes t 0b10111) = true := by decide
theorem test_asl_count : runs [0xE360] (d 0 1 (d 1 17 base)) (fun t => t.dreg 0 == 0 && codes t 0b00110) = true := by decide
theorem test_asr : runs [0xE280] (d 0 0x80000001 base) (fun t => t.dreg 0 == 0xC0000000 && codes t 0b11001) = true := by
  decide
theorem test_asr_all : runs [0xE220] (d 0 0x80 (d 1 9 base)) (fun t => t.dreg 0 == 0xFF && codes t 0b11001) = true := by
  decide
theorem test_lsl : runs [0xE148] (d 0 0x1FF base) (fun t => t.dreg 0 == 0xFF00 && codes t 0b11001) = true := by decide
theorem test_lsr : runs [0xE2A8] (d 0 0x80000000 (d 1 33 base)) (fun t => t.dreg 0 == 0 && codes t 0b00100) = true := by
  decide
theorem test_lsr_memory : runs [0xE2D0] (a 0 0x3000 (word 0x3000 3 base))
    (fun t => peek t 5 .word 0x3000 == 1 && codes t 0b10001) = true := by decide
theorem test_rol : runs [0xE338] (d 0 0x81 (d 1 8 base)) (fun t => t.dreg 0 == 0x81 && codes t 0b01001) = true := by decide
theorem test_ror : runs [0xE298] (d 0 1 base) (fun t => t.dreg 0 == 0x80000000 && codes t 0b01001) = true := by decide
theorem test_roxl : runs [0xE330] (d 0 0xA5 (d 1 9 (sr 0x2710 base))) (fun t => t.dreg 0 == 0xA5 && codes t 0b11001) = true := by
  decide
theorem test_roxl_none : runs [0xE3B0] (d 0 1 (sr 0x2710 base)) (fun t => t.dreg 0 == 1 && codes t 0b10001) = true := by
  decide
theorem test_roxr : runs [0xE250] (d 0 1 (sr 0x2710 base)) (fun t => t.dreg 0 == 0x8000 && codes t 0b11001) = true := by
  decide
theorem test_swap : runs [0x4840] (d 0 0x8000 base) (fun t => t.dreg 0 == 0x80000000 && codes t 0b01000) = true := by decide

-- 2.6, 2.7: B2, B3, B5, B6, B7, B8, F2 to F4, F6, F7, F9 to F11
theorem test_btst : runs [0x0800, 0x20] (d 0 0x80000000 base) (fun t => t.ccr.z) = true := by decide
theorem test_btst_memory : runs [0x0810, 9] (a 0 0x3000 (word 0x3000 0x0200 base)) (fun t => !t.ccr.z) = true := by decide
theorem test_bchg : runs [0x0840, 0] base (fun t => t.dreg 0 == 1 && t.ccr.z) = true := by decide
theorem test_bclr : runs [0x0880, 7] (d 0 0xFF base) (fun t => t.dreg 0 == 0x7F && !t.ccr.z) = true := by decide
theorem test_bset : runs [0x01D0] (a 0 0x3000 (d 0 0xFFFFFFFF base))
    (fun t => byteAt t 5 0x3000 == 0x80 && t.ccr.z) = true := by decide
theorem test_bfextu : runs [0xE9C0, 0x1708] (d 0 0xA000000B base) (fun t => t.dreg 1 == 0xBA && codes t 0b01000) = true := by
  decide
theorem test_bfextu_memory : runs [0xE9D0, 0x1800] (a 0 0x3001 (d 0 0xFFFFFFF8 (long 0x3000 0x11223344 base)))
    (fun t => t.dreg 1 == 0x11223344 && codes t 0) = true := by decide
theorem test_bfexts : runs [0xEBC0, 0x1108] (d 0 0x0AB00000 base) (fun t => t.dreg 1 == 0xFFFFFFAB && codes t 0b01000) = true := by
  decide
theorem test_bfffo : runs [0xEDC0, 0x1204] base (fun t => t.dreg 1 == 12 && codes t 0b00100) = true := by decide
theorem test_bfchg : runs [0xEAC0, 8] (d 0 0xFF000000 base) (fun t => t.dreg 0 == 0 && codes t 0b01000) = true := by decide
theorem test_bfset : runs [0xEED0, 0x0183] (a 0 0x3000 base) (fun t => peek t 5 .word 0x3000 == 0x0380 && codes t 0b00100) = true := by
  decide
theorem test_bfins : runs [0xEFD0, 0x1108] (a 0 0x3000 (d 1 0xAB base))
    (fun t => peek t 5 .word 0x3000 == 0x0AB0 && codes t 0b01000) = true := by decide

-- 2.8: C1, C3, C4, C6, C7
theorem test_abcd : runs [0xC101] (d 0 0x45 (d 1 0x55 (sr 0x2714 base)))
    (fun t => t.dreg 0 == 1 && t.pc == 0x1002) = true := by decide
theorem test_sbcd : runs [0x8101] (d 1 1 base) (fun t => t.dreg 0 == 0x99 && t.pc == 0x1002) = true := by decide
theorem test_nbcd : runs [0x4800] (d 0 1 base) (fun t => t.dreg 0 == 0x99 && t.pc == 0x1002) = true := by decide
theorem test_pack : runs [0x8141, 0] (d 1 0x3132 base) (fun t => t.dreg 0 == 0x12 && codes t 0) = true := by decide
theorem test_unpk : runs [0x8181, 0x3030] (d 1 0x12 base) (fun t => t.dreg 0 == 0x3132 && codes t 0) = true := by decide

-- 2.9: P1, P4, P6 to P11, P14 to P17, P19
theorem test_bne : runs [0x6606] base (fun t => t.pc == 0x1008) = true := by decide
theorem test_bne_long_not_taken : runs [0x66FF, 1, 0] (sr 0x2704 base) (fun t => t.pc == 0x1006) = true := by decide
theorem test_bsr : runs [0x6100, 0x0FFE] base (fun t => t.pc == 0x2000 && t.sp == 0x7FFC && peek t 5 .long 0x7FFC == 0x1004)
    = true := by decide
theorem test_bsr_odd : runs [0x6101] base (fun t => peek t 5 .long 0x7FFC == 0x1002 && t.sp == 0x7FF0
    && peek t 5 .long 0x7FF2 == 0x1000 && peek t 5 .word 0x7FF6 == 0x200C && peek t 5 .long 0x7FF8 == 0x1002) = true := by
  decide
theorem test_dbf : runs [0x51C8, 0xFFFE] (d 0 0x10002 base) (fun t => t.dreg 0 == 0x10001 && t.pc == 0x1000) = true := by
  decide
theorem test_dbf_ends : runs [0x51C8, 0xFFFE] (d 0 0x10000 base) (fun t => t.dreg 0 == 0x1FFFF && t.pc == 0x1004) = true := by
  decide
theorem test_seq : runs [0x57C0] (d 0 0x12345600 (sr 0x2704 base)) (fun t => t.dreg 0 == 0x123456FF) = true := by decide
theorem test_jsr : runs [0x4E90] (a 0 0x3000 base) (fun t => t.pc == 0x3000 && peek t 5 .long 0x7FFC == 0x1002) = true := by
  decide
theorem test_rts : runs [0x4E75] (a 7 0x1FFC (long 0x1FFC 0x4000 base)) (fun t => t.pc == 0x4000 && t.sp == 0x2000) = true := by
  decide
theorem test_rtd : runs [0x4E74, 8] (a 7 0x1FFC (long 0x1FFC 0x4000 base)) (fun t => t.pc == 0x4000 && t.sp == 0x2008) = true := by
  decide
theorem test_rtr : runs [0x4E77] (a 7 0x1FFA (word 0x1FFA 0xFF1F (long 0x1FFC 0x4000 base)))
    (fun t => t.sr == 0x271F && t.pc == 0x4000 && t.sp == 0x2000) = true := by decide
theorem test_tst : runs [0x4A00] (d 0 0xFFFFFF00 base) (fun t => codes t 0b00100) = true := by decide
theorem test_nop : runs [0x4E71] base (fun t => t.pc == 0x1002) = true := by decide

-- 2.10: Y3, Y4, Y5, Y7 to Y9, Y11, Y12, Y14, Y15, Y17 to Y23, Y29, Y31, Y34, Y37, S8, S9, S10
theorem test_eori_sr : runs [0x0A7C, 0x2000] { base with sr := 0x2000, usp := 0x6000 }
    (fun t => t.sr == 0 && t.sp == 0x6000) = true := by decide
theorem test_andi_sr_user : runs [0x027C, 0xF8FF] user (fun t => t.sr == 0x2000 && t.sp == 0x7FF8
    && peek t 5 .word 0x7FF8 == 0 && peek t 5 .long 0x7FFA == 0x1000 && peek t 5 .word 0x7FFE == 0x20) = true := by decide
theorem test_move_from_sr : runs [0x40C0] (d 0 0xFFFFFFFF (sr 0x2704 base)) (fun t => t.dreg 0 == 0xFFFF2704) = true := by
  decide
theorem test_move_to_sr : runs [0x46FC, 0x3000] { base with msp := 0x9000 } (fun t => t.sr == 0x3000 && t.sp == 0x9000) = true := by
  decide
theorem test_move_to_sr_reserved :
    refuses .reservedTraceMode (step (placeInstruction base [0x46FC, 0xFFFF])) = true := by decide
theorem test_move_from_ccr : runs [0x42C0] (d 0 0xFFFFFFFF (sr 0x2715 base)) (fun t => t.dreg 0 == 0xFFFF0015) = true := by
  decide
theorem test_move_usp : runs [0x4E60] (a 0 0x6000 base) (fun t => t.usp == 0x6000) = true := by decide
theorem test_movec_vbr : runs [0x4E7B, 0x0801] (d 0 0x10000 base) (fun t => t.vbr == 0x10000) = true := by decide
theorem test_movec_dacr0 : runs [0x4E7B, 0x0006] (d 0 0xFFFFFFFF base) (fun t => t.dacr0 == 0xFFFFE364) = true := by decide
theorem test_movec_no_register : runs [0x4E7B, 0x0808] base (fun t => peek t 5 .word 0x7FFE == 0x10) = true := by decide
theorem test_movec_user : runs [0x4E7B, 0x0808] user (fun t => peek t 5 .word 0x7FFE == 0x20) = true := by decide
theorem test_movec_urp : refuses .urpSrp (step (placeInstruction base [0x4E7B, 0x0806])) = true := by decide
theorem test_moves : runs [0x0E90, 0x1800] { a 0 0x3000 (d 1 0x12345678 base) with dfc := 1 }
    (fun t => peek t 1 .long 0x3000 == 0x12345678) = true := by decide
theorem test_reset : runs [0x4E70] base (fun t => t.outputs == [.rsto] && t.pc == 0x1002) = true := by decide
theorem test_stop : runs [0x4E72, 0x2000] base (fun t => t.sr == 0x2000 && t.run == .stopped && t.pc == 0x1004) = true := by
  decide
theorem test_stop_traced : runs [0x4E72, 0x2000] (sr 0xA700 base) (fun t => t.run == .running && t.sp == 0x7FF4
    && peek t 5 .word 0x7FF4 == 0x2000 && peek t 5 .long 0x7FF6 == 0x1004 && peek t 5 .word 0x7FFA == 0x2024
    && peek t 5 .long 0x7FFC == 0x1000) = true := by decide
theorem test_bkpt : runs [0x484B] base (fun t => t.outputs == [.breakpointAck] && peek t 5 .word 0x7FFE == 0x10) = true := by
  decide
theorem test_trap_user : runs [0x4E40] (sr 5 user) (fun t => t.sr == 0x2005 && t.sp == 0x7FF8
    && peek t 5 .word 0x7FF8 == 5 && peek t 5 .long 0x7FFA == 0x1002 && peek t 5 .word 0x7FFE == 0x80) = true := by decide
theorem test_trapv : runs [0x4E76] (sr 0x2702 base) (fun t => peek t 5 .word 0x7FFA == 0x201C) = true := by decide
theorem test_trapt_long : runs [0x50FB, 0x1234, 0x5678] base (fun t => peek t 5 .long 0x7FF6 == 0x1006) = true := by decide
theorem test_ptest : refuses .ptest (step (placeInstruction base [0xF548])) = true := by decide
theorem test_pflush : refuses .pflush (step (placeInstruction base [0xF510])) = true := by decide
theorem test_aline : runs [0xA123] base (fun t => peek t 5 .long 0x7FFA == 0x1000 && peek t 5 .word 0x7FFE == 0x28) = true := by
  decide
theorem test_fline : runs [0xF800] base (fun t => peek t 5 .long 0x7FFA == 0x1000 && peek t 5 .word 0x7FFE == 0x2C) = true := by
  decide
theorem test_jmp_odd : runs [0x4EF9, 0, 0x2001] base (fun t => t.sp == 0x7FF4 && peek t 5 .long 0x7FF6 == 0x1000
    && peek t 5 .word 0x7FFA == 0x200C && peek t 5 .long 0x7FFC == 0x2000) = true := by decide

-- 2.11: K1, K5 to K7, K10, K9
theorem test_tas : runs [0x4AD0] (a 0 0x3000 base) (fun t => byteAt t 5 0x3000 == 0x80 && codes t 0b00100) = true := by decide
theorem test_cas : runs [0x0ED0, 0x0040] (a 0 0x3000 (d 0 5 (d 1 9 (long 0x3000 5 base))))
    (fun t => peek t 5 .long 0x3000 == 9 && t.dreg 0 == 5 && codes t 0b00100) = true := by decide
theorem test_cas_word_fails : runs [0x0CD0, 0x0040] (a 0 0x3000 (d 0 0x12340000 (d 1 1 (word 0x3000 0xFFFF base))))
    (fun t => peek t 5 .word 0x3000 == 0xFFFF && t.dreg 0 == 0x1234FFFF && codes t 0b01000) = true := by decide
theorem test_cas2 : runs [0x0EFC, 0x8040, 0x9081]
    (a 0 0x3000 (a 1 0x2000 (d 0 1 (d 1 2 (d 2 7 (long 0x3000 1 (long 0x2000 2 base)))))))
    (fun t => peek t 5 .long 0x3000 == 2 && peek t 5 .long 0x2000 == 7 && t.ccr.z) = true := by decide
/-- 70_reset R641: a copyback store that was not pushed, the data cache off since. -/
theorem test_unpushed_code : refuses .staleFetch (step { base with dcache := .live, unpushed := [0x1001] }) = true := by
  decide
/-- 49 R437: CPUSHA DC with the cache off writes the dirty bytes. -/
theorem test_cpush_off : runs [0xF478] { base with dcache := .live, dirty := [(0x2003, 5)] }
    (fun t => byteAt t 5 0x2003 == 5 && t.dirty == [] && t.dcache == .empty) = true := by decide
/-- 70_reset R632: a read of the line of a byte written around the cache, and one of the next line. -/
theorem test_stale_line : (let s := { base with cacr := 0x80000000, dcache := .live, staleData := [0x200F] }
    refuses .staleData (step (placeInstruction s [0x1038, 0x2000])) && runs [0x1038, 0x2010] s fun t => t.pc == 0x1004)
    = true := by decide
/-- 20_memory R87: the transfers of misaligned operands. -/
theorem test_transfers : transfers 0x1001 2 = [(0x1001, 1), (0x1002, 1)]
    ∧ transfers 0x1003 4 = [(0x1003, 1), (0x1004, 2), (0x1006, 1)] ∧ transfers 0x1002 4 = [(0x1002, 2), (0x1004, 2)]
    ∧ transfers 0x1004 4 = [(0x1004, 4)] := by decide
theorem test_cpush : runs [0xF4F8] base (fun t => t.pc == 0x1002 && t.dcache == .empty && t.icache == .empty) = true := by
  decide
theorem test_cinv_user : runs [0xF448] user (fun t => peek t 5 .word 0x7FFE == 0x20) = true := by decide

-- S5: DACR0 = $000FA004 write-protects supervisor addresses with A31 to A28 = 0; S4, S21: interrupts; X1: reset
theorem test_write_protection :
    (let s := { base with dacr0 := 0x000FA004 }
     writeFaults s 5 0x0ABCDEF0 4 = true ∧ readFaults s false 5 0x0ABCDEF0 4 = false ∧ writeFaults s 5 0x10000000 4 = false
       ∧ writeFaults s 1 0x00001000 4 = false) := by decide
theorem test_level7_transition : (hostLevel base 7).pending = some 7 ∧ (hostLevel base 6).pending = none := by decide
-- S4: level 7 held with mask 7, MOVE #$2600,SR; S3: level 6 held, RTE to mask 5; U16: the request then goes away
theorem test_mask_lowered : runs [0x46FC, 0x2600] { base with ipl := 7 }
    (fun t => t.pending == some 7 && (hostLevel t 0).pending == some 7) = true := by decide
theorem test_mask_restored : runs [0x4E73] (word 0x8000 0x2500 { base with ipl := 6 }) (fun t => t.pending == some 6) = true := by
  decide
theorem test_autovector : nextAnd (step (hostLevel (sr 0x2000 base) 2)) (fun t => t.sr == 0x2200 && t.sp == 0x7FF8
    && peek t 5 .word 0x7FF8 == 0x2000 && peek t 5 .long 0x7FFA == 0x1000 && peek t 5 .word 0x7FFE == 0x68) = true := by
  decide
theorem test_reset_exception : nextAnd (step (hostReset (long 0 0x8000 (long 4 0x1000 base)))) (fun t => t.run == .running
    && t.isp == 0x8000 && t.pc == 0x1000 && t.vbr == 0) = true := by decide
theorem test_fetch_word : nextAnd (step (State.reset.withFetchWord 16 0x4E71)) (fun t => t.pc == 2) = true := by decide
theorem test_table_numbering : decodeTableWord 32 0x00124E56 = some (.linkW 6 0x12) ∧ decodeTableWord 16 0x4E56 = some (.linkW 6 0) := by
  decide

/-! ## States that meet the hypotheses of the statements -/

/-- An operand can be read. -/
def CanRead (s : State) (sz : Size) (own : Nat) (ea : Ea) : Prop :=
  s.traceAll = false ∧ ∃ v s1, readEa sz own ea s = .ok v s1

/-- An operand can be read and replaced. -/
def CanReplace (s : State) (sz : Size) (own : Nat) (ea : Ea) : Prop :=
  s.traceAll = false ∧ ∃ l s1 d s2, operand sz own ea s = .ok l s1 ∧ readLoc sz l s1 = .ok d s2 ∧ CanStore sz l s2

/-- An operand can be written. -/
def CanWrite (s : State) (sz : Size) (ea : Ea) : Prop :=
  s.traceAll = false ∧ ∃ l s1, operand sz 0 ea s = .ok l s1 ∧ CanStore sz l s1

/-- A two-register memory form can run. -/
def CanPair (s : State) (sz : Size) (x y : Reg) : Prop :=
  s.traceAll = false ∧ ∃ v s1 d s2, readEa sz 0 (.preDec y) s = .ok v s1
    ∧ readMem sz (s1.areg x - stepOf sz.bytes x) (s1.setAreg x (s1.areg x - stepOf sz.bytes x)) = .ok d s2
    ∧ Writable s2 s.dataFc (s1.areg x - stepOf sz.bytes x) sz.bytes

/-- Reads and writes of these addresses end in TEA. -/
def failing (lo hi : Long) (s : State) : State :=
  { s with platform := { s.platform with errors := [{ fc := none, lo := lo, hi := hi, onRead := true, onWrite := true }] } }

/-- 30_encoding R161: MOVE.L (A0),$.. reads its source before it needs its destination's words. -/
theorem test_source_before_destination : beginning [0x23D0] = some (.move .long (.ind 0) (.absL 0))
    ∧ (match earlyReads (.move .long (.ind 0) (.absL 0)) 1 (failing 0x1002 0x2003 (a 0 0x2000 base)) with
      | .error (.restart f) _ => f.addr == 0x2000
      | _ => false) = true := by decide
/-- 30_encoding R156: TST.W of a memory-indirect mode reads its pointer before its outer displacement. -/
theorem test_pointer_before_displacement : beforeReserved [0x2FB0, 0, 0x0100] 3 = [0x2FB0, 0]
    ∧ (match earlyReads (.tst .word (.idx 0 (.full ⟨0, false, 0⟩ false true .null (.pre (.word 0))))) 2
        (failing 0x2000 0x2003 (a 0 0x2000 base)) with
      | .error (.restart f) _ => f.addr == 0x2000
      | _ => false) = true := by decide
/-- 93 U24: at a PC restored for a MOVEM, CHK2 is refused though its second word cannot be fetched. -/
theorem test_movem_restart_cut : refuses .movemRestart
    (step (placeInstruction (failing 0x1002 0x1003 { base with movemEa := some 0x3000 }) [0x00D0])) = true := by decide
/-- 20_memory R115: dirty lines from before a reset do not stop the fetch of memory's bytes. -/
theorem test_old_dirty_code : runs [0x4E71] { base with dcache := .live, dirty := [(0x1001, 0)] }
    (fun t => t.pc == 0x1002) = true := by decide
/-- 70_reset R632: with the caches on, another bank behind the addresses leaves no fetch or operand access until CINVA. -/
theorem test_other_bank : (let s := { base with cacr := 0x80008000, dcache := .live, icache := .live }
    let t := hostPlatform s { s.platform with bank := Vector.replicate 8 1 }
    t.dcache == .unknown && t.icache == .unknown && staleAccess t 5 0x3000 1 && staleFetchAt t 6 0x3000
    && (invalidateData (invalidateInstr t .all 0) .all 0).dcache == .live) = true := by decide

/-- 49 R436: with the data cache off CINV of its dirty lines changes nothing that the program, or a fetch, sees. -/
theorem test_cinv_unseen : runs [0xF458] { base with dcache := .live, icache := .live, dirty := [(0x3000, 1)] } (fun t =>
    t.dirty.isEmpty && byteAt t 5 0x3000 == byteAt base 5 0x3000 && !staleFetchAt { t with cacr := 0x8000 } 6 0x3000) = true := by
  decide

/-- 49 R436, R437: with the caches off, CINVA IC and CPUSHA BC leave fetchable what was written and then jumped to. -/
theorem test_written_code_runs_on : ([0xF498, 0xF4F8].all fun w => runs [w]
    { base with icache := .live, dcache := .live, staleInstr := [0x1003], dirty := [(0x1003, 0)] }
    (fun t => t.stalePipe.isEmpty && t.staleInstr.isEmpty)) = true := by decide
/-- 20_memory R125, 92 D3: IE = 1 and a cache-inhibited fetch of a written byte; a copyback block written with DE = 0; then
CPUSHA DC, after which R125 still asks for CINV and a change of flow. -/
theorem test_written_code_refused :
    refuses .staleFetch (step { base with cacr := 0x8000, icache := .live, iacr0 := 0x00FFC040, staleInstr := [0x1001] }) = true
    ∧ (pokeByte { base with dacr0 := 0x00FFC020 } 5 0x3000 1).unpushed = [0x3000]
    ∧ runs [0xF478] { base with icache := .live, dcache := .live, unpushed := [0x3000] } (fun t =>
      t.unpushed == [] && t.staleInstr == [0x3000] && t.stalePipe == [0x3000]) = true := by decide
/-- 20_memory R106, R125: a byte of a line dirty since before a reset is fetched as memory has it, which may lag. -/
theorem test_lagging_fetch : (let s := { base with cacr := 0x80000000, dcache := .live, dirty := [(0x1001, 5)] }
    lags s 6 0x1001 && !staleFetchAt s 6 0x1001 && !lags { s with cacr := 0 } 6 0x1001) = true := by decide

theorem witness_ToDataRegister :
    CanRead base .byte 0 (.postInc 7) ∧ CanRead base .word 0 (.disp 0 0x8000) ∧ CanRead base .long 0 (.absL 0xFFFFFFFE) :=
  ⟨⟨rfl, _, _, rfl⟩, ⟨rfl, _, _, rfl⟩, ⟨rfl, _, _, rfl⟩⟩
theorem witness_ToOperand :
    CanReplace base .byte 0 (.preDec 7) ∧ CanReplace base .word 0 (.ind 0) ∧ CanReplace base .long 0 (.absL 0xFFFFFFFE) :=
  ⟨⟨rfl, _, _, _, _, rfl, rfl, rfl, rfl, rfl⟩, ⟨rfl, _, _, _, _, rfl, rfl, rfl, rfl, rfl⟩, ⟨rfl, _, _, _, _, rfl, rfl, rfl, rfl, rfl⟩⟩
theorem witness_ImmediateToOperand : CanReplace base .long 2 (.dn 0) ∧ CanReplace base .byte 1 (.absW 0x8000) :=
  ⟨⟨rfl, _, _, _, _, rfl, rfl, trivial⟩, ⟨rfl, _, _, _, _, rfl, rfl, rfl, rfl, rfl⟩⟩
theorem witness_OneOperand : CanReplace base .word 0 (.postInc 0) ∧ ∀ r, Ea.postInc 0 ≠ .an r :=
  ⟨⟨rfl, _, _, _, _, rfl, rfl, rfl, rfl, rfl⟩, nofun⟩
theorem witness_AddressRegisters :
    CanRead base .word 0 (.an 7) ∧ CanRead base .long 0 (.imm 4) ∧ ∃ a s1, eaAddress 4 0 (.pcDisp 4) base = .ok a s1 :=
  ⟨⟨rfl, _, _, rfl⟩, ⟨rfl, _, _, rfl⟩, _, _, rfl⟩
theorem witness_Comparisons : CanRead base .byte 0 (.pcDisp 4) ∧ CanRead base .long 2 (.dn 7)
    ∧ ∃ v s1 w s2, readEa .byte 0 (.postInc 7) base = .ok v s1 ∧ readEa .byte 0 (.postInc 7) s1 = .ok w s2 :=
  ⟨⟨rfl, _, _, rfl⟩, ⟨rfl, _, _, rfl⟩, _, _, _, _, rfl, rfl⟩
theorem witness_ExtendedArithmetic : base.traceAll = false ∧ CanPair base .byte 7 7 ∧ CanPair base .long 0 1 :=
  ⟨rfl, ⟨rfl, _, _, _, _, rfl, rfl, rfl, rfl, rfl⟩, ⟨rfl, _, _, _, _, rfl, rfl, rfl, rfl, rfl⟩⟩
theorem witness_Move :
    (aliased (.postInc 0) (.preDec 0) = false ∧ ∃ v s1 l s2, readEa .long 0 (.postInc 0) base = .ok v s1
      ∧ operand .long 0 (.preDec 0) s1 = .ok l s2 ∧ CanStore .long l s2)
    ∧ (aliased (.an 7) (.preDec 7) = true ∧ ∃ v s1 l s2, readEa .long 0 (.an 7) base = .ok v s1
      ∧ operand .long 0 (.preDec 7) s1 = .ok l s2 ∧ CanStore .long l s2) :=
  ⟨⟨rfl, _, _, _, _, rfl, rfl, rfl, rfl, rfl⟩, ⟨rfl, _, _, _, _, rfl, rfl, rfl, rfl, rfl⟩⟩
theorem witness_RegisterMoves : base.traceAll = false := rfl
theorem witness_WriteOnly : base.super = true ∧ CanWrite base .word (.dn 0) ∧ CanWrite base .byte (.preDec 7) :=
  ⟨rfl, ⟨rfl, _, _, rfl, trivial⟩, ⟨rfl, _, _, rfl, rfl, rfl, rfl⟩⟩
theorem witness_ConditionCodes : base.traceAll = false ∧ CanRead base .word 0 (.imm 0xFFFF) := ⟨rfl, rfl, _, _, rfl⟩
theorem witness_Multiply : CanRead base .word 0 (.imm 0xFFFF) ∧ CanRead base .long 1 (.imm 0xFFFFFFFF) ∧ (0 : Reg) ≠ 7 :=
  ⟨⟨rfl, _, _, rfl⟩, ⟨rfl, _, _, rfl⟩, by decide⟩
/-- Quotients that just fit and just do not, by 1 and by -1. -/
theorem witness_Divide : readEa .word 0 (.imm 1) base = .ok (1 : Word) base ∧ readEa .long 1 (.imm 1) base = .ok (1 : Long) base
    ∧ IsDivision 65535 1 65535 0 ∧ IsDivision 65536 1 65536 0 ∧ IsDivision (-32768) 1 (-32768) 0 ∧ IsDivision 32768 1 32768 0
    ∧ IsDivision (-32769) 1 (-32769) 0 ∧ IsDivision (-7) 2 (-3) (-1) ∧ (0 : Reg) ≠ 1 := by
  refine ⟨rfl, rfl, ?_⟩
  simp only [IsDivision]
  decide
theorem witness_FlagsAreArithmetic : 0 < 1 ∧ 0 < 32 := by decide
theorem witness_Shifts : base.traceAll = false ∧ CanReplace base .word 0 (.ind 7) :=
  ⟨rfl, rfl, _, _, _, _, rfl, rfl, rfl, rfl, rfl⟩
theorem witness_BitInstructions : base.traceAll = false ∧ (∀ r, Ea.imm 0xFF ≠ .dn r) ∧ CanRead base .byte 0 (.imm 0xFF)
    ∧ (∀ r, Ea.ind 0 ≠ .dn r) ∧ CanReplace base .byte 1 (.ind 0) :=
  ⟨rfl, nofun, ⟨rfl, _, _, rfl⟩, nofun, ⟨rfl, _, _, _, _, rfl, rfl, rfl, rfl, rfl⟩⟩

/-- A field of 32 bits at an offset of -1, whose bits are all clear. -/
def field : BitField := { offset := .reg 0, width := .imm 0 }

theorem bits_zero (i : Nat) : (0 : Long).getLsbD i = false := by simp
theorem field_bits : HasBits 32 0 (fun _ => false) := ⟨fun _ _ => bits_zero _, fun _ _ => bits_zero _⟩
theorem field_register : FieldIs (d 0 0xFFFFFFFF base) (d 0 0xFFFFFFFF base) field (.dn 1) (fun _ => false) :=
  ⟨rfl, fun _ => (bits_zero _).symm⟩
theorem field_memory : FieldIs (d 0 0xFFFFFFFF base) (d 0 0xFFFFFFFF base) field (.absW 0) (fun _ => false) :=
  ⟨0, rfl, ⟨rfl, rfl, rfl⟩, fun j => by
    change false = (0 : Byte).getLsbD _
    simp⟩
theorem witness_BitFieldReads : (d 0 0xFFFFFFFF base).traceAll = false ∧ fieldWidth (d 0 0xFFFFFFFF base) field = 32
    ∧ HasBits 32 0 (fun _ => false)
    ∧ FieldIs (d 0 0xFFFFFFFF base) (d 0 0xFFFFFFFF base) field (.dn 1) (fun _ => false)
    ∧ FieldIs (d 0 0xFFFFFFFF base) (d 0 0xFFFFFFFF base) field (.absW 0) (fun _ => false) :=
  ⟨rfl, rfl, field_bits, field_register, field_memory⟩
theorem witness_BitFieldWrites : (let s := d 0 0xFFFFFFFF base
    s.traceAll = false ∧ FieldIs s s field (.dn 1) (fun _ => false) ∧ FieldIs s s field (.absW 0) (fun _ => false)
    ∧ HasBits (fieldWidth s field) 0 (fun _ => false)
    ∧ HasBits (fieldWidth s field) 0 (fun j => (s.dreg 2).getLsbD (fieldWidth s field - 1 - j))
    ∧ eaAddress 1 1 (.absW 0) s = .ok 0 s ∧ Writable s s.dataFc (fieldBase s field 0) (fieldBytesIn s field)) :=
  ⟨rfl, field_register, field_memory, field_bits,
    ⟨fun _ _ => (bits_zero _).trans (bits_zero _).symm, fun _ _ => bits_zero _⟩, rfl, rfl, rfl, rfl⟩
theorem witness_DecimalArithmetic : CanPair base .byte 7 0 ∧ CanReplace base .byte 0 (.dn 0)
    ∧ CanReplace base .byte 0 (.preDec 7) ∧ isDecimal 0x99 ∧ ¬ isDecimal 0x9A :=
  ⟨⟨rfl, _, _, _, _, rfl, rfl, rfl, rfl, rfl⟩, ⟨rfl, _, _, _, _, rfl, rfl, trivial⟩,
    ⟨rfl, _, _, _, _, rfl, rfl, rfl, rfl, rfl⟩, by unfold isDecimal; decide, by unfold isDecimal; decide⟩
theorem witness_PackAndUnpack : base.traceAll = false ∧ (6 : Reg) ≠ 7
    ∧ Readable base 5 (base.areg 6 - 2) 2 ∧ Writable base 5 (base.areg 6 - 2 - 1) 1
    ∧ Readable base 5 (base.areg 6 - 1) 1 ∧ Writable base 5 (base.areg 5 - 2) 2 :=
  ⟨rfl, by decide, ⟨rfl, rfl, rfl⟩, ⟨rfl, rfl, rfl⟩, ⟨rfl, rfl, rfl⟩, ⟨rfl, rfl, rfl⟩⟩
theorem witness_ConditionsAfterCompare : 0 < 1 ∧ 0 < 8 := by decide
/-- DBcc with its condition, without it at the last count, and without it before. -/
theorem witness_Branches : base.traceFlow = false ∧ (base.pc + 2 + BranchDisp.value (.byte 0xFE)).getLsbD 0 = false
    ∧ (base.pc + 2 + sext (0xFFFE : Word)).getLsbD 0 = false ∧ condHolds .t base.ccr = true ∧ condHolds .f base.ccr = false
    ∧ lowPart .word (base.dreg 0) = 0 ∧ lowPart .word ((d 0 1 base).dreg 0) ≠ 0 := by decide
theorem witness_JumpsAndCalls : base.traceFlow = false ∧ eaAddress 4 0 (.absW 0x8000) base = .ok 0xFFFF8000 base
    ∧ (0xFFFF8000 : Long).getLsbD 0 = false ∧ Writable base base.dataFc (base.sp - 4) 4
    ∧ (base.pc + 2 + BranchDisp.value (.word 0x7FFE)).getLsbD 0 = false :=
  ⟨rfl, rfl, rfl, ⟨rfl, rfl, rfl⟩, rfl⟩
theorem witness_Returns : base.traceFlow = false ∧ Readable base base.dataFc base.sp 6 ∧ Readable base base.dataFc base.sp 4
    ∧ (peek base base.dataFc .long base.sp).getLsbD 0 = false
    ∧ (peek base base.dataFc .long (base.sp + 2)).getLsbD 0 = false :=
  ⟨rfl, ⟨rfl, rfl, rfl⟩, ⟨rfl, rfl, rfl⟩, rfl, rfl⟩
theorem witness_StackFrames : base.traceAll = false ∧ (6 : Reg) ≠ 7 ∧ Writable base base.dataFc (base.sp - 4) 4
    ∧ Readable base base.dataFc (base.areg 6) 4 ∧ eaAddress 4 0 (.absL 0xFFFFFFFF) base = .ok 0xFFFFFFFF base :=
  ⟨rfl, by decide, ⟨rfl, rfl, rfl⟩, ⟨rfl, rfl, rfl⟩, rfl⟩

/-- Condition codes and draws do not matter to the entry of an exception. -/
theorem canEnter_codes {s : State} {vec : BitVec 8} {k : Nat} (h : CanEnter s vec k) (n : Nat) (f : Ccr) :
    CanEnter ((withDraws n s).setCcr f) vec k := by
  have hsp : frameAt ((withDraws n s).setCcr f) k = frameAt s k := by
    unfold frameAt entryState State.sp State.super
    simp [withDraws, srException_srS, srException_srM]
  obtain ⟨h1, h2, h3, h4⟩ := h
  unfold CanEnter
  rw [hsp]
  exact ⟨h1, h2, h3, h4⟩
theorem canEnter_trap : CanEnter base 5 12 ∧ CanEnter base 6 12 :=
  ⟨⟨⟨rfl, rfl, rfl⟩, ⟨rfl, rfl, rfl⟩, by decide, rfl⟩, ⟨rfl, rfl, rfl⟩, ⟨rfl, rfl, rfl⟩, by decide, rfl⟩

/-- Bounds 0 and 0: the value 0 is inside, 1 is outside. -/
theorem witness_Bounds : base.traceAll = false ∧ base.traceFlow = false ∧ eaAddress 1 1 (.ind 0) base = .ok 0 base
    ∧ readMem .byte 0 base = .ok (0 : Byte) base ∧ readMem .byte 1 base = .ok (0 : Byte) base
    ∧ ((0 : Byte).ule 0 ∧ (0 : Byte).ule (lowPart .byte (base.greg 0)) ∧ (lowPart .byte (base.greg 0)).ule (0 : Byte))
    ∧ ((0 : Byte) - 0).ult (lowPart .byte ((d 0 1 base).greg 0) - 0) = true
    ∧ ∀ n f, CanEnter ((withDraws n base).setCcr f) 6 12 :=
  ⟨rfl, rfl, rfl, rfl, rfl, by decide, by decide, fun n f => canEnter_codes canEnter_trap.2 n f⟩
theorem witness_MovemStores : base.traceAll = false ∧ (∀ r, Ea.idx 0 (.brief ⟨0, false, 0⟩ 0) ≠ .preDec r)
    ∧ MovemAddress .long (.idx 0 (.brief ⟨0, false, 0⟩ 0)) base { base with movemEa := none } 0
    ∧ MovemAddress .long (.pcDisp 0) { base with movemEa := some 0x3000 } base 0x3000
    ∧ Writable base base.dataFc 0 (rank (fun i => (0xFFFF : Word).getLsbD i) 16 * 4)
    ∧ Writable base base.dataFc (base.areg 7 - 64) 64 :=
  ⟨rfl, nofun, rfl, ⟨rfl, rfl⟩, ⟨rfl, rfl, rfl⟩, ⟨rfl, rfl, rfl⟩⟩
theorem witness_MovemLoads : base.traceAll = false ∧ Readable base base.dataFc (base.areg 7) 64
    ∧ (∀ r, Ea.ind 0 ≠ .postInc r) ∧ MovemAddress .word (.ind 0) base { base with movemEa := none } 0
    ∧ MovemAddress .word (.pcIdx (.brief ⟨0, false, 0⟩ 0)) { base with movemEa := some 0x3000 } base 0x3000 :=
  ⟨rfl, ⟨rfl, rfl, rfl⟩, nofun, rfl, rfl, rfl⟩
theorem witness_Movep : base.traceAll = false
    ∧ (∀ k < 4, Readable base base.dataFc (base.areg 0 + sext (0xFFFF : Word) + BitVec.ofNat 32 (2 * k)) 1)
    ∧ ∀ k < 4, Writable base base.dataFc (base.areg 0 + sext (0xFFFF : Word) + BitVec.ofNat 32 (2 * k)) 1 := by
  refine ⟨rfl, ?_, ?_⟩ <;> intro k hk <;> interval_cases k <;> exact ⟨rfl, rfl, rfl⟩
theorem witness_Move16 : base.traceAll = false ∧ Readable base base.dataFc (0xFFFFFFFF &&& 0xFFFFFFF0) 16
    ∧ Writable base base.dataFc (base.areg 0 &&& 0xFFFFFFF0) 16 ∧ (0 : Reg) ≠ 1 :=
  ⟨rfl, ⟨rfl, rfl, rfl⟩, ⟨rfl, rfl, rfl⟩, by decide⟩
theorem witness_StatusRegister : base.super = true ∧ base.traceFlow = false ∧ CanRead base .word 0 (.imm 0xFFFF) :=
  ⟨rfl, rfl, rfl, _, _, rfl⟩
theorem witness_ControlRegisters : base.super = true ∧ base.traceAll = false := ⟨rfl, rfl⟩
theorem witness_Moves : base.super = true ∧ base.traceAll = false
    ∧ ∃ s1, eaAddress 4 1 (.postInc 0) base = .ok 0 s1 ∧ Writable s1 base.dfc 0 4 ∧ Readable s1 base.sfc 0 4 :=
  ⟨rfl, rfl, _, rfl, ⟨rfl, rfl, rfl⟩, ⟨rfl, rfl, rfl⟩⟩
theorem witness_LockedOperations : base.traceAll = false ∧ (∀ r, Ea.ind 0 ≠ .dn r) ∧ eaAddress 1 0 (.ind 0) base = .ok 0 base
    ∧ Lockable base base.dataFc 0 1 ∧ eaAddress 4 1 (.absL 0xFFFFFFFF) base = .ok 0xFFFFFFFF base
    ∧ Lockable base base.dataFc 0xFFFFFFFF 4 ∧ (0 : Reg) ≠ 1 ∧ Lockable base base.dataFc (base.greg 8) 4
    ∧ Lockable base base.dataFc (base.greg 9) 4 :=
  ⟨rfl, nofun, rfl, ⟨rfl, rfl, rfl, rfl⟩, rfl, ⟨rfl, rfl, rfl, rfl⟩, by decide, ⟨rfl, rfl, rfl, rfl⟩, ⟨rfl, rfl, rfl, rfl⟩⟩
theorem witness_CacheMaintenance : (let s := { base with dcache := .live, dirty := [(0x200F, 5), (0x2010, 6)] }
    s.super = true ∧ s.traceAll = false ∧ (∀ l, pushFails s l = false) ∧ s.platform.devices = [] ∧ s.platform.roms = []
    ∧ s.romCells = [] ∧ selectsData .both = true ∧ s.dcache ≠ .unknown ∧ dcacheOn s = false ∧ (0x200F, 5) ∈ s.dirty
    ∧ inScope .line 0x2000 0x200F = true ∧ inScope .line 0x2000 0x2010 = false
    ∧ (∀ e ∈ s.dirty, e.1 = 0x200F → e = (0x200F, 5)) ∧ selectsInstr .both = true ∧ selectsData .instr = false) :=
  ⟨rfl, rfl, fun _ => by simp [pushFails, busErrorAt, base, State.reset, Platform.plain], rfl, rfl, rfl, rfl, nofun, rfl,
    by decide, by decide, by decide, by decide, rfl, rfl⟩

theorem canEnter_base (vec : BitVec 8) (h : vec ∈ [3, 4, 8, 9, 10, 11, 14, 25, 31, 32, 47]) : CanEnter base vec 8 := by
  simp only [List.mem_cons, List.not_mem_nil, or_false] at h
  rcases h with h | h | h | h | h | h | h | h | h | h | h <;> subst h <;>
    exact ⟨⟨rfl, rfl, rfl⟩, ⟨rfl, rfl, rfl⟩, by decide, rfl⟩
theorem witness_ExceptionInstructions : base.traceFlow = false ∧ base.super = true ∧ CanEnter base 4 8 ∧ CanEnter base 10 8
    ∧ CanEnter base 11 8 ∧ CanEnter base (32 + (0 : BitVec 4).setWidth 8) 8 ∧ CanEnter base (32 + (15 : BitVec 4).setWidth 8) 8
    ∧ ∀ c ∈ [0x000, 0x001, 0x002, 0x003, 0x004, 0x005, 0x006, 0x007, 0x800, 0x801, 0x803, 0x804, 0x805, 0x806, 0x807],
      (0x802 : BitVec 12).toNat ≠ c :=
  ⟨rfl, rfl, canEnter_base _ (by decide), canEnter_base _ (by decide), canEnter_base _ (by decide),
    canEnter_base _ (by decide), canEnter_base _ (by decide), by decide⟩
theorem witness_FloatingPointWords : 6 ≤ (0x180 : BitVec 9).toNat / 64 ∧ (0x17F : BitVec 9).toNat / 64 < 6
    ∧ CanEnter base 11 8 ∧ CanEnter base 11 16 ∧ (fetchWords base base.pc maxWords).1.length = maxWords
    ∧ (let s := failing 0x2C 0x2F base
       Writable s 5 (frameAt s 16) 16 ∧ readFaults s false 5 (vectorAddress s 11) 4 = true ∧ CanEnter s 2 60)
    ∧ (let s := failing 0x1002 0x1003 base
       (fetchWords s s.pc maxWords).1.length = 1 ∧ (fetchWords s s.pc maxWords).2 = some (.fault 0x1002) ∧ CanEnter s 2 60) :=
  ⟨by decide, by decide, canEnter_base _ (by decide), ⟨⟨rfl, rfl, rfl⟩, ⟨rfl, rfl, rfl⟩, by decide, rfl⟩, by decide,
    ⟨⟨rfl, rfl, rfl⟩, rfl, ⟨rfl, rfl, rfl⟩, ⟨rfl, rfl, rfl⟩, by decide, rfl⟩,
    by decide, by decide, ⟨rfl, rfl, rfl⟩, ⟨rfl, rfl, rfl⟩, by decide, rfl⟩
/-- CHK of 0 against 0 completes, of -1 and of 1 against 0 traps. -/
theorem witness_ConditionalTraps : base.traceFlow = false ∧ readEa .word 0 (.imm 0) base = .ok (0 : Word) base
    ∧ readEa .long 0 (.imm 0) base = .ok (0 : Long) base ∧ base.ccr.v = false ∧ (sr 0x2702 base).ccr.v = true
    ∧ CanEnter (sr 0x2702 base) 7 12 ∧ (lowPart .word ((d 0 0xFFFF base).dreg 0)).toInt < 0
    ∧ (0 : Word).toInt < (lowPart .word ((d 0 1 base).dreg 0)).toInt ∧ ∀ n f, CanEnter ((withDraws n base).setCcr f) 6 12 :=
  ⟨rfl, rfl, rfl, rfl, rfl, ⟨⟨rfl, rfl, rfl⟩, ⟨rfl, rfl, rfl⟩, by decide, rfl⟩, by decide, by decide,
    fun n f => canEnter_codes canEnter_trap.2 n f⟩
theorem witness_ZeroDivide : base.traceFlow = false ∧ readEa .word 0 (.imm 0) base = .ok (0 : Word) base
    ∧ readEa .long 1 (.imm 0) base = .ok (0 : Long) base ∧ (0 : Reg) ≠ 1
    ∧ ∀ n f, CanEnter ((withDraws n base).setCcr f) 5 12 :=
  ⟨rfl, rfl, rfl, by decide, fun n f => canEnter_codes canEnter_trap.1 n f⟩
theorem witness_PrivilegeViolation : user.super = false ∧ CanEnter user 8 8 := ⟨rfl, ⟨rfl, rfl, rfl⟩, ⟨rfl, rfl, rfl⟩, by decide, rfl⟩
theorem witness_OddTargets : (base.pc + 2 + BranchDisp.value (.byte 1)).getLsbD 0 = true
    ∧ Writable base base.dataFc (base.sp - 4) 4 ∧ CanEnter base 3 12
    ∧ CanEnter (pushed (nextPc (.bsr (.byte 1)) base) base) 3 12
    ∧ (base.pc + 2 + sext (0xFFFF : Word)).getLsbD 0 = true ∧ (condHolds .f base.ccr || lowPart .word (base.dreg 0) == 0) = true
    ∧ (condHolds .f (d 0 1 base).ccr || lowPart .word ((d 0 1 base).dreg 0) == 0) = false
    ∧ eaAddress 4 0 (.absL 0x2001) base = .ok 0x2001 base ∧ (0x2001 : Long).getLsbD 0 = true
    ∧ Readable (word 0x8002 1 base) 5 0x8000 4 ∧ (peek (word 0x8002 1 base) 5 .long 0x8000).getLsbD 0 = true
    ∧ (peek (word 0x8004 1 base) 5 .long 0x8002).getLsbD 0 = true ∧ Readable (word 0x8004 1 base) 5 0x8000 8
    ∧ (peek (word 0x8004 1 base) 5 .word 0x8006).toNat / 4096 = 0 ∧ CanEnter (withSr 0x2000 (word 0x8004 1 base)) 3 12 :=
  ⟨rfl, ⟨rfl, rfl, rfl⟩, ⟨⟨rfl, rfl, rfl⟩, ⟨rfl, rfl, rfl⟩, by decide, rfl⟩, ⟨⟨rfl, rfl, rfl⟩, ⟨rfl, rfl, rfl⟩, by decide, rfl⟩, rfl, rfl, rfl, rfl,
    rfl, ⟨rfl, rfl, rfl⟩, rfl, rfl, ⟨rfl, rfl, rfl⟩, rfl, ⟨rfl, rfl, rfl⟩, ⟨rfl, rfl, rfl⟩, by decide, rfl⟩
theorem witness_AccessErrors : (let s := failing 0x3000 0x3003 base
    operand .word 0 (.absW 0x3003) s = .ok (.mem 0x3003) s ∧ readFaults s false s.dataFc 0x3003 2 = true
    ∧ writeFaults s s.dataFc 0x3003 2 = true ∧ s.traceAll = false ∧ CanEnter s 2 60
    ∧ writeFaults s s.dataFc (s.areg 0 + sext (0x3001 : Word)) 1 = true
    ∧ writeFaults s s.dataFc (s.areg 0 + sext (0x3001 : Word) + 2) 1 = true) :=
  ⟨rfl, rfl, rfl, rfl, ⟨⟨rfl, rfl, rfl⟩, ⟨rfl, rfl, rfl⟩, by decide, rfl⟩, rfl, rfl⟩
/-- The byte below the stack pointer cannot be written: in user and in supervisor mode, with V set, an odd target, an
operand there, a trace, a frame of format $5, an interrupt. -/
theorem witness_DoubleBusFault : (let f (s : State) : State := failing 0x7FFF 0x7FFF s
    (∀ s ∈ [user, base, sr 0x2702 base, sr 0xA700 base, word 0x8006 0x5000 base, { base with pending := some 7, ipl := 7 }],
      writeFaults (f s) 5 (frameAt (f s) 8) 8 = true)
    ∧ (f user).super = false ∧ (f (sr 0x2702 base)).ccr.v = true ∧ condHolds .t (f base).ccr = true
    ∧ eaAddress 4 0 (.absL 0x2001) (f base) = .ok 0x2001 (f base)
    ∧ operand .byte 0 (.absW 0x7FFF) (f base) = .ok (.mem 0x7FFF) (f base) ∧ readFaults (f base) false 5 0x7FFF 1 = true
    ∧ (f (sr 0xA700 base)).traceAll = true ∧ Readable (f (word 0x8006 0x5000 base)) 5 0x8000 8
    ∧ (∀ x ∈ [0, 1, 2, 3, 4, 7], (peek (f (word 0x8006 0x5000 base)) 5 .word 0x8006).toNat / 4096 ≠ x)
    ∧ Interrupted (f { base with pending := some 7, ipl := 7 }) 7) :=
  ⟨by decide, rfl, rfl, rfl, rfl, rfl, rfl, rfl, ⟨rfl, rfl, rfl⟩, by decide, .inl rfl, rfl, rfl, rfl⟩
/-- Frames of each format at the stack pointer, and a throwaway frame that leads to a frame in user data. -/
theorem witness_ReturnFromException : base.super = true ∧ base.traceFlow = false ∧ Unwinds 0 base base ∧ FrameReadable base 8
    ∧ (∀ f ∈ [0, 2, 3, 4, 7], frameFormat (word 0x8006 (BitVec.ofNat 16 (4096 * f)) base) = f)
    ∧ (framePc base).getLsbD 0 = false ∧ FrameReadable (word 0x8006 0x7008 base) 14
    ∧ (∀ i ∈ [12, 13, 14], (peek (word 0x8006 0x7008 base) 5 .word 0x800C).getLsbD i = false)
    ∧ (let s := word 0x8006 0x1000 base
       let u := framePopped s 8
       Unwinds 1 s u ∧ u.super = false ∧ FrameReadable u 8 ∧ frameFormat u = 0 ∧ (framePc u).getLsbD 0 = false) :=
  ⟨rfl, rfl, rfl, ⟨⟨rfl, rfl, rfl⟩, rfl⟩, by decide, rfl, ⟨⟨rfl, rfl, rfl⟩, rfl⟩, by decide,
    ⟨⟨⟨rfl, rfl, rfl⟩, rfl⟩, rfl, rfl⟩, rfl, ⟨⟨rfl, rfl, rfl⟩, rfl⟩, rfl, rfl⟩
theorem witness_ReturnFromAccessError : base.super = true ∧ base.traceFlow = false ∧ Readable base 5 base.sp 14
    ∧ (peek (word 0x8006 0x7008 base) 5 .word 0x8006).toNat / 4096 = 7
    ∧ ((peek (word 0x800C 0x2000 base) 5 .word 0x800C).getLsbD 13 = true
      ∧ (peek (word 0x800C 0x4000 base) 5 .word 0x800C).getLsbD 14 = true
      ∧ (peek (word 0x800C 0x1000 base) 5 .word 0x800C).getLsbD 12 = true)
    ∧ Writable base 5 (base.sp + 0x30) 12 ∧ Readable base 5 (vectorAddress base 9) 4
    ∧ (∀ j < 4, ∀ k < 12, vectorAddress base 9 + BitVec.ofNat 32 j ≠ base.sp + 0x30 + BitVec.ofNat 32 k)
    ∧ (∀ j < 4, ∀ k < 12, vectorAddress base 11 + BitVec.ofNat 32 j ≠ base.sp + 0x30 + BitVec.ofNat 32 k)
    ∧ (∀ f ∈ [0, 1, 2, 3, 4, 7], (peek (word 0x8006 0x5000 base) 5 .word 0x8006).toNat / 4096 ≠ f) ∧ CanEnter base 14 8 :=
  ⟨rfl, rfl, ⟨rfl, rfl, rfl⟩, rfl, ⟨rfl, rfl, rfl⟩, ⟨rfl, rfl, rfl⟩, ⟨rfl, rfl, rfl⟩, by decide, by decide, by decide,
    canEnter_base _ (by decide)⟩
/-- An interrupt at level 7 with M = 0 and with M = 1, whose frames lie apart. -/
theorem witness_Interrupts : Interrupted { base with pending := some 7, ipl := 7 } 7
    ∧ CanEnter { base with pending := some 7, ipl := 7 } 31 8
    ∧ (let s := { base with sr := 0x3700, msp := 0x9000, pending := some 7, ipl := 7 }
       Interrupted s 7 ∧ srM s.sr = true ∧ interruptVector s 7 = 31 ∧ Writable s 5 (s.msp - 8) 8 ∧ Writable s 5 (s.isp - 8) 8
       ∧ Readable s 5 (vectorAddress s 31) 4 ∧ (peek s 5 .long (vectorAddress s 31)).getLsbD 0 = false
       ∧ (∀ j < 8, ∀ k < 8, s.msp - 8 + BitVec.ofNat 32 j ≠ s.isp - 8 + BitVec.ofNat 32 k)
       ∧ (∀ j < 4, ∀ k < 8, vectorAddress s 31 + BitVec.ofNat 32 j ≠ s.msp - 8 + BitVec.ofNat 32 k
         ∧ vectorAddress s 31 + BitVec.ofNat 32 j ≠ s.isp - 8 + BitVec.ofNat 32 k)) :=
  ⟨⟨.inl rfl, rfl, rfl, rfl⟩, ⟨⟨rfl, rfl, rfl⟩, ⟨rfl, rfl, rfl⟩, by decide, rfl⟩, ⟨.inl rfl, rfl, rfl, rfl⟩, rfl, rfl,
    ⟨rfl, rfl, rfl⟩, ⟨rfl, rfl, rfl⟩, ⟨rfl, rfl, rfl⟩, rfl, by decide, by decide⟩
theorem witness_Trace : (let s := sr 0x6700 base
    (sr 0xA700 base).traceAll = true ∧ s.traceFlow = true ∧ s.super = true
    ∧ CanEnter (past .nop (sr 0xA700 base) (sr 0xA700 base)) 9 12
    ∧ operand .long 0 (.ind 0) (sr 0xA700 base) = .ok (.mem 0) (sr 0xA700 base) ∧ CanStore .long (.mem 0) (sr 0xA700 base)
    ∧ (s.pc + 2 + BranchDisp.value (.byte 0xFE)).getLsbD 0 = false ∧ CanEnter (jumped 0x1000 s) 9 12
    ∧ Writable s s.dataFc (s.sp - 4) 4 ∧ CanEnter (jumped 0x1000 (pushed (nextPc (.bsr (.byte 0xFE)) s) s)) 9 12
    ∧ eaAddress 4 0 (.absW 0x2000) s = .ok 0x2000 s ∧ Readable s s.dataFc s.sp 4
    ∧ (peek s s.dataFc .long s.sp).getLsbD 0 = false ∧ FrameReadable s 8 ∧ frameFormat s = 0 ∧ (framePc s).getLsbD 0 = false
    ∧ CanEnter (jumped 0 (framePopped s 8)) 9 12 ∧ readEa .word 0 (.imm 0) s = .ok (0 : Word) s
    ∧ CanEnter (jumped 0x1004 (withSr 0 s)) 9 12 ∧ Writable s 5 (frameAt s 20) 20
    ∧ (∀ v ∈ [9, 32, 47], Readable s 5 (vectorAddress s v) 4 ∧ (peek s 5 .long (vectorAddress s v)).getLsbD 0 = false
      ∧ ∀ j < 4, ∀ k < 20, vectorAddress s v + BitVec.ofNat 32 j ≠ frameAt s 20 + BitVec.ofNat 32 k)) := by
  refine ⟨rfl, rfl, rfl, ⟨⟨rfl, rfl, rfl⟩, ⟨rfl, rfl, rfl⟩, by decide, rfl⟩, rfl, ⟨rfl, rfl, rfl⟩, rfl,
    ⟨⟨rfl, rfl, rfl⟩, ⟨rfl, rfl, rfl⟩, by decide, rfl⟩, ⟨rfl, rfl, rfl⟩,
    ⟨⟨rfl, rfl, rfl⟩, ⟨rfl, rfl, rfl⟩, by decide, rfl⟩, rfl, ⟨rfl, rfl, rfl⟩, rfl, ⟨⟨rfl, rfl, rfl⟩, rfl⟩, rfl, rfl,
    ⟨⟨rfl, rfl, rfl⟩, ⟨rfl, rfl, rfl⟩, by decide, rfl⟩, rfl,
    ⟨⟨rfl, rfl, rfl⟩, ⟨rfl, rfl, rfl⟩, by decide, rfl⟩, ⟨rfl, rfl, rfl⟩, fun v hv => ?_⟩
  simp only [List.mem_cons, List.not_mem_nil, or_false] at hv
  rcases hv with rfl | rfl | rfl <;> exact ⟨⟨rfl, rfl, rfl⟩, rfl, by decide⟩
theorem witness_Waiting : base.pending = none ∧ ({ base with run := .halted } : State).run = .halted
    ∧ (let s := { base with run := .stopped, ipl := 7 }
       s.run = .stopped ∧ s.pending = none ∧ ¬ srMask s.sr < s.ipl)
    ∧ (let s := { base with pending := some 7, ipl := 7, movemEa := some 4 }
       Interrupted s 7 ∧ ∃ t, step s = .next t ∧ t.run = .running) :=
  ⟨by decide, by decide, by decide, ⟨.inl rfl, rfl, rfl, rfl⟩, _, rfl, rfl⟩
theorem runs_base : Runs base := ⟨rfl, rfl, by decide, rfl, rfl⟩
theorem witness_StepRunsDecoded : Runs base ∧ base.pc.getLsbD 0 = false ∧ beginFetch base = base
    ∧ decode (fetchWords base base.pc maxWords).1 = .ok (.ori .byte 0 (.dn 0))
    ∧ touches base.platform.devices base.codeFc base.pc (2 * maxWords) = false :=
  ⟨runs_base, rfl, rfl, by decide, rfl⟩
theorem witness_StepWithoutInstruction : Runs { base with pc := 0xFFFFFFFF } ∧ CanEnter { base with pc := 0xFFFFFFFF } 3 12
    ∧ (let s := word 0x1000 0x4E7F base
       Runs s ∧ decode (fetchWords s s.pc maxWords).1 = .illegal ∧ CanEnter s 4 8)
    ∧ (let s := failing 0x1000 0x1001 base
       Runs s ∧ s.pc.getLsbD 0 = false ∧ busErrorAt s s.codeFc s.pc false = true ∧ CanEnter s 2 60) :=
  ⟨⟨rfl, rfl, by decide, rfl, rfl⟩, ⟨⟨rfl, rfl, rfl⟩, ⟨rfl, rfl, rfl⟩, by decide, rfl⟩,
    ⟨⟨rfl, rfl, by decide, rfl, rfl⟩, by decide, ⟨rfl, rfl, rfl⟩, ⟨rfl, rfl, rfl⟩, by decide, rfl⟩,
    ⟨rfl, rfl, by decide, rfl, rfl⟩, rfl, rfl, ⟨rfl, rfl, rfl⟩, ⟨rfl, rfl, rfl⟩, by decide, rfl⟩
theorem witness_MemoryReadsBack : Memory.wf base.mem ∧ Memory.wf (poke base 5 .long 0xFFFFFFFE 0x01000203).mem
    ∧ (let w : Window := { fc := none, lo := 0x3000, hi := 0x3003 }
       let s : State := { base with platform := { base.platform with devices := [w] } }
       let r : State := { base with platform := { base.platform with roms := [w] } }
       touches s.platform.devices s.dataFc 0x3003 4 = true ∧ touches s.platform.devices s.dataFc 0x3004 4 = false
       ∧ readFaults s false s.dataFc 0x3003 4 = false ∧ writeFaults s s.dataFc 0x3003 4 = false
       ∧ staleAccess s s.dataFc 0x3003 4 = false ∧ (0x3000 : Long).toNat % 4 = 0
       ∧ touches s.platform.devices s.dataFc 0x3000 4 = true ∧ readFaults s false s.dataFc 0x3000 4 = false
       ∧ writeFaults s s.dataFc 0x3000 4 = false ∧ staleAccess s s.dataFc 0x3000 4 = false
       ∧ ∀ k < 4, touches r.platform.roms r.dataFc (0x3000 + BitVec.ofNat 32 k) 1 = true) := by decide
theorem witness_Operands : Readable base base.dataFc 0xFFFFFFFD 4 ∧ eaAddress 4 0 (.ind 7) base = .ok 0x8000 base
    ∧ Readable base base.dataFc 0x8000 4 :=
  ⟨⟨rfl, rfl, rfl⟩, rfl, ⟨rfl, rfl, rfl⟩⟩
/-- The first register matches; the second one only; none. -/
theorem witness_AccessControl :
    acrMatch ({ base with dacr0 := 0x000FA004 } : State).dacr0 0x0FFFFFFF true = true
    ∧ (acrMatch (0 : Long) 0x10000000 true = false ∧ acrMatch 0x10FFC020 0x10000000 true = true)
    ∧ acrMatch 0x000FA004 0x10000000 true = false := by decide
theorem witness_ResetException : (hostReset base).run = .inReset ∧ readFaults (takeReset (hostReset base)) false 5 0 8 = false
    ∧ readFaults (takeReset (hostReset (failing 0 0 base))) false 5 0 8 = true ∧ (hostReset base).cacr = 0 :=
  ⟨rfl, rfl, rfl, rfl⟩
theorem inv_base : Inv base where
  mem := by decide
  sr := rfl
  trace := rfl
  cacr := rfl
  iacr0 := rfl
  iacr1 := rfl
  dacr0 := rfl
  dacr1 := rfl
  dirty := nofun
  roms := nofun
  stale := nofun
  pc := fun _ => rfl
theorem witness_StepKeepsInv : Inv base ∧ ∃ t, step base = .next t := ⟨inv_base, _, rfl⟩
theorem witness_DecodeEncode : (Instr.move .long (.idx 7 (.full ⟨15, true, 3⟩ true false (.long 0xFFFFFFFF)
    (.post (.long 0xFFFFFFFF)))) (.absL 0xFFFFFFFF)).wf = true := by decide
theorem witness_DecodedIsWellFormed : decode [0x4E71] = .ok .nop := by decide

end Sys2Proof.Tests
end

section
/-! The proofs of the memory family: the canonical form determines memory, what a bus transfer does, what an access
where a device stands does transfer by transfer, and the access control registers (20_memory R84, R87, R101 to R104). -/

namespace Sys2Proof.Machine

open Sys2Proof.Claim

/-! ## Memory in canonical form -/

/-- The entries of memory in canonical form are the bytes that do not read as unlisted ones. -/
theorem Memory.mem_iff_get {m : List Host.Cell} (h : Memory.wf m) (c : Host.Cell) :
    c ∈ m ↔ c.2 ≠ Config.unlisted ∧ Memory.get m c.1 = c.2 := by
  induction m with
  | nil => simpa [Memory.get] using fun hc he => hc he.symm
  | cons b rest ih =>
    obtain ⟨hsorted, hcells⟩ := h
    obtain ⟨hlt, hrest⟩ := List.pairwise_cons.mp hsorted
    have ih := ih ⟨hrest, fun e he => hcells e (List.mem_cons_of_mem _ he)⟩
    by_cases hk : b.1 = c.1
    · have hnot : c ∉ rest := fun hc => absurd (hlt c hc) (by omega)
      have hb := (hcells b (by simp)).2
      simp only [List.mem_cons, hnot, or_false, Memory.get, hk, if_true]
      constructor
      · rintro rfl
        exact ⟨hb, rfl⟩
      · rintro ⟨-, hv⟩
        exact Prod.ext hk.symm hv.symm
    · have hne : c ≠ b := fun e => hk (by rw [e])
      simp only [List.mem_cons, hne, false_or, Memory.get, hk, if_false, ih]

/-- Memories in canonical form that read alike are equal. -/
theorem Memory.eq_of_get {m n : List Host.Cell} (hm : Memory.wf m) (hn : Memory.wf n)
    (h : ∀ k, Memory.get m k = Memory.get n k) : m = n := by
  have hnodup : ∀ {l : List Host.Cell}, Memory.wf l → l.Nodup := fun hl =>
    hl.1.imp fun hlt he => absurd (congrArg Prod.fst he) (Nat.ne_of_lt hlt)
  have hperm : m.Perm n := (List.perm_ext_iff_of_nodup (hnodup hm) (hnodup hn)).mpr fun c => by
    rw [Memory.mem_iff_get hm, Memory.mem_iff_get hn, h]
  exact hperm.eq_of_pairwise (fun c d _ _ hcd hdc => absurd hcd (Nat.lt_asymm hdc)) hm.1 hn.1

/-! ## The bytes of an operand -/

theorem mem_addrsOf {x a : Long} {n : Nat} : x ∈ addrsOf a n ↔ ∃ k < n, a + BitVec.ofNat 32 k = x := by
  simp [addrsOf]

theorem add_mem_addrsOf {a : Long} {k n : Nat} (hk : k < 2 ^ 32) (hn : n ≤ 2 ^ 32) :
    a + BitVec.ofNat 32 k ∈ addrsOf a n ↔ k < n := by
  rw [mem_addrsOf]
  constructor
  · rintro ⟨j, hj, he⟩
    by_contra hkn
    exact addr_ne (by omega) hk (by omega) he
  · exact fun h => ⟨k, h, rfl⟩

theorem add_ofNat_add (a : Long) (j k : Nat) :
    a + BitVec.ofNat 32 j + BitVec.ofNat 32 k = a + BitVec.ofNat 32 (j + k) := by
  rw [BitVec.ofNat_add, BitVec.add_assoc]

/-- The first bytes of an access are bytes of it. -/
theorem addrsOf_subset_of_le (a : Long) {m n : Nat} (h : m ≤ n) : addrsOf a m ⊆ addrsOf a n := fun x hx => by
  obtain ⟨k, hk, rfl⟩ := mem_addrsOf.mp hx
  exact mem_addrsOf.mpr ⟨k, by omega, rfl⟩

/-- The bytes after the first `m` of an access are bytes of it. -/
theorem addrsOf_add_subset (a : Long) (m n : Nat) :
    addrsOf (a + BitVec.ofNat 32 m) (n - m) ⊆ addrsOf a n := fun x hx => by
  obtain ⟨k, hk, rfl⟩ := mem_addrsOf.mp hx
  exact mem_addrsOf.mpr ⟨m + k, by omega, (add_ofNat_add _ _ _).symm⟩

/-- The byte at offset `k` is after the first `m` bytes of an access only if `k` is `m` or more. -/
theorem le_of_add_mem_addrsOf {a : Long} {k m n : Nat} (hk : k < n) (hm : m ≤ n) (hn : n ≤ 2 ^ 32)
    (h : a + BitVec.ofNat 32 k ∈ addrsOf (a + BitVec.ofNat 32 m) (n - m)) : m ≤ k := by
  obtain ⟨j, hj, he⟩ := mem_addrsOf.mp h
  rw [add_ofNat_add] at he
  by_contra hlt
  exact addr_ne (by omega) (by omega) (by omega) he

/-- A value before one more byte keeps its bytes, one place up. -/
theorem extractLsb'_append_byte {n i : Nat} (v : BitVec n) (b : Byte) :
    (v ++ b).extractLsb' (8 * (i + 1)) 8 = v.extractLsb' (8 * i) 8 := by
  rw [BitVec.extractLsb'_append_eq_of_le (by omega), show 8 * (i + 1) - 8 = 8 * i by omega]

/-- The bytes of an operand in memory are those of its value, the most significant first (20_memory R84). -/
theorem extractLsb'_peek (s : State) (fc : BitVec 3) (sz : Size) (a : Long) {k : Nat} (hk : k < sz.bytes) :
    (peek s fc sz a).extractLsb' (8 * (sz.bytes - 1 - k)) 8 = byteAt s fc (a + BitVec.ofNat 32 k) := by
  have first : byteAt s fc (a + BitVec.ofNat 32 0) = byteAt s fc a := by simp
  cases sz with
  | byte =>
    obtain rfl : k = 0 := by change k < 1 at hk; omega
    exact BitVec.extractLsb'_eq_self.trans first.symm
  | word =>
    have h : k = 0 ∨ k = 1 := by change k < 2 at hk; omega
    rcases h with rfl | rfl
    · exact ((extractLsb'_append_byte (i := 0) _ _).trans BitVec.extractLsb'_eq_self).trans first.symm
    · exact BitVec.extractLsb'_append_eq_right
  | long =>
    have h : k = 0 ∨ k = 1 ∨ k = 2 ∨ k = 3 := by change k < 4 at hk; omega
    rcases h with rfl | rfl | rfl | rfl
    · exact (extractLsb'_append_byte (i := 2) _ _).trans <| (extractLsb'_append_byte (i := 1) _ _).trans <|
        (extractLsb'_append_byte (i := 0) _ _).trans <| BitVec.extractLsb'_eq_self.trans first.symm
    · exact (extractLsb'_append_byte (i := 1) _ _).trans <| (extractLsb'_append_byte (i := 0) _ _).trans
        BitVec.extractLsb'_append_eq_right
    · exact (extractLsb'_append_byte (i := 0) _ _).trans BitVec.extractLsb'_append_eq_right
    · exact BitVec.extractLsb'_append_eq_right

/-- Each byte of an operand after it is written. -/
theorem byteAt_poke (s : State) (fc : BitVec 3) (sz : Size) (a : Long) (v : BitVec sz.bits) {k : Nat}
    (hk : k < sz.bytes) :
    byteAt (poke s fc sz a v) fc (a + BitVec.ofNat 32 k) = v.extractLsb' (8 * (sz.bytes - 1 - k)) 8 := by
  rw [← extractLsb'_peek _ fc sz a hk, peek_poke_same]

/-- The bytes below `m` of a value with `m` bytes appended are those appended. -/
theorem extractLsb'_shiftLeft_or_low (v w : BitVec 128) {j m : Nat} (hj : j < m) (hm : m ≤ 16) :
    (v <<< (8 * m) ||| lowBytes m w).extractLsb' (8 * j) 8 = w.extractLsb' (8 * j) 8 := by
  ext i hi
  simp [lowBytes, show 8 * j + i < 128 by omega, show 8 * j + i < 8 * m by omega]

/-- The bytes from `m` up of a value with `m` bytes appended are those before. -/
theorem extractLsb'_shiftLeft_or_high (v w : BitVec 128) {j m : Nat} (hj : m ≤ j) (h16 : j < 16) :
    (v <<< (8 * m) ||| lowBytes m w).extractLsb' (8 * j) 8 = v.extractLsb' (8 * (j - m)) 8 := by
  ext i hi
  simp [lowBytes, show 8 * j + i < 128 by omega, show ¬ 8 * j + i < 8 * m by omega,
    show 8 * j + i - 8 * m = 8 * (j - m) + i by omega, show 8 * (j - m) + i < 128 by omega]

/-- The bytes of the `m` bytes of a value that stand above its `n` low ones. -/
theorem extractLsb'_lowBytes_ushiftRight (v : BitVec 128) {j m n : Nat} (hj : j < m) (hm : m ≤ 16) :
    (lowBytes m (v >>> (8 * n))).extractLsb' (8 * j) 8 = v.extractLsb' (8 * (n + j)) 8 := by
  ext i hi
  simp [lowBytes, show 8 * j + i < 128 by omega, show 8 * j + i < 8 * m by omega,
    show 8 * n + (8 * j + i) = 8 * (n + j) + i by omega]

theorem memoryValue_succ (s : State) (fc : BitVec 3) (a : Long) (n : Nat) :
    memoryValue s fc a (n + 1)
      = memoryValue s fc a n <<< (8 * 1) ||| lowBytes 1 ((byteAt s fc (a + BitVec.ofNat 32 n)).setWidth 128) := by
  simp [memoryValue, addrsOf, List.range_succ, lowBytes]

/-- The bytes of a value read from memory, the most significant first (20_memory R84). -/
theorem extractLsb'_memoryValue (s : State) (fc : BitVec 3) (a : Long) {k n : Nat} (hk : k < n) (hn : n ≤ 16) :
    (memoryValue s fc a n).extractLsb' (8 * (n - 1 - k)) 8 = byteAt s fc (a + BitVec.ofNat 32 k) := by
  induction n with
  | zero => omega
  | succ n ih =>
    rw [memoryValue_succ]
    by_cases hlast : k = n
    · subst hlast
      rw [extractLsb'_shiftLeft_or_low _ _ (by omega) (by omega), BitVec.extractLsb'_setWidth_of_le (by omega)]
      simp
    · rw [extractLsb'_shiftLeft_or_high _ _ (by omega) (by omega), show n + 1 - 1 - k - 1 = n - 1 - k by omega,
        ih (by omega) (by omega)]

/-! ## The transfers of an access -/

/-- The parts follow one another and make up the `n` bytes from `a` up. -/
def Tiles : Long → Nat → List (Long × Nat) → Prop
  | _, n, [] => n = 0
  | a, n, p :: rest => p.1 = a ∧ p.2 ≤ n ∧ Tiles (a + BitVec.ofNat 32 p.2) (n - p.2) rest

/-- The transfers of an access make up its bytes. -/
theorem transfers_tile (a : Long) (n : Nat) : Tiles a n (transfers a n) := by
  unfold transfers
  split
  · next h =>
    obtain rfl : n = 2 := by simp_all
    simp [Tiles]
  · split
    · next h =>
      obtain rfl : n = 4 := by simp_all
      simp [Tiles, add_assoc]
    · split
      · next h =>
        obtain rfl : n = 4 := by simp_all
        simp [Tiles]
      · simp [Tiles]

/-- The transfers of an operand are those 20_memory R87 names. -/
theorem transfers_eq_alignedParts (a : Long) (sz : Size) : transfers a sz.bytes = alignedParts a sz := by
  have h0 : a[0] = decide (a.toNat % 2 = 1) := by simp [BitVec.getElem_eq_testBit_toNat, Nat.testBit_zero]
  have h1 : a[1] = decide (a.toNat / 2 % 2 = 1) := by simp [BitVec.getElem_eq_testBit_toNat, Nat.testBit_succ]
  cases sz with
  | byte => rfl
  | word =>
    by_cases heven : a.toNat % 2 = 0
    · simp [transfers, alignedParts, h0, heven]
    · simp [transfers, alignedParts, h0, heven]
  | long =>
    by_cases hfour : a.toNat % 4 = 0
    · rw [transfers_aligned hfour]
      simp [alignedParts, hfour]
    · by_cases heven : a.toNat % 2 = 0
      · simp [transfers, alignedParts, h0, h1, hfour, heven, show a.toNat / 2 % 2 = 1 by omega]
      · simp [transfers, alignedParts, h0, hfour, heven]

/-- A byte of a part is a byte of the whole. -/
theorem Tiles.mem_addrsOf {a x : Long} {n : Nat} {l : List (Long × Nat)} (h : Tiles a n l) {p : Long × Nat}
    (hp : p ∈ l) (hx : x ∈ addrsOf p.1 p.2) : x ∈ addrsOf a n := by
  induction l generalizing a n with
  | nil => cases hp
  | cons q rest ih =>
    obtain ⟨rfl, hle, hrest⟩ := h
    rcases List.mem_cons.mp hp with rfl | hp
    · exact addrsOf_subset_of_le _ hle hx
    · exact addrsOf_add_subset _ _ _ (ih hrest hp)

/-- A byte of a later part, counted from the address after the first part. -/
theorem Tiles.offset_of_mem_rest {a : Long} {k m n : Nat} {l : List (Long × Nat)}
    (h : Tiles (a + BitVec.ofNat 32 m) (n - m) l) (hm : m ≤ n) (hn : n ≤ 16) (hk : k < n) {p : Long × Nat} (hp : p ∈ l)
    (hx : a + BitVec.ofNat 32 k ∈ addrsOf p.1 p.2) :
    ∃ j < n - m, k = m + j ∧ a + BitVec.ofNat 32 k = a + BitVec.ofNat 32 m + BitVec.ofNat 32 j := by
  have hmk : m ≤ k := le_of_add_mem_addrsOf hk hm (by omega) (h.mem_addrsOf hp hx)
  exact ⟨k - m, by omega, by omega, by rw [add_ofNat_add, Nat.add_sub_cancel' hmk]⟩

/-- A read that is not ended by TEA does its first transfer and then the others. -/
theorem readTransfers_cons {fc : BitVec 3} {p : Long × Nat} {rest : List (Long × Nat)} {v w : BitVec 128} {s t : State}
    (h : readTransfers fc (p :: rest) v s = (some w, t)) :
    ∃ x u, readTransfers fc rest (v <<< (8 * p.2) ||| lowBytes p.2 x) u = (some w, t)
      ∧ u.mem = s.mem ∧ u.platform = s.platform
      ∧ cyclesOf u.bus = cyclesOf s.bus ++ [p].filter (fun p => touches s.platform.devices fc p.1 p.2)
      ∧ (touches s.platform.devices fc p.1 p.2 = false → x = memoryValue s fc p.1 p.2) := by
  by_cases hdev : touches s.platform.devices fc p.1 p.2 = true
  · simp only [readTransfers, hdev, if_true] at h
    split at h
    · next x _ => exact ⟨x, _, h, rfl, rfl, by simp [hdev, deviceCycle, cyclesOf], by simp [hdev]⟩
    · cases h
  · simp only [readTransfers, hdev] at h
    exact ⟨_, s, h, rfl, rfl, by simp [hdev], fun _ => rfl⟩

/-- What a read that is not ended by TEA gives and leaves: the bytes read before stand above, each transfer to a device is
recorded, the bytes of the others are those of memory. -/
theorem readTransfers_spec {fc : BitVec 3} {a : Long} {n : Nat} {l : List (Long × Nat)} {v w : BitVec 128} {s t : State}
    (hl : Tiles a n l) (hn : n ≤ 16) (h : readTransfers fc l v s = (some w, t)) :
    (∀ j, n ≤ j → j < 16 → w.extractLsb' (8 * j) 8 = v.extractLsb' (8 * (j - n)) 8)
    ∧ cyclesOf t.bus = cyclesOf s.bus ++ l.filter (fun p => touches s.platform.devices fc p.1 p.2)
    ∧ ∀ p ∈ l, touches s.platform.devices fc p.1 p.2 = false → ∀ k < n, a + BitVec.ofNat 32 k ∈ addrsOf p.1 p.2 →
      w.extractLsb' (8 * (n - 1 - k)) 8 = byteAt s fc (a + BitVec.ofNat 32 k) := by
  induction l generalizing a n v s with
  | nil =>
    obtain rfl : n = 0 := hl
    cases h
    simp
  | cons q rest ih =>
    obtain ⟨rfl, hle, hrest⟩ := hl
    obtain ⟨x, u, hu, hmem, hplat, hbus, hx⟩ := readTransfers_cons h
    obtain ⟨iabove, ibus, ibytes⟩ := ih hrest (by omega) hu
    rw [hplat] at ibus ibytes
    refine ⟨fun j hj h16 => ?_, ?_, fun p hp hdev k hk hin => ?_⟩
    · rw [iabove j (by omega) h16, extractLsb'_shiftLeft_or_high _ _ (by omega) (by omega)]
      congr 2
      omega
    · rw [ibus, hbus, List.append_assoc, ← List.filter_append, List.singleton_append]
    · rcases List.mem_cons.mp hp with rfl | hp
      · have hkp : k < p.2 := (add_mem_addrsOf (by omega) (by omega)).mp hin
        rw [iabove _ (by omega) (by omega), extractLsb'_shiftLeft_or_low _ _ (by omega) (by omega), hx hdev,
          ← extractLsb'_memoryValue s fc p.1 hkp (by omega)]
        congr 2
        omega
      · obtain ⟨j, hj, rfl, hx⟩ := hrest.offset_of_mem_rest hle hn hk hp hin
        rw [hx] at hin ⊢
        rw [← byteAt_congr hmem hplat, ← ibytes p hp hdev j hj hin]
        congr 2
        omega

/-- A write that is not ended by TEA does its first transfer and then the others. -/
theorem writeTransfers_cons {fc : BitVec 3} {p : Long × Nat} {rest : List (Long × Nat)} {v : BitVec 128} {n : Nat}
    {s t : State} (hp : p.2 ≤ n) (hn : n ≤ 16) (h : writeTransfers fc v (p :: rest) n s = (true, t)) :
    ∃ u, writeTransfers fc v rest (n - p.2) u = (true, t) ∧ u.platform = s.platform
      ∧ cyclesOf u.bus = cyclesOf s.bus ++ [p].filter (fun p => touches s.platform.devices fc p.1 p.2)
      ∧ (∀ x, x ∉ addrsOf p.1 p.2 → byteAt u fc x = byteAt s fc x)
      ∧ ∀ k < p.2, byteAt u fc (p.1 + BitVec.ofNat 32 k)
        = if touches s.platform.devices fc p.1 p.2 || touches s.platform.roms fc (p.1 + BitVec.ofNat 32 k) 1
          then byteAt s fc (p.1 + BitVec.ofNat 32 k) else v.extractLsb' (8 * (n - 1 - k)) 8 := by
  by_cases hdev : touches s.platform.devices fc p.1 p.2 = true
  · simp only [writeTransfers, hdev, if_true] at h
    split at h
    · refine ⟨_, h, rfl, by simp [hdev, deviceCycle, cyclesOf, afterRead, withRecords], fun _ _ => rfl, fun _ _ => ?_⟩
      rw [hdev, Bool.true_or, if_pos rfl]
      rfl
    · cases h
  · simp only [writeTransfers, hdev] at h
    obtain ⟨hplat, hbus, hout, hin⟩ :=
      writeBytes_spec s fc p.1 (by omega : p.2 ≤ 16) (lowBytes p.2 (v >>> (8 * (n - p.2))))
    refine ⟨_, h, hplat, by simp [hdev, hbus], hout, fun k hk => ?_⟩
    rw [hin k hk, extractLsb'_lowBytes_ushiftRight v (by omega) (by omega),
      show n - p.2 + (p.2 - 1 - k) = n - 1 - k by omega]
    simp [hdev]

/-- What a write that is not ended by TEA leaves: each transfer to a device is recorded, the bytes of the others are
written but in read-only memory, every other byte is as before. -/
theorem writeTransfers_spec {fc : BitVec 3} {a : Long} {n : Nat} {l : List (Long × Nat)} {v : BitVec 128} {s t : State}
    (hl : Tiles a n l) (hn : n ≤ 16) (h : writeTransfers fc v l n s = (true, t)) :
    cyclesOf t.bus = cyclesOf s.bus ++ l.filter (fun p => touches s.platform.devices fc p.1 p.2)
    ∧ (∀ x, x ∉ addrsOf a n → byteAt t fc x = byteAt s fc x)
    ∧ ∀ p ∈ l, ∀ k < n, a + BitVec.ofNat 32 k ∈ addrsOf p.1 p.2 → byteAt t fc (a + BitVec.ofNat 32 k)
      = if touches s.platform.devices fc p.1 p.2 || touches s.platform.roms fc (a + BitVec.ofNat 32 k) 1
        then byteAt s fc (a + BitVec.ofNat 32 k) else v.extractLsb' (8 * (n - 1 - k)) 8 := by
  induction l generalizing a n s with
  | nil =>
    cases h
    simp
  | cons q rest ih =>
    obtain ⟨rfl, hle, hrest⟩ := hl
    obtain ⟨u, hu, hplat, hbus, hout, hin⟩ := writeTransfers_cons hle hn h
    obtain ⟨ibus, iout, ibytes⟩ := ih hrest (by omega) hu
    rw [hplat] at ibus ibytes
    refine ⟨?_, fun x hx => ?_, fun p hp k hk hpk => ?_⟩
    · rw [ibus, hbus, List.append_assoc, ← List.filter_append, List.singleton_append]
    · rw [iout x fun hx' => hx (addrsOf_add_subset _ _ _ hx'), hout x fun hx' => hx (addrsOf_subset_of_le _ hle hx')]
    · rcases List.mem_cons.mp hp with rfl | hp
      · have hkp : k < p.2 := (add_mem_addrsOf (by omega) (by omega)).mp hpk
        rw [iout _ fun hx => absurd (le_of_add_mem_addrsOf hk hle (by omega) hx) (by omega), hin k hkp]
      · obtain ⟨j, hj, rfl, hx⟩ := hrest.offset_of_mem_rest hle hn hk hp hpk
        have hafter : q.1 + BitVec.ofNat 32 (q.2 + j) ∉ addrsOf q.1 q.2 := fun hx' =>
          absurd ((add_mem_addrsOf (by omega) (by omega)).mp hx') (by omega)
        rw [← hout _ hafter, show n - 1 - (q.2 + j) = n - q.2 - 1 - j by omega]
        rw [hx] at hpk ⊢
        exact ibytes p hp j hj hpk

/-! ## Operand accesses, where a device stands and elsewhere (20_memory R87, 92 D4) -/

/-- A read that is not refused and that the bus answers. -/
theorem readMem_of_some {s u : State} {sz : Size} {a : Long} {w : BitVec sz.bits}
    (hf : readFaults s false s.dataFc a sz.bytes = false) (hs : staleAccess s s.dataFc a sz.bytes = false)
    (h : readBus s s.dataFc sz a = (some w, u)) : readMem sz a s = .ok w (afterRead u s.dataFc a sz.bytes) := by
  simp [readMem, readCycle, normalCycle, hf, hs, h]

/-- A read that is not refused and that TEA ends. -/
theorem readMem_of_none {s u : State} {sz : Size} {a : Long}
    (hf : readFaults s false s.dataFc a sz.bytes = false) (hs : staleAccess s s.dataFc a sz.bytes = false)
    (h : readBus s s.dataFc sz a = (none, u)) :
    readMem sz a s = .error (.restart (readFault (normalCycle s.dataFc) sz a)) u := by
  simp [readMem, readCycle, normalCycle, hf, hs, h]

/-- A single store that is not refused is what running it gives: done, or left to the handler. -/
theorem storeAll_singleton {s : State} {w : Store} {d : Done} (hs : w.stale s = false) (hl : w.c.locked = false) :
    storeAll [w] d s =
      if (w.run s).1 then .ok d (w.run s).2 else .error (.write w.fault [] d) (w.run s).2 := by
  by_cases h : (w.run s).1 = true
  · simp [storeAll, runStores, hs, h]
  · simp [storeAll, runStores, hs, hl, h]

/-- A store whose address can be written is what the bus does with it. -/
theorem Store.run_of_not_fails {s : State} {w : Store} (h : w.fails s = false) :
    w.run s = writeBus s w.c.fc w.a w.sz.bytes (w.v.setWidth 128) (w.apply s) := by
  simp [Store.run, h]

/-- A write that is not refused is what the bus does with it. -/
theorem writeMem_run {s : State} {sz : Size} {a : Long} {v : BitVec sz.bits} {d : Done}
    (hf : writeFaults s s.dataFc a sz.bytes = false) (hs : staleAccess s s.dataFc a sz.bytes = false) :
    writeMem sz a v d s =
      let r := writeBus s s.dataFc a sz.bytes (v.setWidth 128) (poke s s.dataFc sz a v)
      if r.1 then .ok d r.2 else .error (.write (writeFault (normalCycle s.dataFc) sz a v) [] d) r.2 := by
  have hv : (v.setWidth 32).setWidth 128 = v.setWidth 128 :=
    BitVec.setWidth_setWidth (by cases sz <;> decide)
  unfold writeMem store
  rw [storeAll_singleton (w := { c := normalCycle s.dataFc, sz := sz, a := a, v := v.setWidth 32 }) hs rfl,
    Store.run_of_not_fails (by exact hf)]
  simp only [Store.apply, Store.fault, normalCycle, setWidth_back, hv]

/-- An aligned read of a device that answers with data. -/
theorem readMem_aligned_answered {s : State} {sz : Size} {a : Long} {w : BitVec 128}
    (hf : readFaults s false s.dataFc a sz.bytes = false) (hs : staleAccess s s.dataFc a sz.bytes = false)
    (hdev : touches s.platform.devices s.dataFc a sz.bytes = true) (ha : a.toNat % sz.bytes = 0)
    (h : (deviceCycle s s.dataFc a sz.bytes none).1 = some w) :
    readMem sz a s = .ok (w.setWidth sz.bits)
      (afterRead (deviceCycle s s.dataFc a sz.bytes none).2 s.dataFc a sz.bytes) :=
  readMem_of_some hf hs (by rw [readBus_aligned hdev ha, h, Option.map_some])

/-- An aligned read of a device that answers with TEA. -/
theorem readMem_aligned_tea {s : State} {sz : Size} {a : Long}
    (hf : readFaults s false s.dataFc a sz.bytes = false) (hs : staleAccess s s.dataFc a sz.bytes = false)
    (hdev : touches s.platform.devices s.dataFc a sz.bytes = true) (ha : a.toNat % sz.bytes = 0)
    (h : (deviceCycle s s.dataFc a sz.bytes none).1 = none) :
    readMem sz a s = .error (.restart (readFault (normalCycle s.dataFc) sz a))
      (deviceCycle s s.dataFc a sz.bytes none).2 :=
  readMem_of_none hf hs (by rw [readBus_aligned hdev ha, h, Option.map_none])

theorem lowBytes_operand {sz : Size} (v : BitVec sz.bits) : lowBytes sz.bytes (v.setWidth 128) = v.setWidth 128 := by
  have hback : (v.setWidth 128).setWidth (8 * sz.bytes) = v.setWidth (8 * sz.bytes) :=
    BitVec.setWidth_setWidth (by cases sz <;> decide)
  rw [lowBytes, hback]
  exact BitVec.setWidth_setWidth (by cases sz <;> decide)

/-- An aligned write to a device: taken or ended by TEA, as the device answers. -/
theorem writeMem_aligned_device {s : State} {sz : Size} {a : Long} {v : BitVec sz.bits} {d : Done}
    (hf : writeFaults s s.dataFc a sz.bytes = false) (hs : staleAccess s s.dataFc a sz.bytes = false)
    (hdev : touches s.platform.devices s.dataFc a sz.bytes = true) (ha : a.toNat % sz.bytes = 0) :
    writeMem sz a v d s =
      let r := deviceCycle s s.dataFc a sz.bytes (some (v.setWidth 128))
      let t := afterRead r.2 s.dataFc a sz.bytes
      if r.1.isSome then .ok d t else .error (.write (writeFault (normalCycle s.dataFc) sz a v) [] d) t := by
  rw [writeMem_run hf hs, writeBus_aligned hdev ha, lowBytes_operand]

/-- A byte of an operand lies within it. -/
theorem byteOffset_le_bits {sz : Size} {k : Nat} (hk : k < sz.bytes) : 8 * (sz.bytes - 1 - k) + 8 ≤ sz.bits := by
  have hbits : sz.bits = 8 * sz.bytes := by cases sz <;> rfl
  omega

theorem bytes_le_four (sz : Size) : sz.bytes ≤ 4 := by cases sz <;> decide

/-- A read where a device stands: all its transfers are done, those of memory giving its bytes, or TEA ends it. -/
theorem readMem_device {s : State} {sz : Size} {a : Long}
    (hf : readFaults s false s.dataFc a sz.bytes = false) (hs : staleAccess s s.dataFc a sz.bytes = false)
    (hdev : touches s.platform.devices s.dataFc a sz.bytes = true) :
    (∃ w t, readMem sz a s = .ok w t ∧ t.mem = s.mem
      ∧ cyclesOf t.bus = cyclesOf s.bus
        ++ (alignedParts a sz).filter (fun p => touches s.platform.devices s.dataFc p.1 p.2)
      ∧ ∀ p ∈ alignedParts a sz, touches s.platform.devices s.dataFc p.1 p.2 = false → ∀ k < sz.bytes,
        a + BitVec.ofNat 32 k ∈ addrsOf p.1 p.2 →
          w.extractLsb' (8 * (sz.bytes - 1 - k)) 8 = byteAt s s.dataFc (a + BitVec.ofNat 32 k))
    ∨ ∃ t, readMem sz a s = .error (.restart (readFault (normalCycle s.dataFc) sz a)) t ∧ t.mem = s.mem := by
  have hbus : readBus s s.dataFc sz a =
      ((readTransfers s.dataFc (alignedParts a sz) 0 s).1.map fun v => v.setWidth sz.bits,
        (readTransfers s.dataFc (alignedParts a sz) 0 s).2) := by
    simp only [readBus, hdev, if_true, transfers_eq_alignedParts]
  have hmem : (readTransfers s.dataFc (alignedParts a sz) 0 s).2.mem = s.mem := by
    obtain ⟨b, n, h⟩ := readTransfers_state s.dataFc (alignedParts a sz) 0 s
    rw [h]
  have htile : Tiles a sz.bytes (alignedParts a sz) := transfers_eq_alignedParts a sz ▸ transfers_tile a sz.bytes
  have hsmall := bytes_le_four sz
  rcases h : readTransfers s.dataFc (alignedParts a sz) 0 s with ⟨_ | w, t⟩
  · rw [h] at hbus hmem
    exact .inr ⟨t, readMem_of_none hf hs hbus, hmem⟩
  · rw [h] at hbus hmem
    obtain ⟨-, hcycles, hbytes⟩ := readTransfers_spec htile (by omega) h
    refine .inl ⟨_, _, readMem_of_some hf hs hbus, hmem, hcycles, fun p hp hmemory k hk hin => ?_⟩
    rw [BitVec.extractLsb'_setWidth_of_le (byteOffset_le_bits hk)]
    exact hbytes p hp hmemory k hk hin

/-- A write where a device stands: all its transfers are done, those to memory leaving its bytes there but in read-only
memory, or TEA ends it. -/
theorem writeMem_device {s : State} {sz : Size} {a : Long} {v : BitVec sz.bits} {d : Done}
    (hf : writeFaults s s.dataFc a sz.bytes = false) (hs : staleAccess s s.dataFc a sz.bytes = false)
    (hdev : touches s.platform.devices s.dataFc a sz.bytes = true) :
    (∃ t, writeMem sz a v d s = .ok d t
      ∧ cyclesOf t.bus = cyclesOf s.bus
        ++ (alignedParts a sz).filter (fun p => touches s.platform.devices s.dataFc p.1 p.2)
      ∧ ∀ p ∈ alignedParts a sz, ∀ k < sz.bytes, a + BitVec.ofNat 32 k ∈ addrsOf p.1 p.2 →
        byteAt t s.dataFc (a + BitVec.ofNat 32 k)
          = if touches s.platform.devices s.dataFc p.1 p.2
              || touches s.platform.roms s.dataFc (a + BitVec.ofNat 32 k) 1
            then byteAt s s.dataFc (a + BitVec.ofNat 32 k) else v.extractLsb' (8 * (sz.bytes - 1 - k)) 8)
    ∨ ∃ t, writeMem sz a v d s = .error (.write (writeFault (normalCycle s.dataFc) sz a v) [] d) t := by
  have hrun := writeMem_run (v := v) (d := d) hf hs
  simp only [writeBus, hdev, if_true, transfers_eq_alignedParts] at hrun
  have htile : Tiles a sz.bytes (alignedParts a sz) := transfers_eq_alignedParts a sz ▸ transfers_tile a sz.bytes
  have hsmall := bytes_le_four sz
  rcases h : writeTransfers s.dataFc (v.setWidth 128) (alignedParts a sz) sz.bytes s with ⟨_ | _, t⟩
  · exact .inr ⟨t, by simpa [h] using hrun⟩
  · obtain ⟨hcycles, -, hbytes⟩ := writeTransfers_spec htile (by omega) h
    refine .inl ⟨t, by simpa [h] using hrun, hcycles, fun p hp k hk hin => ?_⟩
    rw [hbytes p hp k hk hin, BitVec.extractLsb'_setWidth_of_le (by omega)]

/-- An access touches what one of its bytes touches. -/
theorem touches_of_byte {l : List Window} {fc : BitVec 3} {a : Long} {k n : Nat} (hk : k < n)
    (h : touches l fc (a + BitVec.ofNat 32 k) 1 = true) : touches l fc a n = true := by
  unfold touches at h ⊢
  obtain ⟨x, hx, hw⟩ := List.any_eq_true.mp h
  obtain rfl : a + BitVec.ofNat 32 k = x := by simpa [addrsOf, eq_comm] using hx
  exact List.any_eq_true.mpr ⟨_, mem_addrsOf.mpr ⟨k, hk, rfl⟩, hw⟩

/-- A write of bytes all of which stand in read-only memory leaves memory. -/
theorem writeBytes_mem_of_roms {s : State} {fc : BitVec 3} {a : Long} {n : Nat} (v : BitVec 128)
    (h : ∀ x ∈ addrsOf a n, touches s.platform.roms fc x 1 = true) : (writeBytes s fc a n v).mem = s.mem := by
  have hzip : ∀ p ∈ (addrsOf a n).zip (bytesOf n v), touches s.platform.roms fc p.1 1 = true := fun p hp =>
    h p.1 (List.of_mem_zip hp).1
  unfold writeBytes
  generalize (addrsOf a n).zip (bytesOf n v) = l at hzip
  clear h
  induction l generalizing s with
  | nil => rfl
  | cons p rest ih =>
    rw [List.foldl_cons, if_pos (hzip p (by simp)), ih, romByte_mem]
    exact romByte_platform s fc p.1 p.2 ▸ fun q hq => hzip q (List.mem_cons_of_mem _ hq)

/-- A write to read-only memory is taken and leaves memory (92 D4, log 47). -/
theorem writeMem_roms {s : State} {sz : Size} {a : Long} {v : BitVec sz.bits} {d : Done}
    (hf : writeFaults s s.dataFc a sz.bytes = false) (hs : staleAccess s s.dataFc a sz.bytes = false)
    (hdev : touches s.platform.devices s.dataFc a sz.bytes = false)
    (hrom : ∀ k < sz.bytes, touches s.platform.roms s.dataFc (a + BitVec.ofNat 32 k) 1 = true) :
    ∃ t, writeMem sz a v d s = .ok d t ∧ t.mem = s.mem := by
  have hpos : 0 < sz.bytes := by cases sz <;> decide
  refine ⟨writeBytes s s.dataFc a sz.bytes (v.setWidth 128), ?_, writeBytes_mem_of_roms _ fun x hx => ?_⟩
  · rw [writeMem_run hf hs]
    simp [writeBus, hdev, touches_of_byte hpos (hrom 0 hpos)]
  · obtain ⟨k, hk, rfl⟩ := mem_addrsOf.mp hx
    exact hrom k hk

/-- Settles O52: memory by the laws of `poke` and of its canonical form, the bus by what a list of transfers does. -/
theorem memoryReadsBack : Obligations.MemoryReadsBack := by
  unfold Obligations.MemoryReadsBack
  refine ⟨fun s fc sz a v => ⟨peek_poke_same s fc sz a v, fun k hk => byteAt_poke s fc sz a v hk, fun fc' b hb => ?_,
    Memory.wf_poke fc sz a v⟩, fun m n => Memory.eq_of_get, ?_⟩
  · refine byteAt_poke_other s v fun k hk he => hb ?_
    exact List.mem_map.mpr ⟨_, mem_addrsOf.mpr ⟨k, hk, rfl⟩, he.symm⟩
  · intro s sz a v d hs
    refine ⟨fun hdev ha => ⟨fun hf => ?_, fun hf => ?_⟩,
      fun hdev => ⟨fun hf => readMem_device hf hs hdev, fun hf => writeMem_device hf hs hdev⟩,
      fun hdev hrom hf => writeMem_roms hf hs hdev hrom⟩
    · split
      · next w h => exact ⟨_, readMem_aligned_answered hf hs hdev ha h, rfl, rfl⟩
      · next h => exact ⟨_, readMem_aligned_tea hf hs hdev ha h, rfl⟩
    · refine ⟨(afterRead (deviceCycle s s.dataFc a sz.bytes (some (v.setWidth 128))).2 s.dataFc a sz.bytes).records,
        fun hoff => ?_, writeMem_aligned_device hf hs hdev ha⟩
      rw [afterRead_off (by exact hoff)]
      rfl

/-! ## The access control registers (20_memory R101 to R104) -/

/-- 20_memory R101 bit by bit. -/
theorem acrMatch_iff (r a : Long) (super : Bool) :
    acrMatch r a super = true ↔
      r.getLsbD 15 = true ∧ (r.getLsbD 14 = true ∨ r.getLsbD 13 = super)
        ∧ ∀ i < 8, r.getLsbD (16 + i) = true ∨ a.getLsbD (24 + i) = r.getLsbD (24 + i) := by
  have haddr : ((a.extractLsb' 24 8 ^^^ acrBase r) &&& ~~~acrMask r) = 0
      ↔ ∀ i < 8, r.getLsbD (16 + i) = true ∨ a.getLsbD (24 + i) = r.getLsbD (24 + i) := by
    rw [BitVec.eq_of_getLsbD_eq_iff]
    refine forall_congr' fun i => forall_congr' fun hi => ?_
    simpa [acrBase, acrMask, hi] using or_iff_not_imp_right.symm
  simp only [acrMatch, acrEnabled, acrMode, Bool.and_eq_true, Bool.or_eq_true, beq_iff_eq, haddr, and_assoc]

/-- The first register of a unit that matches decides (20_memory R103). -/
theorem attributes_first {r0 r1 a : Long} {super : Bool} (h : acrMatch r0 a super = true) :
    attributes r0 r1 a super = acrAttr r0 := by
  rw [attributes, if_pos h]

/-- The second register of a unit decides where the first does not match (20_memory R103). -/
theorem attributes_second {r0 r1 a : Long} {super : Bool} (h0 : acrMatch r0 a super = false)
    (h1 : acrMatch r1 a super = true) : attributes r0 r1 a super = acrAttr r1 := by
  rw [attributes, h0, if_neg Bool.false_ne_true, if_pos h1]

/-- Without a match the default attributes hold (20_memory R109, 92 D2). -/
theorem attributes_default {r0 r1 a : Long} {super : Bool} (h0 : acrMatch r0 a super = false)
    (h1 : acrMatch r1 a super = false) : attributes r0 r1 a super = defaultAttr := by
  rw [attributes, h0, h1, if_neg Bool.false_ne_true, if_neg Bool.false_ne_true]

/-- A write fails where one of its bytes is protected or answered with TEA (20_memory R104, 92 D4). -/
theorem writeFaults_iff (s : State) (fc : BitVec 3) (a : Long) (n : Nat) :
    writeFaults s fc a n = true ↔
      ∃ k < n, (dataAttr s fc (a + BitVec.ofNat 32 k)).w = true ∨ busErrorAt s fc (a + BitVec.ofNat 32 k) true = true := by
  simp [writeFaults, addrsOf]

/-- Settles O54, from the match bit by bit and the order of the two registers of a unit. -/
theorem accessControl : Obligations.AccessControl := by
  unfold Obligations.AccessControl
  exact ⟨acrMatch_iff, fun s fc a => ⟨attributes_first, attributes_second, attributes_default,
    attributes_first, attributes_second, attributes_default, writeFaults_iff s fc a⟩⟩

end Sys2Proof.Machine
end

section
/-! The proofs of the addressing family: the address and the register effect of every memory mode, and what an operand
reads (30_encoding R151 to R160). -/

namespace Sys2Proof.Machine

variable {s t : State}

/-! ## The pieces of an address -/

/-- How far a mode of an operand size moves its register (30_encoding R153). -/
theorem stepOf_bytes (sz : Size) (r : Reg) :
    stepOf sz.bytes r = if sz = .byte ∧ r = 7 then 2 else BitVec.ofNat 32 sz.bytes := by
  cases sz <;> simp [stepOf]

/-- Scaling the sized index operand is a multiplication (30_encoding R155). -/
theorem indexValue_eq_mul (s : State) (x : IndexReg) :
    indexValue s x = (if x.long then s.greg x.reg else ((s.greg x.reg).setWidth 16).signExtend 32)
      * BitVec.twoPow 32 x.scale.toNat := by
  rw [indexValue, sext, loWord, ← BitVec.setWidth_eq_extractLsb' (by decide), BitVec.mul_twoPow_eq_shiftLeft]

/-- The address of an index mode without memory indirection (30_encoding R156). -/
theorem indexAddress_direct (base : Long) (x : IndexReg) (bs is : Bool) (bd : Disp) :
    indexAddress base (.full x bs is bd .none) s
      = .ok ((if bs then 0 else base) + Disp.value bd + if is then 0 else indexValue s x) s := by
  rw [indexAddress, Exec.look_bind]
  rfl

/-- Preindexed: the pointer stands at the indexed address, and the outer displacement is added to it (30_encoding R156). -/
theorem indexAddress_pre {base : Long} {x : IndexReg} {bs is : Bool} {bd : Disp} (od : Disp) {b i : Long}
    (hb : (if bs then 0 else base) + Disp.value bd = b) (hi : (if is then 0 else indexValue s x) = i)
    (h : Readable s s.dataFc (b + i) 4) :
    ∃ l, indexAddress base (.full x bs is bd (.pre od)) s
      = .ok (peek s s.dataFc .long (b + i) + Disp.value od) (withRecords l s) := by
  subst hb hi
  obtain ⟨l, hl⟩ := readMem_ok (sz := .long) h
  rw [indexAddress, Exec.look_bind]
  exact ⟨l, Exec.bind_ok s hl _⟩

/-- Postindexed: the index and the outer displacement are added to the pointer (30_encoding R156). -/
theorem indexAddress_post {base : Long} {x : IndexReg} {bs is : Bool} {bd : Disp} (od : Disp) {b i : Long}
    (hb : (if bs then 0 else base) + Disp.value bd = b) (hi : (if is then 0 else indexValue s x) = i)
    (h : Readable s s.dataFc b 4) :
    ∃ l, indexAddress base (.full x bs is bd (.post od)) s
      = .ok (peek s s.dataFc .long b + i + Disp.value od) (withRecords l s) := by
  subst hb hi
  obtain ⟨l, hl⟩ := readMem_ok (sz := .long) h
  rw [indexAddress, Exec.look_bind]
  exact ⟨l, Exec.bind_ok s hl _⟩

/-! ## The addresses of the index modes -/

/-- An index mode on An has the address its extension words give from An (30_encoding R155). -/
theorem eaAddress_idx (bytes own : Nat) (r : Reg) (x : Index) :
    eaAddress bytes own (.idx r x) s = indexAddress (s.areg r) x s := by
  rw [eaAddress, Exec.look_bind]

/-- An index mode on the PC starts from the address of its first extension word (30_encoding R157, R158). -/
theorem eaAddress_pcIdx (bytes own : Nat) (x : Index) :
    eaAddress bytes own (.pcIdx x) s = indexAddress (pcBase s own) x s := by
  rw [eaAddress, Exec.look_bind]

/-- Both index modes at once: each starts from its base. -/
theorem eaAddress_indexed {bytes own : Nat} {r : Reg} {mk : Index → Ea} {base : Long}
    (h : mk = .idx r ∧ base = s.areg r ∨ mk = .pcIdx ∧ base = pcBase s own) (x : Index) :
    eaAddress bytes own (mk x) s = indexAddress base x s := by
  obtain ⟨rfl, rfl⟩ | ⟨rfl, rfl⟩ := h
  · exact eaAddress_idx bytes own r x
  · exact eaAddress_pcIdx bytes own x

/-! ## What an operand reads -/

/-- The place of an operand whose mode has an address (30_encoding R160). -/
theorem operand_of_eaAddress {sz : Size} {own : Nat} {e : Ea} {a : Long} (h : eaAddress sz.bytes own e s = .ok a t) :
    operand sz own e s = .ok (.mem a) t := by
  unfold operand
  split
  · cases h
  · cases h
  · cases h
  · exact Exec.bind_ok s h _

/-- The value at an address is read after the address is computed, which leaves memory as it was (30_encoding R160). -/
theorem readEa_of_eaAddress {sz : Size} {own : Nat} {e : Ea} {a : Long} (h : eaAddress sz.bytes own e s = .ok a t)
    (hr : Readable t s.dataFc a sz.bytes) :
    ∃ l, readEa sz own e s = .ok (peek s s.dataFc sz a) (withRecords l t) := by
  have he := eaAddress_inv h
  have hv : peek t t.dataFc sz a = peek s s.dataFc sz a := by
    rw [he.dataFc, peek_congr he.mem he.access.platform]
  obtain ⟨l, hl⟩ := readMem_ok (he.dataFc ▸ hr)
  refine ⟨l, ?_⟩
  rw [readEa_eq, Exec.bind_ok s (operand_of_eaAddress h), ← hv]
  exact hl

/-! ## The addresses of all memory modes -/

/-- Settles O53: the plain modes by their equations, the index modes from their base, and a memory operand's value from
its address. -/
theorem operands : Obligations.Operands := by
  unfold Obligations.Operands
  refine ⟨fun s sz own r d => ?_, fun s s1 sz own r v => ⟨rfl, rfl, rfl, fun _ _ h =>
    ⟨operand_of_eaAddress h, readEa_of_eaAddress h⟩⟩⟩
  simp only [← stepOf_bytes, ← indexValue_eq_mul]
  refine ⟨rfl, rfl, rfl, rfl, rfl, fun _ => rfl, rfl, fun x d8 => ⟨eaAddress_idx .., eaAddress_pcIdx ..⟩, ?_⟩
  intro x bs is bd od mk b0 hmk
  simp only [eaAddress_indexed hmk]
  exact ⟨indexAddress_direct b0 x bs is bd, indexAddress_pre od rfl rfl, indexAddress_post od rfl rfl⟩

end Sys2Proof.Machine
end

section
/-! The proofs of the system control family: the instructions without a meaning (48_system_control R415). -/

namespace Sys2Proof.Machine

variable {s : State}

/-- An instruction whose body refuses is refused, whatever the mode and the trace bits. -/
theorem complete_refuse (i : Instr) (r : Refusal) : complete i (refuse r) s = .refused r := by
  rw [complete_error (Exec.refuse_run s r), abort]

/-- PFLUSH is an instruction whose body refuses (48 R415, 93 U6). -/
theorem exec_pflush (op : BitVec 2) (an : Reg) : exec (.pflush op an) s = complete (.pflush op an) (refuse .pflush) s := rfl

/-- PTEST is an instruction whose body refuses (48 R415, 93 U6). -/
theorem exec_ptest (read : Bool) (an : Reg) : exec (.ptest read an) s = complete (.ptest read an) (refuse .ptest) s := rfl

/-- Settles O46: the bodies of both refuse, and a refusing body makes the instruction refused in every state. -/
theorem refusedInstructions : Obligations.RefusedInstructions := by
  unfold Obligations.RefusedInstructions
  refine fun s an => ⟨fun op => ?_, fun read => ?_⟩
  · rw [exec_pflush, complete_refuse]
  · rw [exec_ptest, complete_refuse]

end Sys2Proof.Machine
end

section
/-! The proofs of the exceptions family: the privilege violation (60_exceptions R546) and interrupts (R560 to R569). -/

namespace Sys2Proof.Machine

open Sys2Proof.Claim

variable {s t u : State}

/-! ## The privilege violation (60_exceptions R546) -/

/-- An instruction whose body stops before it did anything with an exception of a four-word frame takes that exception at
its own address. -/
theorem takes_pre {i : Instr} {body : Exec Done} {vec : BitVec 8} (hexec : exec i s = complete i body s)
    (hbody : body s = .error (.pre vec) s) (hc : CanEnter s vec 8) : Takes i s s vec 0 s.pc 8 (fun _ => True) := by
  obtain ⟨t, henter, hentered, -, houtputs, -⟩ := enter_ok (fmt := 0) (p := s.pc) (extra := []) rfl (by decide) hc
  refine ⟨t, ?_, hentered, houtputs, trivial⟩
  have htake : takePre s s vec = .next t := by
    rw [takePre, henter]
    rfl
  rw [hexec, complete_error hbody]
  exact htake

/-- An instruction that checks the mode before anything else takes the privilege violation in user mode. -/
theorem takes_privilegeViolation {i : Instr} {f : Unit → Exec Done} (hu : s.super = false) (hc : CanEnter s 8 8)
    (hexec : exec i s = complete i (needSupervisor >>= f) s) : Takes i s s 8 0 s.pc 8 (fun _ => True) :=
  takes_pre hexec (needSupervisor_user hu f) hc

/-- The checks of MOVEC ask for the mode first (48 R394). -/
theorem checkControl_user (code : BitVec 12) (hu : s.super = false) : checkControl code s = .error (.pre 8) s :=
  needSupervisor_user hu _

/-- So does MOVEC, in either direction. -/
theorem takes_privilegeViolation_of_checkControl {i : Instr} {code : BitVec 12} {f : Unit → Exec Done}
    (hu : s.super = false) (hc : CanEnter s 8 8) (hexec : exec i s = complete i (checkControl code >>= f) s) :
    Takes i s s 8 0 s.pc 8 (fun _ => True) :=
  takes_pre hexec (Exec.bind_error s (checkControl_user code hu) f) hc

/-- Settles O40: the body of each of these instructions begins with the check of the mode, which stops it before it did
anything. -/
theorem privilegeViolation : Obligations.PrivilegeViolation := by
  unfold Obligations.PrivilegeViolation
  intro s hu hc
  have violates {i : Instr} {f : Unit → Exec Done} := takes_privilegeViolation (i := i) (f := f) hu hc
  have movec {i : Instr} {code : BitVec 12} {f : Unit → Exec Done} :=
    takes_privilegeViolation_of_checkControl (i := i) (code := code) (f := f) hu hc
  exact ⟨fun v => ⟨violates rfl, violates rfl, violates rfl, violates rfl⟩, fun ea => ⟨violates rfl, violates rfl⟩,
    fun an => ⟨violates rfl, violates rfl⟩, fun rn code => ⟨movec rfl, movec rfl⟩, fun sz m rn ea => violates rfl,
    violates rfl, violates rfl, fun sel scope an => ⟨violates rfl, violates rfl⟩⟩

/-! ## SR, the level and the vector of an interrupt (60_exceptions R566 to R568) -/

/-- An SR with another mask, bit by bit (60_exceptions R566). -/
theorem srWithMask_bit (v : Word) (l : BitVec 3) (i : Nat) : (srWithMask v l).getLsbD i =
    if i < 8 then (v.extractLsb' 0 8).getLsbD i
    else if i - 8 < 3 then l.getLsbD (i - 8) else (v.extractLsb' 11 5).getLsbD (i - 8 - 3) := by
  rw [← BitVec.getLsbD_append (x := v.extractLsb' 11 5) (y := l)]
  exact BitVec.getLsbD_append (x := v.extractLsb' 11 5 ++ l) (y := v.extractLsb' 0 8)

/-- Entering an exception, then taking the new mask, gives the SR of an interrupt. -/
theorem srWithMask_srException (v : Word) (l : BitVec 3) : srWithMask (srException v) l = interruptSr v l := by
  apply BitVec.eq_of_getLsbD_eq
  intro i hi
  rw [srWithMask_bit]
  interval_cases i <;> simp [srException, interruptSr]

theorem srS_interruptSr (v : Word) (l : BitVec 3) : srS (interruptSr v l) = true := by
  simp [srS, interruptSr]

theorem srM_interruptSr (v : Word) (l : BitVec 3) : srM (interruptSr v l) = srM v := by
  simp [srM, interruptSr]

theorem srMask_interruptSr (v : Word) (l : BitVec 3) : srMask (interruptSr v l) = l := by
  apply BitVec.eq_of_getLsbD_eq
  intro i hi
  interval_cases i <;> simp [srMask, interruptSr]

theorem srS_srClearM (v : Word) : srS (srClearM v) = srS v := by
  simp [srS, srClearM]

theorem srM_srClearM (v : Word) : srM (srClearM v) = false := by
  simp [srM, srClearM]

/-- The answer of the platform gives the vector number (60_exceptions R566 to R568). -/
theorem acknowledge_eq (s : State) (l : BitVec 3) : acknowledge s l = interruptVector s l := by
  unfold acknowledge interruptVector
  cases s.platform.iack[l.toNat]'l.isLt with
  | vector n => rfl
  | busError => rfl
  | autovector =>
    change (24 : BitVec 8) + l.setWidth 8 = BitVec.ofNat 8 (24 + l.toNat)
    rw [BitVec.ofNat_add, BitVec.ofNat_toNat]
    rfl

/-! ## Supervisor stack pointers -/

theorem State.sp_eq_isp (hs : s.super = true) (hm : srM s.sr = false) : s.sp = s.isp := by
  simp [State.sp, hs, hm]

theorem State.sp_eq_msp (hs : s.super = true) (hm : srM s.sr = true) : s.sp = s.msp := by
  simp [State.sp, hs, hm]

/-! ## The state the frames are stacked in (60_exceptions R566) -/

/-- With the level of the interrupt as the new mask no request stays above it, so none becomes pending (60_exceptions
R562). -/
theorem interruptBegin_eq {l : BitVec 3} (hl : s.ipl = l) : interruptBegin s l = { s with
    pending := none
    movemEa := none
    run := .running
    outputs := s.outputs ++ [.interruptAck l]
    sr := interruptSr s.sr l } := by
  simp [interruptBegin, State.putSr_eq, srWithMask_srException, srMask_interruptSr, hl]

/-- A step in which an interrupt can be taken takes it (60_exceptions R576). -/
theorem step_interrupted {l : BitVec 3} (h : Interrupted s l) : step s = takeInterrupt s l := by
  obtain ⟨hrun, hpending, hipl, htrace⟩ := h
  have hlevel : compareLevel s = s := by simp [compareLevel, hpending]
  have hactive : stepActive s = takeInterrupt s l := by
    simp [stepActive, hlevel, levelToTake, hpending, hipl]
  rw [step, cycle, htrace, ← hactive]
  obtain hrun | hrun := hrun <;> simp only [hrun] <;> rfl

/-! ## Frames -/

/-- An operand is its bytes. -/
theorem peek_congr_bytes {fc : BitVec 3} {sz : Size} {a : Long}
    (h : ∀ k < sz.bytes, byteAt t fc (a + BitVec.ofNat 32 k) = byteAt s fc (a + BitVec.ofNat 32 k)) :
    peek t fc sz a = peek s fc sz a := by
  have first : byteAt t fc a = byteAt s fc a := by simpa using h 0 (by cases sz <;> decide)
  cases sz with
  | byte => exact first
  | word =>
    have second : byteAt t fc (a + 1) = byteAt s fc (a + 1) := h 1 (by decide)
    simp only [peek, first, second]
  | long =>
    have second : byteAt t fc (a + 1) = byteAt s fc (a + 1) := h 1 (by decide)
    have third : byteAt t fc (a + 2) = byteAt s fc (a + 2) := h 2 (by decide)
    have fourth : byteAt t fc (a + 3) = byteAt s fc (a + 3) := h 3 (by decide)
    simp only [peek, first, second, third, fourth]

/-- Fields are their bytes. -/
theorem FieldsAt.congr_bytes {a : Long} {fs : List Field} (hf : FieldsAt s a fs)
    (h : ∀ k < fieldBytes fs, byteAt t 5 (a + BitVec.ofNat 32 k) = byteAt s 5 (a + BitVec.ofNat 32 k)) :
    FieldsAt t a fs := by
  induction fs generalizing a with
  | nil => trivial
  | cons f rest ih =>
    rw [fieldBytes_cons] at h
    refine ⟨(peek_congr_bytes fun k hk => h k (by omega)).trans hf.1, ih hf.2 fun k hk => ?_⟩
    rw [BitVec.add_assoc, ← BitVec.ofNat_add]
    exact h _ (by omega)

/-- Stacking fields leaves the bytes of a range that lies apart from them. -/
theorem Stacked.byteAt_apart {a b : Long} {fs : List Field} (h : Stacked s t b fs) {n : Nat}
    (hapart : ∀ j < n, ∀ k < fieldBytes fs, a + BitVec.ofNat 32 j ≠ b + BitVec.ofNat 32 k) {j : Nat} (hj : j < n) :
    byteAt t 5 (a + BitVec.ofNat 32 j) = byteAt s 5 (a + BitVec.ofNat 32 j) := by
  refine h.memory 5 _ fun hm => ?_
  obtain ⟨x, hx, hkey⟩ := List.mem_map.mp hm
  obtain ⟨k, hk, rfl⟩ := mem_addrsOf.mp hx
  exact hapart j hj k hk ((memKey_inj s 5 _ _).mp hkey).symm

/-- Fields stacked by a supervisor with M = 0 lie on the interrupt stack. -/
theorem Stacked.isp_eq {b : Long} {fs : List Field} (h : Stacked s t b fs) (hs : s.super = true) (hm : srM s.sr = false) :
    t.isp = b :=
  (State.sp_eq_isp ((congrArg srS h.sr).trans hs) ((congrArg srM h.sr).trans hm)).symm.trans h.sp

/-- Fields stacked by a supervisor with M = 1 lie on the master stack. -/
theorem Stacked.msp_eq {b : Long} {fs : List Field} (h : Stacked s t b fs) (hs : s.super = true) (hm : srM s.sr = true) :
    t.msp = b :=
  (State.sp_eq_msp ((congrArg srS h.sr).trans hs) ((congrArg srM h.sr).trans hm)).symm.trans h.sp

/-- The common fields are a four-word frame (60_exceptions R508). -/
theorem fieldBytes_commonFields (sr : Word) (p : Long) (fmt : BitVec 4) (vec : BitVec 8) :
    fieldBytes (commonFields sr p fmt vec) = 8 := rfl

/-- A four-word frame that can be written is written. -/
theorem stackFrame_common {a : Long} (hs : s.super = true) (ha : s.sp - 8 = a) (hw : Writable s 5 a 8) (sr : Word)
    (p : Long) (fmt : BitVec 4) (vec : BitVec 8) : ∃ u, stackFrame s (commonFields sr p fmt vec) = .ok u
      ∧ Stacked s u a (commonFields sr p fmt vec) :=
  stackFrame_stacked hs ha hw (by rw [fieldBytes_commonFields]; decide)

/-! ## The frames of an interrupt, then its vector (60_exceptions R569) -/

/-- What stacking the frames of an interrupt leaves, whichever stacks they go to: what `jumpVector` needs, and all that is
the same for M = 0 and M = 1. -/
structure InterruptStacked (s : State) (l : BitVec 3) (u : State) : Prop where
  frames : interruptFrames s l = .ok u
  isp : u.isp = s.isp - 8
  usp : u.usp = s.usp
  d : u.d = s.d
  a : u.a = s.a
  run : u.run = .running
  pending : u.pending = none
  movemEa : u.movemEa = none
  outputs : u.outputs = s.outputs ++ [.interruptAck l]
  vbr : u.vbr = s.vbr
  access : SameAccess s u
  vector : peek u 5 .long (vectorAddress s (interruptVector s l)) = peek s 5 .long (vectorAddress s (interruptVector s l))

/-- What a step that takes an interrupt leaves, whichever stacks its frames go to. -/
def InterruptTaken (s : State) (l : BitVec 3) (t : State) : Prop :=
  step s = .next t ∧ t.pc = peek s 5 .long (vectorAddress s (interruptVector s l)) ∧ t.isp = s.isp - 8 ∧ t.usp = s.usp
    ∧ t.d = s.d ∧ t.a = s.a ∧ t.run = .running ∧ t.pending = none ∧ (s.movemEa = none → t.movemEa = none)
    ∧ t.outputs = s.outputs ++ [.interruptAck l]

/-- Once the frames are stacked, the flow goes on at the vector, which changes the PC and the records of the caches only. -/
theorem InterruptStacked.taken {l : BitVec 3} (h : InterruptStacked s l u) (hi : Interrupted s l)
    (hr : Readable s 5 (vectorAddress s (interruptVector s l)) 4)
    (he : (peek s 5 .long (vectorAddress s (interruptVector s l))).getLsbD 0 = false) :
    ∃ p r, InterruptTaken s l (jumped p (withRecords r u)) := by
  have hv : vectorAddress u (interruptVector s l) = vectorAddress s (interruptVector s l) := by
    simp only [vectorAddress, h.vbr]
  obtain ⟨r, -, hjump⟩ := jumpVector_ok (s := u) (vec := interruptVector s l) (by rw [hv]; exact h.access.readable hr)
    (by rw [hv, h.vector]; exact he)
  rw [hv, h.vector] at hjump
  refine ⟨_, r, ?_, rfl, h.isp, h.usp, h.d, h.a, h.run, h.pending, fun _ => h.movemEa, h.outputs⟩
  rw [step_interrupted hi, takeInterrupt, h.frames, acknowledge_eq]
  change Entered.orErrors (jumpVector u (interruptVector s l)) _ _ _ _ = _
  rw [hjump]
  rfl

/-- The state an interrupt begins in differs from `s` in nothing that an access depends on. -/
theorem SameAccess.interruptBegin {l : BitVec 3} (hl : s.ipl = l) : SameAccess s (interruptBegin s l) := by
  rw [interruptBegin_eq hl]
  exact ⟨rfl, rfl, rfl, rfl, rfl, rfl, fun _ _ h => h⟩

theorem interruptBegin_sr {l : BitVec 3} (hl : s.ipl = l) : (interruptBegin s l).sr = interruptSr s.sr l := by
  rw [interruptBegin_eq hl]

theorem interruptBegin_super {l : BitVec 3} (hl : s.ipl = l) : (interruptBegin s l).super = true := by
  rw [State.super, interruptBegin_sr hl, srS_interruptSr]

theorem interruptBegin_srM {l : BitVec 3} (hl : s.ipl = l) : srM (interruptBegin s l).sr = srM s.sr := by
  rw [interruptBegin_sr hl, srM_interruptSr]

/-- With M = 0 an interrupt stacks one frame (60_exceptions R569). -/
theorem interruptFrames_of_srM_false (l : BitVec 3) (hm : srM s.sr = false) : interruptFrames s l
    = stackFrame (interruptBegin s l) (commonFields s.sr s.pc 0 (interruptVector s l)) := by
  simp [interruptFrames, acknowledge_eq, hm]

/-- A state with M cleared. -/
def withoutM (s : State) : State := { s with sr := srClearM s.sr }

/-- With M = 1 an interrupt stacks its frame, then clears M and stacks a throwaway frame (60_exceptions R569). -/
theorem interruptFrames_of_srM_true {l : BitVec 3} (hm : srM s.sr = true)
    (hframe : stackFrame (interruptBegin s l) (commonFields s.sr s.pc 0 (interruptVector s l)) = .ok t) :
    interruptFrames s l
      = stackFrame (withoutM t) (commonFields (s.sr ||| 0x2000) s.pc 1 (interruptVector s l)) := by
  simp only [interruptFrames, acknowledge_eq, hframe, hm, if_true]
  rfl

theorem withoutM_super (s : State) : (withoutM s).super = s.super := srS_srClearM s.sr

theorem withoutM_srM (s : State) : srM (withoutM s).sr = false := srM_srClearM s.sr

/-- The active stack pointer of a supervisor with M cleared is ISP. -/
theorem withoutM_sp (hs : s.super = true) : (withoutM s).sp = s.isp :=
  State.sp_eq_isp ((withoutM_super s).trans hs) (withoutM_srM s)

theorem SameAccess.withoutM (s : State) : SameAccess s (withoutM s) := ⟨rfl, rfl, rfl, rfl, rfl, rfl, fun _ _ h => h⟩

/-- With M = 0 the frame lies on the interrupt stack (60_exceptions R569). -/
theorem interruptFrames_interruptStack {l : BitVec 3} (hl : s.ipl = l) (hm : srM s.sr = false)
    (hw : Writable s 5 (s.isp - 8) 8)
    (hv : ∀ j < 4, ∀ k < 8, vectorAddress s (interruptVector s l) + BitVec.ofNat 32 j ≠ s.isp - 8 + BitVec.ofNat 32 k) :
    ∃ u, InterruptStacked s l u ∧ u.sr = interruptSr s.sr l ∧ u.msp = s.msp
      ∧ FieldsAt u u.isp (commonFields s.sr s.pc 0 (interruptVector s l))
      ∧ ∀ fc a, memKey s fc a ∉ keysAt s 5 (s.isp - 8) 8 → byteAt u fc a = byteAt s fc a := by
  have hbegin := SameAccess.interruptBegin hl
  have hs := interruptBegin_super hl
  have hm' := (interruptBegin_srM hl).trans hm
  have hisp : (interruptBegin s l).isp = s.isp := by rw [interruptBegin_eq hl]
  obtain ⟨u, hframe, hu⟩ := stackFrame_common hs (congrArg (· - 8) ((State.sp_eq_isp hs hm').trans hisp))
    (hbegin.writable hw) s.sr s.pc 0 (interruptVector s l)
  have huisp := hu.isp_eq hs hm'
  have haccess := hbegin.trans hu.access
  have hframes := (interruptFrames_of_srM_false l hm).trans hframe
  rw [interruptBegin_eq hl] at hu hm'
  exact ⟨u,
    { frames := hframes
      isp := huisp
      usp := hu.usp
      d := hu.d
      a := hu.a
      run := hu.run
      pending := hu.control.pending
      movemEa := hu.movemEa
      outputs := hu.outputs
      vbr := hu.control.vbr
      access := haccess
      vector := hu.other _ hv },
    hu.sr, hu.msp hm', huisp ▸ hu.fields, hu.memory⟩

/-- With M = 1 the frame lies on the master stack; M is cleared, and a throwaway frame lies on the interrupt stack
(60_exceptions R569). -/
theorem interruptFrames_masterStack {l : BitVec 3} (hl : s.ipl = l) (hm : srM s.sr = true)
    (hmaster : Writable s 5 (s.msp - 8) 8) (hinterrupt : Writable s 5 (s.isp - 8) 8)
    (hapart : ∀ j < 8, ∀ k < 8, s.msp - 8 + BitVec.ofNat 32 j ≠ s.isp - 8 + BitVec.ofNat 32 k)
    (hv : ∀ j < 4, ∀ k < 8, vectorAddress s (interruptVector s l) + BitVec.ofNat 32 j ≠ s.msp - 8 + BitVec.ofNat 32 k
      ∧ vectorAddress s (interruptVector s l) + BitVec.ofNat 32 j ≠ s.isp - 8 + BitVec.ofNat 32 k) :
    ∃ u, InterruptStacked s l u ∧ u.sr = srClearM (interruptSr s.sr l) ∧ u.msp = s.msp - 8
      ∧ FieldsAt u u.msp (commonFields s.sr s.pc 0 (interruptVector s l))
      ∧ FieldsAt u u.isp (commonFields (s.sr ||| 0x2000) s.pc 1 (interruptVector s l))
      ∧ ∀ fc a, memKey s fc a ∉ keysAt s 5 (s.msp - 8) 8 ++ keysAt s 5 (s.isp - 8) 8 → byteAt u fc a = byteAt s fc a := by
  have hbegin := SameAccess.interruptBegin hl
  have hs := interruptBegin_super hl
  have hm' := (interruptBegin_srM hl).trans hm
  have hmsp : (interruptBegin s l).msp = s.msp := by rw [interruptBegin_eq hl]
  obtain ⟨t, hframe, ht⟩ := stackFrame_common hs (congrArg (· - 8) ((State.sp_eq_msp hs hm').trans hmsp))
    (hbegin.writable hmaster) s.sr s.pc 0 (interruptVector s l)
  have htmsp := ht.msp_eq hs hm'
  have hts : t.super = true := (congrArg srS ht.sr).trans hs
  have haccess := (hbegin.trans ht.access).trans (SameAccess.withoutM t)
  rw [interruptBegin_eq hl] at ht hm'
  have hws := (withoutM_super t).trans hts
  obtain ⟨u, hthrowaway, hu⟩ := stackFrame_common hws (congrArg (· - 8) ((withoutM_sp hts).trans (ht.isp hm')))
    (haccess.writable hinterrupt) (s.sr ||| 0x2000) s.pc 1 (interruptVector s l)
  have huisp := hu.isp_eq hws (withoutM_srM t)
  have humsp := (hu.msp (withoutM_srM t)).trans htmsp
  have hfields : FieldsAt u (s.msp - 8) (commonFields s.sr s.pc 0 (interruptVector s l)) :=
    ht.fields.congr_bytes fun k hk => hu.byteAt_apart hapart hk
  refine ⟨u,
    { frames := (interruptFrames_of_srM_true hm hframe).trans hthrowaway
      isp := huisp
      usp := hu.usp.trans ht.usp
      d := hu.d.trans ht.d
      a := hu.a.trans ht.a
      run := hu.run.trans ht.run
      pending := hu.control.pending.trans ht.control.pending
      movemEa := hu.movemEa.trans ht.movemEa
      outputs := hu.outputs.trans ht.outputs
      vbr := hu.control.vbr.trans ht.control.vbr
      access := haccess.trans hu.access
      vector := (hu.other _ fun j hj k hk => (hv j hj k hk).2).trans (ht.other _ fun j hj k hk => (hv j hj k hk).1) },
    hu.sr.trans (congrArg srClearM ht.sr), humsp, humsp ▸ hfields, huisp ▸ hu.fields, fun fc a hk => ?_⟩
  rw [List.mem_append, not_or] at hk
  obtain ⟨hnotMaster, hnotInterrupt⟩ := hk
  have hplatform : (withoutM t).platform = s.platform := haccess.platform
  rw [← memKey_congr hplatform, ← keysAt_congr hplatform] at hnotInterrupt
  exact (hu.memory fc a hnotInterrupt).trans (ht.memory fc a hnotMaster)

/-- Settles O47: the frames of an interrupt by the stacks that M selects, then the vector, which leaves the registers and
memory as the frames left them. -/
theorem interrupts : Obligations.Interrupts := by
  unfold Obligations.Interrupts
  intro s l hi
  have ⟨_, _, hl, _⟩ := hi
  refine ⟨fun hm hc => ?_, fun hm hmaster hinterrupt hr he hapart hv => ?_⟩
  · obtain ⟨hw, hr, hv, he⟩ := hc
    have hat : frameAt s 8 = s.isp - 8 :=
      congrArg (· - 8) (State.sp_eq_isp (entryState_super s) ((entryState_srM s).trans hm))
    rw [hat] at hw hv
    obtain ⟨u, hu, hsr, hmsp, hfields, hmemory⟩ := interruptFrames_interruptStack hl hm hw hv
    obtain ⟨p, r, ht⟩ := hu.taken hi hr he
    exact ⟨_, ht, hsr, hmsp, hfields.congr fun sz a => peek_congr rfl rfl 5 sz a,
      fun fc a hk => (byteAt_congr rfl rfl fc a).trans (hmemory fc a hk)⟩
  · obtain ⟨u, hu, hsr, hmsp, hframe, hthrowaway, hmemory⟩ :=
      interruptFrames_masterStack hl hm hmaster hinterrupt hapart hv
    obtain ⟨p, r, ht⟩ := hu.taken hi hr he
    exact ⟨_, ht, hsr, hmsp, hframe.congr fun sz a => peek_congr rfl rfl 5 sz a,
      hthrowaway.congr fun sz a => peek_congr rfl rfl 5 sz a,
      fun fc a hk => (byteAt_congr rfl rfl fc a).trans (hmemory fc a hk)⟩

end Sys2Proof.Machine
end

section
/-! The proofs of the reset family: what the reset exception leaves (70_reset R622, 10_state R58). -/

namespace Sys2Proof.Machine

variable (s : State)

/-! ## A change of the caches' control (10_state R36, 20_memory R113) -/

/-- The caches going on or off leave CACR as the change of control has it. -/
theorem cacheControl_cacr (f : State → State) :
    (cacheControl s f).cacr = (f { s with stalePipe := prefetched s }).cacr := by
  unfold cacheControl
  simp only
  split
  · rfl
  · split <;> rfl

/-- The caches going on or off leave the platform as the change of control has it. -/
theorem cacheControl_platform (f : State → State) :
    (cacheControl s f).platform = (f { s with stalePipe := prefetched s }).platform := by
  unfold cacheControl
  simp only
  split
  · rfl
  · split <;> rfl

variable {s} in
/-- Memory changes only when the program begins or ceases to see it through the data cache (log 8). -/
theorem cacheControl_mem {f : State → State}
    (h : seesCache (f { s with stalePipe := prefetched s }) = seesCache s) :
    (cacheControl s f).mem = (f { s with stalePipe := prefetched s }).mem := by
  unfold cacheControl
  cases hs : seesCache s <;> simp [hs, h]

variable {s} in
/-- With CACR zero no program sees memory through the data cache. -/
theorem seesCache_of_cacr_zero (h : s.cacr = 0) : seesCache s = false := by
  simp [seesCache, dcacheOn, h]

/-! ## The registers that reset sets (10_state R58) -/

/-- New condition codes keep the system byte of SR. -/
theorem srWithCcr_and_system (v : Word) (f : Ccr) : srWithCcr v f &&& 0xFFE0 = v &&& 0xFFE0 := by
  refine BitVec.eq_of_getLsbD_eq fun i _ => ?_
  rw [BitVec.getLsbD_and, BitVec.getLsbD_and]
  by_cases h : i < 5
  · have hmask : (0xFFE0 : Word).getLsbD i = false := by interval_cases i <;> rfl
    rw [hmask, Bool.and_false, Bool.and_false]
  · rw [srWithCcr_getLsbD v f (by omega)]

/-- Reset clears the enable bit of an access control register. -/
theorem resetAcr_disabled (n : Nat) : (resetAcr n).getLsbD 15 = false := by
  simp [resetAcr]

theorem resetRegisters_sr : (resetRegisters s).sr &&& 0xFFE0 = 0x2700 :=
  srWithCcr_and_system 0x2700 (resetCcr s.draws)

theorem resetRegisters_cacr : (resetRegisters s).cacr = 0 :=
  cacheControl_cacr s fun t => { t with cacr := 0 }

theorem resetRegisters_platform : (resetRegisters s).platform = s.platform :=
  cacheControl_platform s fun t => { t with cacr := 0 }

variable {s} in
/-- With CACR zero before, setting the registers keeps memory (log 5). -/
theorem resetRegisters_mem (h : s.cacr = 0) : (resetRegisters s).mem = s.mem :=
  cacheControl_mem (f := fun t => { t with cacr := 0 })
    ((seesCache_of_cacr_zero rfl).trans (seesCache_of_cacr_zero h).symm)

/-! ## Reading the reset vector (70_reset R622) -/

/-- What reading the reset vector may change: the bus record and the draws, ISP, PC, and whether the processor runs. -/
def withVector (b : List BusAccess) (n : Nat) (isp pc : Long) (run : RunState) (s : State) : State :=
  { s with bus := b, draws := n, isp := isp, pc := pc, run := run }

/-- Whatever answers the reads of the vector, nothing else changes once the registers are set. -/
theorem takeReset_eq_withVector :
    ∃ b n isp pc run, takeReset s = withVector b n isp pc run (resetRegisters s) := by
  unfold takeReset
  generalize resetRegisters s = r
  simp only
  split
  · exact ⟨r.bus, r.draws, r.isp, r.pc, .halted, rfl⟩
  · obtain ⟨b, n, hu⟩ := readBus_state r 5 .long 0
    split
    · next u h =>
      obtain rfl : u = _ := (congrArg Prod.snd h).symm.trans hu
      exact ⟨b, n, r.isp, r.pc, .halted, rfl⟩
    · next sp u h =>
      obtain rfl : u = _ := (congrArg Prod.snd h).symm.trans hu
      obtain ⟨b', n', hv⟩ := readBus_state { r with bus := b, draws := n } 5 .long 4
      split
      · next v h' =>
        obtain rfl : v = _ := (congrArg Prod.snd h').symm.trans hv
        exact ⟨b', n', r.isp, r.pc, .halted, rfl⟩
      · next pc v h' =>
        obtain rfl : v = _ := (congrArg Prod.snd h').symm.trans hv
        exact ⟨b', n', sp, pc, _, rfl⟩

/-- Accesses meet the same faults before and after the vector is read. -/
theorem takeReset_access : SameAccess (resetRegisters s) (takeReset s) := by
  obtain ⟨b, n, isp, pc, run, h⟩ := takeReset_eq_withVector s
  rw [h]
  exact ⟨rfl, rfl, rfl, rfl, rfl, rfl, fun _ _ hk => hk⟩

theorem takeReset_mem : (takeReset s).mem = (resetRegisters s).mem := by
  obtain ⟨b, n, isp, pc, run, h⟩ := takeReset_eq_withVector s
  rw [h]
  rfl

/-- Where an access touches no window, nor does an access to some of its bytes. -/
theorem touches_of_subset {l : List Window} {fc : BitVec 3} {a b : Long} {m n : Nat}
    (hsub : addrsOf b m ⊆ addrsOf a n) (h : touches l fc a n = false) : touches l fc b m = false := by
  unfold touches at h ⊢
  rw [List.any_eq_false] at h ⊢
  exact fun x hx => h x (hsub hx)

variable {s}

/-- A bus error in the reset vector halts the processor (60_exceptions R535). -/
theorem takeReset_of_fault (h : readFaults (resetRegisters s) false 5 0 8 = true) :
    takeReset s = { resetRegisters s with run := .halted } := by
  unfold takeReset
  exact if_pos h

/-- A reset vector in memory gives ISP and PC; an odd PC halts the processor (70_reset R622). -/
theorem takeReset_of_memory (hf : readFaults (resetRegisters s) false 5 0 8 = false)
    (hd : touches (resetRegisters s).platform.devices 5 0 8 = false) :
    takeReset s = { resetRegisters s with
      isp := peek (resetRegisters s) 5 .long 0
      pc := peek (resetRegisters s) 5 .long 4
      run := if (peek (resetRegisters s) 5 .long 4).getLsbD 0 then .halted else .running } := by
  have hisp : touches (resetRegisters s).platform.devices 5 0 4 = false :=
    touches_of_subset (addrsOf_subset_of_le 0 (by omega)) hd
  have hpc : touches (resetRegisters s).platform.devices 5 4 4 = false :=
    touches_of_subset (addrsOf_add_subset 0 4 8) hd
  simp only [takeReset, hf, readBus_mem (sz := .long) hisp, readBus_mem (sz := .long) hpc]
  rfl

/-- The same of the state after the exception: the fault is asked of the platform, which the exception keeps. -/
theorem takeReset_run_of_fault (h : readFaults (takeReset s) false 5 0 8 = true) : (takeReset s).run = .halted := by
  rw [(takeReset_access s).readFaults] at h
  rw [takeReset_of_fault h]

/-- ISP and PC are what the vector reads after the exception, since its reads keep memory and the platform. -/
theorem takeReset_vector (hf : readFaults (takeReset s) false 5 0 8 = false)
    (hd : touches (takeReset s).platform.devices 5 0 8 = false) :
    (takeReset s).isp = peek (takeReset s) 5 .long 0 ∧ (takeReset s).pc = peek (takeReset s) 5 .long 4
      ∧ (takeReset s).run = if (takeReset s).pc.getLsbD 0 then .halted else .running := by
  have hpeek := peek_congr (takeReset_mem s) (takeReset_access s).platform 5 .long
  rw [(takeReset_access s).readFaults] at hf
  rw [(takeReset_access s).platform] at hd
  rw [hpeek, hpeek, takeReset_of_memory hf hd]
  exact ⟨rfl, rfl, rfl⟩

/-- Settles O55: the registers are set as R58 says, then the vector is read, which changes only ISP, PC and whether the
processor runs (and the bus record and the draws, where a device answers). -/
theorem resetException : Obligations.ResetException := by
  unfold Obligations.ResetException
  intro s hrun
  have hstep : step s = .next (takeReset s) := by simp only [step, cycle, hrun]
  have hplatform := (takeReset_access s).platform.trans (resetRegisters_platform s)
  have hfault := takeReset_run_of_fault (s := s)
  have hvector := takeReset_vector (s := s)
  have hmem : s.cacr = 0 → (takeReset s).mem = s.mem := fun hc => (takeReset_mem s).trans (resetRegisters_mem hc)
  refine ⟨takeReset s, hstep, ?_⟩
  obtain ⟨b, n, isp, pc, run, hset⟩ := takeReset_eq_withVector s
  rw [hset] at hplatform hfault hvector hmem ⊢
  exact ⟨resetRegisters_sr s, rfl, resetRegisters_cacr s, rfl, rfl, resetAcr_disabled _, resetAcr_disabled _,
    resetAcr_disabled _, resetAcr_disabled _, hplatform, hfault, hvector, hmem⟩

end Sys2Proof.Machine
end

section
/-! The proofs of the other families: the invariant, the decoder and the instructions. -/

namespace Sys2Proof.Machine

open Sys2Proof.Claim

variable {s t : State}

/-! ## Two operands and one operand (41 R231 to R242, 42 R271 to R280) -/

/-- An instruction whose body is `eaToD` replaces its data register and keeps the rest. -/
theorem toDn_of_exec {mk : Reg → Ea → Instr} {sz : Size} {f : Op sz} {fl : Codes sz}
    (hexec : ∀ dn ea s, exec (mk dn ea) s = complete (mk dn ea) (eaToD sz dn ea f fl) s) : ToDn mk sz f fl := by
  intro s s1 dn ea v ht hv
  refine ⟨(hexec dn ea s).trans (complete_past (eaToD_ok hv) ht), Kept.past ?_⟩
  exact ((readEa_inv hv).kept.trans ((Kept.setCcr s1 _).trans (Kept.setDreg _ dn _))).mono (by simp) (by simp)

/-- Settles O1: every form is `eaToD` of its operation and its codes. -/
theorem toDataRegister : Obligations.ToDataRegister := by
  unfold Obligations.ToDataRegister
  refine ⟨?_, ?_, ?_, ?_, ?_, ?_, ?_, ?_, ?_, ?_, ?_, ?_⟩
  all_goals exact toDn_of_exec fun _ _ _ => rfl

/-- What replacing an operand keeps: the place is found in `s`, read, and written with new condition codes set. -/
theorem Kept.replaced {s1 s2 : State} {sz : Size} {own : Nat} {ea : Ea} {l : Loc} {d : BitVec sz.bits}
    (h1 : operand sz own ea s = .ok l s1) (h2 : readLoc sz l s1 = .ok d s2) (f : Ccr) (r : BitVec sz.bits) :
    Kept s (Machine.stored sz l r (s2.setCcr f)) (placeRegs l ++ steppedRegs ea) (placeKeys s sz l) := by
  have hop : OperandEffect sz.bytes ea s s2 := (operand_inv h1).read (readLoc_inv h2)
  have hkeys : placeKeys (s2.setCcr f) sz l = placeKeys s sz l :=
    placeKeys_congr hop.access.platform ((State.dataFc_setCcr s2 f).trans hop.dataFc)
  have h := hop.kept.trans ((Kept.setCcr s2 f).trans (Kept.stored (s2.setCcr f) sz l r))
  rw [hkeys] at h
  exact h.mono (by simp) (by simp)

/-- An instruction whose body replaces its operand by a result, setting codes, replaces it and keeps the rest. -/
theorem replaces_of_body {i : Instr} {sz : Size} {own : Nat} {ea : Ea} {r : State → BitVec sz.bits → BitVec sz.bits}
    {c : State → BitVec sz.bits → Ccr} {body : Exec Done} (hexec : ∀ s, exec i s = complete i body s)
    (hbody : ∀ {s s1 s2 : State} {l : Loc} {d : BitVec sz.bits}, operand sz own ea s = .ok l s1 →
      readLoc sz l s1 = .ok d s2 → CanStore sz l s2 → body s = .ok .seq (stored sz l (r s d) (s2.setCcr (c s d)))) :
    Replaces i sz own ea r c := fun s _ _ _ _ ht h1 h2 h3 =>
  ⟨(hexec s).trans (complete_past (hbody h1 h2 h3) ht), (Kept.replaced h1 h2 _ _).past⟩

/-- Settles O2: every form is `dToEa` of its operation and its codes. -/
theorem toOperand : Obligations.ToOperand := by
  unfold Obligations.ToOperand
  refine fun dn ea => ⟨?_, ?_, ?_, ?_, ?_, ?_, ?_, ?_, ?_, ?_, ?_, ?_, ?_, ?_, ?_⟩
  all_goals exact replaces_of_body (fun _ => rfl) dToEa_ok

/-- Settles O3: every form is `immToEa` of its operation and its codes. -/
theorem immediateToOperand : Obligations.ImmediateToOperand := by
  unfold Obligations.ImmediateToOperand
  refine fun sz imm ea => ⟨?_, ?_, ?_, ?_, ?_⟩
  all_goals exact replaces_of_body (fun _ => rfl) immToEa_ok

/-- A replacement of the operand found by a function of it, with the codes of the operand and the result. -/
theorem rmwEa_setFlags_ok {s1 s2 : State} {sz : Size} {own : Nat} {e : Ea} {l : Loc} {d : BitVec sz.bits}
    (f : BitVec sz.bits → BitVec sz.bits) (fl : BitVec sz.bits → BitVec sz.bits → Ccr → Ccr)
    (h1 : operand sz own e s = .ok l s1) (h2 : readLoc sz l s1 = .ok d s2) (h3 : CanStore sz l s2) :
    rmwEa sz own e (fun d => do setFlags (fl d (f d)); return f d) s
      = .ok .seq (stored sz l (f d) (s2.setCcr (fl d (f d) s.ccr))) := by
  rw [← ((operand_inv h1).read (readLoc_inv h2)).ccr]
  exact rmwEa_ok h1 h2 (Exec.setFlags_bind s2 _ _) (h3.congr (SameAccess.setCcr s2 _) (State.dataFc_setCcr s2 _))

/-- ADDQ to a place that is no address register. -/
theorem exec_addq {sz : Size} {q : BitVec 3} {ea : Ea} (h : ∀ r, ea ≠ .an r) (s : State) :
    exec (.addq sz q ea) s = complete (.addq sz q ea) (rmwEa sz 0 ea fun d => do
      setFlags (addFlags (BitVec.ofNat sz.bits (quick q)) d (d + BitVec.ofNat sz.bits (quick q)))
      return d + BitVec.ofNat sz.bits (quick q)) s := by
  cases ea
  case an r => exact absurd rfl (h r)
  all_goals rfl

/-- SUBQ to a place that is no address register. -/
theorem exec_subq {sz : Size} {q : BitVec 3} {ea : Ea} (h : ∀ r, ea ≠ .an r) (s : State) :
    exec (.subq sz q ea) s = complete (.subq sz q ea) (rmwEa sz 0 ea fun d => do
      setFlags (subFlags (BitVec.ofNat sz.bits (quick q)) d (d - BitVec.ofNat sz.bits (quick q)))
      return d - BitVec.ofNat sz.bits (quick q)) s := by
  cases ea
  case an r => exact absurd rfl (h r)
  all_goals rfl

/-- Settles O4: NEG, NEGX and NOT are `onEa` of their operation and codes, ADDQ and SUBQ replace their operand. -/
theorem oneOperand : Obligations.OneOperand := by
  unfold Obligations.OneOperand
  refine fun sz ea => ⟨?_, ?_, ?_, fun q hq => ⟨?_, ?_⟩⟩
  · exact replaces_of_body (fun _ => rfl) onEa_ok
  · exact replaces_of_body (fun _ => rfl) onEa_ok
  · exact replaces_of_body (fun _ => rfl) onEa_ok
  · exact replaces_of_body (exec_addq hq) (rmwEa_setFlags_ok _ fun d r => addFlags _ d r)
  · exact replaces_of_body (exec_subq hq) (rmwEa_setFlags_ok _ fun d r => subFlags _ d r)

end Sys2Proof.Machine
end

section
/-! Moves, address registers, comparisons and the instructions that only write or only set condition codes (40, 41, 42, 47,
48). -/

namespace Sys2Proof.Machine

open Sys2Proof.Claim

variable {s t : State}

/-! ## An address register from a source (41 R232, R237; 40 R202, R207) -/

/-- The source of an address operation is read and sign-extended, then the rest runs. -/
theorem addressSource_bind {β : Type} (sz : SizeWL) (e : Ea) (g : Long → Exec β) :
    (addressSource sz e >>= g) = readEa sz.size 0 e >>= fun v => g (sext v) := by
  unfold addressSource
  rw [bind_assoc]
  exact bind_congr fun v => funext fun s => Exec.pure_bind s (sext v) g

/-- An instruction that completes from `s` in `t` once the bodies agree. -/
theorem next_past {i : Instr} {body : Exec Done} (hexec : exec i s = complete i body s) (hbody : body s = .ok .seq t)
    (ht : s.traceAll = false) : exec i s = .next (past i s t) := hexec.trans (complete_past hbody ht)

/-- An instruction whose body reads a source and replaces an address register does that and keeps the rest. -/
theorem toAn_of_exec {mk : Reg → Ea → Instr} {sz : SizeWL} {f : Long → Long → Long}
    (hexec : ∀ an ea s, exec (mk an ea) s = complete (mk an ea) (addressSource sz ea >>= fun v => do
      change fun s => s.setAreg an (f v (s.areg an))
      return .seq) s) : ToAn mk sz f := by
  intro s s1 an ea v ht hv
  have hop := readEa_inv hv
  refine ⟨next_past (hexec an ea s) ?_ ht, ?_, Kept.past ?_⟩
  · rw [addressSource_bind, Exec.bind_ok s hv]
    rfl
  · rw [past_ccr, State.ccr_setAreg, hop.ccr]
  · exact (hop.kept.trans (Kept.setAreg s1 an _)).mono (by simp) (by simp)

/-- LEA writes the address of its operand. -/
theorem lea_ok {s1 : State} {an : Reg} {ea : Ea} {a : Long} (ht : s.traceAll = false)
    (h : eaAddress 4 0 ea s = .ok a s1) : exec (.lea an ea) s = .next (past (.lea an ea) s (s1.setAreg an a)) :=
  next_past rfl ((Exec.bind_ok s h _).trans rfl) ht

/-- An instruction whose body is done in every state with the effect `f`. -/
theorem registers_of_body {i : Instr} {body : Exec Done} {regs : List GReg} {f : State → State}
    (hexec : ∀ s, exec i s = complete i body s) (hbody : ∀ s, body s = .ok .seq (f s))
    (hkept : ∀ s, Kept s (f s) regs []) : Registers i regs f := fun s ht =>
  ⟨next_past (hexec s) (hbody s) ht, hkept s⟩

/-- Settles O5: the body of each form reads its source and writes the whole register. -/
theorem addressRegisters : Obligations.AddressRegisters := by
  unfold Obligations.AddressRegisters
  refine ⟨fun sz => ?_, fun sz => ?_, fun sz => ?_, fun s s1 an ea a ht h => ?_, fun sz q r => ⟨?_, ?_⟩⟩
  · exact toAn_of_exec fun _ _ _ => rfl
  · exact toAn_of_exec fun _ _ _ => rfl
  · exact toAn_of_exec fun _ _ _ => rfl
  · have hop := eaAddress_inv h
    refine ⟨lea_ok ht h, ?_, Kept.past ?_⟩
    · rw [past_ccr, State.ccr_setAreg, hop.ccr]
    · exact (hop.kept.trans (Kept.setAreg s1 an a)).mono (by simp) (by simp)
  · exact registers_of_body (fun _ => rfl) (fun _ => rfl) fun s => Kept.setAreg s r _
  · exact registers_of_body (fun _ => rfl) (fun _ => rfl) fun s => Kept.setAreg s r _

/-! ## Comparisons (41 R244 to R247, 47 R361) -/

/-- An instruction that reads an operand and ends by setting the codes changes nothing else. -/
theorem onlyFlags_of_body {i : Instr} {sz : Size} {own : Nat} {ea : Ea} {c : State → BitVec sz.bits → Ccr}
    {g : BitVec sz.bits → Exec Done} (hexec : ∀ s, exec i s = complete i (readEa sz own ea >>= g) s)
    (hg : ∀ s v, g v s = .ok .seq (s.setCcr (c s v))) : OnlyFlags i sz own ea c := by
  intro s s1 v ht hv
  refine ⟨next_past (hexec s) ((Exec.bind_ok s hv g).trans (hg s1 v)) ht, Kept.past ?_⟩
  exact ((readEa_inv hv).kept.trans (Kept.setCcr s1 _)).mono (by simp) (by simp)

/-- Settles O6: each form reads its operands and sets the codes of the difference. -/
theorem comparisons : Obligations.Comparisons := by
  unfold Obligations.Comparisons
  refine ⟨fun dn ea => ?_, fun dn ea => ?_, fun dn ea => ?_, fun sz an ea => ?_, fun sz imm ea => ?_, fun sz ea => ?_,
    fun s s1 s2 sz x y v d ht hv hd => ?_⟩
  · exact onlyFlags_of_body (fun _ => rfl) fun _ _ => rfl
  · exact onlyFlags_of_body (fun _ => rfl) fun _ _ => rfl
  · refine onlyFlags_of_body (fun _ => rfl) fun s v => ?_
    rw [Exec.getD_bind_long]
    rfl
  · refine onlyFlags_of_body (g := fun v => getA an >>= fun d => compare (sext v) d) (fun s => ?_) fun _ _ => rfl
    exact (congrArg (complete _ · s) (addressSource_bind sz ea _) :)
  · exact onlyFlags_of_body (fun _ => rfl) fun _ _ => rfl
  · exact onlyFlags_of_body (fun _ => rfl) fun _ _ => rfl
  · have hop := readEa_inv hv
    have hop2 := readEa_inv hd
    have hbody : (readEa sz 0 (.postInc y) >>= fun v => readEa sz 0 (.postInc x) >>= fun d => compare v d) s
        = .ok .seq (s2.setCcr (cmpFlags v d (d - v) s.ccr)) := by
      rw [Exec.bind_ok s hv, Exec.bind_ok s1 hd, ← hop.ccr, ← hop2.ccr]
      rfl
    refine ⟨next_past rfl hbody ht, Kept.past ?_⟩
    exact (hop.kept.trans (hop2.kept.trans (Kept.setCcr s2 _))).mono (by simp [steppedRegs]) (by simp)

/-! ## ADDX and SUBX (41 R235, R240) -/

theorem ReadEffect.ccr (h : ReadEffect s t) : t.ccr = s.ccr := by
  obtain ⟨r, b, n, -, rfl⟩ := h
  rfl

theorem ReadEffect.dataFc (h : ReadEffect s t) : t.dataFc = s.dataFc := by
  obtain ⟨r, b, n, -, rfl⟩ := h
  rfl

/-- The memory form of an extended instruction does its two reads, then its write. -/
theorem extendedMemory_of_exec {i : Instr} {sz : Size} {x y : Reg} {f : Bool → Op sz} {fl : Codes sz}
    {r : State → BitVec sz.bits → BitVec sz.bits → BitVec sz.bits} {c : State → BitVec sz.bits → BitVec sz.bits → Ccr}
    (hexec : ∀ s, exec i s = complete i (extended sz true x y f fl) s) (hr : ∀ s v d, r s v d = f s.ccr.x v d)
    (hc : ∀ s v d, c s v d = fl v d (r s v d) s.ccr) : ExtendedMemory i sz x y r c := by
  intro s s1 s2 v d ht hv
  dsimp only
  intro hd hw
  have hop := readEa_inv hv
  have hrd := readMem_effect hd
  have hfc : s2.dataFc = s.dataFc := by rw [hrd.dataFc, State.dataFc_setAreg, hop.dataFc]
  have hccr : s2.ccr = s.ccr := by rw [hrd.ccr, State.ccr_setAreg, hop.ccr]
  have hw' : Writable (s2.setCcr (c s v d)) (s2.setCcr (c s v d)).dataFc (s1.areg x - stepOf sz.bytes x) sz.bytes := by
    rw [State.dataFc_setCcr, hfc]
    exact (SameAccess.setCcr s2 _).writable hw
  have hbody : extended sz true x y f fl s = .ok .seq
      (poke (s2.setCcr (c s v d)) s.dataFc sz (s1.areg x - stepOf sz.bytes x) (r s v d)) := by
    have hpre : preDecrement sz x s1 = .ok (s1.areg x - stepOf sz.bytes x)
      (s1.setAreg x (s1.areg x - stepOf sz.bytes x)) := rfl
    unfold extended
    rw [Exec.getFlags_bind, if_pos rfl, Exec.bind_ok s hv, Exec.bind_ok s1 hpre, Exec.bind_ok _ hd, Exec.setFlags_bind,
      hccr, ← hr, ← hc, writeMem_ok hw'.1 hw'.2.1 hw'.2.2, State.dataFc_setCcr, hfc]
  refine ⟨next_past (hexec s) hbody ht, Kept.past ?_⟩
  have hp := Kept.poke (s2.setCcr (c s v d)) s.dataFc sz (s1.areg x - stepOf sz.bytes x) (r s v d)
  have h := hop.kept.trans ((Kept.setAreg s1 x _).trans (hrd.kept.trans ((Kept.setCcr s2 (c s v d)).trans hp)))
  have hplat : (s2.setCcr (c s v d)).platform = s.platform := by
    rw [State.setCcr_platform, hrd.access.platform, State.setAreg_platform, hop.access.platform]
  rw [keysAt_congr hplat] at h
  exact h.mono (by simp [steppedRegs]) (by simp)

/-- Settles O7: the register forms run on `D[y]` and `D[x]`, the memory forms on the two predecremented places. -/
theorem extendedArithmetic : Obligations.ExtendedArithmetic := by
  unfold Obligations.ExtendedArithmetic
  refine fun sz x y => ⟨?_, ?_, ?_, ?_⟩
  · exact registers_of_body (fun _ => rfl) (fun _ => rfl) fun s =>
      ((Kept.setCcr s _).trans (Kept.setDreg _ x _)).mono (by simp) (by simp)
  · exact registers_of_body (fun _ => rfl) (fun _ => rfl) fun s =>
      ((Kept.setCcr s _).trans (Kept.setDreg _ x _)).mono (by simp) (by simp)
  · exact extendedMemory_of_exec (fun _ => rfl) (fun _ _ _ => rfl) fun _ _ _ => rfl
  · exact extendedMemory_of_exec (fun _ => rfl) (fun _ _ _ => rfl) fun _ _ _ => rfl

/-! ## MOVE (40 R201) -/

/-- The value MOVE stores: the value read, or where the destination steps the source register a free choice between it and
the register after the step (93 U8). -/
theorem moveValue_ok {sz : Size} {src dst : Ea} (s2 : State) (v : BitVec sz.bits) : ∃ (w : BitVec sz.bits) (n : Nat),
    (∀ k : BitVec sz.bits → Exec Done, (if aliased src dst then do
        let b ← drawBit
        let new ← readEa sz 0 src
        let w ← pure (if b then new else v)
        k w
      else do
        let w ← pure v
        k w) s2 = k w (withDraws n s2))
    ∧ (aliased src dst = false → w = v ∧ n = s2.draws)
    ∧ (aliased src dst = true → w = v ∨ readEa sz 0 src s2 = .ok w s2) := by
  cases ha : aliased src dst
  · exact ⟨v, s2.draws, fun _ => rfl, fun _ => ⟨rfl, rfl⟩, nofun⟩
  · obtain ⟨r, rfl⟩ : ∃ r, src = .an r := by
      unfold aliased at ha
      split at ha
      · exact ⟨_, rfl⟩
      · exact ⟨_, rfl⟩
      · cases ha
    refine ⟨if Config.freeBit s2.draws then lowPart sz (s2.areg r) else v, s2.draws + 1, fun k => ?_, nofun, fun _ => ?_⟩
    · rw [if_pos rfl, drawBit_then]
      rfl
    · cases Config.freeBit s2.draws
      · exact .inl rfl
      · exact .inr rfl

/-- Settles O8: the source, the place, the value stored with its codes, the place written. -/
theorem move : Obligations.Move := by
  unfold Obligations.Move
  intro s s1 s2 sz src dst l v ht hv hl hc
  obtain ⟨w, n, hw, hna, hal⟩ := moveValue_ok (src := src) (dst := dst) s2 v
  have hsrc := readEa_inv hv
  have hdst := operand_inv hl
  have hccr : (withDraws n s2).ccr = s.ccr := by rw [withDraws_ccr, hdst.ccr, hsrc.ccr]
  have hc' : CanStore sz l ((withDraws n s2).setCcr (logicFlags w s.ccr)) :=
    hc.congr ((SameAccess.withDraws s2 n).trans (SameAccess.setCcr _ _)) (State.dataFc_setCcr _ _)
  refine ⟨w, n, next_past rfl ?_ ht, hna, hal, Kept.past ?_⟩
  · rw [Exec.bind_ok s hv, Exec.bind_ok s1 hl]
    refine (hw _).trans ?_
    rw [Exec.setFlags_bind, hccr, writeLoc_ok hc']
  · have h := hsrc.kept.trans (hdst.kept.trans ((Kept.withDraws s2 n).trans ((Kept.setCcr _ (logicFlags w s.ccr)).trans
      (Kept.stored _ sz l w))))
    have hfc : ((withDraws n s2).setCcr (logicFlags w s.ccr)).dataFc = s.dataFc := by
      rw [State.dataFc_setCcr, withDraws_dataFc, hdst.dataFc, hsrc.dataFc]
    have hplat : ((withDraws n s2).setCcr (logicFlags w s.ccr)).platform = s.platform :=
      hdst.access.platform.trans hsrc.access.platform
    rw [placeKeys_congr hplat hfc] at h
    refine h.mono (fun i hi => ?_) (by simp)
    simp only [List.mem_append] at hi ⊢
    tauto

/-! ## Registers only (40 R203, R210; 41 R249 to R251; 43 R300; 47 R366) -/

/-- A data register and the codes replaced. -/
theorem Kept.dregCodes (s : State) (n : Reg) (v : Long) (f : Ccr) : Kept s ((s.setDreg n v).setCcr f) [dNum n] [] :=
  ((Kept.setDreg s n v).trans (Kept.setCcr _ f)).mono (by simp) (by simp)

/-- Two general registers exchanged, in the words of the register numbers. -/
theorem exchange_run (x y : GReg) (s : State) :
    exchange x y s = .ok .seq ((s.setGreg x (s.greg y)).setGreg y (s.greg x)) := rfl

/-- Two general registers replaced. -/
theorem Kept.setGreg_two (s : State) (x y : GReg) (v w : Long) : Kept s ((s.setGreg x v).setGreg y w) [x, y] [] :=
  ((Kept.setGreg s x v).trans (Kept.setGreg _ y w)).mono (by simp) (by simp)

/-- The halves of a long word exchanged are a rotation by 16. -/
theorem loWord_append_hiWord (v : Long) : (loWord v ++ hiWord v : Long) = v.rotateLeft 16 := by
  apply BitVec.eq_of_getLsbD_eq
  intro i hi
  rw [BitVec.getLsbD_append, BitVec.getLsbD_rotateLeft]
  simp only [loWord, hiWord, BitVec.getLsbD_extractLsb']
  rcases Nat.lt_or_ge i 16 with h | h
  · simp [h]
  · simp [show ¬ i < 16 by omega, show i - 16 < 16 by omega, hi]

/-- SWAP rotates its register by 16. -/
theorem swap_body_run (dn : Reg) (s : State) : (do
      let v ← getD .long dn
      putD .long dn (loWord v ++ hiWord v)
      setFlags (logicFlags (loWord v ++ hiWord v : Long))
      return .seq : Exec Done) s
    = .ok .seq ((s.setDreg dn ((s.dreg dn).rotateLeft 16)).setCcr (logicFlags ((s.dreg dn).rotateLeft 16) s.ccr)) := by
  rw [Exec.getD_bind_long, loWord_append_hiWord]
  rfl

/-- Settles O9: each body is done in every state, with the registers and codes the rule names. -/
theorem registerMoves : Obligations.RegisterMoves := by
  unfold Obligations.RegisterMoves
  refine ⟨fun dn d => ?_, fun x y => ?_, fun x y => ?_, fun x y => ?_, fun dn => ?_, fun dn => ?_, fun dn => ?_, ?_,
    fun dn => ?_⟩
  · exact registers_of_body (fun _ => rfl) (fun _ => rfl) fun s => Kept.dregCodes s dn _ _
  · refine registers_of_body (body := exchange (dNum x) (dNum y)) (fun _ => rfl) (fun s => ?_) fun s => ?_
    · rw [exchange_run, setGreg_dNum, setGreg_dNum, greg_dNum, greg_dNum]
    · rw [← setGreg_dNum, ← setGreg_dNum]; exact Kept.setGreg_two s _ _ _ _
  · refine registers_of_body (body := exchange (aNum x) (aNum y)) (fun _ => rfl) (fun s => ?_) fun s => ?_
    · rw [exchange_run, setGreg_aNum, setGreg_aNum, greg_aNum, greg_aNum]
    · rw [← setGreg_aNum, ← setGreg_aNum]; exact Kept.setGreg_two s _ _ _ _
  · refine registers_of_body (body := exchange (dNum x) (aNum y)) (fun _ => rfl) (fun s => ?_) fun s => ?_
    · rw [exchange_run, setGreg_dNum, setGreg_aNum, greg_dNum, greg_aNum]
    · rw [← setGreg_dNum, ← setGreg_aNum]; exact Kept.setGreg_two s _ _ _ _
  · exact registers_of_body (fun _ => rfl) (swap_body_run dn) fun s => Kept.dregCodes s dn _ _
  · exact registers_of_body (fun _ => rfl) (fun _ => rfl) fun s => Kept.dregCodes s dn _ _
  · exact registers_of_body (fun _ => rfl) (fun _ => rfl) fun s => Kept.dregCodes s dn _ _
  · exact registers_of_body (fun _ => rfl) (fun _ => rfl) fun s => Kept.refl s
  · exact registers_of_body (fun _ => rfl) (fun _ => rfl) fun s => Kept.dregCodes s dn _ _

/-! ## Writes without a read (41 R243; 47 R355; 48 R384, R386) -/

/-- What writing a place with new condition codes set keeps. -/
theorem Kept.written {s1 : State} {sz : Size} {ea : Ea} {l : Loc} (h : operand sz 0 ea s = .ok l s1) (f : Ccr)
    (r : BitVec sz.bits) :
    Kept s (Machine.stored sz l r (s1.setCcr f)) (placeRegs l ++ steppedRegs ea) (placeKeys s sz l) := by
  have hop := operand_inv h
  have hkeys : placeKeys (s1.setCcr f) sz l = placeKeys s sz l :=
    placeKeys_congr hop.access.platform ((State.dataFc_setCcr s1 f).trans hop.dataFc)
  have h := hop.kept.trans ((Kept.setCcr s1 f).trans (Kept.stored (s1.setCcr f) sz l r))
  rw [hkeys] at h
  exact h.mono (by simp) (by simp)

/-- An instruction whose body finds a place and writes it. -/
theorem writes_of_body {i : Instr} {sz : Size} {ea : Ea} {need : State → Prop} {v : State → BitVec sz.bits}
    {c : State → Ccr} {body : Exec Done} (hexec : ∀ s, exec i s = complete i body s)
    (hbody : ∀ {s s1 : State} {l : Loc}, need s → operand sz 0 ea s = .ok l s1 → CanStore sz l s1 →
      body s = .ok .seq (stored sz l (v s) (s1.setCcr (c s)))) : Writes i sz ea need v c := fun s _ _ ht hn h hc =>
  ⟨next_past (hexec s) (hbody hn h hc) ht, (Kept.written h _ _).past⟩

/-- An operand written without a change of the codes. -/
theorem writeEa_ok {s1 : State} {sz : Size} {ea : Ea} {l : Loc} {v : BitVec sz.bits}
    (h : operand sz 0 ea s = .ok l s1) (hc : CanStore sz l s1) :
    writeEa sz 0 ea v s = .ok .seq (stored sz l v (s1.setCcr s.ccr)) := by
  unfold writeEa
  rw [Exec.bind_ok s h, writeLoc_ok hc, ← (operand_inv h).ccr, State.setCcr_ccr]

/-- CLR finds its place, sets the codes and writes zero. -/
theorem clr_body_ok {s1 : State} {sz : Size} {ea : Ea} {l : Loc} (h : operand sz 0 ea s = .ok l s1)
    (hc : CanStore sz l s1) : (operand sz 0 ea >>= fun l => do
      setFlags fun f => { f with n := false, z := true, v := false, c := false }
      writeLoc sz l 0 .seq) s
    = .ok .seq (stored sz l 0 (s1.setCcr { x := s.ccr.x, n := false, z := true, v := false, c := false })) := by
  rw [Exec.bind_ok s h, Exec.setFlags_bind, (operand_inv h).ccr,
    writeLoc_ok (hc.congr (SameAccess.setCcr s1 _) (State.dataFc_setCcr s1 _))]

/-- The condition codes as a word are the low five bits of SR. -/
theorem ccr_bits_setWidth (s : State) : (s.ccr.bits.setWidth 16 : Word) = s.sr &&& 0x001F := by
  rw [State.ccr, Ccr.bits_ccrOf]
  apply BitVec.eq_of_getLsbD_eq
  intro i hi
  interval_cases i <;> simp

/-- Settles O10: each body finds its place and writes it, MOVE from SR after the privilege check. -/
theorem writeOnly : Obligations.WriteOnly := by
  unfold Obligations.WriteOnly
  refine ⟨fun sz ea => ?_, fun c ea => ?_, fun ea => ?_, fun ea => ?_⟩
  · exact writes_of_body (fun _ => rfl) fun _ => clr_body_ok
  · exact writes_of_body (fun _ => rfl) fun _ h hc => (Exec.getFlags_bind _ _).trans (writeEa_ok h hc)
  · refine writes_of_body (fun _ => rfl) fun {s _ _} _ h hc => (Exec.getFlags_bind _ _).trans ?_
    rw [ccr_bits_setWidth]
    exact writeEa_ok h hc
  · exact writes_of_body (fun _ => rfl) fun hs h hc => (needSupervisor_super hs _).trans (writeEa_ok h hc)

/-! ## Condition codes only (42 R273, R276, R279; 48 R387) -/

/-- The codes of a word are those of its low five bits. -/
theorem ccrOf_congr {v w : Word} (h : (v.extractLsb' 0 5 : BitVec 5) = w.extractLsb' 0 5) : ccrOf v = ccrOf w := by
  have hbit : ∀ i < 5, v.getLsbD i = w.getLsbD i := fun i hi => by
    have := congrArg (fun x : BitVec 5 => x.getLsbD i) h
    simpa [hi] using this
  rw [ccrOf, ccrOf, hbit 0 (by decide), hbit 1 (by decide), hbit 2 (by decide), hbit 3 (by decide), hbit 4 (by decide)]

/-- An operation on the five codes is that of the words, bit by bit. -/
theorem immToCcr_run {f : BitVec 5 → BitVec 5 → BitVec 5} {g : Word → Word → Word} (imm : Byte)
    (h : ∀ v w : Word, ((g v w).extractLsb' 0 5 : BitVec 5) = f (v.extractLsb' 0 5) (w.extractLsb' 0 5)) :
    immToCcr imm f s = .ok .seq (s.setCcr (ccrOf (g s.sr (imm.setWidth 16)))) := by
  have hcodes : ccrOf ((f s.ccr.bits (imm.extractLsb' 0 5)).setWidth 16) = ccrOf (g s.sr (imm.setWidth 16)) := by
    apply ccrOf_congr
    rw [h, State.ccr, Ccr.bits_ccrOf]
    have himm : ((imm.setWidth 16 : Word).extractLsb' 0 5 : BitVec 5) = imm.extractLsb' 0 5 := by
      apply BitVec.eq_of_getLsbD_eq
      intro i hi
      simp [hi, show i < 16 by omega]
    rw [himm]
    apply BitVec.eq_of_getLsbD_eq
    intro i hi
    simp [hi, show i < 16 by omega]
  rw [← hcodes]
  rfl

/-- Settles O11: the operations on the codes are those of the low bits of the words. -/
theorem conditionCodes : Obligations.ConditionCodes := by
  unfold Obligations.ConditionCodes
  refine ⟨fun v => ?_, fun v => ?_, fun v => ?_, fun ea => ?_⟩
  · exact registers_of_body (fun _ => rfl) (fun s => immToCcr_run v fun _ _ => BitVec.extractLsb'_and)
      fun s => Kept.setCcr s _
  · exact registers_of_body (fun _ => rfl) (fun s => immToCcr_run v fun _ _ => BitVec.extractLsb'_or)
      fun s => Kept.setCcr s _
  · exact registers_of_body (fun _ => rfl) (fun s => immToCcr_run v fun _ _ => BitVec.extractLsb'_xor)
      fun s => Kept.setCcr s _
  · exact onlyFlags_of_body (fun _ => rfl) fun _ _ => rfl

end Sys2Proof.Machine
end

section
/-! The arithmetic of numbers behind the flags, and multiplication, division and single bits (00_scope 5.5, 41, 44). -/

namespace Sys2Proof.Machine

open Sys2Proof.Claim

variable {s t : State}

/-! ## Carries, borrows and overflows (00_scope 5.5) -/

/-- The most significant bit of a value of `m + 1` bits says whether it reaches the upper half. -/
theorem msb_succ_eq_decide {m : Nat} (v : BitVec (m + 1)) : v.msb = decide (2 ^ m ≤ v.toNat) := BitVec.msb_eq_decide v

/-- A value of `m + 1` bits as a signed number. -/
theorem toInt_succ {m : Nat} (v : BitVec (m + 1)) :
    v.toInt = if v.toNat < 2 ^ m then (v.toNat : Int) else v.toNat - 2 * (2 ^ m : Nat) := by
  rw [BitVec.toInt_eq_toNat_cond, Nat.pow_succ]
  split <;> split <;> omega

/-- A value of `m + 1` bits lies below twice the half. -/
theorem toNat_lt_two_mul {m : Nat} (v : BitVec (m + 1)) : v.toNat < 2 * 2 ^ m := by
  have := v.isLt
  rw [Nat.pow_succ] at this
  omega

/-- The carry formula tells the sum that does not fit, whatever came in. -/
theorem addC_of_sum {n : Nat} (hn : 0 < n) {s d r : BitVec n} {x : Nat} (hx : x ≤ 1)
    (h : r.toNat = (d.toNat + s.toNat + x) % 2 ^ n) : addC s d r = decide (2 ^ n ≤ d.toNat + s.toNat + x) := by
  obtain ⟨m, rfl⟩ := Nat.exists_eq_succ_of_ne_zero hn.ne'
  have hs := toNat_lt_two_mul s
  have hd := toNat_lt_two_mul d
  have hp : 2 ^ (m + 1) = 2 * 2 ^ m := by rw [Nat.pow_succ]; omega
  simp only [Nat.succ_eq_add_one, hp] at h ⊢
  simp only [addC, msb, msb_succ_eq_decide, h]
  generalize 2 ^ m = k at *
  generalize s.toNat = a at *
  generalize d.toNat = b at *
  rw [Bool.eq_iff_iff]
  rcases Nat.lt_or_ge (b + a + x) (2 * k) with hlt | hge
  · rw [Nat.mod_eq_of_lt hlt]
    simp only [Bool.or_eq_true, Bool.and_eq_true, Bool.not_eq_true', decide_eq_true_eq, decide_eq_false_iff_not]
    omega
  · rw [Nat.mod_eq_sub_mod hge, Nat.mod_eq_of_lt (by omega)]
    simp only [Bool.or_eq_true, Bool.and_eq_true, Bool.not_eq_true', decide_eq_true_eq, decide_eq_false_iff_not]
    omega

/-- The borrow formula tells the difference below zero, whatever was borrowed. -/
theorem subC_of_difference {n : Nat} (hn : 0 < n) {s d r : BitVec n} {x : Nat} (hx : x ≤ 1)
    (h : d.toNat = (r.toNat + s.toNat + x) % 2 ^ n) : subC s d r = decide (d.toNat < s.toNat + x) := by
  obtain ⟨m, rfl⟩ := Nat.exists_eq_succ_of_ne_zero hn.ne'
  have hs := toNat_lt_two_mul s
  have hr := toNat_lt_two_mul r
  have hp : 2 ^ (m + 1) = 2 * 2 ^ m := by rw [Nat.pow_succ]; omega
  simp only [Nat.succ_eq_add_one, hp] at h ⊢
  simp only [subC, msb, msb_succ_eq_decide, h]
  generalize 2 ^ m = k at *
  generalize s.toNat = a at *
  generalize r.toNat = b at *
  rw [Bool.eq_iff_iff]
  rcases Nat.lt_or_ge (b + a + x) (2 * k) with hlt | hge
  · rw [Nat.mod_eq_of_lt hlt]
    simp only [Bool.or_eq_true, Bool.and_eq_true, Bool.not_eq_true', decide_eq_true_eq, decide_eq_false_iff_not]
    omega
  · rw [Nat.mod_eq_sub_mod hge, Nat.mod_eq_of_lt (by omega)]
    simp only [Bool.or_eq_true, Bool.and_eq_true, Bool.not_eq_true', decide_eq_true_eq, decide_eq_false_iff_not]
    omega

/-- The overflow formula of an addition tells the sum of signed numbers that does not fit. -/
theorem addV_eq_decide {n : Nat} (hn : 0 < n) (s d : BitVec n) :
    addV s d (d + s) = decide (d.toInt + s.toInt < -2 ^ (n - 1) ∨ 2 ^ (n - 1) ≤ d.toInt + s.toInt) := by
  obtain ⟨m, rfl⟩ := Nat.exists_eq_succ_of_ne_zero hn.ne'
  have hs := toNat_lt_two_mul s
  have hd := toNat_lt_two_mul d
  have hp : 2 ^ (m + 1) = 2 * 2 ^ m := by rw [Nat.pow_succ]; omega
  have hk : (2 : Int) ^ (m + 1 - 1) = (2 ^ m : Nat) := by push_cast; rfl
  simp only [Nat.succ_eq_add_one, addV, msb, msb_succ_eq_decide, BitVec.toNat_add, toInt_succ, hp, hk]
  generalize 2 ^ m = k at *
  generalize s.toNat = a at *
  generalize d.toNat = b at *
  rw [Bool.eq_iff_iff]
  rcases Nat.lt_or_ge (b + a) (2 * k) with hlt | hge
  · rw [Nat.mod_eq_of_lt hlt]
    simp only [Bool.or_eq_true, Bool.and_eq_true, Bool.not_eq_true', decide_eq_true_eq, decide_eq_false_iff_not]
    split <;> split <;> omega
  · rw [Nat.mod_eq_sub_mod hge, Nat.mod_eq_of_lt (by omega)]
    simp only [Bool.or_eq_true, Bool.and_eq_true, Bool.not_eq_true', decide_eq_true_eq, decide_eq_false_iff_not]
    split <;> split <;> omega

/-- A difference of values of `m + 1` bits: with or without a borrow. -/
theorem toNat_sub_cases {m : Nat} (s d : BitVec (m + 1)) :
    (d - s).toNat = if s.toNat ≤ d.toNat then d.toNat - s.toNat else d.toNat + 2 * 2 ^ m - s.toNat := by
  have hs := toNat_lt_two_mul s
  have hd := toNat_lt_two_mul d
  have hp : 2 ^ (m + 1) = 2 * 2 ^ m := by rw [Nat.pow_succ]; omega
  rw [BitVec.toNat_sub, hp]
  split
  · rw [show 2 * 2 ^ m - s.toNat + d.toNat = d.toNat - s.toNat + 2 * 2 ^ m by omega, Nat.add_mod_right,
      Nat.mod_eq_of_lt (by omega)]
  · rw [Nat.mod_eq_of_lt (by omega)]
    omega

/-- The overflow formula of a subtraction tells the difference of signed numbers that does not fit. -/
theorem subV_eq_decide {n : Nat} (hn : 0 < n) (s d : BitVec n) :
    subV s d (d - s) = decide (d.toInt - s.toInt < -2 ^ (n - 1) ∨ 2 ^ (n - 1) ≤ d.toInt - s.toInt) := by
  obtain ⟨m, rfl⟩ := Nat.exists_eq_succ_of_ne_zero hn.ne'
  have hs := toNat_lt_two_mul s
  have hd := toNat_lt_two_mul d
  have hk : (2 : Int) ^ (m + 1 - 1) = (2 ^ m : Nat) := by push_cast; rfl
  simp only [Nat.succ_eq_add_one, subV, msb, msb_succ_eq_decide, toNat_sub_cases, toInt_succ, hk]
  generalize 2 ^ m = k at *
  generalize s.toNat = a at *
  generalize d.toNat = b at *
  rw [Bool.eq_iff_iff]
  simp only [Bool.or_eq_true, Bool.and_eq_true, Bool.not_eq_true', decide_eq_true_eq, decide_eq_false_iff_not]
  split <;> split <;> split <;> omega

/-- One bit as a number. -/
theorem toNat_bitValue {n : Nat} (hn : 0 < n) (x : Bool) : (bitValue n x).toNat = x.toNat := by
  have h1 : 1 < 2 ^ n := Nat.one_lt_two_pow hn.ne'
  have hx : x.toNat ≤ 1 := Bool.toNat_le x
  rw [bitValue, BitVec.toNat_setWidth, BitVec.toNat_ofBool, Nat.mod_eq_of_lt (by omega)]

/-- A difference with its subtrahend put back. -/
theorem toNat_sub_add {n : Nat} (s d : BitVec n) : d.toNat = ((d - s).toNat + s.toNat) % 2 ^ n := by
  rw [← BitVec.toNat_add, BitVec.sub_add_cancel]

/-- Settles O14: the formulas read the most significant bits, and these compare with half the range. -/
theorem flagsAreArithmetic : Obligations.FlagsAreArithmetic := by
  unfold Obligations.FlagsAreArithmetic
  refine fun n s d hn => ⟨?_, ?_, addV_eq_decide hn s d, subV_eq_decide hn s d, fun x => ⟨?_, ?_⟩⟩
  · exact addC_of_sum hn (x := 0) (by decide) (BitVec.toNat_add d s)
  · exact subC_of_difference hn (x := 0) (by decide) (toNat_sub_add s d)
  · refine addC_of_sum hn (Bool.toNat_le x) ?_
    rw [BitVec.toNat_add, BitVec.toNat_add, toNat_bitValue hn, Nat.mod_add_mod]
  · refine subC_of_difference hn (Bool.toNat_le x) ?_
    have h1 := toNat_sub_add s d
    have h2 := toNat_sub_add (bitValue n x) (d - s)
    rw [toNat_bitValue hn] at h2
    rw [h2, Nat.mod_add_mod] at h1
    rw [h1]
    congr 1
    omega

/-! ## The conditions after a comparison (30_encoding R165) -/

/-- After `d - v` the codes N and V differ exactly where `d` is the smaller signed number. -/
theorem msb_xor_subV {n : Nat} (hn : 0 < n) (v d : BitVec n) :
    ((d - v).msb ^^ subV v d (d - v)) = decide (d.toInt < v.toInt) := by
  rw [subV_eq_decide hn]
  obtain ⟨m, rfl⟩ := Nat.exists_eq_succ_of_ne_zero hn.ne'
  have hs := toNat_lt_two_mul v
  have hd := toNat_lt_two_mul d
  have hk : (2 : Int) ^ (m + 1 - 1) = (2 ^ m : Nat) := by push_cast; rfl
  simp only [Nat.succ_eq_add_one, msb_succ_eq_decide, toNat_sub_cases, toInt_succ, hk]
  generalize 2 ^ m = k at *
  generalize v.toNat = a at *
  generalize d.toNat = b at *
  rw [Bool.eq_iff_iff]
  simp only [Bool.xor_iff_ne, ne_eq, decide_eq_decide, decide_eq_true_eq]
  split <;> split <;> split <;> omega

/-- Settles O21: C is the borrow, Z equality, and N differs from V where the signed numbers compare. -/
theorem conditionsAfterCompare : Obligations.ConditionsAfterCompare := by
  unfold Obligations.ConditionsAfterCompare
  refine ⟨fun n v d f hn => ?_, fun f => ⟨rfl, rfl, rfl, rfl, rfl, rfl⟩⟩
  have hc : (cmpFlags v d (d - v) f).c = decide (d.toNat < v.toNat) :=
    subC_of_difference hn (x := 0) (by decide) (toNat_sub_add v d)
  have hz : (cmpFlags v d (d - v) f).z = decide (d = v) := by
    have h0 : d - v = 0 ↔ d = v := sub_eq_zero
    rw [Bool.eq_iff_iff, decide_eq_true_eq, ← h0]
    exact beq_iff_eq
  have hnv : ((cmpFlags v d (d - v) f).n ^^ (cmpFlags v d (d - v) f).v) = decide (d.toInt < v.toInt) :=
    msb_xor_subV hn v d
  have heq : d = v ↔ d.toNat = v.toNat := BitVec.toNat_inj.symm
  have hint : d = v ↔ d.toInt = v.toInt := BitVec.toInt_inj.symm
  simp only [condHolds]
  generalize (cmpFlags v d (d - v) f).n = fn at *
  generalize (cmpFlags v d (d - v) f).v = fv at *
  have hge : ((fn && fv) || (!fn && !fv)) = !decide (d.toInt < v.toInt) := by rw [← hnv]; cases fn <;> cases fv <;> rfl
  have hlt : ((fn && !fv) || (!fn && fv)) = decide (d.toInt < v.toInt) := by rw [← hnv]; cases fn <;> cases fv <;> rfl
  have hgt : ((fn && fv && !decide (d = v)) || (!fn && !fv && !decide (d = v)))
      = (!decide (d.toInt < v.toInt) && !decide (d = v)) := by
    rw [← hge]; cases fn <;> cases fv <;> simp
  have hle : (decide (d = v) || (fn && !fv) || (!fn && fv)) = (decide (d = v) || decide (d.toInt < v.toInt)) := by
    rw [← hlt, Bool.or_assoc]
  rw [hc, hz, hgt, hle, hge, hlt]
  have hnat (p q : Prop) [Decidable p] [Decidable q] (h : p ↔ q) : decide p = decide q := decide_eq_decide.mpr h
  rw [← decide_not, ← decide_not, ← decide_not, ← Bool.decide_and, ← Bool.decide_or, ← Bool.decide_and, ← Bool.decide_or]
  refine ⟨hnat _ _ ?_, hnat _ _ ?_, hnat _ _ (by omega), rfl, rfl, rfl, hnat _ _ ?_, hnat _ _ ?_, hnat _ _ (by omega), rfl⟩
  · rw [heq]; omega
  · rw [heq]; omega
  · rw [hint]; omega
  · rw [hint]; omega

/-! ## Multiplication (41 R252 to R255) -/

/-- A data register and the codes replaced after an operand is read. -/
theorem Kept.replacedDreg {s1 : State} {sz : Size} {own : Nat} {ea : Ea} {v : BitVec sz.bits}
    (h : readEa sz own ea s = .ok v s1) (dn : Reg) (r : Long) (f : Ccr) :
    Kept s ((s1.setDreg dn r).setCcr f) (dNum dn :: steppedRegs ea) [] :=
  ((readEa_inv h).kept.trans (Kept.dregCodes s1 dn r f)).mono (by simp) (by simp)

/-- An instruction that reads an operand and ends by replacing a data register and the codes. -/
theorem replaced_of_body {i : Instr} {sz : Size} {own : Nat} {ea : Ea} {dn : Reg} {r : State → BitVec sz.bits → Long}
    {c : State → BitVec sz.bits → Ccr} {body : Exec Done} (hexec : ∀ s, exec i s = complete i body s)
    (hbody : ∀ {s s1 v}, readEa sz own ea s = .ok v s1 → body s = .ok .seq ((s1.setDreg dn (r s v)).setCcr (c s v))) :
    Replaced i sz own ea dn r c := fun s _ _ ht hv =>
  ⟨next_past (hexec s) (hbody hv) ht, (Kept.replacedDreg hv dn _ _).past⟩

/-- A 16 by 16 multiplication, with the product in the words of the statement. -/
theorem multiplyWord_ok {s1 : State} {dn : Reg} {ea : Ea} {widen : Word → Long} {v : Word}
    (hv : readEa .word 0 ea s = .ok v s1) {p : Long} (hp : widen (lowPart .word (s.dreg dn)) * widen v = p) :
    multiplyWord dn ea widen s = .ok .seq ((s1.setDreg dn p).setCcr (logicFlags p s.ccr)) := by
  have hop := readEa_inv hv
  subst hp
  rw [← hop.dreg dn, ← hop.ccr]
  exact Exec.bind_ok s hv _

/-- The exact product of unsigned numbers, cut to `n` bits. -/
theorem setWidth_mul_setWidth {m : Nat} (n : Nat) (v d : BitVec m) :
    (d.setWidth n * v.setWidth n : BitVec n) = BitVec.ofNat n (v.toNat * d.toNat) := by
  apply BitVec.eq_of_toNat_eq
  rw [BitVec.toNat_mul, BitVec.toNat_setWidth, BitVec.toNat_setWidth, BitVec.toNat_ofNat, ← Nat.mul_mod, Nat.mul_comm]

/-- The exact product of signed numbers, cut to `n` bits. -/
theorem signExtend_mul_signExtend {m : Nat} (n : Nat) (v d : BitVec m) :
    (d.signExtend n * v.signExtend n : BitVec n) = BitVec.ofInt n (v.toInt * d.toInt) := by
  rw [Int.mul_comm, BitVec.ofInt_mul]
  rfl

/-- The 32-bit form of a long multiplication. -/
theorem multiplyLong_narrow {s1 : State} {dl dh : Reg} {ea : Ea} {widen : Long → BitVec 64} {v : Long}
    (hv : readEa .long 1 ea s = .ok v s1) {p : BitVec 64} (hp : widen v * widen (s.dreg dl) = p) {l : Long}
    (hl : p.extractLsb' 0 32 = l) {o : Bool} (ho : (p != widen l) = o) :
    multiplyLong dl dh false ea widen s
      = .ok .seq ((s1.setDreg dl l).setCcr { logicFlags l s.ccr with v := o }) := by
  have hop := readEa_inv hv
  unfold multiplyLong
  rw [Bool.false_and, if_neg (by decide), Exec.bind_ok s hv, Exec.getD_bind_long, hop.dreg, hp, hl]
  subst ho
  rw [← hop.ccr]
  rfl

/-- The 64-bit form of a long multiplication into two registers. -/
theorem multiplyLong_wide {s1 : State} {dl dh : Reg} {ea : Ea} {widen : Long → BitVec 64} {v : Long} (hne : dl ≠ dh)
    (hv : readEa .long 1 ea s = .ok v s1) {p : BitVec 64} (hp : widen v * widen (s.dreg dl) = p) :
    multiplyLong dl dh true ea widen s
      = .ok .seq (((s1.setDreg dh (p.extractLsb' 32 32)).setDreg dl (p.extractLsb' 0 32)).setCcr (logicFlags p s.ccr)) := by
  have hop := readEa_inv hv
  unfold multiplyLong
  rw [Bool.true_and, if_neg (by simpa using hne), Exec.bind_ok s hv, Exec.getD_bind_long, hop.dreg, hp, ← hop.ccr]
  rfl

/-- The low half of a 64-bit number. -/
theorem extractLsb'_low_ofNat (n : Nat) : (BitVec.ofNat 64 n).extractLsb' 0 32 = BitVec.ofNat 32 n := by
  apply BitVec.eq_of_toNat_eq
  simp only [BitVec.extractLsb'_toNat, BitVec.toNat_ofNat, Nat.shiftRight_zero]
  omega

/-- The low half of a 64-bit integer. -/
theorem extractLsb'_low_ofInt (n : Int) : (BitVec.ofInt 64 n).extractLsb' 0 32 = BitVec.ofInt 32 n := by
  apply BitVec.eq_of_toNat_eq
  simp only [BitVec.extractLsb'_toNat, BitVec.toNat_ofInt, Nat.shiftRight_zero]
  omega

/-- An unsigned product of long words fits 64 bits; it is no longer itself when its low half is widened exactly where it
does not fit 32. -/
theorem unsigned_product_overflow (v d : Long) :
    (BitVec.ofNat 64 (v.toNat * d.toNat) != (BitVec.ofNat 32 (v.toNat * d.toNat)).setWidth 64)
      = decide (2 ^ 32 ≤ v.toNat * d.toNat) := by
  have hlt : v.toNat * d.toNat < 2 ^ 32 * 2 ^ 32 := Nat.mul_lt_mul'' v.isLt d.isLt
  generalize v.toNat * d.toNat = p at *
  rw [Bool.eq_iff_iff, bne_iff_ne, ne_eq, ← BitVec.toNat_inj, BitVec.toNat_setWidth, BitVec.toNat_ofNat,
    BitVec.toNat_ofNat, decide_eq_true_eq]
  omega

/-- The bounds of a product of two signed long words. -/
theorem signed_product_bounds (v d : Long) : -2 ^ 62 ≤ v.toInt * d.toInt ∧ v.toInt * d.toInt ≤ 2 ^ 62 := by
  have habs : ∀ w : Long, |w.toInt| ≤ 2 ^ 31 := fun w => by
    have h1 : w.toInt < 2 ^ 31 := w.toInt_lt
    have h2 : -2 ^ 31 ≤ w.toInt := w.le_toInt
    exact abs_le.mpr ⟨h2, h1.le⟩
  have h : |v.toInt * d.toInt| ≤ 2 ^ 31 * 2 ^ 31 := by
    rw [abs_mul]
    exact mul_le_mul (habs v) (habs d) (abs_nonneg _) (by norm_num)
  exact abs_le.mp (h.trans (by norm_num))

/-- A signed product of long words fits 64 bits; widening its low half gives it back exactly where it fits 32. -/
theorem signed_product_overflow (v d : Long) :
    (BitVec.ofInt 64 (v.toInt * d.toInt) != (BitVec.ofInt 32 (v.toInt * d.toInt)).signExtend 64)
      = decide (v.toInt * d.toInt < -2 ^ 31 ∨ 2 ^ 31 ≤ v.toInt * d.toInt) := by
  obtain ⟨hlo, hhi⟩ := signed_product_bounds v d
  generalize v.toInt * d.toInt = p at *
  rw [Bool.eq_iff_iff, bne_iff_ne, ne_eq, ← BitVec.toInt_inj, BitVec.toInt_signExtend_of_le (by decide),
    BitVec.toInt_ofInt, BitVec.toInt_ofInt, decide_eq_true_eq]
  simp only [Int.bmod_def]
  omega

/-- The 64-bit multiplication with one register for both halves is refused. -/
theorem multiplyLong_refused (d : Reg) (ea : Ea) (widen : Long → BitVec 64) :
    multiplyLong d d true ea widen = refuse .mulDivSameRegister := by
  unfold multiplyLong
  rw [Bool.true_and, if_pos (beq_self_eq_true d)]

/-- Settles O12: each product is the exact one cut to its width, and V compares it with its low half widened. -/
theorem multiply : Obligations.Multiply := by
  unfold Obligations.Multiply
  refine ⟨fun dn ea => ?_, fun dn ea => ?_, fun dl dh ea => ?_, fun dl dh ea => ?_,
    fun s s1 dl dh ea v signed ht hne hv => ?_, fun s d ea => ⟨?_, ?_⟩⟩
  · exact replaced_of_body (fun _ => rfl) fun hv => multiplyWord_ok hv (setWidth_mul_setWidth 32 _ _)
  · exact replaced_of_body (fun _ => rfl) fun hv => multiplyWord_ok hv (signExtend_mul_signExtend 32 _ _)
  · refine replaced_of_body (fun _ => rfl) fun {s s1 v} hv => multiplyLong_narrow hv (setWidth_mul_setWidth 64 _ _) ?_ ?_
    · rw [extractLsb'_low_ofNat, Nat.mul_comm]
    · rw [Nat.mul_comm]; exact unsigned_product_overflow v (s.dreg dl)
  · refine replaced_of_body (fun _ => rfl) fun {s s1 v} hv => multiplyLong_narrow hv (signExtend_mul_signExtend 64 _ _) ?_ ?_
    · rw [extractLsb'_low_ofInt, Int.mul_comm]
    · rw [Int.mul_comm]; exact signed_product_overflow v (s.dreg dl)
  · have hk (p : BitVec 64) : Kept s (((s1.setDreg dh (p.extractLsb' 32 32)).setDreg dl (p.extractLsb' 0 32)).setCcr
        (logicFlags p s.ccr)) (dNum dl :: dNum dh :: steppedRegs ea) [] :=
      ((readEa_inv hv).kept.trans ((Kept.setDreg s1 dh _).trans (Kept.dregCodes _ dl _ _))).mono
        (fun i hi => by simp only [List.mem_append, List.mem_cons] at hi ⊢; tauto) (by simp)
    cases signed
    · exact ⟨next_past rfl (multiplyLong_wide hne hv ((setWidth_mul_setWidth 64 _ _).trans (by rw [Nat.mul_comm]; rfl))) ht,
        (hk _).past⟩
    · exact ⟨next_past rfl (multiplyLong_wide hne hv ((signExtend_mul_signExtend 64 _ _).trans
        (by rw [Int.mul_comm]; rfl))) ht, (hk _).past⟩
  · exact (congrArg (complete _ · s) (multiplyLong_refused d ea _) :).trans (complete_refuse _ _)
  · exact (congrArg (complete _ · s) (multiplyLong_refused d ea _) :).trans (complete_refuse _ _)

end Sys2Proof.Machine
end

section
/-! Division and single bits (41 R256 to R259, 44). -/

namespace Sys2Proof.Machine

open Sys2Proof.Claim

variable {s t : State}

/-! ## Division (41 R256 to R259) -/

/-- Truncating division in the integers. -/
theorem isDivision_tdiv (d : Int) {v : Int} (hv : v ≠ 0) : IsDivision d v (d.tdiv v) (d.tmod v) := by
  refine ⟨(Int.tdiv_mul_add_tmod d v).symm, ?_, fun h => Int.tmod_nonneg v h, fun h => ?_⟩
  · rw [Int.abs_eq_natAbs, Int.abs_eq_natAbs, Int.natAbs_tmod]
    exact_mod_cast Nat.mod_lt _ (Int.natAbs_pos.mpr hv)
  · have h0 := Int.tmod_nonneg v (Int.neg_nonneg_of_nonpos h)
    rw [Int.neg_tmod] at h0
    omega

/-- Division of natural numbers, in the integers. -/
theorem isDivision_nat (d : Nat) {v : Nat} (hv : v ≠ 0) :
    IsDivision d v ((d / v : Nat) : Int) ((d % v : Nat) : Int) := by
  have h := isDivision_tdiv d (v := v) (by exact_mod_cast hv)
  rwa [Int.tdiv_eq_ediv_of_nonneg (by omega), Int.tmod_eq_emod_of_nonneg (by omega), ← Int.natCast_ediv,
    ← Int.natCast_emod] at h

/-- A quotient that does not fit sets V, clears C, leaves N and Z free and changes nothing else (41 R256). -/
theorem divideOverflow_ok (s : State) : ∃ (n : Nat) (f : Ccr), f.x = s.ccr.x ∧ f.v = true ∧ f.c = false
    ∧ divideOverflow s = .ok .seq ((withDraws n s).setCcr f) :=
  ⟨s.draws + 2, { s.ccr with n := Config.freeBit s.draws, z := Config.freeBit (s.draws + 1), v := true, c := false },
    rfl, rfl, rfl, rfl⟩

/-- A division whose body, after a source that is not zero, stores a quotient that fits and else reports the overflow. -/
theorem divides_of_body {i : Instr} {sz : Size} {own : Nat} {ea : Ea} {k : Nat} {regs : List GReg} {num : State → Int}
    {den : BitVec sz.bits → Int} {fits : Int → Prop} {store : Int → Int → State → State} {body : Exec Done}
    (hexec : ∀ s, exec i s = complete i body s) (quo rem : State → BitVec sz.bits → Int)
    (hdiv : ∀ s v, v ≠ 0 → IsDivision (num s) (den v) (quo s v) (rem s v))
    (hfits : ∀ {s s1 v}, readEa sz own ea s = .ok v s1 → v ≠ 0 → fits (quo s v) → body s
      = .ok .seq ((store (quo s v) (rem s v) s1).setCcr (logicFlags (BitVec.ofInt k (quo s v)) s.ccr)))
    (hover : ∀ {s s1 v}, readEa sz own ea s = .ok v s1 → v ≠ 0 → ¬ fits (quo s v) → body s = divideOverflow s1)
    (hstore : ∀ q r s, Kept s (store q r s) regs []) : Divides i sz own ea k regs num den fits store := by
  intro s s1 v ht hv h0
  have hop := readEa_inv hv
  refine ⟨quo s v, rem s v, hdiv s v h0, fun hf => ⟨next_past (hexec s) (hfits hv h0 hf) ht, Kept.past ?_⟩, fun hf => ?_⟩
  · refine (hop.kept.trans ((hstore _ _ s1).trans (Kept.setCcr _ _))).mono (fun i hi => ?_) (by simp)
    simp only [List.mem_append, List.not_mem_nil, or_false] at hi ⊢
    exact hi.symm
  · obtain ⟨n, f, hx, hfv, hfc, hrun⟩ := divideOverflow_ok s1
    refine ⟨n, f, hx.trans (by rw [hop.ccr]), hfv, hfc, next_past (hexec s) ((hover hv h0 hf).trans hrun) ht, Kept.past ?_⟩
    exact (hop.kept.trans ((Kept.withDraws s1 n).trans (Kept.setCcr _ f))).mono (by simp) (by simp)

/-- A word division whose quotient fits. -/
theorem divideWord_fits (dn : Reg) (q r : Int) (s : State) : divideWord dn q r true s = .ok .seq
    ((s.setDreg dn ((BitVec.ofInt 16 r : Word) ++ (BitVec.ofInt 16 q : Word))).setCcr
      (logicFlags (BitVec.ofInt 16 q) s.ccr)) := rfl

/-- A word division whose quotient does not fit. -/
theorem divideWord_overflow (dn : Reg) (q r : Int) (s : State) : divideWord dn q r false s = divideOverflow s := rfl

/-- The quotient and the remainder in their registers; the quotient is last, so it stays where they share one. -/
def quotientStored (dq dr : Reg) (q r : Int) (s : State) : State :=
  (s.setDreg dr (BitVec.ofInt 32 r)).setDreg dq (BitVec.ofInt 32 q)

/-- A data register replaced twice. -/
theorem State.setDreg_setDreg_same (s : State) (n : Reg) (v w : Long) : (s.setDreg n v).setDreg n w = s.setDreg n w := by
  simp [State.setDreg]

/-- A long division whose quotient fits. -/
theorem divideLong_fits (dq dr : Reg) (q r : Int) (s : State) : divideLong dq dr q r true s
    = .ok .seq ((quotientStored dq dr q r s).setCcr (logicFlags (BitVec.ofInt 32 q) s.ccr)) := by
  unfold divideLong quotientStored
  by_cases h : dr = dq
  · subst h
    rw [State.setDreg_setDreg_same, Bool.not_true, if_neg (by decide), if_pos (beq_self_eq_true dr)]
    rfl
  · rw [Bool.not_true, if_neg (by decide), if_neg (by simpa using h)]
    rfl

/-- A long division whose quotient does not fit. -/
theorem divideLong_overflow (dq dr : Reg) (q r : Int) (s : State) : divideLong dq dr q r false s = divideOverflow s := rfl

theorem Kept.quotientStored (dq dr : Reg) (q r : Int) (s : State) :
    Kept s (quotientStored dq dr q r s) [dNum dq, dNum dr] [] :=
  ((Kept.setDreg s dr _).trans (Kept.setDreg _ dq _)).mono (by simp) (by simp)

/-- The 64-bit dividend as an unsigned number. -/
theorem dividend_toNat (dq dr : Reg) (s : State) :
    (dividend dq dr s).toNat = (s.dreg dr).toNat * 2 ^ 32 + (s.dreg dq).toNat := by
  rw [dividend, BitVec.toNat_append, Nat.shiftLeft_eq, Nat.mul_comm, ← Nat.two_pow_add_eq_or_of_lt (s.dreg dq).isLt]

/-- The 64-bit dividend as a signed number. -/
theorem dividend_toInt (dq dr : Reg) (s : State) :
    (dividend dq dr s).toInt = (s.dreg dr).toInt * 2 ^ 32 + (s.dreg dq).toNat := by
  rw [dividend, BitVec.toInt_append, if_neg (by decide), Int.mul_comm]

/-- The unsigned dividend of a long division. -/
def unsignedDividend (dq dr : Reg) (wide : Bool) (s : State) : Nat :=
  if wide then (dividend dq dr s).toNat else (s.dreg dq).toNat

/-- The signed dividend of a long division. -/
def signedDividend (dq dr : Reg) (wide : Bool) (s : State) : Int :=
  if wide then (dividend dq dr s).toInt else (s.dreg dq).toInt

/-- Registers read as before an operand was read give the same dividend. -/
theorem dividend_congr {s1 : State} (h : ∀ n, s1.dreg n = s.dreg n) (dq dr : Reg) : dividend dq dr s1 = dividend dq dr s := by
  rw [dividend, dividend, h, h]

/-- A nonzero value as a natural number. -/
theorem toNat_ne_zero {n : Nat} {v : BitVec n} (h : v ≠ 0) : v.toNat ≠ 0 := fun h0 =>
  h (BitVec.eq_of_toNat_eq (by simpa using h0))

/-- A nonzero value as an integer. -/
theorem toInt_ne_zero {n : Nat} {v : BitVec n} (h : v ≠ 0) : v.toInt ≠ 0 := fun h0 =>
  h (BitVec.eq_of_toInt_eq (by simpa using h0))

/-- Settles O13: the quotients are those of the integers, and the bound the body tests is the one of the statement. -/
theorem divide : Obligations.Divide := by
  unfold Obligations.Divide
  refine ⟨fun dn ea => ?_, fun dn ea => ?_, fun dq dr wide ea hw => ⟨?_, ?_⟩⟩
  · refine divides_of_body (fun _ => rfl) (fun s v => ((s.dreg dn).toNat / v.toNat : Nat))
      (fun s v => ((s.dreg dn).toNat % v.toNat : Nat)) (fun s v h0 => isDivision_nat _ (toNat_ne_zero h0))
      (fun {s s1 v} hv h0 hf => ?_) (fun {s s1 v} hv h0 hf => ?_) fun q r s => Kept.setDreg s dn _
    · rw [Exec.bind_ok s hv, if_neg h0, Exec.getD_bind_long, (readEa_inv hv).dreg,
        decide_eq_true (by exact_mod_cast hf), divideWord_fits, (readEa_inv hv).ccr]
    · rw [Exec.bind_ok s hv, if_neg h0, Exec.getD_bind_long, (readEa_inv hv).dreg,
        decide_eq_false (by exact_mod_cast hf), divideWord_overflow]
  · refine divides_of_body (fun _ => rfl) (fun s v => (s.dreg dn).toInt.tdiv v.toInt)
      (fun s v => (s.dreg dn).toInt.tmod v.toInt) (fun s v h0 => isDivision_tdiv _ (toInt_ne_zero h0))
      (fun {s s1 v} hv h0 hf => ?_) (fun {s s1 v} hv h0 hf => ?_) fun q r s => Kept.setDreg s dn _
    · rw [Exec.bind_ok s hv, if_neg h0, Exec.getD_bind_long, (readEa_inv hv).dreg, decide_eq_true hf,
        divideWord_fits, (readEa_inv hv).ccr]
    · rw [Exec.bind_ok s hv, if_neg h0, Exec.getD_bind_long, (readEa_inv hv).dreg, decide_eq_false hf,
        divideWord_overflow]
  · have hne : (wide && dq == dr) = false := by cases wide <;> simp_all
    have hnum (s : State) : ((unsignedDividend dq dr wide s : Nat) : Int)
        = if wide then (((s.dreg dr).toNat * 2 ^ 32 + (s.dreg dq).toNat : Nat) : Int) else ((s.dreg dq).toNat : Int) := by
      rw [unsignedDividend, dividend_toNat]
      split <;> rfl
    refine divides_of_body (fun _ => rfl) (fun s v => (unsignedDividend dq dr wide s / v.toNat : Nat))
      (fun s v => (unsignedDividend dq dr wide s % v.toNat : Nat))
      (fun s v h0 => hnum s ▸ isDivision_nat _ (toNat_ne_zero h0))
      (fun {s s1 v} hv h0 hf => ?_) (fun {s s1 v} hv h0 hf => ?_) fun q r s => Kept.quotientStored dq dr q r s
    all_goals
      have hd : unsignedDividend dq dr wide s1 = unsignedDividend dq dr wide s := by
        rw [unsignedDividend, unsignedDividend, dividend_congr (readEa_inv hv).dreg, (readEa_inv hv).dreg]
      rw [if_neg (by simp [hne]), Exec.bind_ok s hv, if_neg h0, Exec.look_bind]
      rw [← hd] at hf
    · rw [← (readEa_inv hv).ccr, ← hd]
      exact (congrArg (divideLong dq dr _ _ · s1) (decide_eq_true (by exact_mod_cast hf)) :).trans (divideLong_fits _ _ _ _ _)
    · exact (congrArg (divideLong dq dr _ _ · s1) (decide_eq_false (by exact_mod_cast hf)) :).trans
        (divideLong_overflow _ _ _ _ _)
  · have hne : (wide && dq == dr) = false := by cases wide <;> simp_all
    have hnum (s : State) : signedDividend dq dr wide s
        = if wide then (s.dreg dr).toInt * 2 ^ 32 + (s.dreg dq).toNat else (s.dreg dq).toInt := by
      rw [signedDividend, dividend_toInt]
    refine divides_of_body (fun _ => rfl) (fun s v => (signedDividend dq dr wide s).tdiv v.toInt)
      (fun s v => (signedDividend dq dr wide s).tmod v.toInt)
      (fun s v h0 => hnum s ▸ isDivision_tdiv _ (toInt_ne_zero h0))
      (fun {s s1 v} hv h0 hf => ?_) (fun {s s1 v} hv h0 hf => ?_) fun q r s => Kept.quotientStored dq dr q r s
    all_goals
      have hd : signedDividend dq dr wide s1 = signedDividend dq dr wide s := by
        rw [signedDividend, signedDividend, dividend_congr (readEa_inv hv).dreg, (readEa_inv hv).dreg]
      rw [if_neg (by simp [hne]), Exec.bind_ok s hv, if_neg h0, Exec.look_bind]
      rw [← hd] at hf
    · rw [← (readEa_inv hv).ccr, ← hd]
      exact (congrArg (divideLong dq dr _ _ · s1) (decide_eq_true hf) :).trans (divideLong_fits _ _ _ _ _)
    · exact (congrArg (divideLong dq dr _ _ · s1) (decide_eq_false hf) :).trans (divideLong_overflow _ _ _ _ _)

/-! ## Single bits (44 R310 to R314) -/

/-- The bits of a value with one bit given. -/
theorem getLsbD_withBit {w : Nat} (v : BitVec w) (n : Nat) (b : Bool) {i : Nat} (hi : i < w) :
    (withBit v n b).getLsbD i = if n % w = i then b else v.getLsbD i := by
  cases b
  · simp only [withBit, Bool.false_eq_true, if_false, BitVec.getLsbD_and, BitVec.getLsbD_not, BitVec.getLsbD_twoPow]
    by_cases h : n % w = i
    · simp [h, hi]
    · simp [h, hi]
  · simp only [withBit, if_true, BitVec.getLsbD_or, BitVec.getLsbD_twoPow]
    by_cases h : n % w = i
    · simp [h, hi]
    · simp [h]

/-- The complement of a bit through the mask. -/
theorem xor_twoPow_eq_withBit {w : Nat} (v : BitVec w) (n : Nat) :
    v ^^^ BitVec.twoPow w (n % w) = withBit v n (!v.getLsbD (n % w)) := by
  apply BitVec.eq_of_getLsbD_eq
  intro i hi
  rw [getLsbD_withBit v n _ hi, BitVec.getLsbD_xor, BitVec.getLsbD_twoPow]
  by_cases h : n % w = i
  · simp [h, hi]
  · simp [h]

/-- What `bitModify` does to a data register. -/
theorem bitModify_dn (own : Nat) (r : Reg) (n : Nat) (f : {w : Nat} → BitVec w → BitVec w → BitVec w) (s : State) :
    bitModify own (.dn r) n f s = .ok .seq
      ((s.setCcr (tested (s.dreg r) n s.ccr)).setDreg r (f (s.dreg r) (BitVec.twoPow 32 (n % 32)))) := by
  exact (Exec.getD_bind_long s r _).trans rfl

/-- What `bitModify` does to a byte. -/
theorem bitModify_ok {s1 s2 : State} {own : Nat} {ea : Ea} {n : Nat} {f : {w : Nat} → BitVec w → BitVec w → BitVec w}
    {l : Loc} {d : Byte} (hea : ∀ r, ea ≠ .dn r) (h1 : operand .byte own ea s = .ok l s1)
    (h2 : readLoc .byte l s1 = .ok d s2) (h3 : CanStore .byte l s2) : bitModify own ea n f s
      = .ok .seq (stored .byte l (f d (BitVec.twoPow 8 (n % 8))) (s2.setCcr (tested d n s.ccr))) := by
  have hrmw := rmwEa_setFlags_ok (sz := .byte) (fun d => f d (BitVec.twoPow 8 (n % 8))) (fun d _ g => tested d n g) h1 h2 h3
  cases ea
  case dn r => exact absurd rfl (hea r)
  all_goals exact hrmw

/-- An instruction whose body modifies the bit that its number names. -/
theorem changesBit_of_body {i : Ea → Instr} {own : Nat} {n : State → Nat} {f : Bool → Bool}
    {g : {w : Nat} → BitVec w → BitVec w → BitVec w} {body : Ea → Exec Done}
    (hexec : ∀ ea s, exec (i ea) s = complete (i ea) (body ea) s) (hbody : ∀ ea s, body ea s = bitModify own ea (n s) g s)
    (hg : ∀ {w : Nat} (v : BitVec w) (k : Nat), g v (BitVec.twoPow w (k % w)) = withBit v k (f (v.getLsbD (k % w)))) :
    ChangesBit i own n f := by
  refine ⟨fun r => ?_, fun ea hea => ?_⟩
  · refine registers_of_body (hexec (.dn r)) (fun s => ?_) fun s =>
      ((Kept.setCcr s _).trans (Kept.setDreg _ r _)).mono (by simp) (by simp)
    rw [hbody, bitModify_dn, hg]
  · refine replaces_of_body (hexec ea) fun {s s1 s2 l d} h1 h2 h3 => ?_
    rw [hbody, bitModify_ok hea h1 h2 h3, hg]

/-- An instruction whose body tests the bit that its number names. -/
theorem testsBit_of_body {i : Ea → Instr} {own : Nat} {n : State → Nat} {body : Ea → Exec Done}
    (hexec : ∀ ea s, exec (i ea) s = complete (i ea) (body ea) s) (hbody : ∀ ea s, body ea s = bitTest own ea (n s) s) :
    TestsBit i own n := by
  refine ⟨fun r => ?_, fun ea s s1 v hea ht hv => ?_⟩
  · refine registers_of_body (hexec (.dn r)) (fun s => ?_) fun s => Kept.setCcr s _
    exact (hbody _ s).trans ((Exec.getD_bind_long s r _).trans rfl)
  · have hop := readEa_inv hv
    have htest : bitTest own ea (n s) s = .ok .seq (s1.setCcr (tested v (n s) s.ccr)) := by
      rw [← hop.ccr]
      cases ea
      case dn r => exact absurd rfl (hea r)
      all_goals exact Exec.bind_ok s hv _
    exact ⟨next_past (hexec ea s) ((hbody ea s).trans htest) ht,
      ((hop.kept.trans (Kept.setCcr s1 _)).mono (by simp) (by simp)).past⟩

/-- Settles O16: the static and the dynamic forms run one body, whose mask has the one bit set. -/
theorem bitInstructions : Obligations.BitInstructions := by
  unfold Obligations.BitInstructions
  refine ⟨fun n => ⟨?_, ?_, ?_, ?_⟩, fun dn => ⟨?_, ?_, ?_, ?_⟩⟩
  · exact testsBit_of_body (fun _ _ => rfl) fun _ _ => rfl
  · exact changesBit_of_body (fun _ _ => rfl) (fun _ _ => rfl) xor_twoPow_eq_withBit
  · exact changesBit_of_body (g := fun v m => v &&& ~~~m) (fun _ _ => rfl) (fun _ _ => rfl) fun _ _ => rfl
  · exact changesBit_of_body (g := fun v m => v ||| m) (fun _ _ => rfl) (fun _ _ => rfl) fun _ _ => rfl
  · exact testsBit_of_body (fun _ _ => rfl) fun _ _ => rfl
  · exact changesBit_of_body (fun _ _ => rfl) (fun _ _ => rfl) xor_twoPow_eq_withBit
  · exact changesBit_of_body (g := fun v m => v &&& ~~~m) (fun _ _ => rfl) (fun _ _ => rfl) fun _ _ => rfl
  · exact changesBit_of_body (g := fun v m => v ||| m) (fun _ _ => rfl) (fun _ _ => rfl) fun _ _ => rfl

end Sys2Proof.Machine
end

section
/-! Shifts and rotates: the closed formulas of the model are the steps by one place (43 R290 to R298). -/

namespace Sys2Proof.Machine

open Sys2Proof.Claim

variable {s t : State} {w : Nat}

/-! ## Bits -/

/-- The sign of a value moved up is the bit that comes to the top. -/
theorem msb_shiftLeft_eq_bitOf (d : BitVec w) (n : Nat) : (d <<< n).msb = bitOf d ((w : Int) - (n + 1 : Nat)) := by
  rw [BitVec.msb_eq_getLsbD_last, BitVec.getLsbD_shiftLeft, bitOf]
  split
  · next h =>
    rcases Nat.eq_zero_or_pos w with rfl | hw
    · simp
    · simp [show w - 1 < n by omega]
  · next h =>
    rw [show ((w : Int) - (n + 1 : Nat)).toNat = w - 1 - n by omega]
    simp [show ¬ w - 1 < n by omega, show w - 1 < w by omega]

/-- One bit as a value has that bit at the bottom only. -/
theorem getLsbD_bitValue (hw : 0 < w) (b : Bool) (i : Nat) : (bitValue w b).getLsbD i = (decide (i = 0) && b) := by
  rw [bitValue, BitVec.getLsbD_setWidth, BitVec.getLsbD_ofBool]
  by_cases h : i = 0
  · simp [h, hw]
  · simp [h]

/-- A count that goes on by one, modulo the width. -/
theorem succ_mod_eq_ite (hw : 0 < w) (n : Nat) : (n + 1) % w = if n % w + 1 = w then 0 else n % w + 1 := by
  have hk : n % w < w := Nat.mod_lt n hw
  rw [← Nat.mod_add_mod]
  split
  · next h => rw [h, Nat.mod_self]
  · rw [Nat.mod_eq_of_lt (by omega)]

/-- Where a bit of a value rotated to the left comes from. -/
theorem getLsbD_rotateLeft_of_lt (d : BitVec w) (n : Nat) {i : Nat} (hi : i < w) :
    (d.rotateLeft n).getLsbD i = d.getLsbD (if i < n % w then w - n % w + i else i - n % w) := by
  rw [BitVec.getLsbD_rotateLeft]
  by_cases h : i < n % w <;> simp [h, hi]

/-- Where a bit of a value rotated to the right comes from. -/
theorem getLsbD_rotateRight_of_lt (d : BitVec w) (n : Nat) {i : Nat} (hi : i < w) :
    (d.rotateRight n).getLsbD i = d.getLsbD (if i < w - n % w then n % w + i else i - (w - n % w)) := by
  rw [BitVec.getLsbD_rotateRight]
  by_cases h : i < w - n % w <;> simp [h, hi]

/-- A rotation by no place. -/
theorem rotateLeft_zero (d : BitVec w) : d.rotateLeft 0 = d := by
  apply BitVec.eq_of_getLsbD_eq
  intro i hi
  rw [getLsbD_rotateLeft_of_lt d 0 hi, Nat.zero_mod, if_neg (by omega), Nat.sub_zero]

theorem rotateRight_zero (d : BitVec w) : d.rotateRight 0 = d := by
  apply BitVec.eq_of_getLsbD_eq
  intro i hi
  rw [getLsbD_rotateRight_of_lt d 0 hi, Nat.zero_mod, if_pos (by omega), Nat.zero_add]

/-- A rotation to the left by one place more. -/
theorem rotateLeft_succ (hw : 0 < w) (d : BitVec w) (n : Nat) :
    d.rotateLeft (n + 1) = (d.rotateLeft n <<< 1) ||| bitValue w (d.rotateLeft n).msb := by
  have hk : n % w < w := Nat.mod_lt n hw
  apply BitVec.eq_of_getLsbD_eq
  intro i hi
  rw [BitVec.getLsbD_or, BitVec.getLsbD_shiftLeft, getLsbD_bitValue hw, BitVec.msb_eq_getLsbD_last,
    getLsbD_rotateLeft_of_lt d _ hi, getLsbD_rotateLeft_of_lt d _ (show i - 1 < w by omega),
    getLsbD_rotateLeft_of_lt d _ (show w - 1 < w by omega), succ_mod_eq_ite hw]
  by_cases h : i = 0
  · simp only [h, decide_true, Bool.true_and, show 0 < 1 by decide, Bool.not_true, Bool.and_false, Bool.false_and,
      Bool.false_or]
    congr 1
    split <;> split <;> split <;> omega
  · simp only [h, hi, decide_true, decide_false, Bool.true_and, show ¬ i < 1 by omega, Bool.not_false, Bool.and_true,
      Bool.false_and, Bool.or_false]
    congr 1
    split <;> split <;> split <;> omega

/-- A rotation to the right by one place more. -/
theorem rotateRight_succ (hw : 0 < w) (d : BitVec w) (n : Nat) :
    d.rotateRight (n + 1) = (d.rotateRight n >>> 1) ||| (bitValue w ((d.rotateRight n).getLsbD 0) <<< (w - 1)) := by
  have hk : n % w < w := Nat.mod_lt n hw
  apply BitVec.eq_of_getLsbD_eq
  intro i hi
  rw [BitVec.getLsbD_or, BitVec.getLsbD_ushiftRight, BitVec.getLsbD_shiftLeft, getLsbD_bitValue hw,
    getLsbD_rotateRight_of_lt d _ hi, getLsbD_rotateRight_of_lt d _ hw, succ_mod_eq_ite hw]
  by_cases h : i = w - 1
  · rw [BitVec.getLsbD_of_ge _ _ (show w ≤ 1 + i by omega)]
    simp only [h, decide_true, Bool.true_and, lt_self_iff_false, decide_false, Bool.not_false, Nat.sub_self,
      Bool.false_or, show w - 1 < w by omega]
    congr 1
    split <;> split <;> split <;> omega
  · rw [getLsbD_rotateRight_of_lt d _ (show 1 + i < w by omega)]
    simp only [hi, decide_true, Bool.true_and, show i < w - 1 by omega, Bool.not_true, Bool.false_and, Bool.or_false]
    congr 1
    split <;> split <;> split <;> omega

/-! ## A shift by a count is so many steps -/

/-- A closed formula that begins with the operand and goes on by one step is the steps. -/
theorem eq_steps {one : OneStep} {op : ShiftOp} {d : BitVec w} {f : Ccr} (h0 : op 0 f d = (d, logicFlags d f))
    (hs : ∀ n, op (n + 1) f d = one (op n f d)) (n : Nat) : op n f d = steps one n d f := by
  induction n with
  | zero => exact h0
  | succ n ih => rw [hs, ih, steps, steps, Function.iterate_succ_apply']

/-- The result and the last bit out of LSL. -/
theorem lslOp_succ (d : BitVec w) (f : Ccr) (n : Nat) : lslOp (n + 1) f d = lslOne (lslOp n f d) := by
  have h : (lslOp n f d).1 = d <<< n := by
    rcases n with _ | n
    · simp [lslOp, shiftNone]
    · rfl
  rw [lslOne, h, msb, msb_shiftLeft_eq_bitOf, ← BitVec.shiftLeft_add]
  rfl

theorem lsrOp_succ (d : BitVec w) (f : Ccr) (n : Nat) : lsrOp (n + 1) f d = lsrOne (lsrOp n f d) := by
  have h : (lsrOp n f d).1 = d >>> n := by
    rcases n with _ | n
    · simp [lsrOp, shiftNone]
    · rfl
  have hc : (d >>> n).getLsbD 0 = bitOf d ((n + 1 : Nat) - 1 : Int) := by
    rw [BitVec.getLsbD_ushiftRight, bitOf, if_neg (by omega)]
    congr 1
    omega
  rw [lsrOne, h, hc, ← BitVec.shiftRight_add]
  rfl

theorem asrOp_succ (d : BitVec w) (f : Ccr) (n : Nat) : asrOp (n + 1) f d = asrOne (asrOp n f d) := by
  have h : (asrOp n f d).1 = d.sshiftRight n := by
    rcases n with _ | n
    · simp [asrOp, shiftNone]
    · rfl
  have hc : (d.sshiftRight n).getLsbD 0 = if n + 1 ≤ w then bitOf d ((n + 1 : Nat) - 1 : Int) else msb d := by
    rcases Nat.eq_zero_or_pos w with rfl | hw
    · simp [BitVec.of_length_zero]
    · rw [BitVec.getLsbD_sshiftRight, bitOf, if_neg (show ¬ ((n + 1 : Nat) - 1 : Int) < 0 by omega),
        show ((n + 1 : Nat) - 1 : Int).toNat = n by omega]
      by_cases hn : n + 1 ≤ w
      · simp [hn, show n < w by omega, show ¬ w ≤ 0 by omega]
      · simp [hn, show ¬ n < w by omega, show ¬ w ≤ 0 by omega]
  rw [asrOne, h, hc, ← BitVec.sshiftRight_add]
  rfl

theorem rolOp_succ (hw : 0 < w) (d : BitVec w) (f : Ccr) (n : Nat) : rolOp (n + 1) f d = rolOne (rolOp n f d) := by
  have h : (rolOp n f d).1 = d.rotateLeft n ∧ (rolOp n f d).2.x = f.x := by
    rcases n with _ | n
    · exact ⟨(rotateLeft_zero d).symm, rfl⟩
    · exact ⟨rfl, rfl⟩
  have hc : (d.rotateLeft (n + 1)).getLsbD 0 = (d.rotateLeft n).msb := by
    rw [rotateLeft_succ hw, BitVec.getLsbD_or, BitVec.getLsbD_shiftLeft, getLsbD_bitValue hw]
    simp
  rw [rolOne, h.1, h.2, ← rotateLeft_succ hw, msb, ← hc]
  rfl

theorem rorOp_succ (hw : 0 < w) (d : BitVec w) (f : Ccr) (n : Nat) : rorOp (n + 1) f d = rorOne (rorOp n f d) := by
  have h : (rorOp n f d).1 = d.rotateRight n ∧ (rorOp n f d).2.x = f.x := by
    rcases n with _ | n
    · exact ⟨(rotateRight_zero d).symm, rfl⟩
    · exact ⟨rfl, rfl⟩
  have hc : (d.rotateRight (n + 1)).msb = (d.rotateRight n).getLsbD 0 := by
    rw [rotateRight_succ hw, BitVec.msb_eq_getLsbD_last, BitVec.getLsbD_or, BitVec.getLsbD_ushiftRight,
      BitVec.getLsbD_shiftLeft, getLsbD_bitValue hw, BitVec.getLsbD_of_ge _ _ (show w ≤ 1 + (w - 1) by omega)]
    simp only [lt_self_iff_false, decide_false, Bool.not_false, Bool.and_true, Nat.sub_self, decide_true, Bool.true_and,
      Bool.false_or, show w - 1 < w by omega]
  rw [rorOne, h.1, h.2, ← rotateRight_succ hw, ← hc]
  rfl

/-! ## ASL and its overflow -/

/-- Whether the sign of an operand moved up by so many places is another than its own. -/
def signChanges (d : BitVec w) (i : Nat) : Bool := (d <<< i).msb ^^ d.msb

/-- The sign of an operand moved up by so many places, below its width. -/
theorem msb_shiftLeft_of_lt (d : BitVec w) {i : Nat} (hi : i < w) : (d <<< i).msb = d.getLsbD (w - 1 - i) := by
  rw [BitVec.msb_eq_getLsbD_last, BitVec.getLsbD_shiftLeft]
  simp [show ¬ w - 1 < i by omega, show w - 1 < w by omega]

/-- The bits the arithmetic shift of the overflow test looks at are the signs on the way. -/
theorem getLsbD_sshiftRight_signs (d : BitVec w) {n j : Nat} (hn : n < w) (hj : j < w) :
    (d.sshiftRight (w - 1 - n)).getLsbD j = (d <<< (n - j)).msb := by
  rw [BitVec.getLsbD_sshiftRight, msb_shiftLeft_of_lt d (show n - j < w by omega)]
  by_cases h : w - 1 - n + j < w
  · rw [if_pos h, show w - 1 - (n - j) = w - 1 - n + j by omega]
    simp [hj]
  · rw [if_neg h, show w - 1 - (n - j) = w - 1 by omega, BitVec.msb_eq_getLsbD_last]
    simp [hj]

/-- The arithmetic shift of the overflow test has equal bits exactly where no sign on the way was another. -/
theorem sshiftRight_uniform_iff (d : BitVec w) {n : Nat} (hn : n < w) :
    (d.sshiftRight (w - 1 - n) = 0 ∨ d.sshiftRight (w - 1 - n) = BitVec.allOnes w)
      ↔ ∀ i ≤ n, signChanges d i = false := by
  constructor
  · intro h i hi
    obtain ⟨b, hb⟩ : ∃ b, ∀ j < w, (d.sshiftRight (w - 1 - n)).getLsbD j = b := by
      rcases h with h | h
      · exact ⟨false, fun j _ => by rw [h]; exact BitVec.getLsbD_zero⟩
      · exact ⟨true, fun j hj => by rw [h, BitVec.getLsbD_allOnes]; simpa using hj⟩
    have h1 := hb (n - i) (by omega)
    have h2 := hb n hn
    rw [getLsbD_sshiftRight_signs d hn (by omega), show n - (n - i) = i by omega] at h1
    rw [getLsbD_sshiftRight_signs d hn hn, Nat.sub_self, BitVec.shiftLeft_zero] at h2
    rw [signChanges, h1, h2, Bool.xor_self]
  · intro h
    have hj : ∀ j < w, (d.sshiftRight (w - 1 - n)).getLsbD j = d.msb := fun j hj => by
      rw [getLsbD_sshiftRight_signs d hn hj]
      simpa [signChanges] using h (n - j) (by omega)
    cases hm : d.msb
    · exact .inl (BitVec.eq_of_getLsbD_eq fun j hj' => by
        rw [hj j hj', hm]
        exact BitVec.getLsbD_zero.symm)
    · exact .inr (BitVec.eq_of_getLsbD_eq fun j hj' => by rw [hj j hj', hm, BitVec.getLsbD_allOnes]; simp [hj'])

/-- With all bits moved out, some sign on the way was another exactly where the operand is not zero. -/
theorem exists_signChanges_iff (d : BitVec w) {n : Nat} (hn : w ≤ n) :
    (∃ i ≤ n, signChanges d i = true) ↔ d ≠ 0 := by
  constructor
  · rintro ⟨i, -, h⟩ rfl
    simp [signChanges] at h
  · intro h
    cases hm : d.msb
    · obtain ⟨j, hj, hb⟩ : ∃ j < w, d.getLsbD j = true := by
        by_contra hall
        push Not at hall
        exact h (BitVec.eq_of_getLsbD_eq fun j hj => by simpa using hall j hj)
      refine ⟨w - 1 - j, by omega, ?_⟩
      rw [signChanges, msb_shiftLeft_of_lt d (by omega), hm, show w - 1 - (w - 1 - j) = j by omega, hb]
      rfl
    · refine ⟨w, hn, ?_⟩
      rw [signChanges, hm, BitVec.shiftLeft_eq_zero le_rfl]
      simp

/-- The overflow of ASL: on the way the sign was another. -/
theorem aslOverflow_iff (d : BitVec w) (n : Nat) :
    aslOverflow n d = true ↔ ∃ i ≤ n, signChanges d i = true := by
  rcases Nat.lt_or_ge n w with hn | hn
  · have h := (sshiftRight_uniform_iff d hn).not
    push Not at h
    simp only [Bool.not_eq_false] at h
    rw [← h, aslOverflow]
    simp [show ¬ w ≤ n by omega]
  · rw [exists_signChanges_iff d hn, aslOverflow, show w - 1 - n = 0 by omega, BitVec.sshiftRight_zero]
    by_cases h : d = 0
    · simp [h]
    · exact iff_of_true (by rw [bne_iff_ne.mpr h, decide_eq_true hn]; simp) h

theorem aslOp_succ (d : BitVec w) (f : Ccr) (n : Nat) : aslOp (n + 1) f d = aslOne (aslOp n f d) := by
  have h0 : aslOverflow 0 d = false := by
    rw [← Bool.not_eq_true, aslOverflow_iff]
    rintro ⟨i, hi, h⟩
    obtain rfl : i = 0 := by omega
    simp [signChanges] at h
  have h : (aslOp n f d).1 = d <<< n ∧ (aslOp n f d).2.v = aslOverflow n d := by
    rcases n with _ | n
    · exact ⟨by simp [aslOp, shiftNone], h0.symm⟩
    · exact ⟨rfl, rfl⟩
  have hv : aslOverflow (n + 1) d = (aslOverflow n d || (d <<< n).msb != (d <<< (n + 1)).msb) := by
    rw [Bool.eq_iff_iff, Bool.or_eq_true, aslOverflow_iff, aslOverflow_iff]
    constructor
    · rintro ⟨i, hi, h⟩
      by_cases hn : signChanges d n = true
      · exact .inl ⟨n, le_rfl, hn⟩
      · rcases Nat.lt_or_ge i (n + 1) with hlt | hge
        · exact .inl ⟨i, by omega, h⟩
        · obtain rfl : i = n + 1 := by omega
          refine .inr ?_
          revert h hn
          unfold signChanges
          cases (d <<< n).msb <;> cases (d <<< (n + 1)).msb <;> cases d.msb <;> decide
    · rintro (⟨i, hi, h⟩ | h)
      · exact ⟨i, by omega, h⟩
      · by_cases hn : signChanges d n = true
        · exact ⟨n, by omega, hn⟩
        · refine ⟨n + 1, le_rfl, ?_⟩
          revert h hn
          unfold signChanges
          cases (d <<< n).msb <;> cases (d <<< (n + 1)).msb <;> cases d.msb <;> decide
  rw [aslOne, h.1, h.2, ← BitVec.shiftLeft_add, msb, msb, ← hv, msb_shiftLeft_eq_bitOf d n]
  rfl

/-! ## ROXL and ROXR: rotations of X and the operand -/

/-- A rotation of X and the operand to the left by one place is the step of ROXL. -/
theorem extendOut_left (hw : 0 < w) (t : BitVec (1 + w)) (f : Ccr) :
    extendOut ((t <<< 1) ||| bitValue (1 + w) t.msb) = roxlOne (t.setWidth w, { f with x := t.msb }) := by
  have hr : ((t <<< 1) ||| bitValue (1 + w) t.msb).setWidth w = (t.setWidth w <<< 1) ||| bitValue w t.msb := by
    apply BitVec.eq_of_getLsbD_eq
    intro i hi
    rw [BitVec.getLsbD_setWidth, BitVec.getLsbD_or, BitVec.getLsbD_or, BitVec.getLsbD_shiftLeft,
      BitVec.getLsbD_shiftLeft, BitVec.getLsbD_setWidth, getLsbD_bitValue hw, getLsbD_bitValue (by omega)]
    simp [hi, show i < 1 + w by omega, show i - 1 < w by omega]
  have hc : ((t <<< 1) ||| bitValue (1 + w) t.msb).msb = (t.setWidth w).msb := by
    rw [BitVec.msb_eq_getLsbD_last, BitVec.msb_eq_getLsbD_last (x := t.setWidth w), BitVec.getLsbD_or,
      BitVec.getLsbD_shiftLeft,
      BitVec.getLsbD_setWidth, getLsbD_bitValue (by omega), show 1 + w - 1 = w by omega]
    simp [show w ≠ 0 by omega, show ¬ w < 1 by omega, show w - 1 < w by omega, show w < 1 + w by omega]
  rw [extendOut, msb, hr, hc]
  rfl

theorem extendOut_right (hw : 0 < w) (t : BitVec (1 + w)) (f : Ccr) :
    extendOut ((t >>> 1) ||| (bitValue (1 + w) (t.getLsbD 0) <<< (1 + w - 1)))
      = roxrOne (t.setWidth w, { f with x := t.msb }) := by
  have hr : ((t >>> 1) ||| (bitValue (1 + w) (t.getLsbD 0) <<< (1 + w - 1))).setWidth w
      = (t.setWidth w >>> 1) ||| (bitValue w t.msb <<< (w - 1)) := by
    apply BitVec.eq_of_getLsbD_eq
    intro i hi
    rw [BitVec.getLsbD_setWidth, BitVec.getLsbD_or, BitVec.getLsbD_or, BitVec.getLsbD_ushiftRight,
      BitVec.getLsbD_ushiftRight, BitVec.getLsbD_setWidth, BitVec.getLsbD_shiftLeft, BitVec.getLsbD_shiftLeft,
      getLsbD_bitValue hw, getLsbD_bitValue (by omega), show 1 + w - 1 = w by omega]
    by_cases h : i = w - 1
    · simp [h, show w - 1 < w by omega, BitVec.msb_eq_getLsbD_last,
        show 1 + (w - 1) = w by omega]
    · simp [hi, show 1 + i < w by omega, show i < w - 1 by omega]
  have hc : ((t >>> 1) ||| (bitValue (1 + w) (t.getLsbD 0) <<< (1 + w - 1))).msb = (t.setWidth w).getLsbD 0 := by
    rw [BitVec.msb_eq_getLsbD_last, BitVec.getLsbD_or, BitVec.getLsbD_ushiftRight, BitVec.getLsbD_shiftLeft,
      BitVec.getLsbD_setWidth, getLsbD_bitValue (by omega), BitVec.getLsbD_of_ge _ _ (show 1 + w ≤ 1 + (1 + w - 1) by omega)]
    simp [hw]
  rw [extendOut, msb, hr, hc]
  rfl

/-- X and the operand after no rotation. -/
theorem extendOut_append (x : Bool) (d : BitVec w) :
    (BitVec.ofBool x ++ d).setWidth w = d ∧ (BitVec.ofBool x ++ d).msb = x := by
  constructor
  · apply BitVec.eq_of_getLsbD_eq
    intro i hi
    rw [BitVec.getLsbD_setWidth, BitVec.getLsbD_append]
    simp [hi]
  · rw [BitVec.msb_append, if_neg (by decide)]
    cases x <;> rfl

/-- Steps of a rotation of X and the operand: `rot n` is the pair after `n` places, `one` moves by one. -/
theorem eq_extendSteps {one : OneStep} {rot : Nat → BitVec (1 + w)} {d : BitVec w} {f : Ccr}
    (h0 : rot 0 = BitVec.ofBool f.x ++ d)
    (hs : ∀ (n : Nat) (g : Ccr), extendOut (rot (n + 1)) = one ((rot n).setWidth w, { g with x := (rot n).msb })) (n : Nat) :
    extendOut (rot n) = ((steps one n d f).1, stepCodes one true n d f) := by
  have hstep : ∀ n, steps one (n + 1) d f = one (steps one n d f) := fun n => by
    rw [steps, steps, Function.iterate_succ_apply']
  have hall : ∀ n, (steps one n d f).1 = (rot n).setWidth w ∧ (steps one n d f).2.x = (rot n).msb := by
    intro n
    induction n with
    | zero => rw [h0, (extendOut_append f.x d).1, (extendOut_append f.x d).2]; exact ⟨rfl, rfl⟩
    | succ n ih =>
      have he : steps one (n + 1) d f = extendOut (rot (n + 1)) := by
        rw [hstep, hs n (steps one n d f).2, ← ih.1, ← ih.2]
      rw [he]
      exact ⟨rfl, rfl⟩
  rcases n with _ | n
  · rw [h0, extendOut, msb, (extendOut_append f.x d).1, (extendOut_append f.x d).2]
    rfl
  · rw [hs n (steps one n d f).2, ← (hall n).1, ← (hall n).2]
    change one (steps one n d f) = _
    rw [← hstep]
    rfl

/-! ## The instructions -/

/-- What a register shift does. -/
theorem shiftRegister_run (op : ShiftOp) (sz : Size) (count : ShiftCount) (dy : Reg) (s : State) :
    shiftRegister op sz count dy s = .ok .seq
      ((s.setDreg dy (withLow (s.dreg dy) sz (op (shiftCount s count) s.ccr (lowPart sz (s.dreg dy))).1)).setCcr
        (op (shiftCount s count) s.ccr (lowPart sz (s.dreg dy))).2) := rfl

/-- A register shift whose closed formula is the steps. -/
theorem shiftsRegister_of_op {mk : Size → ShiftCount → Reg → Instr} {one : OneStep} {extend : Bool} {op : ShiftOp}
    (hexec : ∀ sz count dy s, exec (mk sz count dy) s = complete (mk sz count dy) (shiftRegister op sz count dy) s)
    (hop : ∀ {w : Nat}, 0 < w → ∀ (n : Nat) (f : Ccr) (d : BitVec w),
      op n f d = ((steps one n d f).1, stepCodes one extend n d f)) : ShiftsRegister mk one extend := by
  intro sz count dy
  refine registers_of_body (hexec sz count dy) (fun s => ?_) fun s => Kept.dregCodes s dy _ _
  have hw : 0 < sz.bits := by cases sz <;> decide
  have hcount : shiftCount s count = match count with
      | .imm c => if c = 0 then 8 else c.toNat
      | .reg r => (s.dreg r).toNat % 64 := by
    cases count <;> rfl
  rw [shiftRegister_run, hop hw, hcount] <;> rfl

/-- A memory shift moves a word by one place. -/
theorem shiftsMemory_of_op {mk : Ea → Instr} {one : OneStep} {op : ShiftOp}
    (hexec : ∀ ea s, exec (mk ea) s = complete (mk ea) (shiftMemory op ea) s)
    (hop : ∀ (f : Ccr) (d : Word), op 1 f d = one (d, { f with v := false })) : ShiftsMemory mk one := by
  intro ea
  refine replaces_of_body (hexec ea) fun {s s1 s2 l d} h1 h2 h3 => ?_
  have hrun : shiftMemory op ea s = .ok .seq (stored .word l (op 1 s2.ccr d).1 (s2.setCcr (op 1 s2.ccr d).2)) :=
    rmwEa_ok h1 h2 rfl (h3.congr (SameAccess.setCcr s2 _) (State.dataFc_setCcr s2 _))
  rw [((operand_inv h1).read (readLoc_inv h2)).ccr, hop s.ccr d] at hrun
  exact hrun

theorem roxlOp_steps (hw : 0 < w) (n : Nat) (f : Ccr) (d : BitVec w) :
    roxlOp n f d = ((steps roxlOne n d f).1, stepCodes roxlOne true n d f) := by
  refine eq_extendSteps (rot := fun n => (BitVec.ofBool f.x ++ d).rotateLeft n) (rotateLeft_zero _) (fun n g => ?_) n
  rw [rotateLeft_succ (by omega)]
  exact extendOut_left hw _ g

theorem roxrOp_steps (hw : 0 < w) (n : Nat) (f : Ccr) (d : BitVec w) :
    roxrOp n f d = ((steps roxrOne n d f).1, stepCodes roxrOne true n d f) := by
  refine eq_extendSteps (rot := fun n => (BitVec.ofBool f.x ++ d).rotateRight n) (rotateRight_zero _) (fun n g => ?_) n
  rw [rotateRight_succ (by omega)]
  exact extendOut_right hw _ g

/-- One place of a rotation with X is its step. -/
theorem extendOp_one {one : OneStep} {op : ShiftOp} {f : Ccr} {d : Word}
    (h : op 1 f d = ((steps one 1 d f).1, stepCodes one true 1 d f)) : op 1 f d = one (d, logicFlags d f) := h

/-- Settles O15: the closed formula of each shift goes on by its step. -/
theorem shifts : Obligations.Shifts := by
  unfold Obligations.Shifts
  refine ⟨?_, ?_, ?_, ?_, ?_, ?_, ?_, ?_, ?_, ?_, ?_, ?_, ?_, ?_, ?_, ?_⟩
  · exact shiftsRegister_of_op (fun _ _ _ _ => rfl) fun _ n f d => eq_steps rfl (aslOp_succ d f) n
  · exact shiftsRegister_of_op (fun _ _ _ _ => rfl) fun _ n f d => eq_steps rfl (asrOp_succ d f) n
  · exact shiftsRegister_of_op (fun _ _ _ _ => rfl) fun _ n f d => eq_steps rfl (lslOp_succ d f) n
  · exact shiftsRegister_of_op (fun _ _ _ _ => rfl) fun _ n f d => eq_steps rfl (lsrOp_succ d f) n
  · exact shiftsRegister_of_op (fun _ _ _ _ => rfl) fun hw n f d => eq_steps rfl (rolOp_succ hw d f) n
  · exact shiftsRegister_of_op (fun _ _ _ _ => rfl) fun hw n f d => eq_steps rfl (rorOp_succ hw d f) n
  · exact shiftsRegister_of_op (fun _ _ _ _ => rfl) roxlOp_steps
  · exact shiftsRegister_of_op (fun _ _ _ _ => rfl) roxrOp_steps
  · exact shiftsMemory_of_op (fun _ _ => rfl) fun f d => aslOp_succ d f 0
  · exact shiftsMemory_of_op (fun _ _ => rfl) fun f d => asrOp_succ d f 0
  · exact shiftsMemory_of_op (fun _ _ => rfl) fun f d => lslOp_succ d f 0
  · exact shiftsMemory_of_op (fun _ _ => rfl) fun f d => lsrOp_succ d f 0
  · exact shiftsMemory_of_op (fun _ _ => rfl) fun f d => rolOp_succ (by decide) d f 0
  · exact shiftsMemory_of_op (fun _ _ => rfl) fun f d => rorOp_succ (by decide) d f 0
  · exact shiftsMemory_of_op (fun _ _ => rfl) fun f d => extendOp_one (roxlOp_steps (by decide) 1 f d)
  · exact shiftsMemory_of_op (fun _ _ => rfl) fun f d => extendOp_one (roxrOp_steps (by decide) 1 f d)

end Sys2Proof.Machine
end

section
/-! Program control, stack frames and the system registers (40 R208 to R212; 47 R350 to R360; 48 R381 to R400). -/

namespace Sys2Proof.Machine

open Sys2Proof.Claim

variable {s t : State}

/-! ## Branches, jumps and returns (47 R350 to R360) -/

/-- An instruction whose body goes on at an even address, not traced. -/
theorem next_jumped {i : Instr} {body : Exec Done} {p : Long} (hexec : exec i s = complete i body s)
    (hbody : body s = .ok (.jump p) t) (ht : s.traceFlow = false) (hp : p.getLsbD 0 = false) :
    exec i s = .next (jumped p t) := hexec.trans (complete_jump hbody ht hp)

/-- A count that goes on to -1 was 0. -/
theorem sub_one_bne_ones (v : Word) : (v - 1 != 0xFFFF) = !decide (v = 0) := by
  rw [Bool.eq_iff_iff, bne_iff_ne, Bool.not_eq_true', decide_eq_false_iff_not, not_iff_not]
  constructor <;> intro h <;> bv_omega

/-- The body of DBcc. -/
def dbccBody (c : Cond) (dn : Reg) (d : Word) : Exec Done := do
  let t ← look fun s => branchTarget s (sext d)
  let f ← getFlags
  if condHolds c f then
    if t.getLsbD 0 then refuse .dbccOddNotTaken else return .seq
  else do
    let v ← getD .word dn
    putD .word dn (v - 1)
    if v - 1 != 0xFFFF then return .jump t
    else if t.getLsbD 0 then refuse .dbccOddNotTaken
    else return .seq

theorem exec_dbcc (c : Cond) (dn : Reg) (d : Word) (s : State) :
    exec (.dbcc c dn d) s = complete (.dbcc c dn d) (dbccBody c dn d) s := rfl

/-- The state in which DBcc has counted. -/
def counted (dn : Reg) (s : State) : State :=
  s.setDreg dn (withLow (s.dreg dn) .word (lowPart .word (s.dreg dn) - 1))

/-- DBcc whose condition holds: nothing is counted, and only an odd target matters (93 U13). -/
theorem dbccBody_holds {c : Cond} (hc : condHolds c s.ccr = true) (dn : Reg) (d : Word) :
    dbccBody c dn d s = if (s.pc + 2 + sext d).getLsbD 0 then .error (.refuse .dbccOddNotTaken) s else .ok .seq s := by
  unfold dbccBody
  rw [Exec.look_bind, Exec.getFlags_bind, if_pos hc, Exec.ite_run]
  rfl

/-- DBcc that counts: a branch, or the count run out. -/
theorem dbccBody_counts {c : Cond} (hc : condHolds c s.ccr = false) (dn : Reg) (d : Word) :
    dbccBody c dn d s = if lowPart .word (s.dreg dn) = 0 then
        if (s.pc + 2 + sext d).getLsbD 0 then .error (.refuse .dbccOddNotTaken) (counted dn s) else .ok .seq (counted dn s)
      else .ok (.jump (s.pc + 2 + sext d)) (counted dn s) := by
  unfold dbccBody
  rw [Exec.look_bind, Exec.getFlags_bind, if_neg (by rw [hc]; decide), Exec.getD_bind_word]
  refine (Exec.putD_bind s .word dn _ _).trans ?_
  have h := sub_one_bne_ones (lowPart .word (s.dreg dn))
  by_cases hz : lowPart .word (s.dreg dn) = 0
  · rw [decide_eq_true hz] at h
    rw [h, if_pos hz, Bool.not_true, if_neg (by decide), Exec.ite_run]
    rfl
  · rw [decide_eq_false hz] at h
    rw [h, if_neg hz, Bool.not_false, if_pos rfl]
    rfl

/-- Settles O22: each body goes on at its target or past the instruction. -/
theorem branches : Obligations.Branches := by
  unfold Obligations.Branches
  refine fun s ht => ⟨fun d he => ⟨next_jumped rfl rfl ht he, fun c => ?_⟩, fun c dn d he => ⟨?_, Kept.setDreg s dn _⟩⟩
  · have hbody {β : Type} (m : Exec β) (k : Abort) : (if (branchTarget s (BranchDisp.value d)).getLsbD 0 then
        (throw k : Exec β) else m) = m := if_neg (by rw [branchTarget, he]; decide)
    cases hc : condHolds c s.ccr
    · refine next_past rfl ((Exec.look_bind s _ _).trans ((Exec.getFlags_bind s _).trans ?_)) (traceAll_of_flow ht)
      rw [hbody, if_neg (by rw [hc]; decide)]
      rfl
    · refine next_jumped rfl ((Exec.look_bind s _ _).trans ((Exec.getFlags_bind s _).trans ?_)) ht he
      rw [hbody, if_pos hc]
      rfl
  · cases hc : condHolds c s.ccr
    · have hrun := dbccBody_counts hc dn d
      rw [he] at hrun
      by_cases hz : lowPart .word (s.dreg dn) = 0
      · rw [if_pos hz] at hrun
        rw [if_neg (by decide), if_pos hz]
        exact next_past (exec_dbcc c dn d s) hrun (traceAll_of_flow ht)
      · rw [if_neg hz] at hrun
        rw [if_neg (by decide), if_neg hz]
        exact next_jumped (exec_dbcc c dn d s) hrun ht he
    · have hrun := dbccBody_holds hc dn d
      rw [he] at hrun
      exact next_past (exec_dbcc c dn d s) hrun (traceAll_of_flow ht)

/-- A push after an operand's address is computed keeps all but the stack pointer, the register stepped and the bytes
pushed. -/
theorem Kept.pushedAfter {bytes : Nat} {ea : Ea} {s1 : State} (h : OperandEffect bytes ea s s1) (v : Long) :
    Kept s (Machine.pushed v s1) (15 :: steppedRegs ea) (keysAt s s.dataFc (s1.sp - 4) 4) := by
  have hp := Kept.pushed s1 v
  rw [keysAt_congr h.access.platform, h.dataFc] at hp
  exact (h.kept.trans hp).mono (by simp) (by simp)

/-- A push where the space is that of an earlier state. -/
theorem pushLong_ok_of {s1 : State} {v : Long} {d : Done} (hfc : s1.dataFc = s.dataFc)
    (h : Writable s1 s.dataFc (s1.sp - 4) 4) : pushLong v d s1 = .ok d (pushed v s1) :=
  pushLong_ok (by rw [hfc]; exact h)

/-- Settles O23: the address is computed, the return address pushed, and the flow goes on at the target. -/
theorem jumpsAndCalls : Obligations.JumpsAndCalls := by
  unfold Obligations.JumpsAndCalls
  refine fun s ht => ⟨fun ea s1 p h he => ⟨⟨?_, (eaAddress_inv h).kept⟩, fun hw => ⟨?_, ?_⟩⟩, fun d he hw => ⟨?_, ?_⟩⟩
  · exact next_jumped rfl (Exec.bind_ok s h _) ht he
  · refine next_jumped rfl ((Exec.bind_ok s h _).trans ((Exec.look_bind s1 _ _).trans ?_)) ht he
    have hpc : nextPc (.jsr ea) s1 = nextPc (.jsr ea) s := by rw [nextPc, nextPc, (eaAddress_inv h).pc]
    rw [hpc]
    exact pushLong_ok_of (eaAddress_inv h).dataFc hw
  · exact Kept.pushedAfter (eaAddress_inv h) _
  · exact next_jumped rfl (pushLong_ok hw) ht he
  · exact Kept.pushed s _

/-- A pop where the stack pointer goes on to `v` keeps everything else. -/
theorem Kept.popped (s : State) (l : CacheRecords) (v : Long) : Kept s ((Machine.withRecords l s).setSp v) [15] [] :=
  ((Kept.withRecords s l).trans (Kept.setSp _ v)).mono (by simp) (by simp)

/-- The records of the caches are no part of the stack pointers. -/
theorem withRecords_setSp (s : State) (l : CacheRecords) (v : Long) :
    (Machine.withRecords l s).setSp v = Machine.withRecords l (s.setSp v) := by
  rw [State.setSp_eq, State.setSp_eq]
  rfl

/-- The active stack pointer moved twice. -/
theorem State.setSp_setSp (s : State) (v w : Long) : (s.setSp v).setSp w = s.setSp w := by
  rw [State.setSp_eq (s.setSp v), State.super_setSp, State.setSp_sr, State.setSp_eq s v, State.setSp_eq s w]
  cases s.super <;> cases srM s.sr <;> rfl

/-- Codes and the stack pointer are set in either order. -/
theorem State.setCcr_setSp (s : State) (f : Ccr) (v : Long) : (s.setCcr f).setSp v = (s.setSp v).setCcr f := by
  have hm : srM (s.setCcr f).sr = srM s.sr := srM_srWithCcr s.sr f
  rw [State.setSp_eq (s.setCcr f), State.super_setCcr, hm, State.setSp_eq s]
  rfl

/-- A readable operand is read; lines are pushed or invalidated at most. -/
theorem readMem_records {sz : Size} {a : Long} (h : Readable s s.dataFc a sz.bytes) :
    ∃ r : CacheRecords, r.staleData ⊆ s.staleData
      ∧ readMem sz a s = .ok (peek s s.dataFc sz a) (Machine.withRecords r s) :=
  ⟨_, afterRead_staleData s s.dataFc a sz.bytes, readCycle_ok (c := normalCycle s.dataFc) h.1 h.2.1 h.2.2⟩

/-- Records with no more bytes that may be old do not change the fate of an access. -/
theorem SameAccess.withRecords {r : CacheRecords} (h : r.staleData ⊆ s.staleData) : SameAccess s (Machine.withRecords r s) :=
  ⟨rfl, rfl, rfl, rfl, rfl, rfl, fun _ => h⟩

/-- A long word is popped; lines are pushed or invalidated at most. -/
theorem popLong_records (h : Readable s s.dataFc s.sp 4) : ∃ l : CacheRecords, l.staleData ⊆ s.staleData
    ∧ popLong s = .ok (peek s s.dataFc .long s.sp) ((Machine.withRecords l s).setSp (s.sp + 4)) := by
  obtain ⟨l, hl, hread⟩ := readMem_records (sz := .long) h
  exact ⟨l, hl, (Exec.look_bind s _ _).trans (Exec.bind_ok s hread _)⟩

/-- RTR pops the codes, then the address. -/
theorem rtr_body_run (h : Readable s s.dataFc s.sp 6) : ∃ l : CacheRecords, l.staleData ⊆ s.staleData ∧ (do
      let w ← popWord
      setFlags fun _ => ccrOf w
      let t ← popLong
      return .jump t : Exec Done) s = .ok (.jump (peek s s.dataFc .long (s.sp + 2)))
        (((Machine.withRecords l s).setSp (s.sp + 6)).setCcr (ccrOf (peek s s.dataFc .word s.sp))) := by
  obtain ⟨r, hr, hread⟩ := readMem_records (sz := .word) (a := s.sp) (h.part 0 (by simp) (by decide))
  let f := ccrOf (peek s s.dataFc .word s.sp)
  let u := ((Machine.withRecords r s).setSp (s.sp + 2)).setCcr f
  have hpop : popWord s = .ok (peek s s.dataFc .word s.sp) ((Machine.withRecords r s).setSp (s.sp + 2)) :=
    (Exec.look_bind s _ _).trans (Exec.bind_ok s hread _)
  have hacc : SameAccess s u :=
    (SameAccess.withRecords hr).trans ((SameAccess.setSp _ _).trans (SameAccess.setCcr _ _))
  have hsp : u.sp = s.sp + 2 := by rw [State.sp_setCcr, State.sp_setSp]
  have hfc : u.dataFc = s.dataFc := by rw [State.dataFc_setCcr, State.dataFc_setSp]; rfl
  obtain ⟨r', hr', hpop'⟩ := popLong_records (s := u) (by rw [hsp, hfc]; exact hacc.readable (h.part 2 rfl (by decide)))
  have hstale : u.staleData = r.staleData := by simp [u, Machine.withRecords]
  have hpeek : peek u s.dataFc .long (s.sp + 2) = peek s s.dataFc .long (s.sp + 2) :=
    peek_congr (by simp [u, Machine.withRecords]) hacc.platform _ _ _
  rw [hsp, hfc, hpeek] at hpop'
  refine ⟨r', fun _ hk => hr (hstale ▸ hr' hk),
    (Exec.bind_ok s hpop _).trans ((Exec.setFlags_bind _ _ _).trans ((Exec.bind_ok u hpop' _).trans ?_))⟩
  have hu : Machine.withRecords r' u = (Machine.withRecords r' (s.setSp (s.sp + 2))).setCcr f := by
    simp only [u, withRecords_setSp]
    rfl
  rw [hu, State.setCcr_setSp, withRecords_setSp, State.setSp_setSp, withRecords_setSp, BitVec.add_assoc]
  rfl

/-- Settles O24: the address is popped, and for RTR the codes before it. -/
theorem returns : Obligations.Returns := by
  unfold Obligations.Returns
  refine fun s ht => ⟨fun hr he => ⟨?_, fun d => ?_⟩, fun hr he => ?_⟩
  · obtain ⟨l, hpop⟩ := popLong_ok hr
    exact ⟨l, next_jumped rfl (Exec.bind_ok s hpop _) ht he, Kept.popped s l _⟩
  · obtain ⟨l, hpop⟩ := popLong_ok hr
    refine ⟨l, next_jumped rfl ((Exec.bind_ok s hpop _).trans ?_) ht he, Kept.popped s l _⟩
    rw [Exec.change_bind, State.sp_setSp, State.setSp_setSp]
    rfl
  · obtain ⟨l, -, hpop⟩ := rtr_body_run hr
    exact ⟨l, next_jumped rfl hpop ht he, ((Kept.popped s l _).trans (Kept.setCcr _ _)).mono (by simp) (by simp)⟩

end Sys2Proof.Machine
end

section
/-! Stack frames, MOVEP, the system registers and MOVES (40 R206 to R212; 48 R381 to R400). -/

namespace Sys2Proof.Machine

open Sys2Proof.Claim

variable {s t u : State}

/-! ## LINK, UNLK and PEA (40 R208, R211, R212) -/

/-- LINK of a register that is no stack pointer: the register pushed, the frame pointer set, the stack pointer moved. -/
theorem link_ok {an : Reg} (d : Long) (h : an ≠ 7) (hw : Writable s s.dataFc (s.sp - 4) 4) : link an d s
    = .ok .seq (poke ((s.setAreg an (s.sp - 4)).setSp (s.sp - 4 + d)) s.dataFc .long (s.sp - 4) (s.areg an)) := by
  unfold link
  rw [if_neg (by simpa using h)]
  have hfc : ((s.setAreg an (s.sp - 4)).setSp (s.sp - 4 + d)).dataFc = s.dataFc := by
    rw [State.dataFc_setSp, State.dataFc_setAreg]
  have hacc : SameAccess s ((s.setAreg an (s.sp - 4)).setSp (s.sp - 4 + d)) :=
    (SameAccess.setAreg s an _).trans (SameAccess.setSp _ _)
  have hw' := hacc.writable hw
  rw [← hfc] at hw'
  exact (Exec.getA_bind s an _).trans ((Exec.look_bind s _ _).trans ((Exec.putA_bind s an _ _).trans
    ((Exec.change_bind _ _ _).trans ((writeMem_ok (sz := .long) hw'.1 hw'.2.1 hw'.2.2).trans (by rw [hfc])))))

/-- UNLK of a register that is no stack pointer. -/
theorem unlk_body_ok {an : Reg} (h : an ≠ 7) (hr : Readable s s.dataFc (s.areg an) 4) : ∃ l,
    (if an == 7 then refuse .unlkA7
      else do
        let a ← getA an
        let v ← readMem .long a
        change fun s => s.setSp (a + 4)
        putA an v
        return .seq : Exec Done) s
      = .ok .seq (((withRecords l s).setSp (s.areg an + 4)).setAreg an (peek s s.dataFc .long (s.areg an))) := by
  obtain ⟨l, hl⟩ := readMem_ok (sz := .long) hr
  refine ⟨l, ?_⟩
  rw [if_neg (by simpa using h), Exec.getA_bind, Exec.bind_ok s hl, Exec.change_bind, Exec.putA_bind]
  rfl

/-- An instruction whose body refuses in a state. -/
theorem next_refused {i : Instr} {body : Exec Done} {r : Refusal} (hexec : exec i s = complete i body s)
    (hbody : body s = .error (.refuse r) u) : exec i s = .refused r := by
  rw [hexec, complete_error hbody, abort]

/-- Settles O25: LINK writes the old register below the stack, UNLK reads it back, PEA pushes an address. -/
theorem stackFrames : Obligations.StackFrames := by
  unfold Obligations.StackFrames
  refine fun s ht => ⟨fun an d i hi => ?_, fun an => ⟨fun h7 => ?_, fun h7 hr => ?_⟩, fun ea s1 a h hw => ⟨?_, ?_, ?_⟩⟩
  · have hexec : exec i s = complete i (link an d) s := by
      rcases hi with rfl | ⟨w, rfl, rfl⟩ <;> rfl
    refine ⟨fun h7 => next_refused hexec (u := s) ?_, fun h7 hw => ⟨next_past hexec (link_ok d h7 hw) ht, Kept.past ?_, ?_⟩⟩
    · rw [h7]; rfl
    · have hp := Kept.poke ((s.setAreg an (s.sp - 4)).setSp (s.sp - 4 + d)) s.dataFc .long (s.sp - 4) (s.areg an)
      rw [keysAt_congr (s := s) (by simp)] at hp
      exact ((Kept.setAreg s an _).trans ((Kept.setSp _ _).trans hp)).mono (by simp) (by simp)
    · rw [past_ccr, State.ccr_poke, State.ccr_setSp, State.ccr_setAreg]
  · exact next_refused (u := s) rfl (by rw [h7]; rfl)
  · obtain ⟨l, hl⟩ := unlk_body_ok h7 hr
    refine ⟨l, next_past rfl hl ht, Kept.past ?_, ?_⟩
    · exact ((Kept.popped s l _).trans (Kept.setAreg _ an _)).mono (by simp) (by simp)
    · rw [past_ccr, State.ccr_setAreg, State.ccr_setSp]
      rfl
  · exact next_past rfl ((Exec.bind_ok s h _).trans (pushLong_ok_of (eaAddress_inv h).dataFc hw)) ht
  · exact (Kept.pushedAfter (eaAddress_inv h) a).past
  · rw [past_ccr, pushed, State.ccr_poke, State.ccr_setSp, (eaAddress_inv h).ccr]

/-! ## Reads one after another -/

/-- Only the records of the caches differ, and no more bytes may be old. -/
def Recorded (s u : State) : Prop := ∃ r : CacheRecords, r.staleData ⊆ s.staleData ∧ u = withRecords r s

theorem Recorded.refl (s : State) : Recorded s s := ⟨s.records, fun _ h => h, rfl⟩

theorem Recorded.access (h : Recorded s u) : SameAccess s u := by
  obtain ⟨r, hr, rfl⟩ := h
  exact SameAccess.withRecords hr

theorem Recorded.kept (h : Recorded s u) : Kept s u [] [] := by
  obtain ⟨r, -, rfl⟩ := h
  exact Kept.withRecords s r

theorem Recorded.trans (h : Recorded s u) (h' : Recorded u t) : Recorded s t := by
  obtain ⟨r, hr, rfl⟩ := h
  obtain ⟨r', hr', rfl⟩ := h'
  exact ⟨r', fun _ hk => hr (hr' hk), rfl⟩

/-- A read of memory in any space. -/
theorem Recorded.readCycle {c : Cycle} {sz : Size} {a : Long} (h : Recorded s u)
    (hf : readFaults s c.locked c.fc a sz.bytes = false) (hs : staleAccess s c.fc a sz.bytes = false)
    (hd : touches s.platform.devices c.fc a sz.bytes = false) :
    ∃ t, Recorded s t ∧ readCycle c sz a u = .ok (peek s c.fc sz a) t := by
  have hacc := h.access
  have hpeek : peek u c.fc sz a = peek s c.fc sz a := by
    obtain ⟨r, -, rfl⟩ := h
    rfl
  rw [← hpeek]
  exact ⟨_, h.trans ⟨_, afterRead_staleData u _ _ _, afterRead_eq u _ _ _⟩,
    readCycle_ok (by rw [hacc.readFaults, hf]) (hacc.staleAccess hs) (by rw [hacc.platform, hd])⟩

/-- A read of readable operand memory after others. -/
theorem Recorded.readMem {sz : Size} {a : Long} (h : Recorded s u) (hr : Readable s s.dataFc a sz.bytes) :
    ∃ t, Recorded s t ∧ readMem sz a u = .ok (peek s s.dataFc sz a) t := by
  have hfc : u.dataFc = s.dataFc := by
    obtain ⟨r, -, rfl⟩ := h
    rfl
  obtain ⟨t, ht, hread⟩ := h.readCycle (c := normalCycle s.dataFc) hr.1 hr.2.1 hr.2.2
  refine ⟨t, ht, ?_⟩
  unfold Machine.readMem
  rw [hfc]
  exact hread

/-! ## Bytes written one after another -/

/-- The stores of bytes at given addresses. -/
def byteStores (fc : BitVec 3) (l : List (Long × Byte)) : List Store :=
  l.map fun p => { c := normalCycle fc, sz := .byte, a := p.1, v := p.2.setWidth 32 }

theorem apply_byteStore (s : State) (fc : BitVec 3) (a : Long) (v : Byte) :
    Store.apply s { c := normalCycle fc, sz := .byte, a := a, v := v.setWidth 32 } = pokeByte s fc a v := by
  have h := setWidth_back (sz := .byte) v
  unfold Store.apply
  exact congrArg (pokeByte s fc a) h

/-- What byte stores leave where they do not reach. -/
theorem byteAt_byteStores_other (fc : BitVec 3) (l : List (Long × Byte)) (s : State) {a : Long}
    (h : ∀ p ∈ l, p.1 ≠ a) : byteAt ((byteStores fc l).foldl Store.apply s) fc a = byteAt s fc a := by
  induction l generalizing s with
  | nil => rfl
  | cons p rest ih =>
    change byteAt ((byteStores fc rest).foldl Store.apply (Store.apply s _)) fc a = _
    rw [apply_byteStore, ih _ fun q hq => h q (List.mem_cons_of_mem _ hq),
      byteAt_pokeByte_addr s _ (Ne.symm (h p (List.mem_cons_self ..)))]

/-- Bytes stored at addresses that differ are there. -/
theorem byteAt_byteStores (fc : BitVec 3) (l : List (Long × Byte)) (s : State)
    (hl : l.Pairwise fun p q => p.1 ≠ q.1) {p : Long × Byte} (hp : p ∈ l) :
    byteAt ((byteStores fc l).foldl Store.apply s) fc p.1 = p.2 := by
  induction l generalizing s with
  | nil => cases hp
  | cons q rest ih =>
    rw [List.pairwise_cons] at hl
    change byteAt ((byteStores fc rest).foldl Store.apply (Store.apply s _)) fc p.1 = _
    rw [apply_byteStore]
    rcases List.mem_cons.mp hp with rfl | hp
    · rw [byteAt_byteStores_other fc rest _ fun r hr => (hl.1 r hr).symm, byteAt_pokeByte_same]
    · exact ih _ hl.2 hp

/-- Byte stores keep everything but their bytes. -/
theorem Kept.byteStores (fc : BitVec 3) (l : List (Long × Byte)) (s : State) :
    Kept s ((byteStores fc l).foldl Store.apply s) [] (l.map fun p => memKey s fc p.1) := by
  induction l generalizing s with
  | nil => exact Kept.refl s
  | cons p rest ih =>
    change Kept s ((Machine.byteStores fc rest).foldl Store.apply (Store.apply s _)) [] _
    rw [apply_byteStore]
    have h := ih (pokeByte s fc p.1 p.2)
    simp only [memKey_pokeByte] at h
    have hp := Kept.poke s fc .byte p.1 p.2
    refine (hp.trans h).mono (by simp) fun k hk => ?_
    simpa [keysAt, addrsOf] using hk

/-- Byte stores that can be done are done. -/
theorem storeAll_byteStores {fc : BitVec 3} {l : List (Long × Byte)} {d : Done} (h : ∀ p ∈ l, Writable s fc p.1 1) :
    storeAll (byteStores fc l) d s = .ok d ((byteStores fc l).foldl Store.apply s) := by
  refine storeAll_ok fun w hw => ?_
  obtain ⟨p, hp, rfl⟩ := List.mem_map.mp hw
  exact h p hp

/-! ## MOVEP (40 R206) -/

/-- The bytes of a register that MOVEP stores. -/
def movepBytes (a : Long) (n : Nat) (v : Long) : List (Long × Byte) :=
  (List.range n).map fun k => (a + BitVec.ofNat 32 (2 * k), (v >>> (8 * (n - 1 - k))).setWidth 8)

/-- The stores of MOVEP put the bytes of the register at every second address and keep all else. -/
theorem movep_stores_spec (s : State) (a : Long) {n : Nat} (hn : n ≤ 4) (v : Long) :
    Kept s ((byteStores s.dataFc (movepBytes a n v)).foldl Store.apply s) [] (alternateKeys s a n)
    ∧ ((byteStores s.dataFc (movepBytes a n v)).foldl Store.apply s).ccr = s.ccr
    ∧ ∀ k < n, byteAt ((byteStores s.dataFc (movepBytes a n v)).foldl Store.apply s) s.dataFc
      (a + BitVec.ofNat 32 (2 * k)) = (v >>> (8 * (n - 1 - k))).setWidth 8 := by
  refine ⟨?_, ?_, fun k hk => ?_⟩
  · refine (Kept.byteStores s.dataFc (movepBytes a n v) s).mono (by simp) fun k hk => ?_
    simpa [movepBytes, alternateKeys] using hk
  · rw [State.ccr, (stores_registers _ s).2.2.2.2.2.1]
    rfl
  · refine byteAt_byteStores s.dataFc (movepBytes a n v) s ?_
      (p := (a + BitVec.ofNat 32 (2 * k), (v >>> (8 * (n - 1 - k))).setWidth 8))
      (List.mem_map_of_mem (List.mem_range.mpr hk))
    rw [movepBytes, List.pairwise_map]
    refine List.nodup_range.imp_of_mem fun {i j} hi hj hij => addr_ne ?_ ?_ (by omega)
    · have := List.mem_range.mp hi; omega
    · have := List.mem_range.mp hj; omega

/-- MOVEP of `n` bytes to memory, from the run of its body. -/
theorem movep_store_completes {op : MovepOp} {dx ay : Reg} {d : Word} {n : Nat} (hn : n ≤ 4) (ht : s.traceAll = false)
    (hbody : ∃ body : Exec Done, exec (.movep op dx ay d) s = complete (.movep op dx ay d) body s
      ∧ body s = storeAll (byteStores s.dataFc (movepBytes (s.areg ay + sext d) n (s.dreg dx))) .seq s)
    (hw : ∀ k < n, Writable s s.dataFc (s.areg ay + sext d + BitVec.ofNat 32 (2 * k)) 1) :
    Completes (.movep op dx ay d) s [] (alternateKeys s (s.areg ay + sext d) n) (fun t => t.ccr = s.ccr ∧ ∀ k < n,
      byteAt t s.dataFc (s.areg ay + sext d + BitVec.ofNat 32 (2 * k)) = ((s.dreg dx) >>> (8 * (n - 1 - k))).setWidth 8) := by
  obtain ⟨body, hexec, hrun⟩ := hbody
  obtain ⟨hk, hc, hb⟩ := movep_stores_spec s (s.areg ay + sext d) hn (s.dreg dx)
  rw [storeAll_byteStores fun p hp => ?_] at hrun
  · exact ⟨_, next_past hexec hrun ht, rfl, hk.past, hc, hb⟩
  · obtain ⟨k, hk, rfl⟩ := List.mem_map.mp hp
    exact hw k (List.mem_range.mp hk)

/-- A byte of a register, in the words of the model and of a shift. -/
theorem extractLsb'_eq_ushiftRight (v : Long) (i : Nat) : (v.extractLsb' i 8 : Byte) = (v >>> i).setWidth 8 := by
  apply BitVec.eq_of_getLsbD_eq
  intro j hj
  simp [hj]

/-- A loaded register and the codes kept. -/
theorem movep_load_completes {op : MovepOp} {dx ay : Reg} {d : Word} {v : Long} (ht : s.traceAll = false)
    (hbody : ∃ body : Exec Done, exec (.movep op dx ay d) s = complete (.movep op dx ay d) body s
      ∧ ∃ u, Recorded s u ∧ body s = .ok .seq (u.setDreg dx v)) :
    Completes (.movep op dx ay d) s [dNum dx] [] (fun t => t.ccr = s.ccr ∧ t.dreg dx = v) := by
  obtain ⟨body, hexec, u, hu, hrun⟩ := hbody
  refine ⟨_, next_past hexec hrun ht, rfl, ((hu.kept.trans (Kept.setDreg u dx v)).mono (by simp) (by simp)).past, ?_, ?_⟩
  · rw [past_ccr, State.ccr_setDreg]
    obtain ⟨r, -, rfl⟩ := hu
    rfl
  · rw [past_dreg, State.dreg_setDreg]

/-- Settles O29: the reads and the stores go over every second address. -/
theorem movep : Obligations.Movep := by
  unfold Obligations.Movep
  intro s dx ay d ht
  have h1 (b : Long) : b + BitVec.ofNat 32 (2 * 0) = b := BitVec.add_zero b
  refine ⟨fun hr => ?_, fun hr => ?_, fun hw => ?_, fun hw => ?_⟩
  · beta_reduce
    rw [h1]
    refine movep_load_completes ht ⟨_, rfl, ?_⟩
    have hr0 := hr 0 (by decide)
    rw [h1] at hr0
    obtain ⟨u1, hu1, he1⟩ := (Recorded.refl s).readMem (sz := .byte) hr0
    obtain ⟨u2, hu2, he2⟩ := hu1.readMem (sz := .byte) (hr 1 (by decide))
    refine ⟨u2, hu2, ?_⟩
    refine (Exec.look_bind s _ _).trans ((Exec.bind_ok s he1 _).trans ((Exec.bind_ok u1 he2 _).trans ?_))
    have hd : u2.dreg dx = s.dreg dx := by
      obtain ⟨r, -, rfl⟩ := hu2
      rfl
    rw [← hd]
    rfl
  · beta_reduce
    rw [h1]
    refine movep_load_completes ht ⟨_, rfl, ?_⟩
    have hr0 := hr 0 (by decide)
    rw [h1] at hr0
    obtain ⟨u1, hu1, he1⟩ := (Recorded.refl s).readMem (sz := .byte) hr0
    obtain ⟨u2, hu2, he2⟩ := hu1.readMem (sz := .byte) (hr 1 (by decide))
    obtain ⟨u3, hu3, he3⟩ := hu2.readMem (sz := .byte) (hr 2 (by decide))
    obtain ⟨u4, hu4, he4⟩ := hu3.readMem (sz := .byte) (hr 3 (by decide))
    exact ⟨u4, hu4, (Exec.look_bind s _ _).trans ((Exec.bind_ok s he1 _).trans ((Exec.bind_ok u1 he2 _).trans
      ((Exec.bind_ok u2 he3 _).trans ((Exec.bind_ok u3 he4 _).trans rfl))))⟩
  · refine movep_store_completes (by decide) ht ⟨_, rfl, ?_⟩ hw
    refine (Exec.look_bind s _ _).trans ((Exec.getD_bind_long s dx _).trans ((Exec.look_bind s _ _).trans ?_))
    rw [movepBytes, List.range_succ, List.range_succ]
    simp only [List.range_zero, List.nil_append, List.cons_append, List.map_cons, List.map_nil, h1,
      extractLsb'_eq_ushiftRight]
    rfl
  · refine movep_store_completes (by decide) ht ⟨_, rfl, ?_⟩ hw
    refine (Exec.look_bind s _ _).trans ((Exec.getD_bind_long s dx _).trans ((Exec.look_bind s _ _).trans ?_))
    rw [movepBytes, List.range_succ, List.range_succ, List.range_succ, List.range_succ]
    simp only [List.range_zero, List.nil_append, List.cons_append, List.map_cons, List.map_nil, h1,
      extractLsb'_eq_ushiftRight]
    rfl

/-! ## SR, control registers and MOVES (48 R381 to R400) -/

/-- A body that ends by writing SR. -/
theorem loadSr_then (v : Word) (d : Done) (s : State) : (do loadSr v; return d : Exec Done) s =
    if srT1 v && srT0 v then .error (.refuse .reservedTraceMode) s else .ok d (withSr (v &&& srImplemented) s) := by
  rw [Exec.bind_run, loadSr_run]
  cases srT1 v && srT0 v <;> rfl

/-- An instruction whose body ends by writing SR, not traced. -/
theorem next_loadSr {i : Instr} {body : Exec Done} {v : Word} (hexec : exec i s = complete i body s)
    (hbody : body s = (do loadSr v; return .sr : Exec Done) u) (ht : s.traceFlow = false) :
    exec i s = if v.getLsbD 15 && v.getLsbD 14 then .refused .reservedTraceMode
      else .next (jumped (nextPc i s) (withSr (v &&& 0xF71F) u)) := by
  rw [loadSr_then] at hbody
  split
  · next h => exact next_refused hexec (hbody.trans (if_pos h))
  · next h => exact hexec.trans (complete_sr (hbody.trans (if_neg h)) ht)

/-- Settles O31: `loadSr_run` tells what a written SR becomes and `next_loadSr` how the instruction then ends. -/
theorem statusRegister : Obligations.StatusRegister := by
  unfold Obligations.StatusRegister
  refine fun s hs ht => ⟨?_, fun v => ⟨?_, ?_, ?_⟩, fun ea s1 v h => ⟨?_, (readEa_inv h).kept⟩, fun v => ?_⟩
  · exact next_past rfl (needSupervisor_super hs _) (traceAll_of_flow ht)
  · exact next_loadSr rfl (needSupervisor_super hs _) ht
  · exact next_loadSr rfl (needSupervisor_super hs _) ht
  · exact next_loadSr rfl (needSupervisor_super hs _) ht
  · exact next_loadSr rfl ((needSupervisor_super hs _).trans (Exec.bind_ok s h _)) ht
  · have hbody : (do needSupervisor; loadSr v; return .stop : Exec Done) s = _ :=
      (needSupervisor_super hs _).trans (loadSr_then v .stop s)
    split
    · next h => exact next_refused rfl (hbody.trans (if_pos h))
    · next h =>
      refine (complete_ok (hbody.trans (if_neg h))).trans ?_
      simp only [finish, ht, Bool.false_eq_true, if_false]
      rfl

/-- A code that names a register that MOVEC can use. -/
theorem checkControl_ok {code : BitVec 12} (hs : s.super = true) (hc : controlCodes.contains code = true)
    (h6 : (code == 0x806 || code == 0x807) = false) : checkControl code s = .ok () s := by
  unfold checkControl
  rw [needSupervisor_super hs, hc, h6]
  rfl

/-- MOVEC from a control register. -/
theorem movecFrom_ok {code : BitVec 12} {v : Long} {rn : GReg} (ht : s.traceAll = false)
    (hc : checkControl code s = .ok () s) (hr : readControl code s = .ok v t) :
    exec (.movecFrom rn code) s = .next (past (.movecFrom rn code) s (t.setGreg rn v)) :=
  next_past rfl ((Exec.bind_ok s hc _).trans (Exec.bind_ok s hr _)) ht

/-- MOVEC to a control register. -/
theorem movecTo_ok {code : BitVec 12} {rn : GReg} (ht : s.traceAll = false)
    (hc : checkControl code s = .ok () s) (hw : writeControl code (s.greg rn) s = .ok () t) :
    exec (.movecTo rn code) s = .next (past (.movecTo rn code) s t) :=
  next_past rfl ((Exec.bind_ok s hc _).trans ((Exec.look_bind s _ _).trans (Exec.bind_ok s hw _))) ht

/-- The low bits of a long word. -/
theorem extractLsb'_zero_eq_setWidth (v : Long) (n : Nat) : (v.extractLsb' 0 n : BitVec n) = v.setWidth n := by
  apply BitVec.eq_of_getLsbD_eq
  intro j hj
  simp [hj]

/-- The codes of URP and SRP are refused. -/
theorem checkControl_urpSrp {code : BitVec 12} (hs : s.super = true) (h : code = 0x806 ∨ code = 0x807) :
    checkControl code s = .error (.refuse .urpSrp) s := by
  unfold checkControl
  rw [needSupervisor_super hs]
  rcases h with rfl | rfl <;> rfl

/-- Settles O32: a code that names a register passes the check, and its arm reads or writes that register. -/
theorem controlRegisters : Obligations.ControlRegisters := by
  unfold Obligations.ControlRegisters
  intro s rn an hs ht
  have ok (code : BitVec 12) (hc : controlCodes.contains code = true) (h6 : (code == 0x806 || code == 0x807) = false) :=
    checkControl_ok hs hc h6
  refine ⟨⟨?_, ?_, ?_, ?_, ?_, ?_, ?_, ?_, ?_, ?_, ?_, ?_, ?_⟩, ⟨?_, ?_, ?_, cacheControl_cacr s _, ?_, ?_, ?_, ?_, ?_, ?_,
    ?_, ?_, ?_, ?_⟩, fun code h => ⟨?_, ?_⟩, ?_, ?_⟩
  · exact movecFrom_ok ht (ok _ rfl rfl) rfl
  · exact movecFrom_ok ht (ok _ rfl rfl) rfl
  · exact movecFrom_ok ht (ok _ rfl rfl) rfl
  · exact ⟨_, _, movecFrom_ok ht (ok _ rfl rfl) rfl⟩
  · exact movecFrom_ok ht (ok _ rfl rfl) rfl
  · exact movecFrom_ok ht (ok _ rfl rfl) rfl
  · exact movecFrom_ok ht (ok _ rfl rfl) rfl
  · exact movecFrom_ok ht (ok _ rfl rfl) rfl
  · exact movecFrom_ok ht (ok _ rfl rfl) rfl
  · exact movecFrom_ok ht (ok _ rfl rfl) rfl
  · exact movecFrom_ok ht (ok _ rfl rfl) rfl
  · exact movecFrom_ok ht (ok _ rfl rfl) rfl
  · exact ⟨_, _, movecFrom_ok ht (ok _ rfl rfl) rfl⟩
  · rw [← extractLsb'_zero_eq_setWidth]; exact movecTo_ok ht (ok _ rfl rfl) rfl
  · rw [← extractLsb'_zero_eq_setWidth]; exact movecTo_ok ht (ok _ rfl rfl) rfl
  · exact movecTo_ok ht (ok _ rfl rfl) rfl
  · rw [← extractLsb'_zero_eq_setWidth]; exact movecTo_ok ht (ok _ rfl rfl) rfl
  · exact movecTo_ok ht (ok _ rfl rfl) rfl
  · exact movecTo_ok ht (ok _ rfl rfl) rfl
  · exact movecTo_ok ht (ok _ rfl rfl) rfl
  · exact movecTo_ok ht (ok _ rfl rfl) rfl
  · exact movecTo_ok ht (ok _ rfl rfl) rfl
  · exact movecTo_ok ht (ok _ rfl rfl) rfl
  · exact movecTo_ok ht (ok _ rfl rfl) rfl
  · exact movecTo_ok ht (ok _ rfl rfl) rfl
  · exact movecTo_ok ht (ok _ rfl rfl) rfl
  · exact next_refused rfl (Exec.bind_error s (checkControl_urpSrp hs h) _)
  · exact next_refused rfl (Exec.bind_error s (checkControl_urpSrp hs h) _)
  · exact next_past rfl (needSupervisor_super hs _) ht
  · exact next_past rfl (needSupervisor_super hs _) ht

/-- The mode changes the register that MOVES stores exactly where it steps it. -/
theorem movesAliased_iff (rn : GReg) (ea : Ea) : movesAliased rn ea = true ↔ rn ∈ steppedRegs ea := by
  cases ea <;> simp [movesAliased, steppedRegs, aNum]

/-- The value MOVES stores. -/
theorem movesValue_ok {bytes : Nat} {ea : Ea} {s1 : State} (h : OperandEffect bytes ea s s1) (rn : GReg) : ∃ v n,
    movesValue rn ea (s.greg rn) s1 = .ok v (withDraws n s1)
    ∧ (v = s.greg rn ∨ rn ∈ steppedRegs ea ∧ v = s1.greg rn) := by
  by_cases ha : rn ∈ steppedRegs ea
  · refine ⟨if Config.freeBit s1.draws then s1.greg rn else s.greg rn, s1.draws + 1, ?_, ?_⟩
    · rw [movesValue, Exec.look_bind, if_pos ((movesAliased_iff rn ea).mpr ha), drawBit_then]
      rfl
    · cases Config.freeBit s1.draws
      · exact .inl rfl
      · exact .inr ⟨ha, rfl⟩
  · refine ⟨s1.greg rn, s1.draws, ?_, .inl (h.kept.reg rn ha)⟩
    rw [movesValue, Exec.look_bind, if_neg fun hm => ha ((movesAliased_iff rn ea).mp hm)]
    rfl

/-- Settles O33: the address, then the store in the space of DFC or the load from that of SFC. -/
theorem moves : Obligations.Moves := by
  unfold Obligations.Moves
  intro s s1 sz rn ea a hs ht ha
  have hop := eaAddress_inv ha
  refine ⟨fun hw => ?_, fun hr => ?_⟩
  · obtain ⟨v, n, hv, hval⟩ := movesValue_ok hop rn
    have hw' := (SameAccess.withDraws s1 n).writable hw
    have hfc : (withDraws n s1).dfc = s.dfc := hop.kept.control.dfc
    have hstore : store (alternateCycle (withDraws n s1).dfc) sz a (lowPart sz v) .seq (withDraws n s1)
        = .ok .seq (poke (withDraws n s1) s.dfc sz a (lowPart sz v)) := by
      rw [hfc]
      exact store_ok (c := alternateCycle s.dfc) hw'.1 hw'.2.1 hw'.2.2
    refine ⟨lowPart sz v, n, next_past rfl ((needSupervisor_super hs _).trans ((Exec.look_bind s _ _).trans
      ((Exec.bind_ok s ha _).trans ((Exec.bind_ok s1 hv _).trans ((Exec.look_bind _ _ _).trans hstore))))) ht, ?_, ?_, ?_⟩
    · rw [past_ccr, State.ccr_poke, withDraws_ccr, hop.ccr]
    · have hp := Kept.poke (withDraws n s1) s.dfc sz a (lowPart sz v)
      rw [keysAt_congr (s := s) (t := withDraws n s1) hop.access.platform] at hp
      exact ((hop.kept.trans ((Kept.withDraws s1 n).trans hp)).mono (by simp) (by simp)).past
    · exact hval.imp (fun h => by rw [h]) fun ⟨hm, h⟩ => ⟨hm, by rw [h]⟩
  · have hfc : s1.sfc = s.sfc := hop.kept.control.sfc
    obtain ⟨u, ⟨r, hrs, rfl⟩, hread⟩ := (Recorded.refl s1).readCycle (c := alternateCycle s.sfc) hr.1 hr.2.1 hr.2.2
    have hpeek : peek s1 s.sfc sz a = peek s s.sfc sz a := peek_congr hop.mem hop.access.platform _ _ _
    have hread' : readCycle (alternateCycle s1.sfc) sz a s1 = .ok (peek s s.sfc sz a) (withRecords r s1) := by
      rw [hfc, ← hpeek]
      exact hread
    refine ⟨r, next_past rfl ((needSupervisor_super hs _).trans ((Exec.look_bind s _ _).trans
      ((Exec.bind_ok s ha _).trans ((Exec.look_bind _ _ _).trans ((Exec.bind_ok s1 hread' _).trans ?_))))) ht, ?_, ?_⟩
    · cases rn.getLsbD 3 <;> rfl
    · rw [past_ccr, State.ccr_setGreg]
      exact hop.ccr
    · exact ((hop.kept.trans ((Kept.withRecords s1 r).trans (Kept.setGreg _ rn _))).mono (by simp) (by simp)).past

end Sys2Proof.Machine
end


section
/-! PROOF. The decoder gives back what the encoder writes, line by line of the operation word (30_encoding R142 to R178):
the conditions by which rows of one line are told apart are decided by the categories of their operands. -/

namespace Sys2Proof

variable {c : Cat} {sz : Size} {e : Ea} {k : EaKind}

/-! ## The fields of an operation word -/

theorem decodeWords_opword (l : BitVec 4) (a b m x : BitVec 3) (ws : List Word) :
    decodeWords (opword l a b m x :: ws) = decodeFields l a b m x ws := by
  rw [decodeWords_cons, decodeOp_opword]

/-- An operand of a category has no mode outside it. -/
theorem kind_ne_of_eaOk (h : eaOk c sz e = true) (hk : modeOk c sz k = false) : (e.kind == k) = false := by
  unfold eaOk at h
  rw [Bool.and_eq_true] at h
  cases hek : e.kind == k with
  | false => rfl
  | true =>
    rw [eq_of_beq hek, hk] at h
    exact absurd h.1 Bool.false_ne_true

theorem mode_beq_zero (e : Ea) : (e.mode == 0) = (e.kind == .dn) := by cases e <;> rfl

theorem mode_beq_one (e : Ea) : (e.mode == 1) = (e.kind == .an) := by cases e <;> rfl

theorem mode_lt_two (e : Ea) : e.mode.toNat < 2 ↔ (e.kind == .dn || e.kind == .an) = true := by
  cases e <;> simp [Ea.mode, Ea.kind]

theorem field_beq_imm (e : Ea) : (e.mode == 7 && e.reg == 4) = (e.kind == .imm) := by cases e <;> rfl

theorem field_beq_pcDisp (e : Ea) : (e.mode == 7 && e.reg == 2) = (e.kind == .pcDisp) := by cases e <;> rfl

theorem field_beq_pcIdx (e : Ea) : (e.mode == 7 && e.reg == 3) = (e.kind == .pcIdx) := by cases e <;> rfl

/-- Rows that need another mode than the category allows are passed over. -/
theorem pass_dn {α : Type} {p q : α} (h : eaOk c sz e = true) (hk : modeOk c sz .dn = false) :
    (if e.mode == 0 then p else q) = q :=
  if_neg (by rw [mode_beq_zero, kind_ne_of_eaOk h hk]; exact Bool.false_ne_true)

theorem pass_an {α : Type} {p q : α} (h : eaOk c sz e = true) (hk : modeOk c sz .an = false) :
    (if e.mode == 1 then p else q) = q :=
  if_neg (by rw [mode_beq_one, kind_ne_of_eaOk h hk]; exact Bool.false_ne_true)

theorem pass_direct {α : Type} {p q : α} (h : eaOk c sz e = true) (hd : modeOk c sz .dn = false)
    (ha : modeOk c sz .an = false) : (if e.mode.toNat < 2 then p else q) = q :=
  if_neg (by rw [mode_lt_two, kind_ne_of_eaOk h hd, kind_ne_of_eaOk h ha]; exact Bool.false_ne_true)

theorem pass_imm {α : Type} {p q : α} (h : eaOk c sz e = true) (hk : modeOk c sz .imm = false) :
    (if e.mode == 7 && e.reg == 4 then p else q) = q :=
  if_neg (by rw [field_beq_imm, kind_ne_of_eaOk h hk]; exact Bool.false_ne_true)

/-! ## Shapes of encodings -/

/-- An operation word with an operand. -/
theorem decode_withEa {l : BitVec 4} {a b : BitVec 3} {mk : Ea → Instr} (h : eaOk c sz e = true) (ws : List Word)
    (hline : decodeFields l a b e.mode e.reg = onlyEa c sz e.mode e.reg mk := by rfl) :
    decodeWords (withEa l a b sz e ++ ws) = .ok (mk e) ws := by
  refine (decodeWords_opword l a b e.mode e.reg _).trans ?_
  rw [hline]
  exact onlyEa_run h ws

/-- An operation word with an immediate and an operand. -/
theorem decode_immEa {l : BitVec 4} {a b : BitVec 3} {v : Long} {mk : Long → Ea → Instr} (hv : immFits sz v = true)
    (h : eaOk c sz e = true) (ws : List Word)
    (hline : decodeFields l a b e.mode e.reg = immThenEa c sz e.mode e.reg mk := by rfl) :
    decodeWords (opEa l a b e :: immWords sz v ++ e.words sz ++ ws) = .ok (mk v e) ws := by
  refine (decodeWords_opword l a b e.mode e.reg _).trans ?_
  rw [hline]
  exact immThenEa_run hv h ws

/-- An operation word with a word of its own and an operand. -/
theorem decode_wordEa {α : Type} {l : BitVec 4} {a b : BitVec 3} {own : Word → Dec α} {w : Word} {v : α}
    {mk : α → Ea → Instr} {i : Instr} (h : eaOk c sz e = true) (ho : ∀ ws, own w ws = .ok v ws) (ws : List Word)
    (hline : decodeFields l a b e.mode e.reg = wordThenEa c sz e.mode e.reg own mk := by rfl)
    (hi : mk v e = i := by rfl) : decodeWords (opEa l a b e :: w :: e.words sz ++ ws) = .ok i ws := by
  refine (decodeWords_opword l a b e.mode e.reg _).trans ?_
  rw [hline, ← hi]
  exact wordThenEa_run ho h ws

/-! ## Own extension words -/

theorem mustBe_pure {b : Bool} (hb : b = true) {α : Type} (v : α) (ws : List Word) :
    (do mustBe b; return v : Dec α) ws = .ok v ws :=
  (mustBe_bind ws hb _).trans rfl

/-- Bits of a field of pieces, pieces below them dropped. -/
theorem extract_append_ge {m n s l : Nat} (a : BitVec m) (b : BitVec n) (h : n ≤ s) :
    (a ++ b).extractLsb' s l = a.extractLsb' (s - n) l := by
  obtain ⟨k, rfl⟩ := Nat.exists_eq_add_of_le h
  rw [extract_of_high, Nat.add_sub_cancel_left]

theorem getLsbD_append_ge {m n s : Nat} (a : BitVec m) (b : BitVec n) (h : n ≤ s) :
    (a ++ b).getLsbD s = a.getLsbD (s - n) := by
  obtain ⟨k, rfl⟩ := Nat.exists_eq_add_of_le h
  rw [getLsbD_high, Nat.add_sub_cancel_left]

theorem setWidth_byte_word (v : Byte) : (v.setWidth 16).setWidth 8 = v :=
  BitVec.setWidth_setWidth_of_le v (by decide)

theorem staticBit_run (n : Byte) (ws : List Word) :
    (fun w : Word => (return w.setWidth 8 : Dec Byte)) (n.setWidth 16) ws = .ok n ws :=
  congrArg (EStateM.Result.ok · ws) (setWidth_byte_word n)

theorem regAndFlag_run (rn : GReg) (f : Bool) (ws : List Word) :
    regAndFlag (regFlagWord rn f) ws = .ok (rn, f) ws := by
  have h0 : (regFlagWord rn f).extractLsb' 0 11 = 0 := extract_low _ _
  have h1 : (regFlagWord rn f).extractLsb' 12 4 = rn :=
    (extract_append_ge (rn ++ bit f) 0 (by decide)).trans (extract_high rn (bit f))
  have h2 : (regFlagWord rn f).getLsbD 11 = f :=
    (getLsbD_append_ge (rn ++ bit f) 0 (by decide)).trans ((getLsbD_low rn (bit f) 0 (by decide)).trans (bit_zero f))
  unfold regAndFlag
  rw [h0, h1, h2]
  exact mustBe_pure rfl _ ws

theorem casWord_run (du dc : Reg) (ws : List Word) :
    casWord ((0 : BitVec 7) ++ du ++ (0 : BitVec 3) ++ dc) ws = .ok (dc, du) ws := by
  let hi : BitVec 10 := (0 : BitVec 7) ++ du
  let mid : BitVec 13 := hi ++ (0 : BitVec 3)
  have h0 : (mid ++ dc : Word).extractLsb' 9 7 = 0 :=
    (extract_append_ge mid dc (by decide)).trans ((extract_append_ge hi 0 (by decide)).trans (extract_high 0 du))
  have h1 : (mid ++ dc : Word).extractLsb' 3 3 = 0 :=
    (extract_append_ge mid dc (by decide)).trans (extract_low hi 0)
  have h2 : (mid ++ dc : Word).extractLsb' 6 3 = du :=
    (extract_append_ge mid dc (by decide)).trans ((extract_append_ge hi 0 (by decide)).trans (extract_low 0 du))
  have h3 : (mid ++ dc : Word).extractLsb' 0 3 = dc := extract_low mid dc
  change casWord (mid ++ dc) ws = _
  unfold casWord
  rw [h0, h1, h2, h3]
  exact mustBe_pure rfl _ ws

theorem cas2Word_run (o : Cas2Operand) (ws : List Word) : cas2Word o.encode ws = .ok o ws := by
  let reg : BitVec 7 := o.rn ++ (0 : BitVec 3)
  let hi : BitVec 10 := reg ++ o.du
  let mid : BitVec 13 := hi ++ (0 : BitVec 3)
  have h0 : (mid ++ o.dc : Word).extractLsb' 9 3 = 0 :=
    (extract_append_ge mid o.dc (by decide)).trans ((extract_append_ge hi 0 (by decide)).trans
      ((extract_append_ge reg o.du (by decide)).trans (extract_low o.rn 0)))
  have h1 : (mid ++ o.dc : Word).extractLsb' 3 3 = 0 :=
    (extract_append_ge mid o.dc (by decide)).trans (extract_low hi 0)
  have h2 : (mid ++ o.dc : Word).extractLsb' 12 4 = o.rn :=
    (extract_append_ge mid o.dc (by decide)).trans ((extract_append_ge hi 0 (by decide)).trans
      ((extract_append_ge reg o.du (by decide)).trans (extract_high o.rn 0)))
  have h3 : (mid ++ o.dc : Word).extractLsb' 6 3 = o.du :=
    (extract_append_ge mid o.dc (by decide)).trans ((extract_append_ge hi 0 (by decide)).trans (extract_low reg o.du))
  have h4 : (mid ++ o.dc : Word).extractLsb' 0 3 = o.dc := extract_low mid o.dc
  change cas2Word (mid ++ o.dc) ws = _
  unfold cas2Word
  rw [h0, h1, h2, h3, h4]
  exact mustBe_pure rfl _ ws

theorem mulDivWord_run (r1 r2 : Reg) (wide sgn : Bool) (ws : List Word) :
    mulDivWord (mulDivExt r1 r2 wide sgn) ws = .ok (r1, r2, wide, sgn) ws := by
  let top : BitVec 4 := (0 : BitVec 1) ++ r1
  let s : BitVec 5 := top ++ bit sgn
  let w : BitVec 6 := s ++ bit wide
  let mid : BitVec 13 := w ++ (0 : BitVec 7)
  have h0 : (mid ++ r2 : Word).getLsbD 15 = false :=
    (getLsbD_append_ge mid r2 (by decide)).trans ((getLsbD_append_ge w 0 (by decide)).trans
      ((getLsbD_append_ge s (bit wide) (by decide)).trans ((getLsbD_append_ge top (bit sgn) (by decide)).trans
        ((getLsbD_append_ge (0 : BitVec 1) r1 (by decide)).trans rfl))))
  have h1 : (mid ++ r2 : Word).extractLsb' 3 7 = 0 :=
    (extract_append_ge mid r2 (by decide)).trans (extract_low w 0)
  have h2 : (mid ++ r2 : Word).extractLsb' 12 3 = r1 :=
    (extract_append_ge mid r2 (by decide)).trans ((extract_append_ge w 0 (by decide)).trans
      ((extract_append_ge s (bit wide) (by decide)).trans ((extract_append_ge top (bit sgn) (by decide)).trans
        (extract_low 0 r1))))
  have h3 : (mid ++ r2 : Word).extractLsb' 0 3 = r2 := extract_low mid r2
  have h4 : (mid ++ r2 : Word).getLsbD 10 = wide :=
    (getLsbD_append_ge mid r2 (by decide)).trans ((getLsbD_append_ge w 0 (by decide)).trans
      ((getLsbD_low s (bit wide) 0 (by decide)).trans (bit_zero wide)))
  have h5 : (mid ++ r2 : Word).getLsbD 11 = sgn :=
    (getLsbD_append_ge mid r2 (by decide)).trans ((getLsbD_append_ge w 0 (by decide)).trans
      ((getLsbD_append_ge s (bit wide) (by decide)).trans ((getLsbD_low top (bit sgn) 0 (by decide)).trans
        (bit_zero sgn))))
  change mulDivWord (mid ++ r2) ws = _
  unfold mulDivWord
  rw [h0, h1, h2, h3, h4, h5]
  exact mustBe_pure rfl _ ws

theorem bfArg_run (a : BfArg) (ws : List Word) :
    bfArg (a.bits.getLsbD 5) (a.bits.extractLsb' 0 5) ws = .ok a ws := by
  cases a with
  | imm v =>
    have h5 : (BfArg.imm v).bits.getLsbD 5 = false := (getLsbD_append_ge (0 : BitVec 1) v (by decide)).trans rfl
    have hv : (BfArg.imm v).bits.extractLsb' 0 5 = v := extract_low (0 : BitVec 1) v
    rw [h5, hv]
    rfl
  | reg r =>
    have h5 : (BfArg.reg r).bits.getLsbD 5 = true :=
      (getLsbD_append_ge ((1 : BitVec 1) ++ (0 : BitVec 2)) r (by decide)).trans (by decide)
    have hv : (BfArg.reg r).bits.extractLsb' 0 5 = (0 : BitVec 2) ++ r := by
      change ((1 : BitVec 1) ++ (0 : BitVec 2) ++ r).extractLsb' 0 5 = _
      rw [BitVec.append_assoc]
      exact extract_low (1 : BitVec 1) ((0 : BitVec 2) ++ r)
    rw [h5, hv]
    unfold bfArg
    rw [extract_high, extract_low]
    exact mustBe_pure rfl _ ws

theorem bfWord_run {hasDn : Bool} {dn : Reg} (hd : (hasDn || dn == 0) = true) (f : BitField) (ws : List Word) :
    bfWord hasDn (f.encode dn) ws = .ok (dn, f) ws := by
  let top : BitVec 4 := (0 : BitVec 1) ++ dn
  let mid : BitVec 10 := top ++ f.offset.bits
  have h0 : (mid ++ f.width.bits : Word).getLsbD 15 = false :=
    (getLsbD_append_ge mid f.width.bits (by decide)).trans ((getLsbD_append_ge top f.offset.bits (by decide)).trans
      ((getLsbD_append_ge (0 : BitVec 1) dn (by decide)).trans rfl))
  have h1 : (mid ++ f.width.bits : Word).extractLsb' 12 3 = dn :=
    (extract_append_ge mid f.width.bits (by decide)).trans ((extract_append_ge top f.offset.bits (by decide)).trans
      (extract_low 0 dn))
  have h2 : (mid ++ f.width.bits : Word).getLsbD 11 = f.offset.bits.getLsbD 5 :=
    (getLsbD_append_ge mid f.width.bits (by decide)).trans (getLsbD_low top f.offset.bits 5 (by decide))
  have h3 : (mid ++ f.width.bits : Word).extractLsb' 6 5 = f.offset.bits.extractLsb' 0 5 :=
    (extract_append_ge mid f.width.bits (by decide)).trans (extract_of_low top f.offset.bits 0 5 (by decide))
  have h4 : (mid ++ f.width.bits : Word).getLsbD 5 = f.width.bits.getLsbD 5 :=
    getLsbD_low mid f.width.bits 5 (by decide)
  have h5 : (mid ++ f.width.bits : Word).extractLsb' 0 5 = f.width.bits.extractLsb' 0 5 :=
    extract_of_low mid f.width.bits 0 5 (by decide)
  change bfWord hasDn (mid ++ f.width.bits) ws = _
  unfold bfWord
  rw [h0, h1, h2, h3, h4, h5, mustBe_bind ws (by rw [hd]; rfl), Dec.bind_ok ws (bfArg_run f.offset ws),
    Dec.bind_ok ws (bfArg_run f.width ws)]
  rfl

/-! ## Operation words without an operand field -/

/-- Two pieces that stand side by side in a value make one. -/
theorem extract_join {n : Nat} (v : BitVec n) (s l m : Nat) :
    (v.extractLsb' (s + l) m ++ v.extractLsb' s l : BitVec (m + l)) = v.extractLsb' s (m + l) := by
  apply BitVec.eq_of_getLsbD_eq
  intro i hi
  rw [BitVec.getLsbD_append]
  by_cases h : i < l
  · simp [h, hi]
  · simp [h, hi, show i - l < m by omega, show s + l + (i - l) = s + i by omega]

theorem extract_extract {n : Nat} (v : BitVec n) {s l s' l' : Nat} (h : s' + l' ≤ l) :
    (v.extractLsb' s l).extractLsb' s' l' = v.extractLsb' (s + s') l' := by
  apply BitVec.eq_of_getLsbD_eq
  intro i hi
  simp [hi, show s' + i < l by omega, Nat.add_assoc]

/-- The fields of a word that ends in twelve bits `v`. -/
theorem decodeOp_line (l : BitVec 4) (v : BitVec 12) :
    decodeOp (l ++ v) = decodeFields l (v.extractLsb' 9 3) (v.extractLsb' 6 3) (v.extractLsb' 3 3) (v.extractLsb' 0 3) := by
  unfold decodeOp
  rw [extract_high l v, extract_of_low l v 9 3 (by decide), extract_of_low l v 6 3 (by decide),
    extract_of_low l v 3 3 (by decide), extract_of_low l v 0 3 (by decide)]

/-- Twelve bits from their fields. -/
theorem fields_join (v : BitVec 12) :
    v.extractLsb' 9 3 ++ v.extractLsb' 6 3 ++ v.extractLsb' 3 3 ++ v.extractLsb' 0 3 = v := by
  rw [show (v.extractLsb' 9 3 ++ v.extractLsb' 6 3 : BitVec 6) = v.extractLsb' 6 6 from extract_join v 6 3 3,
    show (v.extractLsb' 6 6 ++ v.extractLsb' 3 3 : BitVec 9) = v.extractLsb' 3 9 from extract_join v 3 3 6,
    show (v.extractLsb' 3 9 ++ v.extractLsb' 0 3 : BitVec 12) = v.extractLsb' 0 12 from extract_join v 0 3 9]
  exact extract_whole v

theorem decode_aline (w : BitVec 12) (ws : List Word) : decodeWords (((10 : BitVec 4) ++ w) :: ws) = .ok (.aline w) ws := by
  rw [decodeWords_cons, decodeOp_line]
  exact congrArg (fun v => EStateM.Result.ok (Instr.aline v) ws) (fields_join w)

/-- Bits 7 to 0 of an operation word from its fields. -/
theorem low_join (v : BitVec 12) :
    (v.extractLsb' 6 3).extractLsb' 0 2 ++ v.extractLsb' 3 3 ++ v.extractLsb' 0 3 = v.extractLsb' 0 8 := by
  rw [extract_extract v (by decide),
    show (v.extractLsb' (6 + 0) 2 ++ v.extractLsb' 3 3 : BitVec 5) = v.extractLsb' 3 5 from extract_join v 3 3 2]
  exact extract_join v 0 3 5

/-- Bits 11 to 8 of an operation word from its fields. -/
theorem cond_join (v : BitVec 12) : v.extractLsb' 9 3 ++ (v.extractLsb' 6 3).extractLsb' 2 1 = v.extractLsb' 8 4 := by
  rw [extract_extract v (by decide)]
  exact extract_join v 8 1 3

theorem condOf_code (c : Cond) : condOf c.code = c := by cases c <;> rfl

/-- The instruction of a branch by its condition. -/
def branchOf (c : Cond) (d : BranchDisp) : Instr :=
  match c with
  | .t => .bra d
  | .f => .bsr d
  | c => .bcc c d

/-- Line 6 by the twelve low bits of the operation word. -/
theorem decodeLine6_fields (v : BitVec 12) :
    decodeLine6 (v.extractLsb' 9 3) (v.extractLsb' 6 3) (v.extractLsb' 3 3) (v.extractLsb' 0 3) = (do
      let d ← nextBranchDisp (v.extractLsb' 0 8)
      return branchOf (condOf (v.extractLsb' 8 4)) d) := by
  unfold decodeLine6
  rw [low_join, cond_join]
  cases condOf (v.extractLsb' 8 4) <;> rfl

theorem decode_branch {c : Cond} {d : BranchDisp} (h : d.wf = true) (ws : List Word) :
    decodeWords (branchWords c.code d ++ ws) = .ok (branchOf c d) ws := by
  have hop (v : Byte) (ws : List Word) : decodeWords (((6 : BitVec 4) ++ c.code ++ v) :: ws) = (do
      let d ← nextBranchDisp v
      return branchOf c d : Dec Instr) ws := by
    rw [decodeWords_cons, BitVec.append_assoc]
    refine (congrFun (decodeOp_line 6 (c.code ++ v)) ws).trans ?_
    refine (congrFun (decodeLine6_fields (c.code ++ v)) ws).trans ?_
    rw [extract_low, extract_high c.code v, condOf_code]
  cases d with
  | byte v =>
    obtain ⟨h0, hff⟩ := (Bool.and_eq_true _ _).mp h
    have hn : nextBranchDisp v ws = .ok (.byte v) ws := by
      unfold nextBranchDisp
      rw [if_neg (by simpa using h0), if_neg (by simpa using hff)]
      rfl
    exact (hop v ws).trans (Dec.bind_ok ws hn _)
  | word w => exact hop 0 (w :: ws)
  | long w =>
    have hn : nextBranchDisp 0xFF (longWords w ++ ws) = .ok (.long w) ws :=
      (Dec.bind_ok _ (nextLong_run w ws) _)
    exact (hop 0xFF (longWords w ++ ws)).trans (Dec.bind_ok _ hn _)

theorem decode_moveq (dn : Reg) (v : Byte) (ws : List Word) :
    decodeWords (((7 : BitVec 4) ++ dn ++ (0 : BitVec 1) ++ v) :: ws) = .ok (.moveq dn v) ws := by
  let u : BitVec 12 := dn ++ ((0 : BitVec 1) ++ v)
  have hu : ((7 : BitVec 4) ++ dn ++ (0 : BitVec 1) ++ v : Word) = (7 : BitVec 4) ++ u := by
    rw [BitVec.append_assoc, BitVec.append_assoc]
    rfl
  have hd : u.extractLsb' 9 3 = dn := extract_high dn ((0 : BitVec 1) ++ v)
  have h8 : (u.extractLsb' 6 3).getLsbD 2 = false := by
    rw [BitVec.getLsbD_extractLsb']
    exact (getLsbD_low dn ((0 : BitVec 1) ++ v) 8 (by decide)).trans
      ((getLsbD_append_ge (0 : BitVec 1) v (by decide)).trans rfl)
  have hv : u.extractLsb' 0 8 = v :=
    (extract_of_low dn ((0 : BitVec 1) ++ v) 0 8 (by decide)).trans (extract_low 0 v)
  rw [decodeWords_cons, hu, decodeOp_line, hd]
  change decodeLine7 _ _ _ _ ws = _
  unfold decodeLine7
  rw [h8, low_join, hv]
  rfl

/-- The fields of TRAP. -/
theorem trap_fields : ∀ n : BitVec 4, let u : BitVec 12 := (0xE4 : BitVec 8) ++ n
    u.extractLsb' 9 3 = 7 ∧ u.extractLsb' 6 3 = 1
      ∧ (u.extractLsb' 3 3 = 0 ∧ (0 : BitVec 1) ++ u.extractLsb' 0 3 = n
        ∨ u.extractLsb' 3 3 = 1 ∧ (1 : BitVec 1) ++ u.extractLsb' 0 3 = n) := by decide

theorem decode_trap (n : BitVec 4) (ws : List Word) : decodeWords (((0x4E4 : BitVec 12) ++ n) :: ws) = .ok (.trap n) ws := by
  have hu : ((0x4E4 : BitVec 12) ++ n : Word) = (4 : BitVec 4) ++ ((0xE4 : BitVec 8) ++ n) :=
    BitVec.append_assoc (x₁ := (4 : BitVec 4)) (x₂ := (0xE4 : BitVec 8)) (x₃ := n)
  obtain ⟨ha, hb, hm⟩ := trap_fields n
  rw [decodeWords_cons, hu, decodeOp_line, ha, hb]
  rcases hm with ⟨hm, hn⟩ | ⟨hm, hn⟩
  · rw [hm]
    exact congrArg (fun v => EStateM.Result.ok (Instr.trap v) ws) hn
  · rw [hm]
    exact congrArg (fun v => EStateM.Result.ok (Instr.trap v) ws) hn

theorem decode_fpLine (w : BitVec 9) (ws : List Word) :
    decodeWords (((0x79 : BitVec 7) ++ w) :: ws) = .ok (.fpLine w) ws := by
  let u : BitVec 12 := (1 : BitVec 3) ++ w
  have hu : ((0x79 : BitVec 7) ++ w : Word) = (15 : BitVec 4) ++ u :=
    BitVec.append_assoc (x₁ := (15 : BitVec 4)) (x₂ := (1 : BitVec 3)) (x₃ := w)
  have ha : u.extractLsb' 9 3 = 1 := extract_high 1 w
  have hw : u.extractLsb' 6 3 ++ u.extractLsb' 3 3 ++ u.extractLsb' 0 3 = w := by
    rw [show (u.extractLsb' 6 3 ++ u.extractLsb' 3 3 : BitVec 6) = u.extractLsb' 3 6 from extract_join u 3 3 3,
      show (u.extractLsb' 3 6 ++ u.extractLsb' 0 3 : BitVec 9) = u.extractLsb' 0 9 from extract_join u 0 3 6]
    exact extract_low (1 : BitVec 3) w
  rw [decodeWords_cons, hu, decodeOp_line, ha]
  exact congrArg (fun v => EStateM.Result.ok (Instr.fpLine v) ws) hw

/-- The rows of line F that own a word, by its fields. -/
theorem flineOwned_eq (w : BitVec 12) :
    flineOwned w = (w.extractLsb' 9 3 == 1
      || (w.extractLsb' 9 3 == 2 && decide ((w.extractLsb' 6 3).toNat < 4) && (w.extractLsb' 3 3).extractLsb' 0 2 != 0)
      || (w.extractLsb' 9 3 == 2 && w.extractLsb' 6 3 == 4 && decide ((w.extractLsb' 3 3).toNat < 4))
      || (w.extractLsb' 9 3 == 2 && w.extractLsb' 6 3 == 5 && (w.extractLsb' 3 3 == 1 || w.extractLsb' 3 3 == 5))
      || (w.extractLsb' 9 3 == 3 && w.extractLsb' 6 3 == 0 && decide ((w.extractLsb' 3 3).toNat < 4))
      || (w.extractLsb' 9 3 == 3 && w.extractLsb' 6 3 == 0 && w.extractLsb' 3 3 == 4)) := by
  have h4 : ∀ b : BitVec 3, (b.extractLsb' 2 1 == 0) = decide (b.toNat < 4) := by decide
  unfold flineOwned
  simp only [h4]

/-- A word of line F that no row owns. -/
theorem decodeLineF_other {a b m : BitVec 3} (x : BitVec 3) (h : (a == 1
      || (a == 2 && decide (b.toNat < 4) && m.extractLsb' 0 2 != 0)
      || (a == 2 && b == 4 && decide (m.toNat < 4))
      || (a == 2 && b == 5 && (m == 1 || m == 5))
      || (a == 3 && b == 0 && decide (m.toNat < 4))
      || (a == 3 && b == 0 && m == 4)) = false) :
    decodeLineF a b m x = (return .fline (a ++ b ++ m ++ x) : Dec Instr) := by
  simp only [Bool.or_eq_false_iff] at h
  obtain ⟨⟨⟨⟨⟨h1, h2⟩, h3⟩, h4⟩, h5⟩, h6⟩ := h
  unfold decodeLineF
  split
  next ha =>
    rw [show a = 1 from BitVec.eq_of_toNat_eq ha] at h1
    exact absurd h1 (by decide)
  next ha =>
    obtain rfl : a = 2 := BitVec.eq_of_toNat_eq ha
    simp only [beq_self_eq_true, Bool.true_and] at h2 h3 h4
    split
    next hb =>
      have hm : m.extractLsb' 0 2 = 0 := by simpa [hb] using h2
      rw [hm]
      rfl
    next hb =>
      rw [h3, if_neg Bool.false_ne_true]
      rw [Bool.and_or_distrib_left, Bool.or_eq_false_iff] at h4
      rw [h4.1, h4.2, if_neg Bool.false_ne_true, if_neg Bool.false_ne_true]
  next ha =>
    obtain rfl : a = 3 := BitVec.eq_of_toNat_eq ha
    simp only [beq_self_eq_true, Bool.true_and] at h5 h6
    rw [h5, h6, if_neg Bool.false_ne_true, if_neg Bool.false_ne_true]
  next => rfl

theorem decode_fline {w : BitVec 12} (h : flineOwned w = false) (ws : List Word) :
    decodeWords (((15 : BitVec 4) ++ w) :: ws) = .ok (.fline w) ws := by
  rw [decodeWords_cons, decodeOp_line]
  change decodeLineF _ _ _ _ ws = _
  rw [decodeLineF_other _ ((flineOwned_eq w).symm.trans h), fields_join]
  rfl

/-! ## The instructions -/

theorem decodeCas2_run (sz : SizeWL) (o1 o2 : Cas2Operand) (ws : List Word) :
    decodeCas2 sz (o1.encode :: o2.encode :: ws) = .ok (.cas2 sz o1 o2) ws := by
  unfold decodeCas2
  rw [nextWord_bind, Dec.bind_ok _ (cas2Word_run o1 _), nextWord_bind, Dec.bind_ok _ (cas2Word_run o2 _)]
  rfl

theorem decodeMovec_run (mk : GReg → BitVec 12 → Instr) (rn : GReg) (code : BitVec 12) (ws : List Word) :
    decodeMovec mk ((rn ++ code) :: ws) = .ok (mk rn code) ws := by
  have hc : (rn ++ code : Word).setWidth 12 = code := BitVec.setWidth_append_eq_right
  unfold decodeMovec
  rw [nextWord_bind, extract_high rn code, hc]
  rfl

theorem decode_move {src dst : Ea} (h : (Instr.move sz src dst).wf = true) (ws : List Word) :
    decodeWords (encode (.move sz src dst) ++ ws) = .ok (.move sz src dst) ws := by
  obtain ⟨hs, hd⟩ := (Bool.and_eq_true _ _).mp h
  have hws := ((Bool.and_eq_true _ _).mp hs).2
  have hwd := ((Bool.and_eq_true _ _).mp hd).2
  have hm : decodeMove sz dst.reg dst.mode src.mode src.reg (src.words sz ++ (dst.words sz ++ ws))
      = .ok (.move sz src dst) ws := by
    unfold decodeMove
    rw [pass_an hd (by cases sz <;> rfl), Dec.bind_ok _ (eaMode_run hs _), Dec.bind_ok _ (eaMode_run hd _),
      Dec.bind_ok _ (eaTail_run hws _), Dec.bind_ok _ (eaTail_run hwd _)]
    rfl
  rw [← List.append_assoc] at hm
  cases sz <;> exact (decodeWords_opword _ _ _ _ _ _).trans hm

theorem decodeLine5_scc {c : Cond} (h : eaOk .dalt .byte e = true) :
    decodeFields 5 c.hi3 c.lo3 e.mode e.reg = onlyEa .dalt .byte e.mode e.reg (.scc c) := by
  have hpd : (e.mode == 7 && e.reg == 2) = false := (field_beq_pcDisp e).trans (kind_ne_of_eaOk h rfl)
  have hpi : (e.mode == 7 && e.reg == 3) = false := (field_beq_pcIdx e).trans (kind_ne_of_eaOk h rfl)
  have hrow : (c.lo3 == 3 || c.lo3 == 7) = true := by cases c <;> rfl
  have hc : condOf (c.hi3 ++ (c.lo3.extractLsb' 2 1 : BitVec 1)) = c := by cases c <;> rfl
  change decodeLine5 c.hi3 c.lo3 e.mode e.reg = _
  unfold decodeLine5
  rw [hrow, hc]
  simp only [if_true]
  rw [pass_an h rfl, hpd, hpi, if_neg Bool.false_ne_true, if_neg Bool.false_ne_true, pass_imm h rfl]

theorem decode_bcc {c : Cond} {d : BranchDisp} (h : (Instr.bcc c d).wf = true) (ws : List Word) :
    decodeWords (branchWords c.code d ++ ws) = .ok (.bcc c d) ws := by
  obtain ⟨hc, hd⟩ := (Bool.and_eq_true _ _).mp h
  rw [decode_branch hd ws]
  cases c
  case t => cases hc
  case f => cases hc
  all_goals rfl

theorem sizeOf2_code (hi : BitVec 1) (sz : Size) : sizeOf2 (hi ++ sz.code) = some sz := by
  unfold sizeOf2
  rw [extract_low hi sz.code]
  cases sz <;> rfl

/-- A register shift: direction and type choose the instruction. -/
theorem decode_shift (left : BitVec 1) (tt : BitVec 2) (sz : Size) (n : ShiftCount) (y : Reg) (ws : List Word) :
    decodeWords (shiftWords left tt sz n y ++ ws) = .ok (shiftReg (left.getLsbD 0) tt sz n y) ws := by
  have hleft : (left ++ sz.code : BitVec 3).getLsbD 2 = left.getLsbD 0 := getLsbD_high left sz.code 0
  have hline (a : BitVec 3) (r : BitVec 1) : decodeLineE a (left ++ sz.code) (r ++ tt) y
      = (return shiftReg (left.getLsbD 0) tt sz (if r.getLsbD 0 then .reg a else .imm a) y : Dec Instr) := by
    have hr : (r ++ tt : BitVec 3).getLsbD 2 = r.getLsbD 0 := getLsbD_high r tt 0
    unfold decodeLineE
    rw [sizeOf2_code]
    simp only [hleft, hr, extract_low]
  cases n with
  | imm c => exact (decodeWords_opword _ _ _ _ _ _).trans (congrFun (hline c 0) ws)
  | reg r => exact (decodeWords_opword _ _ _ _ _ _).trans (congrFun (hline r 1) ws)

theorem decode_pflush (op : BitVec 2) (an : Reg) (ws : List Word) :
    decodeLineF 2 4 ((0 : BitVec 1) ++ op) an ws = .ok (.pflush op an) ws := by
  have hm : decide (((0 : BitVec 1) ++ op).toNat < 4) = true := by
    revert op
    decide
  change (if (4 : BitVec 3) == 4 && decide (((0 : BitVec 1) ++ op).toNat < 4)
    then (return .pflush (((0 : BitVec 1) ++ op).extractLsb' 0 2) an : Dec Instr) else _) ws = _
  rw [hm, extract_low]
  rfl

theorem decodeMove16Pi_run (ax ay : Reg) (ws : List Word) :
    decodeMove16Pi ax (((1 : BitVec 1) ++ ay ++ (0 : BitVec 12)) :: ws) = .ok (.move16Pi ax ay) ws := by
  have h15 : ((1 : BitVec 1) ++ ay ++ (0 : BitVec 12) : Word).getLsbD 15 = true :=
    (getLsbD_append_ge ((1 : BitVec 1) ++ ay) 0 (by decide)).trans ((getLsbD_append_ge (1 : BitVec 1) ay (by decide)).trans rfl)
  have h0 : ((1 : BitVec 1) ++ ay ++ (0 : BitVec 12) : Word).extractLsb' 0 12 = 0 := extract_low _ _
  have hy : ((1 : BitVec 1) ++ ay ++ (0 : BitVec 12) : Word).extractLsb' 12 3 = ay :=
    (extract_append_ge ((1 : BitVec 1) ++ ay) 0 (by decide)).trans (extract_low 1 ay)
  unfold decodeMove16Pi
  rw [nextWord_bind, h15, h0, hy]
  exact mustBe_pure rfl _ ws

/-- Settles O58: each encoding leads the decoder to the row of its instruction. -/
theorem decodeEncode : Obligations.DecodeEncode := by
  unfold Obligations.DecodeEncode
  intro i rest h
  cases i with
  | ori sz v e =>
    obtain ⟨hv, he⟩ := (Bool.and_eq_true _ _).mp h
    cases sz with
    | byte => exact decode_immEa hv he rest (by exact pass_imm he rfl)
    | word => exact decode_immEa hv he rest (by exact pass_imm he rfl)
    | long => exact decode_immEa hv he rest
  | andi sz v e =>
    obtain ⟨hv, he⟩ := (Bool.and_eq_true _ _).mp h
    cases sz with
    | byte => exact decode_immEa hv he rest (by exact pass_imm he rfl)
    | word => exact decode_immEa hv he rest (by exact pass_imm he rfl)
    | long => exact decode_immEa hv he rest
  | subi sz v e =>
    obtain ⟨hv, he⟩ := (Bool.and_eq_true _ _).mp h
    cases sz <;> exact decode_immEa hv he rest
  | addi sz v e =>
    obtain ⟨hv, he⟩ := (Bool.and_eq_true _ _).mp h
    cases sz <;> exact decode_immEa hv he rest
  | eori sz v e =>
    obtain ⟨hv, he⟩ := (Bool.and_eq_true _ _).mp h
    cases sz with
    | byte => exact decode_immEa hv he rest (by exact pass_imm he rfl)
    | word => exact decode_immEa hv he rest (by exact pass_imm he rfl)
    | long => exact decode_immEa hv he rest
  | cmpi sz v e =>
    obtain ⟨hv, he⟩ := (Bool.and_eq_true _ _).mp h
    cases sz <;> exact decode_immEa hv he rest
  | oriCcr v => exact (decodeWords_cons _ _).trans (congrArg (EStateM.Result.ok · rest) (congrArg _ (setWidth_byte_word v)))
  | andiCcr v => exact (decodeWords_cons _ _).trans (congrArg (EStateM.Result.ok · rest) (congrArg _ (setWidth_byte_word v)))
  | eoriCcr v => exact (decodeWords_cons _ _).trans (congrArg (EStateM.Result.ok · rest) (congrArg _ (setWidth_byte_word v)))
  | oriSr v => exact decodeWords_cons _ _
  | andiSr v => exact decodeWords_cons _ _
  | eoriSr v => exact decodeWords_cons _ _
  | btstImm n e => exact decode_wordEa h (staticBit_run n) rest
  | btstReg d e => exact decode_withEa h rest (by exact pass_an h rfl)
  | bchgImm n e => exact decode_wordEa h (staticBit_run n) rest
  | bchgReg d e => exact decode_withEa h rest (by exact pass_an h rfl)
  | bclrImm n e => exact decode_wordEa h (staticBit_run n) rest
  | bclrReg d e => exact decode_withEa h rest (by exact pass_an h rfl)
  | bsetImm n e => exact decode_wordEa h (staticBit_run n) rest
  | bsetReg d e => exact decode_withEa h rest (by exact pass_an h rfl)
  | movep op dx ay d => cases op <;> exact decodeWords_opword _ _ _ _ _ _
  | cmp2 sz rn e => cases sz <;> exact decode_wordEa h (regAndFlag_run rn false) rest
  | chk2 sz rn e => cases sz <;> exact decode_wordEa h (regAndFlag_run rn true) rest
  | cas sz dc du e =>
    cases sz with
    | byte => exact decode_wordEa h (casWord_run du dc) rest
    | word => exact decode_wordEa h (casWord_run du dc) rest (by exact pass_imm h rfl)
    | long => exact decode_wordEa h (casWord_run du dc) rest (by exact pass_imm h rfl)
  | cas2 sz o1 o2 => cases sz <;> exact (decodeWords_opword _ _ _ _ _ _).trans (decodeCas2_run _ o1 o2 rest)
  | moves sz t rn e => cases sz <;> exact decode_wordEa h (regAndFlag_run rn t) rest
  | move sz src dst => exact decode_move h rest
  | movea sz an e => cases sz <;> exact decode_withEa h rest
  | negx sz e => cases sz <;> exact decode_withEa h rest
  | clr sz e => cases sz <;> exact decode_withEa h rest
  | neg sz e => cases sz <;> exact decode_withEa h rest
  | not sz e => cases sz <;> exact decode_withEa h rest
  | tst sz e => cases sz <;> exact decode_withEa h rest
  | moveFromSr e => exact decode_withEa h rest
  | moveFromCcr e => exact decode_withEa h rest
  | moveToCcr e => exact decode_withEa h rest
  | moveToSr e => exact decode_withEa h rest
  | jsr e => exact decode_withEa h rest
  | jmp e => exact decode_withEa h rest
  | nbcd e => exact decode_withEa h rest (by exact pass_an h rfl)
  | tas e => exact decode_withEa h rest (by exact pass_imm h rfl)
  | linkL an d => exact (decodeWords_opword _ _ _ _ _ _).trans (Dec.bind_ok _ (nextLong_run d rest) _)
  | swap x => exact decodeWords_opword _ _ _ _ _ _
  | bkpt x => exact decodeWords_opword _ _ _ _ _ _
  | extW x => exact decodeWords_opword _ _ _ _ _ _
  | extL x => exact decodeWords_opword _ _ _ _ _ _
  | extbL x => exact decodeWords_opword _ _ _ _ _ _
  | unlk x => exact decodeWords_opword _ _ _ _ _ _
  | moveToUsp x => exact decodeWords_opword _ _ _ _ _ _
  | moveFromUsp x => exact decodeWords_opword _ _ _ _ _ _
  | pea e => exact decode_withEa h rest (by exact (pass_dn h rfl).trans (pass_an h rfl))
  | movemToMem sz mask e => cases sz <;> exact decode_wordEa h (fun _ => rfl) rest (by exact pass_dn h rfl)
  | movemToReg sz mask e => cases sz <;> exact decode_wordEa h (fun _ => rfl) rest
  | muluL r1 r2 wide e => exact decode_wordEa h (mulDivWord_run r1 r2 wide false) rest
  | mulsL r1 r2 wide e => exact decode_wordEa h (mulDivWord_run r1 r2 wide true) rest
  | divuL r1 r2 wide e => exact decode_wordEa h (mulDivWord_run r1 r2 wide false) rest
  | divsL r1 r2 wide e => exact decode_wordEa h (mulDivWord_run r1 r2 wide true) rest
  | illegal => exact decodeWords_cons _ _
  | reset => exact decodeWords_cons _ _
  | nop => exact decodeWords_cons _ _
  | rte => exact decodeWords_cons _ _
  | rts => exact decodeWords_cons _ _
  | trapv => exact decodeWords_cons _ _
  | rtr => exact decodeWords_cons _ _
  | trap n => exact decode_trap n rest
  | linkW an d => exact decodeWords_opword _ _ _ _ _ _
  | stop v => exact decodeWords_cons _ _
  | rtd v => exact decodeWords_cons _ _
  | movecFrom rn code => exact (decodeWords_cons _ _).trans (decodeMovec_run _ rn code rest)
  | movecTo rn code => exact (decodeWords_cons _ _).trans (decodeMovec_run _ rn code rest)
  | chkW d e => exact decode_withEa h rest
  | chkL d e => exact decode_withEa h rest
  | lea an e => exact decode_withEa h rest (by exact if_neg (by rw [mode_beq_zero, kind_ne_of_eaOk h rfl, Bool.and_false]; exact Bool.false_ne_true))
  | addq sz q e => cases sz <;> exact decode_withEa h rest
  | subq sz q e => cases sz <;> exact decode_withEa h rest
  | scc c e => exact decode_withEa h rest (decodeLine5_scc h)
  | dbcc c dn d => cases c <;> exact decodeWords_opword _ _ _ _ _ _
  | trapcc c op =>
    cases op with
    | none => cases c <;> exact decodeWords_opword _ _ _ _ _ _
    | word v => cases c <;> exact decodeWords_opword _ _ _ _ _ _
    | long v => cases c <;> exact (decodeWords_opword _ _ _ _ _ _).trans (Dec.bind_ok _ (nextLong_run v rest) _)
  | bra d => exact decode_branch (c := .t) h rest
  | bsr d => exact decode_branch (c := .f) h rest
  | bcc c d => exact decode_bcc h rest
  | moveq dn v => exact decode_moveq dn v rest
  | orEaDnB d e => exact decode_withEa h rest
  | orEaDnW d e => exact decode_withEa h rest
  | orEaDnL d e => exact decode_withEa h rest
  | orDnEaB d e => exact decode_withEa h rest (by exact pass_direct h rfl rfl)
  | orDnEaW d e => exact decode_withEa h rest (by exact pass_direct h rfl rfl)
  | orDnEaL d e => exact decode_withEa h rest (by exact pass_direct h rfl rfl)
  | subEaDnB d e => exact decode_withEa h rest
  | subEaDnW d e => exact decode_withEa h rest
  | subEaDnL d e => exact decode_withEa h rest
  | subDnEaB d e => exact decode_withEa h rest (by exact pass_direct h rfl rfl)
  | subDnEaW d e => exact decode_withEa h rest (by exact pass_direct h rfl rfl)
  | subDnEaL d e => exact decode_withEa h rest (by exact pass_direct h rfl rfl)
  | addEaDnB d e => exact decode_withEa h rest
  | addEaDnW d e => exact decode_withEa h rest
  | addEaDnL d e => exact decode_withEa h rest
  | addDnEaB d e => exact decode_withEa h rest (by exact pass_direct h rfl rfl)
  | addDnEaW d e => exact decode_withEa h rest (by exact pass_direct h rfl rfl)
  | addDnEaL d e => exact decode_withEa h rest (by exact pass_direct h rfl rfl)
  | andEaDnB d e => exact decode_withEa h rest
  | andEaDnW d e => exact decode_withEa h rest
  | andEaDnL d e => exact decode_withEa h rest
  | andDnEaB d e => exact decode_withEa h rest (by exact pass_direct h rfl rfl)
  | andDnEaW d e => exact decode_withEa h rest (by exact (pass_dn h rfl).trans (pass_an h rfl))
  | andDnEaL d e => exact decode_withEa h rest (by exact pass_an h rfl)
  | cmpB d e => exact decode_withEa h rest
  | cmpW d e => exact decode_withEa h rest
  | cmpL d e => exact decode_withEa h rest
  | divuW d e => exact decode_withEa h rest
  | divsW d e => exact decode_withEa h rest
  | muluW d e => exact decode_withEa h rest
  | mulsW d e => exact decode_withEa h rest
  | eorB d e => exact decode_withEa h rest (by exact pass_an h rfl)
  | eorW d e => exact decode_withEa h rest (by exact pass_an h rfl)
  | eorL d e => exact decode_withEa h rest (by exact pass_an h rfl)
  | sbcd mem x y => cases mem <;> exact decodeWords_opword _ _ _ _ _ _
  | abcd mem x y => cases mem <;> exact decodeWords_opword _ _ _ _ _ _
  | pack mem x y adj => cases mem <;> exact decodeWords_opword _ _ _ _ _ _
  | unpk mem x y adj => cases mem <;> exact decodeWords_opword _ _ _ _ _ _
  | suba sz an e => cases sz <;> exact decode_withEa h rest
  | cmpa sz an e => cases sz <;> exact decode_withEa h rest
  | adda sz an e => cases sz <;> exact decode_withEa h rest
  | subx sz mem x y => cases sz <;> cases mem <;> exact decodeWords_opword _ _ _ _ _ _
  | addx sz mem x y => cases sz <;> cases mem <;> exact decodeWords_opword _ _ _ _ _ _
  | aline w => exact decode_aline w rest
  | cmpm sz x y => cases sz <;> exact decodeWords_opword _ _ _ _ _ _
  | exgDD x y => exact decodeWords_opword _ _ _ _ _ _
  | exgAA x y => exact decodeWords_opword _ _ _ _ _ _
  | exgDA x y => exact decodeWords_opword _ _ _ _ _ _
  | aslReg sz n y => exact decode_shift 1 0 sz n y rest
  | aslMem e => exact decode_withEa h rest
  | asrReg sz n y => exact decode_shift 0 0 sz n y rest
  | asrMem e => exact decode_withEa h rest
  | lslReg sz n y => exact decode_shift 1 1 sz n y rest
  | lslMem e => exact decode_withEa h rest
  | lsrReg sz n y => exact decode_shift 0 1 sz n y rest
  | lsrMem e => exact decode_withEa h rest
  | roxlReg sz n y => exact decode_shift 1 2 sz n y rest
  | roxlMem e => exact decode_withEa h rest
  | roxrReg sz n y => exact decode_shift 0 2 sz n y rest
  | roxrMem e => exact decode_withEa h rest
  | rolReg sz n y => exact decode_shift 1 3 sz n y rest
  | rolMem e => exact decode_withEa h rest
  | rorReg sz n y => exact decode_shift 0 3 sz n y rest
  | rorMem e => exact decode_withEa h rest
  | bftst f e => exact decode_wordEa h (bfWord_run rfl f) rest
  | bfchg f e => exact decode_wordEa h (bfWord_run rfl f) rest
  | bfclr f e => exact decode_wordEa h (bfWord_run rfl f) rest
  | bfset f e => exact decode_wordEa h (bfWord_run rfl f) rest
  | bfextu d f e => exact decode_wordEa h (bfWord_run rfl f) rest
  | bfexts d f e => exact decode_wordEa h (bfWord_run rfl f) rest
  | bfffo d f e => exact decode_wordEa h (bfWord_run rfl f) rest
  | bfins d f e => exact decode_wordEa h (bfWord_run rfl f) rest
  | cinv sel sc an => cases sel <;> cases sc <;> exact decodeWords_opword _ _ _ _ _ _
  | cpush sel sc an => cases sel <;> cases sc <;> exact decodeWords_opword _ _ _ _ _ _
  | pflush op an => exact (decodeWords_opword _ _ _ _ _ _).trans (decode_pflush op an rest)
  | ptest rd an => cases rd <;> exact decodeWords_opword _ _ _ _ _ _
  | move16Abs op an a => cases op <;> exact (decodeWords_opword _ _ _ _ _ _).trans (Dec.bind_ok _ (nextLong_run a rest) _)
  | move16Pi ax ay => exact (decodeWords_opword _ _ _ _ _ _).trans (decodeMove16Pi_run ax ay rest)
  | fpLine w => exact decode_fpLine w rest
  | fline w => exact decode_fline (by simpa [Instr.wf] using h) rest

end Sys2Proof
end


section
/-! PROOF. What the decoder reads is well formed: each parser yields only values that meet what the row asks of them. -/

namespace Sys2Proof

/-- Every value a parser gives meets `p`. -/
def Yields {α : Type} (m : Dec α) (p : α → Prop) : Prop := ∀ ws a rest, m ws = .ok a rest → p a

namespace Yields

variable {α β : Type} {m : Dec α} {p q : α → Prop}

theorem pure {a : α} (h : p a) : Yields (Pure.pure a) p := by
  intro ws b rest he
  cases he
  exact h

theorem notARow : Yields notARow p := fun _ _ _ he => by cases he

theorem throw {e : DecErr} : Yields (throw e) p := fun _ _ _ he => by cases he

theorem any (m : Dec α) : Yields m fun _ => True := fun _ _ _ _ => trivial

theorem bind {f : α → Dec β} {r : β → Prop} (hm : Yields m p) (hf : ∀ a, p a → Yields (f a) r) : Yields (m >>= f) r := by
  intro ws b rest he
  rw [Dec.bind_run] at he
  split at he
  next a t ha => exact hf a (hm ws a t ha) t b rest he
  next => cases he

/-- A parser of which nothing is asked comes first. -/
theorem after (m : Dec α) {f : α → Dec β} {r : β → Prop} (hf : ∀ a, Yields (f a) r) : Yields (m >>= f) r :=
  (any m).bind fun a _ => hf a

theorem ite {c : Prop} [Decidable c] {m n : Dec α} (hm : c → Yields m p) (hn : ¬ c → Yields n p) :
    Yields (if c then m else n) p := by
  split
  next h => exact hm h
  next h => exact hn h

theorem mono (h : Yields m p) (hpq : ∀ a, p a → q a) : Yields m q := fun ws a rest he => hpq a (h ws a rest he)

end Yields

/-! ## Operands -/

theorem yields_nextImm (sz : Size) : Yields (nextImm sz) fun v => immFits sz v = true := by
  cases sz with
  | byte =>
    refine .after _ fun w => .pure (decide_eq_true ?_)
    have := (w.setWidth 8).isLt
    rw [BitVec.toNat_setWidth]
    exact Nat.lt_of_le_of_lt (Nat.mod_le _ _) this
  | word =>
    refine .after _ fun w => .pure (decide_eq_true ?_)
    rw [BitVec.toNat_setWidth]
    exact Nat.lt_of_le_of_lt (Nat.mod_le _ _) w.isLt
  | long => exact fun ws v rest _ => decide_eq_true v.isLt

theorem yields_mustBe (b : Bool) : Yields (mustBe b) fun _ => b = true := by
  cases b with
  | true => exact .pure rfl
  | false => exact .throw

/-- A postindexed form comes only with the index in use. -/
theorem yields_nextFull (w : Word) : Yields (nextFull w) fun x => x.wf = true := by
  unfold nextFull
  refine (yields_mustBe _).bind fun _ hok => .after _ fun bd => ?_
  obtain ⟨-, hiis⟩ := (Bool.and_eq_true _ _).mp hok
  refine .ite (fun _ => .pure rfl) fun _ => .after _ fun od => .pure ?_
  cases hp : ((w.extractLsb' 0 3 : BitVec 3).getLsbD 2) with
  | false => rfl
  | true =>
    have hpost : ∀ (is : Bool) (iis : BitVec 3), iisOk is iis = true → iis.getLsbD 2 = true → (!is) = true := by decide
    exact hpost _ _ hiis hp

theorem yields_nextIndex : Yields nextIndex fun x => x.wf = true :=
  .after _ fun w => .ite (fun _ => yields_nextFull w) fun _ => .pure rfl

theorem yields_eaMode (c : Cat) (sz : Size) (m x : BitVec 3) : Yields (eaMode c sz m x) fun k => modeOk c sz k = true := by
  unfold eaMode
  split
  · exact .notARow
  · exact .ite (fun h => .pure h) fun _ => .notARow

theorem yields_eaTail (k : EaKind) (sz : Size) (x : Reg) : Yields (eaTail k sz x) fun e => e.kind = k ∧ e.wf sz = true := by
  cases k
  case disp => exact .after _ fun _ => .pure ⟨rfl, rfl⟩
  case idx => exact yields_nextIndex.bind fun _ h => .pure ⟨rfl, h⟩
  case absW => exact .after _ fun _ => .pure ⟨rfl, rfl⟩
  case absL => exact .after _ fun _ => .pure ⟨rfl, rfl⟩
  case pcDisp => exact .after _ fun _ => .pure ⟨rfl, rfl⟩
  case pcIdx => exact yields_nextIndex.bind fun _ h => .pure ⟨rfl, h⟩
  case imm => exact (yields_nextImm sz).bind fun _ h => .pure ⟨rfl, h⟩
  all_goals exact .pure ⟨rfl, rfl⟩

theorem eaOk_of_mode {c : Cat} {sz : Size} {k : EaKind} {e : Ea} (hk : modeOk c sz k = true)
    (he : e.kind = k ∧ e.wf sz = true) : eaOk c sz e = true := by
  obtain ⟨rfl, hw⟩ := he
  unfold eaOk
  rw [hk, hw]
  rfl

section
variable {c : Cat} {sz : Size} {m x : BitVec 3} {p : Instr → Prop}

theorem yields_onlyEa {mk : Ea → Instr} (h : ∀ e, eaOk c sz e = true → p (mk e)) : Yields (onlyEa c sz m x mk) p :=
  ((yields_eaMode c sz m x).bind fun k hk => (yields_eaTail k sz x).mono fun _ he => eaOk_of_mode hk he).bind
    fun e he => .pure (h e he)

theorem yields_immThenEa {mk : Long → Ea → Instr} (h : ∀ v e, immFits sz v = true → eaOk c sz e = true → p (mk v e)) :
    Yields (immThenEa c sz m x mk) p :=
  (yields_eaMode c sz m x).bind fun k hk => (yields_nextImm sz).bind fun v hv =>
    (yields_eaTail k sz x).bind fun e he => .pure (h v e hv (eaOk_of_mode hk he))

theorem yields_wordThenEa {α : Type} {own : Word → Dec α} {mk : α → Ea → Instr}
    (h : ∀ v e, eaOk c sz e = true → p (mk v e)) : Yields (wordThenEa c sz m x own mk) p :=
  (yields_eaMode c sz m x).bind fun k hk => .after _ fun _ => .after _ fun v =>
    (yields_eaTail k sz x).bind fun e he => .pure (h v e (eaOk_of_mode hk he))

theorem yields_withSize {b : BitVec 3} {f : Size → Dec Instr} (h : ∀ sz, Yields (f sz) p) : Yields (withSize b f) p := by
  unfold withSize
  split
  · exact .notARow
  · exact h _

end

/-! ## The lines -/

/-- What the decoder reads is well formed. -/
abbrev ReadsWf (m : Dec Instr) : Prop := Yields m fun i => i.wf = true

theorem readsWf_decodeImm (a m x : BitVec 3) (sz : Size) : ReadsWf (decodeImm a m x sz) := by
  have himm {c : Cat} {mk : Long → Ea → Instr}
      (h : ∀ v e, (immFits sz v && eaOk c sz e) = true → (mk v e).wf = true) : ReadsWf (immThenEa c sz m x mk) :=
    yields_immThenEa fun v e hv he => h v e ((Bool.and_eq_true _ _).mpr ⟨hv, he⟩)
  unfold decodeImm
  split
  · exact .ite (fun _ => .after _ fun _ => .pure rfl) fun _ => .ite (fun _ => .after _ fun _ => .pure rfl) fun _ =>
      himm fun _ _ h => h
  · exact .ite (fun _ => .after _ fun _ => .pure rfl) fun _ => .ite (fun _ => .after _ fun _ => .pure rfl) fun _ =>
      himm fun _ _ h => h
  · exact himm fun _ _ h => h
  · exact himm fun _ _ h => h
  · exact .ite (fun _ => .after _ fun _ => .pure rfl) fun _ => .ite (fun _ => .after _ fun _ => .pure rfl) fun _ =>
      himm fun _ _ h => h
  · exact himm fun _ _ h => h
  · exact yields_wordThenEa fun _ _ h => h

theorem readsWf_decodeCmp2 (sz : Size) (m x : BitVec 3) : ReadsWf (decodeCmp2 sz m x) :=
  yields_wordThenEa fun v e h => by
    obtain ⟨rn, chk⟩ := v
    cases chk <;> exact h

theorem readsWf_decodeCas2 (sz : SizeWL) : ReadsWf (decodeCas2 sz) :=
  .after _ fun _ => .after _ fun _ => .after _ fun _ => .after _ fun _ => .pure rfl

theorem readsWf_decodeLine0Size3 (a m x : BitVec 3) : ReadsWf (decodeLine0Size3 a m x) := by
  unfold decodeLine0Size3
  split
  · exact readsWf_decodeCmp2 .byte m x
  · exact readsWf_decodeCmp2 .word m x
  · exact readsWf_decodeCmp2 .long m x
  · exact .notARow
  · exact yields_wordThenEa fun _ _ h => h
  · exact yields_wordThenEa fun _ _ h => h
  · exact .ite (fun _ => readsWf_decodeCas2 .w) fun _ => yields_wordThenEa fun _ _ h => h
  · exact .ite (fun _ => readsWf_decodeCas2 .l) fun _ => yields_wordThenEa fun _ _ h => h

theorem readsWf_decodeLine0 (a b m x : BitVec 3) : ReadsWf (decodeLine0 a b m x) := by
  unfold decodeLine0
  split
  · exact .ite (fun _ => yields_wordThenEa fun _ _ h => h) fun _ => readsWf_decodeImm a m x .byte
  · exact .ite (fun _ => yields_wordThenEa fun _ _ h => h) fun _ => readsWf_decodeImm a m x .word
  · exact .ite (fun _ => yields_wordThenEa fun _ _ h => h) fun _ => readsWf_decodeImm a m x .long
  · exact readsWf_decodeLine0Size3 a m x
  · refine .ite (fun _ => .after _ fun _ => .pure rfl) fun _ => ?_
    split
    · exact yields_onlyEa fun _ h => h
    · exact yields_onlyEa fun _ h => h
    · exact yields_onlyEa fun _ h => h
    · exact yields_onlyEa fun _ h => h

theorem readsWf_decodeMove (sz : Size) (a b m x : BitVec 3) : ReadsWf (decodeMove sz a b m x) := by
  unfold decodeMove
  refine .ite (fun _ => ?_) fun _ => ?_
  · cases sz with
    | byte => exact .notARow
    | word => exact yields_onlyEa fun _ h => h
    | long => exact yields_onlyEa fun _ h => h
  · exact (yields_eaMode .all sz m x).bind fun ks hks => (yields_eaMode .dalt sz b a).bind fun kd hkd =>
      (yields_eaTail ks sz x).bind fun src hs => (yields_eaTail kd sz a).bind fun dst hd =>
        .pure ((Bool.and_eq_true _ _).mpr ⟨eaOk_of_mode hks hs, eaOk_of_mode hkd hd⟩)

theorem readsWf_decodeMulL (m x : BitVec 3) : ReadsWf (decodeMulL m x) :=
  yields_wordThenEa fun v e h => by
    obtain ⟨dl, dh, wide, sgn⟩ := v
    cases sgn <;> exact h

theorem readsWf_decodeDivL (m x : BitVec 3) : ReadsWf (decodeDivL m x) :=
  yields_wordThenEa fun v e h => by
    obtain ⟨dq, dr, wide, sgn⟩ := v
    cases sgn <;> exact h

/-- MOVEC names a register and a code, whatever they are. -/
theorem readsWf_decodeMovec {mk : GReg → BitVec 12 → Instr} (h : ∀ rn code, (mk rn code).wf = true) :
    ReadsWf (decodeMovec mk) :=
  .after _ fun _ => .pure (h _ _)

theorem readsWf_decodeLine4Misc (m x : BitVec 3) : ReadsWf (decodeLine4Misc m x) := by
  unfold decodeLine4Misc
  split
  · exact .pure rfl
  · exact .pure rfl
  · exact .after _ fun _ => .pure rfl
  · exact .pure rfl
  · exact .pure rfl
  · exact .pure rfl
  · split
    · exact .pure rfl
    · exact .pure rfl
    · exact .after _ fun _ => .pure rfl
    · exact .pure rfl
    · exact .after _ fun _ => .pure rfl
    · exact .pure rfl
    · exact .pure rfl
    · exact .pure rfl
  · split
    · exact readsWf_decodeMovec fun _ _ => rfl
    · exact readsWf_decodeMovec fun _ _ => rfl
    · exact .notARow

theorem readsWf_decodeLine4Low (a b m x : BitVec 3) : ReadsWf (decodeLine4Low a b m x) := by
  unfold decodeLine4Low
  split
  · exact .ite (fun _ => yields_onlyEa fun _ h => h) fun _ => yields_withSize fun _ => yields_onlyEa fun _ h => h
  · exact .ite (fun _ => yields_onlyEa fun _ h => h) fun _ => yields_withSize fun _ => yields_onlyEa fun _ h => h
  · exact .ite (fun _ => yields_onlyEa fun _ h => h) fun _ => yields_withSize fun _ => yields_onlyEa fun _ h => h
  · exact .ite (fun _ => yields_onlyEa fun _ h => h) fun _ => yields_withSize fun _ => yields_onlyEa fun _ h => h
  · split
    · exact .ite (fun _ => .after _ fun _ => .pure rfl) fun _ => yields_onlyEa fun _ h => h
    · exact .ite (fun _ => .pure rfl) fun _ => .ite (fun _ => .pure rfl) fun _ => yields_onlyEa fun _ h => h
    · exact .ite (fun _ => .pure rfl) fun _ => yields_wordThenEa fun _ _ h => h
    · exact .ite (fun _ => .pure rfl) fun _ => yields_wordThenEa fun _ _ h => h
  · refine .ite (fun _ => .ite (fun _ => .pure rfl) fun _ => yields_onlyEa fun _ h => h) fun _ => ?_
    exact yields_withSize fun _ => yields_onlyEa fun _ h => h
  · split
    · exact readsWf_decodeMulL m x
    · exact readsWf_decodeDivL m x
    · exact yields_wordThenEa fun _ _ h => h
    · exact yields_wordThenEa fun _ _ h => h
  · split
    · exact .notARow
    · exact readsWf_decodeLine4Misc m x
    · exact yields_onlyEa fun _ h => h
    · exact yields_onlyEa fun _ h => h

theorem readsWf_decodeLine4 (a b m x : BitVec 3) : ReadsWf (decodeLine4 a b m x) := by
  unfold decodeLine4
  split
  · exact yields_onlyEa fun _ h => h
  · exact .notARow
  · exact yields_onlyEa fun _ h => h
  · exact .ite (fun _ => .pure rfl) fun _ => yields_onlyEa fun _ h => h
  · exact readsWf_decodeLine4Low a b m x

theorem readsWf_decodeLine5 (a b m x : BitVec 3) : ReadsWf (decodeLine5 a b m x) := by
  unfold decodeLine5
  refine .ite (fun _ => ?_) fun _ => ?_
  · refine .ite (fun _ => .after _ fun _ => .pure rfl) fun _ => .ite (fun _ => .after _ fun _ => .pure rfl) fun _ => ?_
    refine .ite (fun _ => .after _ fun _ => .pure rfl) fun _ => .ite (fun _ => .pure rfl) fun _ => ?_
    exact yields_onlyEa fun _ h => h
  · exact yields_withSize fun _ => .ite (fun _ => yields_onlyEa fun _ h => h) fun _ => yields_onlyEa fun _ h => h

theorem yields_nextBranchDisp (v : Byte) : Yields (nextBranchDisp v) fun d => d.wf = true := by
  unfold nextBranchDisp
  refine .ite (fun _ => .after _ fun _ => .pure rfl) fun h0 => .ite (fun _ => .after _ fun _ => .pure rfl) fun hff => ?_
  exact .pure ((Bool.and_eq_true _ _).mpr ⟨by simpa using h0, by simpa using hff⟩)

theorem readsWf_decodeLine6 (a b m x : BitVec 3) : ReadsWf (decodeLine6 a b m x) := by
  refine (yields_nextBranchDisp _).bind fun d hd => ?_
  cases condOf (a ++ (b.extractLsb' 2 1 : BitVec 1))
  all_goals exact .pure hd

theorem readsWf_decodeLine7 (a b m x : BitVec 3) : ReadsWf (decodeLine7 a b m x) :=
  .ite (fun _ => .notARow) fun _ => .pure rfl

theorem readsWf_decodeLine8 (a b m x : BitVec 3) : ReadsWf (decodeLine8 a b m x) := by
  unfold decodeLine8
  split
  · exact yields_onlyEa fun _ h => h
  · exact yields_onlyEa fun _ h => h
  · exact yields_onlyEa fun _ h => h
  · exact yields_onlyEa fun _ h => h
  · exact .ite (fun _ => .pure rfl) fun _ => yields_onlyEa fun _ h => h
  · exact .ite (fun _ => .after _ fun _ => .pure rfl) fun _ => yields_onlyEa fun _ h => h
  · exact .ite (fun _ => .after _ fun _ => .pure rfl) fun _ => yields_onlyEa fun _ h => h
  · exact yields_onlyEa fun _ h => h

theorem readsWf_decodeLine9 (a b m x : BitVec 3) : ReadsWf (decodeLine9 a b m x) := by
  unfold decodeLine9
  split
  · exact yields_onlyEa fun _ h => h
  · exact yields_onlyEa fun _ h => h
  · exact yields_onlyEa fun _ h => h
  · exact yields_onlyEa fun _ h => h
  · exact .ite (fun _ => .pure rfl) fun _ => yields_onlyEa fun _ h => h
  · exact .ite (fun _ => .pure rfl) fun _ => yields_onlyEa fun _ h => h
  · exact .ite (fun _ => .pure rfl) fun _ => yields_onlyEa fun _ h => h
  · exact yields_onlyEa fun _ h => h

theorem readsWf_decodeLineB (a b m x : BitVec 3) : ReadsWf (decodeLineB a b m x) := by
  unfold decodeLineB
  split
  · exact yields_onlyEa fun _ h => h
  · exact yields_onlyEa fun _ h => h
  · exact yields_onlyEa fun _ h => h
  · exact yields_onlyEa fun _ h => h
  · exact .ite (fun _ => .pure rfl) fun _ => yields_onlyEa fun _ h => h
  · exact .ite (fun _ => .pure rfl) fun _ => yields_onlyEa fun _ h => h
  · exact .ite (fun _ => .pure rfl) fun _ => yields_onlyEa fun _ h => h
  · exact yields_onlyEa fun _ h => h

theorem readsWf_decodeLineC (a b m x : BitVec 3) : ReadsWf (decodeLineC a b m x) := by
  unfold decodeLineC
  split
  · exact yields_onlyEa fun _ h => h
  · exact yields_onlyEa fun _ h => h
  · exact yields_onlyEa fun _ h => h
  · exact yields_onlyEa fun _ h => h
  · exact .ite (fun _ => .pure rfl) fun _ => yields_onlyEa fun _ h => h
  · exact .ite (fun _ => .pure rfl) fun _ => .ite (fun _ => .pure rfl) fun _ => yields_onlyEa fun _ h => h
  · exact .ite (fun _ => .pure rfl) fun _ => yields_onlyEa fun _ h => h
  · exact yields_onlyEa fun _ h => h

theorem readsWf_decodeLineD (a b m x : BitVec 3) : ReadsWf (decodeLineD a b m x) := by
  unfold decodeLineD
  split
  · exact yields_onlyEa fun _ h => h
  · exact yields_onlyEa fun _ h => h
  · exact yields_onlyEa fun _ h => h
  · exact yields_onlyEa fun _ h => h
  · exact .ite (fun _ => .pure rfl) fun _ => yields_onlyEa fun _ h => h
  · exact .ite (fun _ => .pure rfl) fun _ => yields_onlyEa fun _ h => h
  · exact .ite (fun _ => .pure rfl) fun _ => yields_onlyEa fun _ h => h
  · exact yields_onlyEa fun _ h => h

theorem shiftReg_wf (left : Bool) (tt : BitVec 2) (sz : Size) (n : ShiftCount) (y : Reg) :
    (shiftReg left tt sz n y).wf = true := by
  unfold shiftReg
  split <;> rfl

theorem shiftMem_wf (left : Bool) (tt : BitVec 2) (e : Ea) : (shiftMem left tt e).wf = eaOk .malt .word e := by
  unfold shiftMem
  split <;> rfl

theorem readsWf_decodeBitField (o m x : BitVec 3) : ReadsWf (decodeBitField o m x) := by
  unfold decodeBitField
  split
  · exact yields_wordThenEa fun _ _ h => h
  · exact yields_wordThenEa fun _ _ h => h
  · exact yields_wordThenEa fun _ _ h => h
  · exact yields_wordThenEa fun _ _ h => h
  · exact yields_wordThenEa fun _ _ h => h
  · exact yields_wordThenEa fun _ _ h => h
  · exact yields_wordThenEa fun _ _ h => h
  · exact yields_wordThenEa fun _ _ h => h

theorem readsWf_decodeLineE (a b m x : BitVec 3) : ReadsWf (decodeLineE a b m x) := by
  unfold decodeLineE
  split
  · exact .pure (shiftReg_wf _ _ _ _ _)
  · exact .ite (fun _ => readsWf_decodeBitField _ m x) fun _ => yields_onlyEa fun e h => (shiftMem_wf _ _ e).trans h

/-- The rows of line F that own a word given by its fields. -/
theorem flineOwned_fields (a b m x : BitVec 3) : flineOwned (a ++ b ++ m ++ x) = (a == 1
      || (a == 2 && decide (b.toNat < 4) && m.extractLsb' 0 2 != 0)
      || (a == 2 && b == 4 && decide (m.toNat < 4))
      || (a == 2 && b == 5 && (m == 1 || m == 5))
      || (a == 3 && b == 0 && decide (m.toNat < 4))
      || (a == 3 && b == 0 && m == 4)) := by
  let ab : BitVec 6 := a ++ b
  let abm : BitVec 9 := ab ++ m
  have ha : (abm ++ x : BitVec 12).extractLsb' 9 3 = a :=
    (extract_append_ge abm x (by decide)).trans ((extract_append_ge ab m (by decide)).trans (extract_high a b))
  have hb : (abm ++ x : BitVec 12).extractLsb' 6 3 = b :=
    (extract_append_ge abm x (by decide)).trans ((extract_append_ge ab m (by decide)).trans (extract_low a b))
  have hm : (abm ++ x : BitVec 12).extractLsb' 3 3 = m :=
    (extract_append_ge abm x (by decide)).trans (extract_low ab m)
  change flineOwned (abm ++ x) = _
  rw [flineOwned_eq, ha, hb, hm]

/-- A word of line F that is read as no other row is owned by none. -/
theorem readsWf_fline {a b m x : BitVec 3} (h : flineOwned (a ++ b ++ m ++ x) = false) :
    ReadsWf (return .fline (a ++ b ++ m ++ x)) :=
  .pure (by rw [Instr.wf, h]; rfl)

theorem cacheScope_eq_none {n : BitVec 2} (h : cacheScope n = none) : n = 0 := by
  revert n
  decide

theorem below_four_ne : ∀ b : BitVec 3, b.toNat < 4 → (b == 4) = false ∧ (b == 5) = false := by decide

theorem readsWf_decodeMove16Pi (x : Reg) : ReadsWf (decodeMove16Pi x) :=
  .after _ fun _ => .after _ fun _ => .pure rfl

theorem readsWf_decodeLineF (a b m x : BitVec 3) : ReadsWf (decodeLineF a b m x) := by
  have howned := flineOwned_fields a b m x
  unfold decodeLineF
  split
  next => exact .pure rfl
  next ha =>
    obtain rfl : a = 2 := BitVec.eq_of_toNat_eq ha
    refine .ite (fun hb => ?_) fun hb => .ite (fun _ => .pure rfl) fun h4 => .ite (fun _ => .pure rfl) fun h1 =>
      .ite (fun _ => .pure rfl) fun h5 => readsWf_fline ?_
    · split
      next hsc =>
        refine readsWf_fline ?_
        obtain ⟨hb4, hb5⟩ := below_four_ne b hb
        rw [howned, cacheScope_eq_none hsc, hb4, hb5]
        simp
      next => exact .ite (fun _ => .pure rfl) fun _ => .pure rfl
    · rw [howned]
      simp only [beq_self_eq_true, Bool.true_and, decide_eq_false hb, Bool.false_and, eq_false_of_ne_true h4,
        Bool.and_or_distrib_left, eq_false_of_ne_true h1, eq_false_of_ne_true h5]
      rfl
  next ha =>
    obtain rfl : a = 3 := BitVec.eq_of_toNat_eq ha
    refine .ite (fun _ => .after _ fun _ => .pure rfl) fun h3 => .ite (fun _ => readsWf_decodeMove16Pi x) fun h4 =>
      readsWf_fline ?_
    rw [howned]
    simp only [beq_self_eq_true, Bool.true_and, eq_false_of_ne_true h3, eq_false_of_ne_true h4]
    rfl
  next h1 h2 h3 =>
    have hne (n : BitVec 3) (h : a.toNat = n.toNat → False) : (a == n) = false :=
      beq_eq_false_iff_ne.mpr fun he => h (congrArg BitVec.toNat he)
    refine readsWf_fline ?_
    rw [howned, hne 1 h1, hne 2 h2, hne 3 h3]
    rfl

/-- What is read from an operation word is well formed. -/
theorem readsWf_decodeFields (l : BitVec 4) (a b m x : BitVec 3) : ReadsWf (decodeFields l a b m x) := by
  unfold decodeFields
  split
  · exact readsWf_decodeLine0 a b m x
  · exact readsWf_decodeMove .byte a b m x
  · exact readsWf_decodeMove .long a b m x
  · exact readsWf_decodeMove .word a b m x
  · exact readsWf_decodeLine4 a b m x
  · exact readsWf_decodeLine5 a b m x
  · exact readsWf_decodeLine6 a b m x
  · exact readsWf_decodeLine7 a b m x
  · exact readsWf_decodeLine8 a b m x
  · exact readsWf_decodeLine9 a b m x
  · exact .pure rfl
  · exact readsWf_decodeLineB a b m x
  · exact readsWf_decodeLineC a b m x
  · exact readsWf_decodeLineD a b m x
  · exact readsWf_decodeLineE a b m x
  · exact readsWf_decodeLineF a b m x

/-- Settles O59: every row yields well-formed instructions only. -/
theorem decodedIsWellFormed : Obligations.DecodedIsWellFormed := by
  unfold Obligations.DecodedIsWellFormed
  intro ws i h
  have hall : ReadsWf decodeWords := .after _ fun w => readsWf_decodeFields _ _ _ _ _
  unfold decode at h
  split at h
  next j rest hj =>
    cases h
    exact hall ws i rest hj
  all_goals cases h

/-- Settles O60: the decoder is run on the seven words. -/
theorem decodeSpecWords : Obligations.DecodeSpecWords := by
  unfold Obligations.DecodeSpecWords
  decide

end Sys2Proof
end


section
/-! PROOF SUPPORT. The invariant without the PC (`Sound`): what it depends on, and that the changes an instruction makes to
SR, to memory and to the records of the caches keep it. -/

namespace Sys2Proof.Machine

open Sys2Proof Sys2Proof.Claim

variable {s t : State}

/-! ## Bits within a mask -/

/-- A value has no bit outside a mask. -/
def Within {w : Nat} (v m : BitVec w) : Prop := v &&& ~~~m = 0

theorem within_iff {w : Nat} {v m : BitVec w} : Within v m ↔ ∀ i, v.getLsbD i = true → m.getLsbD i = true := by
  constructor
  · intro h i hi
    have hlt : i < w := BitVec.lt_of_getLsbD hi
    have hb := congrArg (·.getLsbD i) h
    simpa [hi, hlt] using hb
  · intro h
    refine BitVec.eq_of_getLsbD_eq fun i hlt => ?_
    cases hi : v.getLsbD i with
    | false => simp [hi]
    | true => simp [hi, h i hi]

theorem Within.and {w : Nat} {v m : BitVec w} (h : Within v m) (x : BitVec w) : Within (v &&& x) m := by
  rw [within_iff] at *
  exact fun i hi => h i (by simp_all)

theorem Within.or {w : Nat} {u v m : BitVec w} (hu : Within u m) (hv : Within v m) : Within (u ||| v) m := by
  rw [within_iff] at *
  intro i hi
  rw [BitVec.getLsbD_or, Bool.or_eq_true] at hi
  exact hi.elim (hu i) (hv i)

theorem within_and_self {w : Nat} (v m : BitVec w) : Within (v &&& m) m := by
  rw [within_iff]
  exact fun i hi => by simp_all

/-! ## The status register -/

/-- An SR the machine can hold: no bit that does not exist, and no reserved trace mode (92 D25, 93 U1). -/
structure SrOk (v : Word) : Prop where
  bits : Within v srImplemented
  trace : (srT1 v && srT0 v) = false

theorem srOk_srException {v : Word} (h : Within v srImplemented) : SrOk (srException v) where
  bits := (h.and 0x3FFF).or (show Within (0x2000 : Word) srImplemented from rfl)
  trace := by simp [srException, srT1]

theorem SrOk.srClearM {v : Word} (h : SrOk v) : SrOk (srClearM v) where
  bits := h.bits.and 0xEFFF
  trace := by
    have ht := h.trace
    simpa [Machine.srClearM, srT1, srT0] using ht

theorem SrOk.srWithCcr {v : Word} (h : SrOk v) (f : Ccr) : SrOk (srWithCcr v f) where
  bits := by
    have hv := within_iff.mp h.bits
    refine within_iff.mpr fun i hi => ?_
    by_cases h5 : i < 5
    · interval_cases i <;> rfl
    · rw [srWithCcr_getLsbD v f (by omega)] at hi
      exact hv i hi
  trace := by
    have ht := h.trace
    unfold srT1 srT0 at *
    rw [srWithCcr_getLsbD v f (by decide), srWithCcr_getLsbD v f (by decide)]
    exact ht

/-- A written SR that is no reserved trace mode. -/
theorem srOk_written {v : Word} (h : (srT1 v && srT0 v) = false) : SrOk (v &&& srImplemented) where
  bits := within_and_self v srImplemented
  trace := by
    have h1 : srImplemented.getLsbD 15 = true := rfl
    have h0 : srImplemented.getLsbD 14 = true := rfl
    unfold srT1 srT0 at *
    rw [BitVec.getLsbD_and, BitVec.getLsbD_and, h1, h0, Bool.and_true, Bool.and_true]
    exact h

theorem srOk_interrupt {v : Word} (h : Within v srImplemented) (l : BitVec 3) :
    SrOk (srWithMask (srException v) l) := by
  have hmask : ∀ l : BitVec 3, ((l.setWidth 16 : Word) <<< 8) &&& ~~~srImplemented = 0 := by decide
  have htrace : ∀ l : BitVec 3, ((l.setWidth 16 : Word) <<< 8).getLsbD 15 = false := by decide
  rw [srWithMask_srException]
  refine ⟨((h.and 0x18FF).or (show Within (0x2000 : Word) srImplemented from rfl)).or (hmask l), ?_⟩
  unfold interruptSr srT1
  rw [BitVec.getLsbD_or, BitVec.getLsbD_or, BitVec.getLsbD_and, htrace l]
  simp

/-! ## What the invariant says besides the PC -/

/-- The invariant without the PC. -/
structure Sound (s : State) : Prop where
  mem : Memory.wf s.mem
  sr : SrOk s.sr
  cacr : Within s.cacr cacrImplemented
  iacr0 : Within s.iacr0 acrImplemented
  iacr1 : Within s.iacr1 acrImplemented
  dacr0 : Within s.dacr0 acrImplemented
  dacr1 : Within s.dacr1 acrImplemented
  dirty : ∀ c ∈ s.dirty, c.1 < 2 ^ 35
  roms : ∀ c ∈ s.romCells, c.1 < 2 ^ 35
  stale : ∀ k ∈ s.staleData, k < 2 ^ 35

theorem inv_iff : Inv s ↔ Sound s ∧ (s.run = .running ∨ s.run = .stopped → s.pc.getLsbD 0 = false) :=
  ⟨fun h => ⟨⟨h.mem, ⟨h.sr, h.trace⟩, h.cacr, h.iacr0, h.iacr1, h.dacr0, h.dacr1, h.dirty, h.roms, h.stale⟩, h.pc⟩,
   fun ⟨h, hpc⟩ => ⟨h.mem, h.sr.bits, h.sr.trace, h.cacr, h.iacr0, h.iacr1, h.dacr0, h.dacr1, h.dirty, h.roms, h.stale,
     hpc⟩⟩

/-- The pieces of the state that `Sound` speaks of. -/
def State.checked (s : State) : List Host.Cell × Word × Long × Long × Long × Long × Long × List Host.Cell × List Host.Cell
    × List Nat :=
  (s.mem, s.sr, s.cacr, s.iacr0, s.iacr1, s.dacr0, s.dacr1, s.dirty, s.romCells, s.staleData)

theorem Sound.congr (h : Sound s) (he : t.checked = s.checked) : Sound t := by
  simp only [State.checked, Prod.mk.injEq] at he
  obtain ⟨hmem, hsr, hc, hi0, hi1, hd0, hd1, hdirty, hroms, hstale⟩ := he
  exact ⟨hmem ▸ h.mem, hsr ▸ h.sr, hc ▸ h.cacr, hi0 ▸ h.iacr0, hi1 ▸ h.iacr1, hd0 ▸ h.dacr0, hd1 ▸ h.dacr1,
    hdirty ▸ h.dirty, hroms ▸ h.roms, hstale ▸ h.stale⟩

/-- Another SR. -/
theorem Sound.withSr {v : Word} (h : Sound s) (hv : SrOk v) (ht : t.checked = ({ s with sr := v } : State).checked) :
    Sound t :=
  Sound.congr (s := { s with sr := v })
    ⟨h.mem, hv, h.cacr, h.iacr0, h.iacr1, h.dacr0, h.dacr1, h.dirty, h.roms, h.stale⟩ ht

theorem Sound.writeEffect (h : Sound s) (he : WriteEffect s t) : Sound t := by
  obtain ⟨m, r, b, n, rfl, hmem, hdirty, hroms, hstale⟩ := he
  exact ⟨hmem h.mem, h.sr, h.cacr, h.iacr0, h.iacr1, h.dacr0, h.dacr1, hdirty h.dirty, hroms h.roms, hstale h.stale⟩

/-! ## Registers -/

theorem checked_setSp (s : State) (v : Long) : (s.setSp v).checked = s.checked := by
  unfold State.setSp
  split
  · split <;> rfl
  · rfl

theorem checked_setAreg (s : State) (n : Reg) (v : Long) : (s.setAreg n v).checked = s.checked := by
  unfold State.setAreg
  split
  · rfl
  · exact checked_setSp s v

theorem checked_setGreg (s : State) (i : GReg) (v : Long) : (s.setGreg i v).checked = s.checked := by
  unfold State.setGreg
  split
  · exact checked_setAreg s _ v
  · rfl

theorem checked_compareLevel (s : State) : (compareLevel s).checked = s.checked := by
  unfold compareLevel
  split <;> rfl

theorem Sound.setCcr (h : Sound s) (f : Ccr) : Sound (s.setCcr f) := h.withSr (h.sr.srWithCcr f) rfl

theorem Sound.putSr {v : Word} (h : Sound s) (hv : SrOk v) : Sound (s.putSr v) :=
  h.withSr hv (checked_compareLevel _)

/-! ## The data cache's lines (log 8, 10) -/

/-- Keys within the eight banks. -/
def KeysOk (l : List Host.Cell) : Prop := ∀ c ∈ l, c.1 < 2 ^ 35

theorem KeysOk.filter {l : List Host.Cell} (h : KeysOk l) (p : Host.Cell → Bool) : KeysOk (l.filter p) :=
  fun c hc => h c (List.mem_filter.mp hc).1

theorem KeysOk.append {l m : List Host.Cell} (hl : KeysOk l) (hm : KeysOk m) : KeysOk (l ++ m) :=
  fun c hc => (List.mem_append.mp hc).elim (hl c) (hm c)

theorem mem_keysOf {l : List Host.Cell} {k : Nat} (h : k ∈ keysOf l) : ∃ c ∈ l, c.1 = k := by
  unfold keysOf at h
  induction l with
  | nil => cases h
  | cons c rest ih =>
    rcases mem_addKey h with rfl | h
    · exact ⟨c, by simp, rfl⟩
    · obtain ⟨d, hd, he⟩ := ih h
      exact ⟨d, List.mem_cons_of_mem _ hd, he⟩

/-- Cells named by the keys of other cells. -/
theorem KeysOk.map_keysOf {l : List Host.Cell} (h : KeysOk l) (f : Nat → Byte) :
    KeysOk ((keysOf l).map fun k => (k, f k)) := by
  intro c hc
  obtain ⟨k, hk, rfl⟩ := List.mem_map.mp hc
  obtain ⟨d, hd, rfl⟩ := mem_keysOf hk
  exact h d hd

theorem KeysOk.heldBytes {l : List Host.Cell} (h : KeysOk l) (n : Nat) (m : List Host.Cell) : KeysOk (heldBytes n m l) :=
  h.map_keysOf _

theorem KeysOk.currentOf {l : List Host.Cell} (h : KeysOk l) (m : List Host.Cell) : KeysOk (currentOf m (keysOf l)) :=
  h.map_keysOf _

theorem KeysOk.romHeld (h : KeysOk s.romCells) (hit : List Host.Cell) : KeysOk (romHeld s hit) :=
  (h.filter _).map_keysOf _

theorem Sound.dcacheGoesOff (h : Sound s) : Sound (dcacheGoesOff s) :=
  have hd : KeysOk s.dirty := h.dirty
  { h with
    mem := Memory.wf_putAll _ h.mem ((hd.filter _).heldBytes _ _)
    dirty := (hd.filter _).currentOf _
    roms := KeysOk.filter h.roms _ }

theorem Sound.dcacheGoesOn (h : Sound s) : Sound (dcacheGoesOn s) :=
  have hd : KeysOk s.dirty := h.dirty
  { h with
    mem := Memory.wf_putAll _ h.mem hd
    dirty := hd.currentOf _ }

theorem Sound.cacheControl {f : State → State} (h : Sound s) (hf : ∀ u, Sound u → Sound (f u)) :
    Sound (cacheControl s f) := by
  have ht : Sound (f { s with stalePipe := prefetched s }) := hf _ (h.congr rfl)
  unfold Machine.cacheControl
  simp only
  split
  · exact ht.dcacheGoesOff.congr rfl
  · split
    · exact ht.dcacheGoesOn.congr rfl
    · exact ht.congr rfl

/-- The state once lines have left the cache and memory has taken the cells `l`. -/
def withCells (l : List Host.Cell) (p q : Host.Cell → Bool) (r : Nat → Bool) (s : State) : State :=
  { s with
    mem := putAll s.mem l
    dirty := s.dirty.filter p
    romCells := s.romCells.filter q
    staleData := s.staleData.filter r }

theorem Sound.withCells {l : List Host.Cell} (h : Sound s) (hl : KeysOk l) (p q : Host.Cell → Bool) (r : Nat → Bool) :
    Sound (withCells l p q r s) :=
  { h with
    mem := Memory.wf_putAll _ h.mem hl
    dirty := KeysOk.filter h.dirty _
    roms := KeysOk.filter h.roms _
    stale := fun k hk => h.stale k (List.mem_filter.mp hk).1 }

theorem KeysOk.nil : KeysOk [] := nofun

theorem KeysOk.ite {c : Prop} [Decidable c] {l m : List Host.Cell} (hl : KeysOk l) (hm : KeysOk m) :
    KeysOk (if c then l else m) := by
  split
  · exact hl
  · exact hm

theorem putAll_ite {c : Prop} [Decidable c] (m l : List Host.Cell) :
    (if c then putAll m l else m) = putAll m (if c then l else []) := by
  split <;> rfl

theorem Sound.invalidateData (h : Sound s) (scope : CacheScope) (a : Long) : Sound (invalidateData s scope a) := by
  refine (h.withCells (l := if seesCache s then
      heldBytes s.draws s.mem (s.dirty.filter fun c => inScope scope a c.1) else []) ?_
    (fun c => !inScope scope a c.1) (fun c => !inScope scope a c.1) fun k => !inScope scope a k).congr ?_
  · exact .ite ((KeysOk.filter h.dirty _).heldBytes _ _) .nil
  · unfold Machine.invalidateData State.checked
    simp only [putAll_ite]
    rfl

theorem Sound.invalidateInstr (h : Sound s) (scope : CacheScope) (a : Long) : Sound (invalidateInstr s scope a) :=
  h.congr rfl

theorem Sound.pushData (h : Sound s) (scope : CacheScope) (a : Long) : Sound (pushData s scope a) := by
  have hd : KeysOk (s.dirty.filter fun c => inScope scope a c.1) := KeysOk.filter h.dirty _
  have hrom : KeysOk ((romHeld s (s.dirty.filter fun c => inScope scope a c.1)).filter fun c => !romKey s c.1) :=
    (KeysOk.romHeld h.roms _).filter _
  have hmem : ∃ l, KeysOk l ∧ pushedMemory s (s.dirty.filter fun c => inScope scope a c.1) = putAll s.mem l := by
    unfold pushedMemory
    simp only
    split
    · exact ⟨_, ((hd.filter _).heldBytes _ _).append hrom, rfl⟩
    · exact ⟨_, (hd.filter _).append hrom, rfl⟩
  obtain ⟨l, hl, he⟩ := hmem
  refine (h.withCells hl (fun c => !inScope scope a c.1) (fun c => !inScope scope a c.1)
    fun k => !inScope scope a k).congr ?_
  unfold State.checked
  rw [show (Machine.pushData s scope a).mem = putAll s.mem l from he]
  rfl

theorem Sound.dropLine (h : Sound s) (n : Nat) : Sound (dropLine s n) := by
  refine (h.withCells (l := if seesCache s then
      heldBytes s.draws s.mem (s.dirty.filter fun c => lineOf c.1 == n) else []) ?_
    (fun c => lineOf c.1 != n) (fun c => lineOf c.1 != n) fun k => lineOf k != n).congr ?_
  · exact .ite ((KeysOk.filter h.dirty _).heldBytes _ _) .nil
  · unfold Machine.dropLine State.checked
    simp only [putAll_ite]
    rfl

theorem Sound.withPowerOn (h : Sound s) (scope : CacheScope) (a : Long) : Sound (withPowerOn s scope a) := by
  unfold Machine.withPowerOn
  split
  · refine { h with dirty := KeysOk.append h.dirty fun c hc => ?_ }
    have hp := (List.mem_filter.mp hc).2
    simp only [Bool.and_eq_true, decide_eq_true_eq] at hp
    exact hp.1.1
  · exact h

theorem Sound.pushAway (h : Sound s) (n : Nat) : Sound (pushAway s n).2 := by
  unfold Machine.pushAway
  split
  · exact h.dropLine n
  · exact (Sound.writeEffect h (WriteEffect.deviceCycle s _ _ _ _)).dropLine n

theorem Sound.pushesAway (l : List Nat) (h : Sound s) : Sound (pushesAway l s).2 := by
  induction l generalizing s with
  | nil => exact h
  | cons n rest ih =>
    have hp := h.pushAway n
    unfold Machine.pushesAway
    split
    next t ht =>
      rw [ht] at hp
      exact ih hp
    next f t ht =>
      rw [ht] at hp
      exact hp

end Sys2Proof.Machine
end


section
/-! PROOF SUPPORT. Computations that keep the invariant (`Keeps`): one law per combinator and per access, then one per body
of an instruction. -/

namespace Sys2Proof.Machine

open Sys2Proof Sys2Proof.Claim

variable {s t : State} {α β : Type}

/-- The state a computation ends in. -/
def endState : EStateM.Result Abort State α → State
  | .ok _ t => t
  | .error _ t => t

/-- A computation that ends in a sound state, however it ends. -/
structure Keeps (m : Exec α) : Prop where
  sound : ∀ s, Sound s → Sound (endState (m s))

namespace Keeps

variable {m n : Exec α}

theorem pure (a : α) : Keeps (Pure.pure a : Exec α) := ⟨fun _ h => h⟩

theorem throw (e : Abort) : Keeps (throw e : Exec α) := ⟨fun _ h => h⟩

theorem refuse (r : Refusal) : Keeps (refuse r : Exec α) := ⟨fun _ h => h⟩

theorem illegal : Keeps (illegalInstruction : Exec α) := ⟨fun _ h => h⟩

theorem look (f : State → α) : Keeps (look f) := ⟨fun _ h => h⟩

theorem change {f : State → State} (hf : ∀ s, Sound s → Sound (f s)) : Keeps (change f) := ⟨hf⟩

/-- A change of what the invariant does not speak of. -/
theorem quiet {f : State → State} (hf : ∀ s, (f s).checked = s.checked) : Keeps (Machine.change f) :=
  ⟨fun s h => h.congr (hf s)⟩

theorem bind {f : α → Exec β} (hm : Keeps m) (hf : ∀ a, Keeps (f a)) : Keeps (m >>= f) := by
  refine ⟨fun s hs => ?_⟩
  have h := hm.sound s hs
  rw [Exec.bind_run]
  split
  next a t ht =>
    rw [ht] at h
    exact (hf a).sound t h
  next e t ht =>
    rw [ht] at h
    exact h

/-- A computation after a look at the state. -/
theorem looked {g : State → α} {f : α → Exec β} (hf : ∀ a, Keeps (f a)) : Keeps (Machine.look g >>= f) :=
  (look g).bind hf

theorem ite {c : Prop} [Decidable c] (hm : Keeps m) (hn : Keeps n) : Keeps (if c then m else n) := by
  split
  · exact hm
  · exact hn

theorem needSupervisor : Keeps needSupervisor := by
  refine ⟨fun s hs => ?_⟩
  unfold Machine.needSupervisor
  split <;> exact hs

theorem drawBit : Keeps drawBit := ⟨fun _ h => h.congr rfl⟩

theorem drawByte : Keeps drawByte := ⟨fun _ h => h.congr rfl⟩

theorem setFlags (f : Ccr → Ccr) : Keeps (setFlags f) := ⟨fun _ h => h.setCcr _⟩

theorem getFlags : Keeps getFlags := look _

theorem getD (sz : Size) (n : Reg) : Keeps (getD sz n) := look _

theorem putD (sz : Size) (n : Reg) (v : BitVec sz.bits) : Keeps (putD sz n v) := quiet fun _ => rfl

theorem getA (n : Reg) : Keeps (getA n) := look _

theorem putA (n : Reg) (v : Long) : Keeps (putA n v) := quiet fun s => checked_setAreg s n v

theorem setSp (f : State → Long) : Keeps (Machine.change fun s => s.setSp (f s)) := quiet fun s => checked_setSp s _

theorem setAreg (n : Reg) (f : State → Long) : Keeps (Machine.change fun s => s.setAreg n (f s)) :=
  quiet fun s => checked_setAreg s n _

theorem setGreg (i : GReg) (f : State → Long) : Keeps (Machine.change fun s => s.setGreg i (f s)) :=
  quiet fun s => checked_setGreg s i _

theorem loadSr (v : Word) : Keeps (loadSr v) := by
  refine ⟨fun s hs => ?_⟩
  unfold Machine.loadSr
  split
  · exact hs
  · next h => exact hs.putSr (srOk_written (Bool.eq_false_iff.mpr h))

/-! ## Memory -/

theorem readCycle (c : Cycle) (sz : Size) (a : Long) : Keeps (readCycle c sz a) := by
  refine ⟨fun s hs => ?_⟩
  obtain ⟨b, n, hb⟩ := readBus_state s c.fc sz a
  unfold Machine.readCycle
  split
  · exact hs
  · split
    · exact hs
    · split
      next v t ht =>
        obtain rfl : t = _ := (congrArg Prod.snd ht).symm.trans hb
        exact Sound.writeEffect (hs.congr rfl) (WriteEffect.afterRead _ _ _ _)
      next t ht =>
        obtain rfl : t = _ := (congrArg Prod.snd ht).symm.trans hb
        exact hs.congr rfl

theorem readMem (sz : Size) (a : Long) : Keeps (readMem sz a) := ⟨fun s hs => (readCycle _ sz a).sound s hs⟩

theorem storeAll (ws : List Store) (d : Done) : Keeps (storeAll ws d) := by
  refine ⟨fun s hs => ?_⟩
  have hr := hs.writeEffect (WriteEffect.runStores ws s)
  unfold Machine.storeAll
  split
  · exact hs
  · simp only
    split
    · exact hr
    · split
      · exact hr
      · split <;> exact hr

theorem store (c : Cycle) (sz : Size) (a : Long) (v : BitVec sz.bits) (d : Done) : Keeps (store c sz a v d) :=
  storeAll _ d

theorem writeMem (sz : Size) (a : Long) (v : BitVec sz.bits) (d : Done) : Keeps (writeMem sz a v d) :=
  ⟨fun s hs => (store _ sz a v d).sound s hs⟩

/-! ## Operands -/

theorem indexAddress (base : Long) (x : Index) : Keeps (indexAddress base x) := by
  cases x with
  | brief => exact look _
  | full x bs is bd ind =>
    refine looked fun i => ?_
    cases ind with
    | none => exact pure _
    | pre od => exact (readMem _ _).bind fun _ => pure _
    | post od => exact (readMem _ _).bind fun _ => pure _

theorem eaAddress (bytes own : Nat) (e : Ea) : Keeps (eaAddress bytes own e) := by
  cases e with
  | ind r => exact look _
  | postInc r => exact looked fun a => (setAreg r fun _ => a + stepOf bytes r).bind fun _ => pure _
  | preDec r => exact looked fun a => (setAreg r fun _ => a).bind fun _ => pure _
  | disp r d => exact look _
  | idx r x => exact looked fun b => indexAddress b x
  | absW v => exact pure _
  | absL v => exact pure _
  | pcDisp d => exact look _
  | pcIdx x => exact looked fun b => indexAddress b x
  | dn r => exact illegal
  | an r => exact illegal
  | imm v => exact illegal

theorem operand (sz : Size) (own : Nat) (e : Ea) : Keeps (operand sz own e) := by
  unfold Machine.operand
  split
  · exact pure _
  · exact pure _
  · exact pure _
  · exact (eaAddress _ _ _).bind fun _ => pure _

theorem readLoc (sz : Size) (l : Loc) : Keeps (readLoc sz l) := by
  cases l with
  | dreg r => exact look _
  | areg r => exact look _
  | mem a => exact readMem sz a
  | imm v => exact pure _

theorem writeLoc (sz : Size) (l : Loc) (v : BitVec sz.bits) (d : Done) : Keeps (writeLoc sz l v d) := by
  cases l with
  | dreg r => exact ⟨fun s hs => hs.congr rfl⟩
  | areg r => exact ⟨fun s hs => hs.congr (checked_setAreg s r _)⟩
  | mem a => exact writeMem sz a v d
  | imm v => exact illegal

theorem readEa (sz : Size) (own : Nat) (e : Ea) : Keeps (readEa sz own e) :=
  (operand sz own e).bind fun l => readLoc sz l

theorem writeEa (sz : Size) (own : Nat) (e : Ea) (v : BitVec sz.bits) : Keeps (writeEa sz own e v) :=
  (operand sz own e).bind fun l => writeLoc sz l v .seq

theorem rmwEa {sz : Size} (own : Nat) (e : Ea) {f : BitVec sz.bits → Exec (BitVec sz.bits)} (hf : ∀ d, Keeps (f d)) :
    Keeps (rmwEa sz own e f) :=
  (operand sz own e).bind fun l => (readLoc sz l).bind fun old => (hf old).bind fun v => writeLoc sz l v .seq

theorem pushLong (v : Long) (d : Done) : Keeps (pushLong v d) :=
  looked fun a => (setSp fun _ => a).bind fun _ => writeMem .long a v d

theorem popLong : Keeps popLong :=
  looked fun a => (readMem .long a).bind fun _ => (setSp fun _ => a + 4).bind fun _ => pure _

theorem popWord : Keeps popWord :=
  looked fun a => (readMem .word a).bind fun _ => (setSp fun _ => a + 2).bind fun _ => pure _

theorem pointerRead (own n : Nat) (e : Ea) : Keeps (pointerRead own n e) := by
  have early (i : Index) (mk : Index → Ea) : Keeps (match withoutOuter i with
      | some j => if j.words.length ≤ n then (do let _ ← Machine.eaAddress 4 own (mk j); return () : Exec Unit)
        else return ()
      | none => return ()) := by
    split
    · exact ite ((eaAddress _ _ _).bind fun _ => pure _) (pure _)
    · exact pure _
  cases e
  case idx r i => exact early i (.idx r)
  case pcIdx i => exact early i .pcIdx
  all_goals exact pure _

/-! ## The shapes of instructions -/

/-- The flags, and what comes after. -/
theorem flagged {g : Ccr → Ccr} {f : Unit → Exec β} (hf : Keeps (f ())) : Keeps (Machine.setFlags g >>= f) :=
  (setFlags g).bind fun _ => hf

theorem eaToD (sz : Size) (n : Reg) (e : Ea) (f : BitVec sz.bits → BitVec sz.bits → BitVec sz.bits)
    (fl : BitVec sz.bits → BitVec sz.bits → BitVec sz.bits → Ccr → Ccr) : Keeps (eaToD sz n e f fl) :=
  (readEa sz 0 e).bind fun _ => (getD sz n).bind fun _ => flagged ((putD sz n _).bind fun _ => pure _)

theorem dToEa (sz : Size) (n : Reg) (e : Ea) (f : BitVec sz.bits → BitVec sz.bits → BitVec sz.bits)
    (fl : BitVec sz.bits → BitVec sz.bits → BitVec sz.bits → Ccr → Ccr) : Keeps (dToEa sz n e f fl) :=
  rmwEa 0 e fun _ => (getD sz n).bind fun _ => flagged (pure _)

theorem immToEa (sz : Size) (imm : Long) (e : Ea) (f : BitVec sz.bits → BitVec sz.bits → BitVec sz.bits)
    (fl : BitVec sz.bits → BitVec sz.bits → BitVec sz.bits → Ccr → Ccr) : Keeps (immToEa sz imm e f fl) :=
  rmwEa _ e fun _ => flagged (pure _)

theorem onEa (sz : Size) (e : Ea) (f : Ccr → BitVec sz.bits → BitVec sz.bits)
    (fl : BitVec sz.bits → BitVec sz.bits → Ccr → Ccr) : Keeps (onEa sz e f fl) :=
  rmwEa 0 e fun _ => getFlags.bind fun _ => flagged (pure _)

theorem compare {w : Nat} (v d : BitVec w) : Keeps (compare v d) := flagged (pure _)

theorem extended (sz : Size) (mem : Bool) (x y : Reg) (f : Bool → BitVec sz.bits → BitVec sz.bits → BitVec sz.bits)
    (fl : BitVec sz.bits → BitVec sz.bits → BitVec sz.bits → Ccr → Ccr) : Keeps (extended sz mem x y f fl) :=
  getFlags.bind fun _ => ite
    ((readEa sz 0 _).bind fun _ => (eaAddress _ _ _).bind fun a => (readMem sz a).bind fun _ => flagged (writeMem sz a _ .seq))
    ((getD sz y).bind fun _ => (getD sz x).bind fun _ => flagged ((putD sz x _).bind fun _ => pure _))

theorem addressSource (sz : SizeWL) (e : Ea) : Keeps (addressSource sz e) := (readEa sz.size 0 e).bind fun _ => pure _

theorem readLine (a : Long) : Keeps (readLine a) := by
  refine ⟨fun s hs => ?_⟩
  unfold Machine.readLine
  split
  · exact hs
  · split
    · exact hs
    · split
      · have hd := Sound.writeEffect hs (WriteEffect.deviceCycle s s.dataFc a 16 none)
        split
        next v t ht =>
          rw [ht] at hd
          exact Sound.writeEffect hd (WriteEffect.afterRead _ _ _ _)
        next t ht =>
          rw [ht] at hd
          exact hd
      · exact hs.writeEffect (WriteEffect.afterRead _ _ _ _)

theorem writeLine (a : Long) (v : Vector Long 4) (d : Done) : Keeps (writeLine a v d) := by
  refine ⟨fun s hs => ?_⟩
  have hplain := (((WriteEffect.poke s s.dataFc .long a v[0]).trans (WriteEffect.poke _ s.dataFc .long (a + 4) v[1])).trans
    (WriteEffect.poke _ s.dataFc .long (a + 8) v[2])).trans (WriteEffect.poke _ s.dataFc .long (a + 12) v[3])
  have hw := hs.writeEffect (hplain.writeBus (fc := s.dataFc) (a := a) (n := 16) (v := v[0] ++ v[1] ++ v[2] ++ v[3]))
  unfold Machine.writeLine
  simp only
  split
  · exact hs
  · split
    · exact hs
    · split <;> exact hw

end Keeps

end Sys2Proof.Machine
end


section
/-! PROOF SUPPORT. The bodies of the instructions keep the invariant, in the order of the model's files. -/

namespace Sys2Proof.Machine

open Sys2Proof Sys2Proof.Claim

variable {s t : State} {α β : Type}

namespace Keeps

/-! ## Arithmetic -/

theorem boundFlags {w : Nat} (v lo hi : BitVec w) : Keeps (boundFlags v lo hi) :=
  drawBit.bind fun _ => drawBit.bind fun _ => ite ((pure _).bind fun _ => setFlags _) (drawBit.bind fun _ => setFlags _)

theorem compareBounds (sz : Size) (rn : GReg) (ea : Ea) : Keeps (compareBounds sz rn ea) :=
  (eaAddress _ _ _).bind fun _ => (readMem _ _).bind fun _ => (readMem _ _).bind fun _ => looked fun _ =>
    ite (boundFlags _ _ _) (boundFlags _ _ _)

theorem extend (src dst : Size) (dn : Reg) : Keeps (extend src dst dn) :=
  (getD _ _).bind fun _ => (putD _ _ _).bind fun _ => flagged (pure _)

theorem multiplyWord (dn : Reg) (ea : Ea) (widen : Word → Long) : Keeps (multiplyWord dn ea widen) :=
  (readEa _ _ _).bind fun _ => (getD _ _).bind fun _ => (putD _ _ _).bind fun _ => flagged (pure _)

theorem multiplyLong (dl dh : Reg) (wide : Bool) (ea : Ea) (widen : Long → BitVec 64) :
    Keeps (multiplyLong dl dh wide ea widen) :=
  ite (refuse _) ((readEa _ _ _).bind fun _ => (getD _ _).bind fun _ =>
    ite ((putD _ _ _).bind fun _ => (putD _ _ _).bind fun _ => flagged (pure _))
      ((putD _ _ _).bind fun _ => flagged (pure _)))

theorem zeroDivide : Keeps zeroDivide :=
  drawBit.bind fun _ => drawBit.bind fun _ => drawBit.bind fun _ => flagged (throw _)

theorem divideOverflow : Keeps divideOverflow := drawBit.bind fun _ => drawBit.bind fun _ => flagged (pure _)

theorem divideWord (dn : Reg) (quo rem : Int) (fits : Bool) : Keeps (divideWord dn quo rem fits) :=
  ite divideOverflow ((putD _ _ _).bind fun _ => flagged (pure _))

theorem divideLong (dq dr : Reg) (quo rem : Int) (fits : Bool) : Keeps (divideLong dq dr quo rem fits) :=
  ite divideOverflow (ite ((putD _ _ _).bind fun _ => flagged (pure _))
    ((putD _ _ _).bind fun _ => (putD _ _ _).bind fun _ => flagged (pure _)))

/-! ## Decimal arithmetic -/

theorem bcdResult (ok : Bool) (t : Int) : Keeps (bcdResult ok t) := by
  refine drawBit.bind fun _ => drawBit.bind fun _ => ?_
  cases ok with
  | true => exact (pure _).bind fun _ => (pure _).bind fun _ => (pure _).bind fun _ => flagged (pure _)
  | false => exact drawByte.bind fun _ => drawBit.bind fun _ => drawBit.bind fun _ => flagged (pure _)

theorem decimal (mem : Bool) (x y : Reg) (f : Int → Int → Int → Int) : Keeps (decimal mem x y f) :=
  getFlags.bind fun _ => ite
    ((readEa _ _ _).bind fun _ => (eaAddress _ _ _).bind fun a => (readMem _ a).bind fun _ => (bcdResult _ _).bind fun _ =>
      writeMem _ _ _ _)
    ((getD _ _).bind fun _ => (getD _ _).bind fun _ => (bcdResult _ _).bind fun _ => (putD _ _ _).bind fun _ => pure _)

theorem moveDown (r : Reg) (n : Long) : Keeps (moveDown r n) := looked fun _ => (putA _ _).bind fun _ => pure _

theorem packForm (mem : Bool) (x y : Reg) {m : Exec Done} (h : Keeps m) : Keeps (packForm mem x y m) := ite (refuse _) h

/-! ## Bit fields and bits -/

theorem readSpan (n : Nat) (a : Long) : Keeps (readSpan n a) := by
  unfold Machine.readSpan
  split
  · exact (readMem _ _).bind fun _ => pure _
  · exact (readMem _ _).bind fun _ => pure _
  · exact (readMem _ _).bind fun _ => (readMem _ _).bind fun _ => pure _
  · exact (readMem _ _).bind fun _ => pure _
  · exact (readMem _ _).bind fun _ => (readMem _ _).bind fun _ => pure _

theorem findField (bf : BitField) (ea : Ea) : Keeps (findField bf ea) := by
  refine looked fun _ => looked fun _ => ?_
  split
  · exact (getD _ _).bind fun _ => pure _
  · exact (eaAddress _ _ _).bind fun _ => (readSpan _ _).bind fun _ => pure _

theorem putField (f : Found) (v : Long) : Keeps (putField f v) := by
  unfold Machine.putField
  split
  · exact (putD _ _ _).bind fun _ => pure _
  · exact looked fun _ => storeAll _ _
  · exact illegal

theorem modifyField (bf : BitField) (ea : Ea) (f : Long → Long) : Keeps (modifyField bf ea f) :=
  (findField _ _).bind fun _ => flagged (putField _ _)

theorem extractField (dn : Reg) (bf : BitField) (ea : Ea) (f : Found → Long) : Keeps (extractField dn bf ea f) :=
  (findField _ _).bind fun _ => flagged ((putD _ _ _).bind fun _ => pure _)

theorem bitTest (own : Nat) (ea : Ea) (n : Nat) : Keeps (bitTest own ea n) := by
  unfold Machine.bitTest
  split
  · exact (getD _ _).bind fun _ => flagged (pure _)
  · exact (readEa _ _ _).bind fun _ => flagged (pure _)

theorem bitModify (own : Nat) (ea : Ea) (n : Nat) (f : {w : Nat} → BitVec w → BitVec w → BitVec w) :
    Keeps (bitModify own ea n f) := by
  unfold Machine.bitModify
  split
  · exact (getD _ _).bind fun _ => flagged ((putD _ _ _).bind fun _ => pure _)
  · exact rmwEa _ _ fun _ => flagged (pure _)

/-! ## Data movement -/

theorem movemRead (ea : Long) (sz : Size) (a : Long) : Keeps (movemRead ea sz a) := by
  refine ⟨fun s hs => ?_⟩
  have h := (readMem sz a).sound s hs
  unfold Machine.movemRead
  split
  next f t ht =>
    rw [ht] at h
    exact h
  next => exact h

theorem movemWrite (ea : Long) (sz : Size) (a : Long) (v : BitVec sz.bits) : Keeps (movemWrite ea sz a v) := by
  refine ⟨fun s hs => ?_⟩
  have h := (writeMem sz a v .seq).sound s hs
  unfold Machine.movemWrite
  split
  all_goals
    next ht =>
      rw [ht] at h
      exact h

theorem setMovem (v : Option Long) : Keeps (Machine.change fun s => { s with movemEa := v }) := quiet fun _ => rfl

theorem movemAddress (sz : Size) (e : Ea) : Keeps (movemAddress sz e) := by
  refine looked fun _ => (setMovem none).bind fun _ => ?_
  split
  · exact pure _
  · exact pure _
  · exact pure _
  · exact eaAddress _ _ _

theorem movemStore (ea : Long) (sz : Size) (l : List GReg) (a : Long) : Keeps (movemStore ea sz l a) := by
  induction l generalizing a with
  | nil => exact pure _
  | cons r rest ih => exact looked fun _ => (movemWrite _ _ _ _).bind fun _ => ih _

theorem movemStoreDown (ea : Long) (sz : Size) (base : GReg) (l : List GReg) (a : Long) :
    Keeps (movemStoreDown ea sz base l a) := by
  induction l generalizing a with
  | nil => exact pure _
  | cons r rest ih => exact looked fun _ => (movemWrite _ _ _ _).bind fun _ => ih _

theorem movemLoad (ea : Long) (sz : Size) (base : Option GReg) (l : List GReg) (a : Long) (held : Option Long) :
    Keeps (movemLoad ea sz base l a held) := by
  induction l generalizing a held with
  | nil =>
    unfold Machine.movemLoad
    split
    · exact (setGreg _ _).bind fun _ => pure _
    · exact (pure _).bind fun _ => pure _
  | cons r rest ih =>
    exact (movemRead _ _ _).bind fun _ => ite (ih _ _) ((setGreg _ _).bind fun _ => ih _ _)

theorem exchange (x y : GReg) : Keeps (exchange x y) :=
  looked fun _ => looked fun _ => (quiet fun s => (checked_setGreg _ y _).trans (checked_setGreg s x _)).bind fun _ => pure _

theorem link (an : Reg) (d : Long) : Keeps (link an d) :=
  ite (refuse _) ((getA _).bind fun _ => looked fun _ => (putA _ _).bind fun _ => (setSp _).bind fun _ => writeMem _ _ _ _)

theorem immToCcr (imm : Byte) (f : BitVec 5 → BitVec 5 → BitVec 5) : Keeps (immToCcr imm f) := flagged (pure _)

theorem shiftRegister (op : ShiftOp) (sz : Size) (count : ShiftCount) (dy : Reg) : Keeps (shiftRegister op sz count dy) :=
  looked fun _ => getFlags.bind fun _ => (getD _ _).bind fun _ => (putD _ _ _).bind fun _ => flagged (pure _)

theorem shiftMemory (op : ShiftOp) (ea : Ea) : Keeps (shiftMemory op ea) :=
  rmwEa _ _ fun _ => getFlags.bind fun _ => flagged (pure _)

/-! ## Cache maintenance -/

theorem pushCaches (data instr : Bool) (scope : CacheScope) (a : Long) : Keeps (pushCaches data instr scope a) := by
  refine ⟨fun s hs => ?_⟩
  have hafter (u : State) (hu : Sound u) : Sound (if instr then invalidateInstr u scope a else u) := by
    split
    · exact hu.invalidateInstr scope a
    · exact hu
  unfold Machine.pushCaches
  simp only
  split
  · have hp := Sound.pushesAway (linesAway (withPowerOn s scope a) ((withPowerOn s scope a).dirty.filter fun c =>
      inScope scope a c.1)) (hs.withPowerOn scope a)
    split
    next t ht =>
      rw [ht] at hp
      exact hafter _ (hp.pushData scope a)
    next f t ht =>
      rw [ht] at hp
      exact hafter _ (hp.pushData scope a)
    next f t ht =>
      rw [ht] at hp
      exact hp
  · exact hafter s hs

/-! ## System control -/

theorem immToSr (f : Word → Word) : Keeps (immToSr f) :=
  needSupervisor.bind fun _ => looked fun _ => (loadSr _).bind fun _ => pure _

theorem checkControl (code : BitVec 12) : Keeps (checkControl code) :=
  needSupervisor.bind fun _ => ite illegal (ite (refuse _) (pure _))

theorem readControl (code : BitVec 12) : Keeps (readControl code) := by
  refine ⟨fun s hs => ?_⟩
  fun_cases Machine.readControl code <;> exact hs.congr rfl

theorem writeControl (code : BitVec 12) (v : Long) : Keeps (writeControl code v) := by
  have hacr := within_and_self v acrImplemented
  unfold Machine.writeControl
  split
  case h_3 => exact change fun s h => h.cacheControl fun u hu => { hu with cacr := within_and_self v cacrImplemented }
  case h_5 => exact change fun s h => { h with iacr0 := hacr }
  case h_6 => exact change fun s h => { h with iacr1 := hacr }
  case h_7 => exact change fun s h => { h with dacr0 := hacr }
  case h_8 => exact change fun s h => { h with dacr1 := hacr }
  case h_14 => exact illegal
  all_goals exact quiet fun _ => rfl

theorem movesValue (rn : GReg) (ea : Ea) (old : Long) : Keeps (movesValue rn ea old) :=
  looked fun _ => ite (drawBit.bind fun _ => pure _) (pure _)

theorem emit (e : HostEvent) : Keeps (emit e) := quiet fun _ => rfl

theorem checkBound {w : Nat} (v b : BitVec w) : Keeps (checkBound v b) := by
  exact drawBit.bind fun _ => drawBit.bind fun _ => drawBit.bind fun _ =>
    ite ((pure _).bind fun _ => flagged (ite (throw _) (pure _))) (ite ((pure _).bind fun _ => flagged (ite (throw _) (pure _)))
      (drawBit.bind fun _ => flagged (ite (throw _) (pure _))))

/-! ## Returns from exceptions -/

theorem readInternal (sz : Size) (a : Long) : Keeps (readInternal sz a) := by
  refine ⟨fun s hs => ?_⟩
  have h := (readMem sz a).sound s hs
  unfold Machine.readInternal
  split
  next f t ht =>
    rw [ht] at h
    exact h
  next => exact h

theorem popFrame (sp bytes : Long) (sr : Word) (pc : Long) : Keeps (popFrame sp bytes sr pc) :=
  (setSp _).bind fun _ => (loadSr _).bind fun _ => pure _

theorem moveFrame (a : Long) (fs : List Field) : Keeps (moveFrame a fs) := by
  refine ⟨fun s hs => ?_⟩
  have hr (ws : List Store) := hs.writeEffect (WriteEffect.runStores ws s)
  unfold Machine.moveFrame
  simp only
  split
  · exact hs
  · split
    · exact hs
    · split <;> exact hr _

theorem pendingException (sp : Long) (vec : BitVec 8) (sr : Word) (pc ea : Long) :
    Keeps (pendingException sp vec sr pc ea) :=
  (moveFrame _ _).bind fun _ => looked fun _ => (setSp _).bind fun _ => (readCycle _ _ _).bind fun _ =>
    (change fun _ h => h.putSr (srOk_srException (within_and_self sr srImplemented))).bind fun _ => pure _

theorem returnAccessError (sp : Long) (sr : Word) (pc : Long) : Keeps (returnAccessError sp sr pc) :=
  (readInternal _ _).bind fun _ => (readInternal _ _).bind fun _ =>
    ite (ite (refuse _) (pendingException _ _ _ _ _)) (ite (ite (refuse _) (pendingException _ _ _ _ _))
      (ite ((popFrame _ _ _ _).bind fun _ => (setMovem _).bind fun _ => pure _) (popFrame _ _ _ _)))

theorem returnLoop (n : Nat) : Keeps (returnLoop n) := by
  induction n with
  | zero => exact throw _
  | succ n ih =>
    refine looked fun _ => (readMem _ _).bind fun _ => (readMem _ _).bind fun _ => (readMem _ _).bind fun _ => ?_
    split
    · exact popFrame _ _ _ _
    · exact (setSp _).bind fun _ => (loadSr _).bind fun _ => ih
    · exact popFrame _ _ _ _
    · exact popFrame _ _ _ _
    · exact popFrame _ _ _ _
    · exact returnAccessError _ _ _
    · exact throw _

/-! ## Floating-point words -/

theorem fetchStopped (f : Option FetchStop) : Keeps (fetchStopped f : Exec α) := by
  unfold Machine.fetchStopped
  split
  · exact ⟨fun _ h => h⟩
  · exact refuse _
  · exact refuse _

theorem fpMissing (w : BitVec 9) (words : List Word) (stop : Option FetchStop) :
    Keeps (fpMissing w words stop : Exec α) := by
  unfold Machine.fpMissing
  split
  · exact (pointerRead _ _ _).bind fun _ => fetchStopped stop
  · exact fetchStopped stop

theorem fpAddress (w : BitVec 9) (words : List Word) (stop : Option FetchStop) (bytes : Nat) :
    Keeps (fpAddress w words stop bytes) := by
  unfold Machine.fpAddress
  split
  · exact fpMissing _ _ _
  · exact refuse _
  · exact pure _
  · exact pure _
  · exact pure _
  · exact eaAddress _ _ _

end Keeps

end Sys2Proof.Machine
end


section
/-! PROOF. Every step keeps the invariant: what entering an exception and ending an instruction leave, each instruction by
its body, then the cycle of the machine. -/

namespace Sys2Proof.Machine

open Sys2Proof Sys2Proof.Claim

variable {s t : State} {i : Instr}

/-! ## Exceptions -/

/-- An outcome whose next state, if there is one, meets the invariant. -/
def OutInv (o : Out) : Prop := ∀ t, o = .next t → Inv t

theorem OutInv.next (h : Inv s) : OutInv (.next s) := fun _ he => by
  cases he
  exact h

theorem OutInv.refused (r : Refusal) : OutInv (.refused r) := fun _ he => by cases he

theorem OutInv.fault (r : Fault) : OutInv (.fault r) := fun _ he => by cases he

theorem Sound.inv (h : Sound s) (hpc : s.pc.getLsbD 0 = false) : Inv s := inv_iff.mpr ⟨h, fun _ => hpc⟩

theorem Sound.inv_halted (h : Sound s) : Inv { s with run := .halted } :=
  inv_iff.mpr ⟨h.congr rfl, fun hr => by rcases hr with hr | hr <;> cases hr⟩

/-- How the bus cycles of an exception end: in a sound state, and where the handler is reached in one that meets `P`. -/
def Entered.Meets (P : State → Prop) : Entered → Prop
  | .ok t => P t
  | .fault _ t => Sound t
  | .odd t _ => Sound t
  | .refused _ => True

/-- A state at a handler. -/
def AtHandler (t : State) : Prop := Sound t ∧ t.pc.getLsbD 0 = false

theorem Entered.Meets.andThen {e : Entered} {f : State → Entered} {P : State → Prop} (he : e.Meets Sound)
    (hf : ∀ t, Sound t → (f t).Meets P) : (e.andThen f).Meets P := by
  cases e with
  | ok t => exact hf t he
  | fault f t => exact he
  | odd t a => exact he
  | refused r => exact he

theorem Sound.stackFrame (h : Sound s) (fs : List Field) : (stackFrame s fs).Meets Sound := by
  have hsp (v : Long) : Sound (s.setSp v) := h.congr (checked_setSp s v)
  have hr (ws : List Store) (v : Long) := (hsp v).writeEffect (WriteEffect.runStores ws (s.setSp v))
  unfold Machine.stackFrame
  simp only
  split
  · exact h
  · split
    · trivial
    · split <;> exact hr _ _

theorem Sound.jumpVector (h : Sound s) (vec : BitVec 8) : (jumpVector s vec).Meets AtHandler := by
  obtain ⟨b, n, hb⟩ := readBus_state s 5 .long (vectorAddress s vec)
  have hs : Sound { s with bus := b, draws := n } := h.congr rfl
  unfold Machine.jumpVector
  simp only
  split
  · exact h
  · split
    · trivial
    · split
      next u hu =>
        obtain rfl : u = _ := (congrArg Prod.snd hu).symm.trans hb
        exact hs
      next v u hu =>
        obtain rfl : u = _ := (congrArg Prod.snd hu).symm.trans hb
        have hread : Sound (afterRead { s with bus := b, draws := n } 5 (vectorAddress s vec) 4) :=
          hs.writeEffect (WriteEffect.afterRead _ _ _ _)
        split
        · exact hread
        · next he => exact ⟨hread.congr rfl, Bool.eq_false_iff.mpr he⟩

theorem Sound.enter (h : Sound s) (vec : BitVec 8) (fmt : BitVec 4) (p : Long) (extra : List Field) :
    (enter s vec fmt p extra).Meets AtHandler :=
  (Sound.stackFrame (h.withSr (t := entryState s) (srOk_srException h.sr.bits) rfl) _).andThen fun _ ht => ht.jumpVector vec

theorem Entered.Meets.orHalt {e : Entered} (he : e.Meets AtHandler) (hs : Sound s) : OutInv (e.orHalt s) := by
  have hh (b : List BusAccess) : OutInv (haltedFrom { s with bus := b }) :=
    .next (Sound.inv_halted (hs.congr rfl))
  cases e with
  | ok t => exact .next (he.1.inv he.2)
  | fault f t => exact hh _
  | odd t a => exact hh _
  | refused r => exact .refused r

theorem Sound.takeAccessError (h : Sound s) (p : Long) (f : AccessFault) (k : Continuation) (owed : List AccessFault) :
    OutInv (takeAccessError s p f k owed) :=
  (Sound.enter (s := { s with draws := s.draws + frameDraws }) (h.congr rfl) _ _ _ _).orHalt h

theorem Sound.takeAddressError (h : Sound s) (pc0 a : Long) : OutInv (takeAddressError s pc0 a) :=
  (h.enter _ _ _ _).orHalt h

theorem Sound.undone (h : Sound s) (t : State) : Sound (s.undone t) := h.congr rfl

theorem Entered.Meets.orErrors {e : Entered} (he : e.Meets AtHandler) (hs : Sound s) (p pc0 : Long) (k : Continuation) :
    OutInv (e.orErrors s p pc0 k) := by
  cases e with
  | ok t => exact .next (he.1.inv he.2)
  | refused r => exact .refused r
  | fault f t => exact (hs.undone t).takeAccessError p f k []
  | odd t a => exact Sound.takeAddressError he pc0 a

theorem Sound.traceIf (h : Sound s) (hpc : s.pc.getLsbD 0 = false) (b : Bool) (pc0 : Long) : OutInv (traceIf b pc0 s) := by
  unfold Machine.traceIf
  split
  · exact (h.enter _ _ _ _).orErrors h _ _ _
  · exact .next (h.inv hpc)

theorem Sound.takePre {before : State} (h : Sound s) (hb : Sound before) (vec : BitVec 8) : OutInv (takePre before s vec) :=
  (h.enter _ _ _ _).orErrors hb _ _ _

theorem Sound.takeTrap {before : State} (h : Sound s) (hb : Sound before) (pcn : Long) (vec : BitVec 8) (pointer : Bool) :
    OutInv (takeTrap before s pcn vec pointer) := by
  have he : (if pointer then Machine.enter s vec 2 pcn [longField before.pc] else Machine.enter s vec 0 pcn []).Meets AtHandler := by
    split
    · exact h.enter _ _ _ _
    · exact h.enter _ _ _ _
  unfold Machine.takeTrap
  simp only
  split
  next t ht =>
    rw [ht] at he
    exact he.1.traceIf he.2 _ _
  next => exact he.orErrors hb _ _ _

theorem Sound.takeFp {before : State} (h : Sound s) (next ea : Long) :
    OutInv (takeFp before s next ea) := (h.enter _ _ _ _).orErrors h _ _ _

/-! ## The end of an instruction -/

theorem even_nextPc (h : s.pc.getLsbD 0 = false) (i : Instr) : (nextPc i s).getLsbD 0 = false := by
  have hp : s.pc.toNat % 2 = 0 := by
    simpa [BitVec.getLsbD, Nat.testBit_zero] using h
  have hn : (nextPc i s).toNat % 2 = 0 := by
    unfold nextPc Instr.bytes
    rw [BitVec.toNat_add, BitVec.toNat_ofNat]
    omega
  simp [BitVec.getLsbD, Nat.testBit_zero, hn]

theorem Sound.finish {before : State} (h : Sound s) {pcn : Long} (hpc : pcn.getLsbD 0 = false) (d : Done) :
    OutInv (finish before pcn d s) := by
  cases d with
  | seq => exact Sound.traceIf (s := { s with pc := pcn }) (h.congr rfl) hpc _ _
  | sr => exact Sound.traceIf (s := { s with pc := pcn, stalePipe := [] }) (h.congr rfl) hpc _ _
  | jump a =>
    unfold Machine.finish
    simp only
    split
    · exact h.takeAddressError _ _
    · next ha => exact Sound.traceIf (s := { s with pc := a, stalePipe := [] }) (h.congr rfl) (Bool.eq_false_iff.mpr ha) _ _
  | stop =>
    have hnext : Sound { s with pc := pcn, stalePipe := [] } := h.congr rfl
    unfold Machine.finish
    simp only
    split
    · exact (hnext.enter _ _ _ _).orErrors hnext _ _ _
    · exact .next (Sound.inv (h.congr rfl) hpc)

theorem Sound.abort {before : State} (h : Sound s) (hb : Sound before) (pcn : Long) (e : Abort) :
    OutInv (abort before pcn e s) := by
  cases e with
  | restart f => exact (hb.undone s).takeAccessError _ _ _ _
  | write f more d => exact h.takeAccessError _ _ _ _
  | again f more => exact h.takeAccessError _ _ _ _
  | movem f ea => exact h.takeAccessError _ _ _ _
  | pre vec => exact h.takePre (hb.undone s) vec
  | trap vec pointer => exact h.takeTrap hb pcn vec pointer
  | fp next ea => exact h.takeFp next ea
  | address a => exact h.takeAddressError _ _
  | halt => exact .next (hb.undone s).inv_halted
  | refuse r => exact .refused r
  | fault r => exact .fault r

/-! ## The instructions -/

/-- An instruction keeps the invariant where it begins at an even PC. -/
def ExecKeeps (i : Instr) : Prop := ∀ s, Sound s → s.pc.getLsbD 0 = false → OutInv (exec i s)

theorem execKeeps_of_body {body : Exec Done} (hexec : ∀ s, exec i s = complete i body s) (hb : Keeps body) :
    ExecKeeps i := by
  intro s hs hpc
  have h := hb.sound s hs
  rw [hexec]
  unfold complete
  split
  next d t ht =>
    rw [ht] at h
    exact Sound.finish h (even_nextPc hpc i) d
  next e t ht =>
    rw [ht] at h
    exact Sound.abort h hs _ e

/-- The invalidation of lines in one cache or the other, where the selector names it. -/
theorem keeps_cinv (sel : CacheSel) (scope : CacheScope) (a : Long) : Keeps (do
    if selectsData sel then change fun s => invalidateData s scope a
    if selectsInstr sel then change fun s => invalidateInstr s scope a
    return .seq : Exec Done) :=
  have hdata : Keeps (change fun s => invalidateData s scope a) := .change fun _ h => h.invalidateData scope a
  have hinstr : Keeps (change fun s => invalidateInstr s scope a) := .change fun _ h => h.invalidateInstr scope a
  .ite (hdata.bind fun _ => .ite (hinstr.bind fun _ => .pure _) (.pure _)) (.ite (hinstr.bind fun _ => .pure _) (.pure _))

theorem keeps_fpLine (w : BitVec 9) : ExecKeeps (.fpLine w) := by
  refine execKeeps_of_body (fun _ => rfl) (.looked fun r => .ite (.throw _) (.ite (.fetchStopped _) ?_))
  split
  · exact .throw _
  · refine .ite (.ite (.fpMissing _ _ _) (.fetchStopped _)) (.looked fun p => ?_)
    split
    · exact (Keeps.pure _).bind fun _ => .throw _
    · exact (Keeps.fpAddress ..).bind fun _ => .throw _

theorem execKeeps (i : Instr) : ExecKeeps i := by
  cases i with
  | ori sz v e => exact execKeeps_of_body (fun _ => rfl) <| .immToEa ..
  | andi sz v e => exact execKeeps_of_body (fun _ => rfl) <| .immToEa ..
  | subi sz v e => exact execKeeps_of_body (fun _ => rfl) <| .immToEa ..
  | addi sz v e => exact execKeeps_of_body (fun _ => rfl) <| .immToEa ..
  | eori sz v e => exact execKeeps_of_body (fun _ => rfl) <| .immToEa ..
  | oriCcr v => exact execKeeps_of_body (fun _ => rfl) <| .immToCcr ..
  | andiCcr v => exact execKeeps_of_body (fun _ => rfl) <| .immToCcr ..
  | eoriCcr v => exact execKeeps_of_body (fun _ => rfl) <| .immToCcr ..
  | oriSr v => exact execKeeps_of_body (fun _ => rfl) <| .immToSr _
  | andiSr v => exact execKeeps_of_body (fun _ => rfl) <| .immToSr _
  | eoriSr v => exact execKeeps_of_body (fun _ => rfl) <| .immToSr _
  | cmpi sz v e => exact execKeeps_of_body (fun _ => rfl) <| (Keeps.readEa ..).bind fun _ => .compare ..
  | btstImm n e => exact execKeeps_of_body (fun _ => rfl) <| .bitTest ..
  | btstReg d e => exact execKeeps_of_body (fun _ => rfl) <| .looked fun _ => .bitTest ..
  | bchgImm n e => exact execKeeps_of_body (fun _ => rfl) <| .bitModify ..
  | bchgReg d e => exact execKeeps_of_body (fun _ => rfl) <| .looked fun _ => .bitModify ..
  | bclrImm n e => exact execKeeps_of_body (fun _ => rfl) <| .bitModify ..
  | bclrReg d e => exact execKeeps_of_body (fun _ => rfl) <| .looked fun _ => .bitModify ..
  | bsetImm n e => exact execKeeps_of_body (fun _ => rfl) <| .bitModify ..
  | bsetReg d e => exact execKeeps_of_body (fun _ => rfl) <| .looked fun _ => .bitModify ..
  | movep op dx ay d =>
    refine execKeeps_of_body (fun _ => rfl) (.looked fun _ => ?_)
    cases op with
    | wordToReg => exact (Keeps.readMem ..).bind fun _ => (Keeps.readMem ..).bind fun _ => (Keeps.putD ..).bind fun _ => .pure _
    | longToReg =>
      exact (Keeps.readMem ..).bind fun _ => (Keeps.readMem ..).bind fun _ => (Keeps.readMem ..).bind fun _ =>
        (Keeps.readMem ..).bind fun _ => (Keeps.putD ..).bind fun _ => .pure _
    | wordToMem => exact (Keeps.getD ..).bind fun _ => .looked fun _ => .storeAll ..
    | longToMem => exact (Keeps.getD ..).bind fun _ => .looked fun _ => .storeAll ..
  | cmp2 sz rn e => exact execKeeps_of_body (fun _ => rfl) <| (Keeps.compareBounds ..).bind fun _ => .pure _
  | chk2 sz rn e =>
    exact execKeeps_of_body (fun _ => rfl) <| (Keeps.compareBounds ..).bind fun _ =>
      Keeps.getFlags.bind fun _ => .ite (.throw _) (.pure _)
  | cas sz dc du e =>
    exact execKeeps_of_body (fun _ => rfl) <| (Keeps.eaAddress ..).bind fun _ => .looked fun _ =>
      (Keeps.readCycle ..).bind fun _ => (Keeps.getD ..).bind fun _ => .flagged (.ite
        ((Keeps.getD ..).bind fun _ => .store ..) ((Keeps.putD ..).bind fun _ => .store ..))
  | cas2 sz o1 o2 =>
    exact execKeeps_of_body (fun _ => rfl) <| .ite (.refuse _) <| .looked fun _ => .looked fun _ => .looked fun _ =>
      (Keeps.readCycle ..).bind fun _ => (Keeps.readCycle ..).bind fun _ => (Keeps.getD ..).bind fun _ =>
        (Keeps.getD ..).bind fun _ => .flagged (.ite
          ((Keeps.getD ..).bind fun _ => (Keeps.getD ..).bind fun _ => .storeAll ..)
          ((Keeps.putD ..).bind fun _ => (Keeps.putD ..).bind fun _ => .store ..))
  | moves sz m rn e =>
    exact execKeeps_of_body (fun _ => rfl) <| Keeps.needSupervisor.bind fun _ => .looked fun _ =>
      (Keeps.eaAddress ..).bind fun _ => .ite
        ((Keeps.movesValue ..).bind fun _ => .looked fun _ => .store ..)
        (.looked fun _ => (Keeps.readCycle ..).bind fun _ => .ite ((Keeps.setGreg ..).bind fun _ => .pure _)
          ((Keeps.setGreg ..).bind fun _ => .pure _))
  | move sz src dst =>
    exact execKeeps_of_body (fun _ => rfl) <| (Keeps.readEa ..).bind fun _ => (Keeps.operand ..).bind fun _ => .ite
      (Keeps.drawBit.bind fun _ => (Keeps.readEa ..).bind fun _ => (Keeps.pure _).bind fun _ => .flagged (.writeLoc ..))
      ((Keeps.pure _).bind fun _ => .flagged (.writeLoc ..))
  | movea sz an e => exact execKeeps_of_body (fun _ => rfl) <| (Keeps.addressSource ..).bind fun _ => (Keeps.putA ..).bind fun _ => .pure _
  | negx sz e => exact execKeeps_of_body (fun _ => rfl) <| .onEa ..
  | neg sz e => exact execKeeps_of_body (fun _ => rfl) <| .onEa ..
  | not sz e => exact execKeeps_of_body (fun _ => rfl) <| .onEa ..
  | clr sz e => exact execKeeps_of_body (fun _ => rfl) <| (Keeps.operand ..).bind fun _ => .flagged (.writeLoc ..)
  | moveFromSr e => exact execKeeps_of_body (fun _ => rfl) <| Keeps.needSupervisor.bind fun _ => .looked fun _ => .writeEa ..
  | moveFromCcr e => exact execKeeps_of_body (fun _ => rfl) <| Keeps.getFlags.bind fun _ => .writeEa ..
  | moveToCcr e => exact execKeeps_of_body (fun _ => rfl) <| (Keeps.readEa ..).bind fun _ => .flagged (.pure _)
  | moveToSr e =>
    exact execKeeps_of_body (fun _ => rfl) <| Keeps.needSupervisor.bind fun _ => (Keeps.readEa ..).bind fun _ =>
      (Keeps.loadSr _).bind fun _ => .pure _
  | nbcd e => exact execKeeps_of_body (fun _ => rfl) <| .rmwEa _ _ fun _ => Keeps.getFlags.bind fun _ => .bcdResult ..
  | linkL an d => exact execKeeps_of_body (fun _ => rfl) <| .link ..
  | linkW an d => exact execKeeps_of_body (fun _ => rfl) <| .link ..
  | swap dn =>
    exact execKeeps_of_body (body := do
        let v ← getD .long dn
        putD .long dn (loWord v ++ hiWord v)
        setFlags (logicFlags (loWord v ++ hiWord v))
        return .seq)
      (fun _ => rfl) ((Keeps.getD ..).bind fun _ => (Keeps.putD ..).bind fun _ => .flagged (.pure _))
  | bkpt v => exact execKeeps_of_body (fun _ => rfl) <| (Keeps.emit _).bind fun _ => .illegal
  | pea e => exact execKeeps_of_body (fun _ => rfl) <| (Keeps.eaAddress ..).bind fun _ => .pushLong ..
  | extW dn => exact execKeeps_of_body (fun _ => rfl) <| .extend ..
  | extL dn => exact execKeeps_of_body (fun _ => rfl) <| .extend ..
  | extbL dn => exact execKeeps_of_body (fun _ => rfl) <| .extend ..
  | movemToMem sz mask e =>
    refine execKeeps_of_body (fun _ => rfl) ?_
    split
    · exact (Keeps.setMovem _).bind fun _ => (Keeps.getA _).bind fun _ => (Keeps.movemStoreDown ..).bind fun _ =>
        (Keeps.putA ..).bind fun _ => .pure _
    · exact (Keeps.movemAddress ..).bind fun _ => (Keeps.movemStore ..).bind fun _ => .pure _
  | movemToReg sz mask e =>
    refine execKeeps_of_body (fun _ => rfl) ?_
    split
    · exact (Keeps.setMovem _).bind fun _ => (Keeps.getA _).bind fun _ => (Keeps.movemLoad ..).bind fun _ =>
        (Keeps.putA ..).bind fun _ => .pure _
    · exact (Keeps.movemAddress ..).bind fun _ => (Keeps.movemLoad ..).bind fun _ => .pure _
  | tst sz e => exact execKeeps_of_body (fun _ => rfl) <| (Keeps.readEa ..).bind fun _ => .flagged (.pure _)
  | tas e =>
    refine execKeeps_of_body (fun _ => rfl) ?_
    split
    · exact (Keeps.getD ..).bind fun _ => .flagged ((Keeps.putD ..).bind fun _ => .pure _)
    · exact (Keeps.eaAddress ..).bind fun _ => .looked fun _ => (Keeps.readCycle ..).bind fun _ => .flagged (.store ..)
  | illegal => exact execKeeps_of_body (fun _ => rfl) <| .illegal
  | muluL dl dh wide e => exact execKeeps_of_body (fun _ => rfl) <| .multiplyLong ..
  | mulsL dl dh wide e => exact execKeeps_of_body (fun _ => rfl) <| .multiplyLong ..
  | divuL dq dr wide e =>
    exact execKeeps_of_body (fun _ => rfl) <| .ite (.refuse _) <| (Keeps.readEa ..).bind fun _ =>
      .ite .zeroDivide (.looked fun _ => .divideLong ..)
  | divsL dq dr wide e =>
    exact execKeeps_of_body (fun _ => rfl) <| .ite (.refuse _) <| (Keeps.readEa ..).bind fun _ =>
      .ite .zeroDivide (.looked fun _ => .divideLong ..)
  | trap n =>
    exact execKeeps_of_body (body := throw (.trap (32 + n.setWidth 8) false))
      (fun _ => rfl) (.throw _)
  | unlk an =>
    exact execKeeps_of_body (fun _ => rfl) <| .ite (.refuse _) <| (Keeps.getA _).bind fun _ => (Keeps.readMem ..).bind fun _ =>
      (Keeps.setSp _).bind fun _ => (Keeps.putA ..).bind fun _ => .pure _
  | moveToUsp an => exact execKeeps_of_body (fun _ => rfl) <| Keeps.needSupervisor.bind fun _ => (Keeps.quiet (f := fun s => { s with usp := s.areg an }) fun _ => rfl).bind fun _ => .pure _
  | moveFromUsp an =>
    exact execKeeps_of_body (fun _ => rfl) <| Keeps.needSupervisor.bind fun _ => .looked fun _ =>
      (Keeps.putA ..).bind fun _ => .pure _
  | reset => exact execKeeps_of_body (fun _ => rfl) <| Keeps.needSupervisor.bind fun _ => (Keeps.emit _).bind fun _ => .pure _
  | nop =>
    exact execKeeps_of_body (body := pure .seq)
      (fun _ => rfl) (.pure _)
  | stop v => exact execKeeps_of_body (fun _ => rfl) <| Keeps.needSupervisor.bind fun _ => (Keeps.loadSr _).bind fun _ => .pure _
  | rte => exact execKeeps_of_body (fun _ => rfl) <| Keeps.needSupervisor.bind fun _ => .returnLoop _
  | rtd d => exact execKeeps_of_body (fun _ => rfl) <| Keeps.popLong.bind fun _ => (Keeps.setSp _).bind fun _ => .pure _
  | rts => exact execKeeps_of_body (fun _ => rfl) <| Keeps.popLong.bind fun _ => .pure _
  | trapv => exact execKeeps_of_body (fun _ => rfl) <| Keeps.getFlags.bind fun _ => .ite (.throw _) (.pure _)
  | rtr => exact execKeeps_of_body (fun _ => rfl) <| Keeps.popWord.bind fun _ => .flagged (Keeps.popLong.bind fun _ => .pure _)
  | movecFrom rn code =>
    exact execKeeps_of_body (fun _ => rfl) <| (Keeps.checkControl _).bind fun _ => (Keeps.readControl _).bind fun _ =>
      (Keeps.setGreg ..).bind fun _ => .pure _
  | movecTo rn code =>
    exact execKeeps_of_body (fun _ => rfl) <| (Keeps.checkControl _).bind fun _ => .looked fun _ =>
      (Keeps.writeControl ..).bind fun _ => .pure _
  | jsr e => exact execKeeps_of_body (fun _ => rfl) <| (Keeps.eaAddress ..).bind fun _ => .looked fun _ => .pushLong ..
  | jmp e => exact execKeeps_of_body (fun _ => rfl) <| (Keeps.eaAddress ..).bind fun _ => .pure _
  | chkW dn e => exact execKeeps_of_body (fun _ => rfl) <| (Keeps.readEa ..).bind fun _ => (Keeps.getD ..).bind fun _ => .checkBound ..
  | chkL dn e => exact execKeeps_of_body (fun _ => rfl) <| (Keeps.readEa ..).bind fun _ => (Keeps.getD ..).bind fun _ => .checkBound ..
  | lea an e => exact execKeeps_of_body (fun _ => rfl) <| (Keeps.eaAddress ..).bind fun _ => (Keeps.putA ..).bind fun _ => .pure _
  | addq sz q e =>
    refine execKeeps_of_body (fun _ => rfl) ?_
    split
    · exact (Keeps.setAreg ..).bind fun _ => .pure _
    · exact .rmwEa _ _ fun _ => .flagged (.pure _)
  | subq sz q e =>
    refine execKeeps_of_body (fun _ => rfl) ?_
    split
    · exact (Keeps.setAreg ..).bind fun _ => .pure _
    · exact .rmwEa _ _ fun _ => .flagged (.pure _)
  | scc c e => exact execKeeps_of_body (fun _ => rfl) <| Keeps.getFlags.bind fun _ => .writeEa ..
  | dbcc c dn d =>
    exact execKeeps_of_body (fun _ => rfl) <| .looked fun _ => Keeps.getFlags.bind fun _ => .ite (.ite (.refuse _) (.pure _))
      ((Keeps.getD ..).bind fun _ => (Keeps.putD ..).bind fun _ => .ite (.pure _) (.ite (.refuse _) (.pure _)))
  | trapcc c op => exact execKeeps_of_body (fun _ => rfl) <| Keeps.getFlags.bind fun _ => .ite (.throw _) (.pure _)
  | bra d =>
    exact execKeeps_of_body (body := do
        let t ← look fun s => branchTarget s (BranchDisp.value d)
        return .jump t)
      (fun _ => rfl) (.looked fun _ => .pure _)
  | bsr d => exact execKeeps_of_body (fun _ => rfl) <| .looked fun _ => .looked fun _ => .pushLong ..
  | bcc c d => exact execKeeps_of_body (fun _ => rfl) <| .looked fun _ => Keeps.getFlags.bind fun _ => .ite (.throw _) (.ite (.pure _) (.pure _))
  | moveq dn d =>
    exact execKeeps_of_body (body := do
        putD .long dn (sext d)
        setFlags (logicFlags (sext d))
        return .seq)
      (fun _ => rfl) ((Keeps.putD ..).bind fun _ => .flagged (.pure _))
  | orEaDnB dn e => exact execKeeps_of_body (fun _ => rfl) <| .eaToD ..
  | orDnEaB dn e => exact execKeeps_of_body (fun _ => rfl) <| .dToEa ..
  | orEaDnW dn e => exact execKeeps_of_body (fun _ => rfl) <| .eaToD ..
  | orDnEaW dn e => exact execKeeps_of_body (fun _ => rfl) <| .dToEa ..
  | orEaDnL dn e => exact execKeeps_of_body (fun _ => rfl) <| .eaToD ..
  | orDnEaL dn e => exact execKeeps_of_body (fun _ => rfl) <| .dToEa ..
  | subEaDnB dn e => exact execKeeps_of_body (fun _ => rfl) <| .eaToD ..
  | subDnEaB dn e => exact execKeeps_of_body (fun _ => rfl) <| .dToEa ..
  | subEaDnW dn e => exact execKeeps_of_body (fun _ => rfl) <| .eaToD ..
  | subDnEaW dn e => exact execKeeps_of_body (fun _ => rfl) <| .dToEa ..
  | subEaDnL dn e => exact execKeeps_of_body (fun _ => rfl) <| .eaToD ..
  | subDnEaL dn e => exact execKeeps_of_body (fun _ => rfl) <| .dToEa ..
  | andEaDnB dn e => exact execKeeps_of_body (fun _ => rfl) <| .eaToD ..
  | andDnEaB dn e => exact execKeeps_of_body (fun _ => rfl) <| .dToEa ..
  | andEaDnW dn e => exact execKeeps_of_body (fun _ => rfl) <| .eaToD ..
  | andDnEaW dn e => exact execKeeps_of_body (fun _ => rfl) <| .dToEa ..
  | andEaDnL dn e => exact execKeeps_of_body (fun _ => rfl) <| .eaToD ..
  | andDnEaL dn e => exact execKeeps_of_body (fun _ => rfl) <| .dToEa ..
  | addEaDnB dn e => exact execKeeps_of_body (fun _ => rfl) <| .eaToD ..
  | addDnEaB dn e => exact execKeeps_of_body (fun _ => rfl) <| .dToEa ..
  | addEaDnW dn e => exact execKeeps_of_body (fun _ => rfl) <| .eaToD ..
  | addDnEaW dn e => exact execKeeps_of_body (fun _ => rfl) <| .dToEa ..
  | addEaDnL dn e => exact execKeeps_of_body (fun _ => rfl) <| .eaToD ..
  | addDnEaL dn e => exact execKeeps_of_body (fun _ => rfl) <| .dToEa ..
  | eorB dn e => exact execKeeps_of_body (fun _ => rfl) <| .dToEa ..
  | eorW dn e => exact execKeeps_of_body (fun _ => rfl) <| .dToEa ..
  | eorL dn e => exact execKeeps_of_body (fun _ => rfl) <| .dToEa ..
  | cmpB dn e => exact execKeeps_of_body (fun _ => rfl) <| (Keeps.readEa ..).bind fun _ => (Keeps.getD ..).bind fun _ => .compare ..
  | cmpW dn e => exact execKeeps_of_body (fun _ => rfl) <| (Keeps.readEa ..).bind fun _ => (Keeps.getD ..).bind fun _ => .compare ..
  | cmpL dn e => exact execKeeps_of_body (fun _ => rfl) <| (Keeps.readEa ..).bind fun _ => (Keeps.getD ..).bind fun _ => .compare ..
  | divuW dn e =>
    exact execKeeps_of_body (fun _ => rfl) <| (Keeps.readEa ..).bind fun _ => .ite .zeroDivide
      ((Keeps.getD ..).bind fun _ => .divideWord ..)
  | divsW dn e =>
    exact execKeeps_of_body (fun _ => rfl) <| (Keeps.readEa ..).bind fun _ => .ite .zeroDivide
      ((Keeps.getD ..).bind fun _ => .divideWord ..)
  | muluW dn e => exact execKeeps_of_body (fun _ => rfl) <| .multiplyWord ..
  | mulsW dn e => exact execKeeps_of_body (fun _ => rfl) <| .multiplyWord ..
  | sbcd mem x y => exact execKeeps_of_body (fun _ => rfl) <| .decimal ..
  | abcd mem x y => exact execKeeps_of_body (fun _ => rfl) <| .decimal ..
  | pack mem x y adj =>
    exact execKeeps_of_body (fun _ => rfl) <| .packForm mem x y (.ite
      ((Keeps.moveDown ..).bind fun _ => (Keeps.readMem ..).bind fun _ => (Keeps.readMem ..).bind fun _ =>
        (Keeps.moveDown ..).bind fun _ => .writeMem ..)
      ((Keeps.getD ..).bind fun _ => (Keeps.putD ..).bind fun _ => .pure _))
  | unpk mem x y adj =>
    exact execKeeps_of_body (fun _ => rfl) <| .packForm mem x y (.ite
      ((Keeps.moveDown ..).bind fun _ => (Keeps.readMem ..).bind fun _ => (Keeps.moveDown ..).bind fun _ =>
        .looked fun _ => .storeAll ..)
      ((Keeps.getD ..).bind fun _ => (Keeps.putD ..).bind fun _ => .pure _))
  | suba sz an e => exact execKeeps_of_body (fun _ => rfl) <| (Keeps.addressSource ..).bind fun _ => (Keeps.setAreg ..).bind fun _ => .pure _
  | adda sz an e => exact execKeeps_of_body (fun _ => rfl) <| (Keeps.addressSource ..).bind fun _ => (Keeps.setAreg ..).bind fun _ => .pure _
  | cmpa sz an e => exact execKeeps_of_body (fun _ => rfl) <| (Keeps.addressSource ..).bind fun _ => (Keeps.getA _).bind fun _ => .compare ..
  | subx sz mem x y => exact execKeeps_of_body (fun _ => rfl) <| .extended ..
  | addx sz mem x y => exact execKeeps_of_body (fun _ => rfl) <| .extended ..
  | aline w =>
    exact execKeeps_of_body (body := throw (.pre 10))
      (fun _ => rfl) (.throw _)
  | cmpm sz x y => exact execKeeps_of_body (fun _ => rfl) <| (Keeps.readEa ..).bind fun _ => (Keeps.readEa ..).bind fun _ => .compare ..
  | exgDD x y => exact execKeeps_of_body (fun _ => rfl) <| .exchange ..
  | exgAA x y => exact execKeeps_of_body (fun _ => rfl) <| .exchange ..
  | exgDA x y => exact execKeeps_of_body (fun _ => rfl) <| .exchange ..
  | aslReg sz n y => exact execKeeps_of_body (fun _ => rfl) <| .shiftRegister ..
  | aslMem e => exact execKeeps_of_body (fun _ => rfl) <| .shiftMemory ..
  | asrReg sz n y => exact execKeeps_of_body (fun _ => rfl) <| .shiftRegister ..
  | asrMem e => exact execKeeps_of_body (fun _ => rfl) <| .shiftMemory ..
  | lslReg sz n y => exact execKeeps_of_body (fun _ => rfl) <| .shiftRegister ..
  | lslMem e => exact execKeeps_of_body (fun _ => rfl) <| .shiftMemory ..
  | lsrReg sz n y => exact execKeeps_of_body (fun _ => rfl) <| .shiftRegister ..
  | lsrMem e => exact execKeeps_of_body (fun _ => rfl) <| .shiftMemory ..
  | roxlReg sz n y => exact execKeeps_of_body (fun _ => rfl) <| .shiftRegister ..
  | roxlMem e => exact execKeeps_of_body (fun _ => rfl) <| .shiftMemory ..
  | roxrReg sz n y => exact execKeeps_of_body (fun _ => rfl) <| .shiftRegister ..
  | roxrMem e => exact execKeeps_of_body (fun _ => rfl) <| .shiftMemory ..
  | rolReg sz n y => exact execKeeps_of_body (fun _ => rfl) <| .shiftRegister ..
  | rolMem e => exact execKeeps_of_body (fun _ => rfl) <| .shiftMemory ..
  | rorReg sz n y => exact execKeeps_of_body (fun _ => rfl) <| .shiftRegister ..
  | rorMem e => exact execKeeps_of_body (fun _ => rfl) <| .shiftMemory ..
  | bftst bf e => exact execKeeps_of_body (fun _ => rfl) <| (Keeps.findField ..).bind fun _ => .flagged (.pure _)
  | bfextu dn bf e => exact execKeeps_of_body (fun _ => rfl) <| .extractField ..
  | bfexts dn bf e => exact execKeeps_of_body (fun _ => rfl) <| .extractField ..
  | bfffo dn bf e => exact execKeeps_of_body (fun _ => rfl) <| .extractField ..
  | bfchg bf e => exact execKeeps_of_body (fun _ => rfl) <| .modifyField ..
  | bfclr bf e => exact execKeeps_of_body (fun _ => rfl) <| .modifyField ..
  | bfset bf e => exact execKeeps_of_body (fun _ => rfl) <| .modifyField ..
  | bfins dn bf e => exact execKeeps_of_body (fun _ => rfl) <| (Keeps.findField ..).bind fun _ => (Keeps.getD ..).bind fun _ => .flagged (.putField ..)
  | cinv sel scope an => exact execKeeps_of_body (fun _ => rfl) <| Keeps.needSupervisor.bind fun _ => (Keeps.getA _).bind fun _ => keeps_cinv ..
  | cpush sel scope an =>
    exact execKeeps_of_body (fun _ => rfl) <| Keeps.needSupervisor.bind fun _ => (Keeps.getA _).bind fun _ =>
      (Keeps.pushCaches ..).bind fun _ => .pure _
  | pflush op an => exact execKeeps_of_body (fun _ => rfl) <| .refuse _
  | ptest rd an => exact execKeeps_of_body (fun _ => rfl) <| .refuse _
  | move16Abs op ay a =>
    refine execKeeps_of_body (fun _ => rfl) ((Keeps.getA _).bind fun _ => ?_)
    cases op with
    | postIncToAbs => exact (Keeps.readLine _).bind fun _ => (Keeps.putA ..).bind fun _ => .writeLine ..
    | absToPostInc => exact (Keeps.readLine _).bind fun _ => (Keeps.putA ..).bind fun _ => .writeLine ..
    | indToAbs => exact (Keeps.readLine _).bind fun _ => .writeLine ..
    | absToInd => exact (Keeps.readLine _).bind fun _ => .writeLine ..
  | move16Pi ax ay =>
    exact execKeeps_of_body (fun _ => rfl) <| .ite (.refuse _) <| (Keeps.getA _).bind fun _ => (Keeps.getA _).bind fun _ =>
      (Keeps.readLine _).bind fun _ => (Keeps.putA ..).bind fun _ => (Keeps.putA ..).bind fun _ => .writeLine ..
  | fpLine w => exact keeps_fpLine w
  | fline w =>
    exact execKeeps_of_body (body := throw (.pre 11))
      (fun _ => rfl) (.throw _)

end Sys2Proof.Machine
end


section
/-! PROOF. Every step keeps the invariant: reset, interrupts and the cycle of the machine. -/

namespace Sys2Proof.Machine

open Sys2Proof Sys2Proof.Claim

variable {s t : State} {i : Instr}

/-! ## Reset -/

theorem within_resetAcr (n : Nat) : Within (resetAcr n) acrImplemented :=
  (within_and_self (Config.freeLong n) acrImplemented).and _

theorem Sound.resetRegisters (h : Sound s) : Sound (resetRegisters s) := by
  have hc : Sound (Machine.cacheControl s fun t => { t with cacr := 0 }) :=
    h.cacheControl fun u hu => { hu with cacr := show Within (0 : Long) _ from BitVec.zero_and }
  have hsr : SrOk (srWithCcr 0x2700 (resetCcr s.draws)) := SrOk.srWithCcr ⟨show _ &&& _ = 0 by decide, rfl⟩ _
  exact { hc with
    sr := hsr
    iacr0 := within_resetAcr _
    iacr1 := within_resetAcr _
    dacr0 := within_resetAcr _
    dacr1 := within_resetAcr _ }

theorem Sound.takeReset (h : Sound s) : Sound (takeReset s) := by
  obtain ⟨b, n, isp, pc, run, ht⟩ := takeReset_eq_withVector s
  rw [ht]
  exact h.resetRegisters.congr rfl

/-- The processor runs after reset only where the vector's PC is even (70_reset R622). -/
theorem takeReset_pc_even (ht : Machine.takeReset s = t) (h : t.run = .running ∨ t.run = .stopped) :
    t.pc.getLsbD 0 = false := by
  unfold Machine.takeReset at ht
  simp only at ht
  split at ht
  · subst ht
    simp at h
  · split at ht
    · subst ht
      simp at h
    · split at ht
      · subst ht
        simp at h
      · next pc u hpc =>
        subst ht
        cases he : pc.getLsbD 0 with
        | true => simp [he] at h
        | false => rfl

theorem Sound.inv_takeReset (h : Sound s) : Inv (Machine.takeReset s) := inv_iff.mpr ⟨h.takeReset, takeReset_pc_even rfl⟩

/-! ## Interrupts -/

theorem Sound.interruptBegin (h : Sound s) (l : BitVec 3) : Sound (interruptBegin s l) :=
  Sound.putSr (s := { s with pending := none, movemEa := none, run := .running, outputs := s.outputs ++ [.interruptAck l] })
    (h.congr rfl) (srOk_interrupt h.sr.bits l)

theorem Sound.interruptFrames (h : Sound s) (l : BitVec 3) : (interruptFrames s l).Meets Sound := by
  have hfirst (fs : List Field) : (Machine.stackFrame (Machine.interruptBegin s l) fs).Meets Sound :=
    (h.interruptBegin l).stackFrame fs
  unfold Machine.interruptFrames
  simp only
  split
  · exact (hfirst _).andThen fun t ht => Sound.stackFrame (ht.withSr ht.sr.srClearM rfl) _
  · exact hfirst _

theorem Sound.takeInterrupt (h : Sound s) (l : BitVec 3) : OutInv (takeInterrupt s l) :=
  Entered.Meets.orErrors (s := { s with run := .running })
    ((h.interruptFrames l).andThen fun _ ht => ht.jumpVector _) (h.congr rfl) _ _ _

theorem levelToTake_state (s : State) : ∃ n p, (levelToTake s).2 = { s with draws := n, pending := p } := by
  unfold levelToTake
  split
  · exact ⟨s.draws, s.pending, rfl⟩
  · split
    · exact ⟨s.draws, s.pending, rfl⟩
    · simp only
      split
      · exact ⟨_, s.pending, rfl⟩
      · exact ⟨_, none, rfl⟩

theorem compareLevel_state (s : State) : ∃ p, compareLevel s = { s with pending := p } := by
  unfold compareLevel
  split
  · exact ⟨_, rfl⟩
  · exact ⟨s.pending, rfl⟩

/-! ## One instruction -/

theorem beginFetch_state (s : State) : ∃ n, beginFetch s = { s with draws := n } := by
  unfold beginFetch
  split
  · exact ⟨_, rfl⟩
  · exact ⟨s.draws, rfl⟩

theorem Sound.runCut (h : Sound s) {ws : List Word} {stop : Exec Empty}
    (hs : ∀ {e u v}, stop u = .error e v → ReadStop e) : OutInv (runCut ws stop s) := by
  obtain ⟨r, hr⟩ | hr | ⟨f, u, hr⟩ := runCut_spec (s := s) (ws := ws) hs
  · exact hr ▸ .refused r
  · exact hr ▸ h.takePre h 8
  · exact hr ▸ (h.undone u).takeAccessError _ _ _ _

theorem refuse_stop {α : Type} {r : Refusal} {e : Abort} {u v : State} (h : (refuse r : Exec α) u = .error e v) :
    ReadStop e := by
  cases h
  exact .inr ⟨r, rfl⟩

theorem Sound.runDecoded (h : Sound s) (hpc : s.pc.getLsbD 0 = false) (i : Instr) : OutInv (runDecoded i s) := by
  unfold Machine.runDecoded
  split
  · exact .refused _
  · exact execKeeps i s h hpc

theorem Sound.runInstruction (h : Sound s) : OutInv (runInstruction s) := by
  unfold Machine.runInstruction
  split
  · exact h.takeAddressError _ _
  · next hodd =>
    obtain ⟨n, hn⟩ := beginFetch_state s
    have hs : Sound (beginFetch s) := hn ▸ h.congr rfl
    have hpc : (beginFetch s).pc.getLsbD 0 = false := hn ▸ Bool.eq_false_iff.mpr hodd
    simp only
    split
    · exact hs.runDecoded hpc _
    · split
      · exact .refused _
      · exact hs.takePre hs 4
    · exact hs.runCut refuse_stop
    · exact hs.runCut fetchStopped_stop

theorem Sound.stepActive (h : Sound s) (hpc : s.pc.getLsbD 0 = false) : OutInv (stepActive s) := by
  obtain ⟨p, hp⟩ := compareLevel_state s
  obtain ⟨n, q, hr⟩ := levelToTake_state (compareLevel s)
  have ht : Sound (levelToTake (compareLevel s)).2 := by
    rw [hr, hp]
    exact h.congr rfl
  have hpc' : (levelToTake (compareLevel s)).2.pc.getLsbD 0 = false := by
    rw [hr, hp]
    exact hpc
  unfold Machine.stepActive
  simp only
  split
  · exact ht.takeInterrupt _
  · split
    · exact ht.runInstruction
    · exact .next (ht.inv hpc')

theorem outInv_step (h : Inv s) : OutInv (step s) := by
  obtain ⟨hs, hpc⟩ := inv_iff.mp h
  have hactive (hr : s.run = .running ∨ s.run = .stopped) :
      OutInv (if srT1 s.sr && srT0 s.sr then .refused .reservedTraceMode else stepActive s) := by
    rw [h.trace]
    exact hs.stepActive (hpc hr)
  unfold step cycle
  cases hr : s.run with
  | running => exact hactive (.inl hr)
  | stopped => exact hactive (.inr hr)
  | halted => exact .next h
  | inReset => exact .next hs.inv_takeReset

/-- Settles O57: each body of an instruction keeps the invariant without the PC (`Keeps`), each exception entry and the
end of an instruction leave an even PC, and so does every branch of the cycle. -/
theorem stepKeepsInv : Obligations.StepKeepsInv := fun _ t h ht => outInv_step h t ht

/-- Settles O56: no memory, SR 0x2700 and control registers of zero. -/
theorem resetMeetsInv : Obligations.ResetMeetsInv where
  mem := by decide
  sr := rfl
  trace := rfl
  cacr := rfl
  iacr0 := rfl
  iacr1 := rfl
  dacr0 := rfl
  dacr1 := rfl
  dirty := nofun
  roms := nofun
  stale := nofun
  pc := fun _ => rfl

end Sys2Proof.Machine
end


section
/-! PROOF. Instructions and steps that end in an exception: what each way of taking one leaves (`Taken`), then the exceptions
instructions ask for, the traps, and odd targets. -/

namespace Sys2Proof.Machine

open Sys2Proof Sys2Proof.Claim

variable {s t u : State} {i : Instr} {vec : BitVec 8} {fmt : BitVec 4} {p pc0 : Long} {n : Nat} {P : State → Prop}

/-! ## What entering an exception depends on -/

/-- Two states from which exceptions are entered alike: they differ in records, the PC and what else `Taken` does not
speak of. -/
structure EntersAlike (s u : State) : Prop where
  access : SameAccess s u
  mem : u.mem = s.mem
  sr : u.sr = s.sr
  d : u.d = s.d
  a : u.a = s.a
  usp : u.usp = s.usp
  isp : u.isp = s.isp
  msp : u.msp = s.msp
  run : u.run = s.run
  control : KeptControl s u

theorem EntersAlike.sp (h : EntersAlike s u) : u.sp = s.sp := by
  unfold State.sp State.super
  rw [h.sr, h.usp, h.isp, h.msp]

theorem EntersAlike.frameAt (h : EntersAlike s u) (n : Nat) : frameAt u n = Machine.frameAt s n := by
  unfold Machine.frameAt entryState State.sp State.super
  simp only
  rw [h.sr, h.usp, h.isp, h.msp]

theorem EntersAlike.vectorAddress (h : EntersAlike s u) (vec : BitVec 8) :
    vectorAddress u vec = Machine.vectorAddress s vec := by
  unfold Machine.vectorAddress
  rw [h.control.vbr]

theorem EntersAlike.peek (h : EntersAlike s u) (fc : BitVec 3) (sz : Size) (a : Long) :
    peek u fc sz a = Machine.peek s fc sz a := peek_congr h.mem h.access.platform fc sz a

theorem EntersAlike.canEnter (h : EntersAlike s u) (hc : CanEnter s vec n) : CanEnter u vec n := by
  unfold CanEnter at *
  rw [h.frameAt, h.vectorAddress, h.peek]
  obtain ⟨hw, hr, hd, he⟩ := hc
  exact ⟨h.access.writable hw, h.access.readable hr, hd, he⟩

theorem EntersAlike.entered (h : EntersAlike s u) (he : EnteredFrom u t vec fmt p n) : EnteredFrom s t vec fmt p n where
  sr := h.sr ▸ he.sr
  sp := h.frameAt n ▸ he.sp
  pc := by
    have := he.pc
    rwa [h.vectorAddress, h.peek] at this
  srCopy := h.sr ▸ he.srCopy
  pcCopy := he.pcCopy
  format := he.format
  d := he.d.trans h.d
  a := he.a.trans h.a
  usp := he.usp.trans h.usp
  isp hm := (he.isp (by rw [h.sr]; exact hm)).trans h.isp
  msp hm := (he.msp (by rw [h.sr]; exact hm)).trans h.msp
  control := h.control.trans he.control
  memory fc a hk := by
    refine (he.memory fc a ?_).trans (byteAt_congr h.mem h.access.platform fc a)
    rwa [h.frameAt, keysAt_congr h.access.platform, memKey_congr h.access.platform]
  run := he.run.trans h.run

theorem ReadEffect.entersAlike (h : ReadEffect s u) : EntersAlike s u := by
  have ha := h.access
  obtain ⟨r, b, n, hr, rfl⟩ := h
  exact ⟨ha, rfl, rfl, rfl, rfl, rfl, rfl, rfl, rfl, by constructor <;> rfl⟩

theorem entersAlike_outputs (s : State) (l : List HostEvent) : EntersAlike s { s with outputs := l } :=
  ⟨⟨rfl, rfl, rfl, rfl, rfl, rfl, fun _ _ h => h⟩, rfl, rfl, rfl, rfl, rfl, rfl, rfl, rfl, by constructor <;> rfl⟩

theorem entersAlike_pc (s : State) (p : Long) : EntersAlike s { s with pc := p } :=
  ⟨⟨rfl, rfl, rfl, rfl, rfl, rfl, fun _ _ h => h⟩, rfl, rfl, rfl, rfl, rfl, rfl, rfl, rfl, by constructor <;> rfl⟩

theorem entersAlike_draws (s : State) (n : Nat) : EntersAlike s { s with draws := n } :=
  ReadEffect.entersAlike ⟨s.records, s.bus, n, fun _ h => h, rfl⟩

/-! ## The ways of taking an exception -/

/-- An outcome that is an exception taken from state `u`, as `Takes` says it of an instruction. -/
def Taken (o : Out) (u : State) (vec : BitVec 8) (fmt : BitVec 4) (p : Long) (n : Nat) (P : State → Prop) : Prop :=
  ∃ t, o = .next t ∧ EnteredFrom u t vec fmt p n ∧ t.outputs = u.outputs ∧ P t

theorem Taken.congr {o : Out} (h : Taken o u vec fmt p n P) (hs : EntersAlike s u) (ho : u.outputs = s.outputs) :
    Taken o s vec fmt p n P := by
  obtain ⟨t, ht, he, hout, hp⟩ := h
  exact ⟨t, ht, hs.entered he, hout.trans ho, hp⟩

theorem Taken.mono {o : Out} {Q : State → Prop} (h : Taken o u vec fmt p n P) (hpq : ∀ t, P t → Q t) :
    Taken o u vec fmt p n Q := by
  obtain ⟨t, ht, he, hout, hp⟩ := h
  exact ⟨t, ht, he, hout, hpq t hp⟩

/-- An outcome that is a next state where the exception is entered. -/
theorem taken_enter {o : Out} {extra : List Field} (ho : ∀ t, enter u vec fmt p extra = .ok t → o = .next t)
    (hn : 8 + fieldBytes extra = n) (h32 : n ≤ 2 ^ 32) (hc : CanEnter u vec n) :
    Taken o u vec fmt p n fun t => FieldsAt t (t.sp + 8) extra := by
  obtain ⟨t, henter, hentered, hfields, houtputs, -⟩ := enter_ok (fmt := fmt) (p := p) (extra := extra) hn h32 hc
  exact ⟨t, ho t henter, hentered, houtputs, hfields⟩

theorem Entered.orErrors_of_ok {e : Entered} (h : e = .ok t) {before : State} {p pc0 : Long} {k : Continuation} :
    e.orErrors before p pc0 k = .next t := by
  rw [h]
  rfl

theorem Entered.orHalt_of_ok {e : Entered} (h : e = .ok t) : e.orHalt s = .next t := by
  rw [h]
  rfl

theorem taken_pre (before : State) (hc : CanEnter u vec 8) :
    Taken (takePre before u vec) u vec 0 before.pc 8 fun _ => True := by
  have h := taken_enter (o := takePre before u vec) (fun t ht => Entered.orErrors_of_ok ht) (by rfl) (by decide) hc
  exact h.mono fun _ _ => trivial

/-- A frame with one long word behind the common fields. -/
theorem fieldsAt_long {v : Long} (h : FieldsAt t (t.sp + 8) [longField v]) : peek t 5 .long (t.sp + 8) = v :=
  h.1.trans (BitVec.setWidth_eq v)

theorem fieldBytes_long (v : Long) : 8 + fieldBytes [longField v] = 12 := rfl

theorem taken_addressError (pc0 a : Long) (hc : CanEnter u 3 12) :
    Taken (takeAddressError u pc0 a) u 3 2 pc0 12 fun t => peek t 5 .long (t.sp + 8) = a &&& 0xFFFFFFFE := by
  have h := taken_enter (o := takeAddressError u pc0 a) (fun t ht => Entered.orHalt_of_ok ht) (fieldBytes_long _)
    (by decide) hc
  exact h.mono fun _ => fieldsAt_long

theorem taken_trace (pc0 : Long) (hc : CanEnter u 9 12) :
    Taken (takeTrace u pc0) u 9 2 u.pc 12 fun t => peek t 5 .long (t.sp + 8) = pc0 := by
  have h := taken_enter (o := takeTrace u pc0) (fun t ht => Entered.orErrors_of_ok ht) (fieldBytes_long _) (by decide) hc
  exact h.mono fun _ => fieldsAt_long

theorem fieldBytes_accessFields (m : Nat) (f : AccessFault) (k : Continuation) (owed : List AccessFault) :
    8 + fieldBytes (accessFields m f k owed) = 60 := rfl

theorem taken_accessError (p : Long) (f : AccessFault) (k : Continuation) (owed : List AccessFault)
    (hc : CanEnter u 2 60) :
    Taken (takeAccessError u p f k owed) u 2 7 p 60 fun t => FieldsAt t (t.sp + 8) (accessFields u.draws f k owed) := by
  have hd : EntersAlike u { u with draws := u.draws + frameDraws } := entersAlike_draws u _
  have h := taken_enter (o := takeAccessError u p f k owed) (fun t ht => Entered.orHalt_of_ok ht)
    (fieldBytes_accessFields ..) (by decide) (hd.canEnter hc)
  exact h.congr hd rfl

/-! ## Instructions -/

theorem takes_of_exec {o : Out} (hexec : exec i s = o) (h : Taken o u vec fmt p n P) : Takes i s u vec fmt p n P := by
  obtain ⟨t, ht, h⟩ := h
  exact ⟨t, hexec.trans ht, h⟩

theorem Takes.congr (h : Takes i s u vec fmt p n P) (hs : EntersAlike t u) (ho : u.outputs = t.outputs) :
    Takes i s t vec fmt p n P := Taken.congr (o := exec i s) h hs ho

/-- A trap with the instruction's own address, not traced (60_exceptions R537). -/
theorem traps_of_body {body : Exec Done} (hexec : exec i s = complete i body s) (ht : s.traceFlow = false)
    (hbody : body s = .error (.trap vec true) u) : Traps i s u vec := by
  intro hc
  obtain ⟨t, henter, hentered, hfields, houtputs, -⟩ :=
    enter_ok (fmt := 2) (p := nextPc i s) (extra := [longField s.pc]) (fieldBytes_long _) (by decide) hc
  refine ⟨t, ?_, hentered, houtputs, fieldsAt_long hfields⟩
  have htake : takeTrap s u (nextPc i s) vec true = .next t := by
    unfold takeTrap
    simp only [if_true, henter, traceIf, ht, Bool.false_eq_true, if_false]
  rw [hexec, complete_error hbody]
  exact htake

/-- A trap without it. -/
theorem takes_trap {body : Exec Done} (hexec : exec i s = complete i body s) (ht : s.traceFlow = false)
    (hbody : body s = .error (.trap vec false) u) (hc : CanEnter u vec 8) :
    Takes i s u vec 0 (nextPc i s) 8 fun _ => True := by
  obtain ⟨t, henter, hentered, -, houtputs, -⟩ :=
    enter_ok (fmt := 0) (p := nextPc i s) (extra := []) rfl (by decide) hc
  refine ⟨t, ?_, hentered, houtputs, trivial⟩
  have htake : takeTrap s u (nextPc i s) vec false = .next t := by
    unfold takeTrap
    simp only [Bool.false_eq_true, if_false, henter, traceIf, ht]
  rw [hexec, complete_error hbody]
  exact htake

/-- MOVEC of a code that names no register is illegal (10_state R46). -/
theorem checkControl_unknown {code : BitVec 12} (hs : s.super = true)
    (h : ∀ c ∈ [0x000, 0x001, 0x002, 0x003, 0x004, 0x005, 0x006, 0x007, 0x800, 0x801, 0x803, 0x804, 0x805, 0x806, 0x807],
      code.toNat ≠ c) : checkControl code s = .error (.pre 4) s := by
  have hc : controlCodes.contains code = false := by
    rw [List.contains_eq_mem, decide_eq_false_iff_not]
    intro hm
    exact h code.toNat (List.mem_map_of_mem (f := BitVec.toNat) hm) rfl
  unfold checkControl
  rw [needSupervisor_super hs, hc]
  rfl

/-- Settles O36: each body stops with the number of its exception before it changes anything; BKPT runs its acknowledge
cycle first. -/
theorem exceptionInstructions : Obligations.ExceptionInstructions := by
  unfold Obligations.ExceptionInstructions
  refine fun s => ⟨fun hc => takes_pre rfl rfl hc, fun v hc => ?_, fun w hc => takes_pre rfl rfl hc,
    fun w hc => takes_pre rfl rfl hc, fun rn code hs h => ⟨fun hc => ?_, fun hc => ?_⟩,
    fun m ht hc => takes_trap rfl ht rfl hc⟩
  · exact takes_of_exec rfl (taken_pre _ ((entersAlike_outputs s _).canEnter hc))
  · exact takes_pre rfl (Exec.bind_error s (checkControl_unknown hs h) _) hc
  · exact takes_pre rfl (Exec.bind_error s (checkControl_unknown hs h) _) hc

/-- A zero divisor clears C, leaves N, Z and V free and raises vector 5 (41 R256). -/
theorem zeroDivide_run (s : State) : ∃ (n : Nat) (f : Ccr), f.x = s.ccr.x ∧ f.c = false
    ∧ zeroDivide s = .error (.trap 5 true) ((withDraws n s).setCcr f) :=
  ⟨s.draws + 3, { s.ccr with
      n := Config.freeBit s.draws, z := Config.freeBit (s.draws + 1), v := Config.freeBit (s.draws + 2), c := false },
    rfl, rfl, rfl⟩

/-- A division that reads a zero divisor. -/
theorem zeroDivide_traps {sz : Size} {own : Nat} {ea : Ea} {s1 : State} {v : BitVec sz.bits} {body : Exec Done}
    (hexec : exec i s = complete i body s) (ht : s.traceFlow = false) (hv : readEa sz own ea s = .ok v s1)
    (hbody : body s = zeroDivide s1) : ∃ f n, f.x = s.ccr.x ∧ f.c = false ∧ Traps i s ((withDraws n s1).setCcr f) 5 := by
  obtain ⟨n, f, hx, hc, hrun⟩ := zeroDivide_run s1
  exact ⟨f, n, hx.trans (by rw [(readEa_inv hv).ccr]), hc, traps_of_body hexec ht (hbody.trans hrun)⟩

/-- Settles O39: the divisor is read and found to be zero before a register is changed. -/
theorem zeroDivideTraps : Obligations.ZeroDivide := by
  unfold Obligations.ZeroDivide
  refine fun s ht => ⟨fun dn ea s1 hv => ⟨?_, ?_⟩, fun dq dr wide ea s1 hne hv => ?_, fun d ea => ⟨?_, ?_⟩⟩
  · exact zeroDivide_traps rfl ht hv (Exec.bind_ok s hv _)
  · exact zeroDivide_traps rfl ht hv (Exec.bind_ok s hv _)
  · have hdiff : ¬ (wide && dq == dr) = true := by
      rw [Bool.and_eq_true, beq_iff_eq]
      exact fun h => hne h.1 h.2
    exact ⟨zeroDivide_traps rfl ht hv ((Exec.ite_run _ _ _ _).trans ((if_neg hdiff).trans (Exec.bind_ok s hv _))),
      zeroDivide_traps rfl ht hv ((Exec.ite_run _ _ _ _).trans ((if_neg hdiff).trans (Exec.bind_ok s hv _)))⟩
  · exact next_refused rfl ((Exec.ite_run _ _ _ _).trans (if_pos (by simp)))
  · exact next_refused rfl ((Exec.ite_run _ _ _ _).trans (if_pos (by simp)))

/-- All that a check against a bound can do: Z, V and C are drawn, N tells a value below zero or above the bound and is
drawn else, and outside the bounds vector 6 is raised (48 R403). -/
theorem checkBound_run {k : Nat} (v b : BitVec k) (s : State) : ∃ (f : Ccr) (n : Nat), f.x = s.ccr.x
    ∧ (v.slt 0 = true → f.n = true) ∧ (v.slt 0 = false → b.slt v = true → f.n = false)
    ∧ checkBound v b s = if v.slt 0 || b.slt v then .error (.trap 6 true) ((withDraws n s).setCcr f)
        else .ok .seq ((withDraws n s).setCcr f) := by
  let codes (fn : Bool) : Ccr := { s.ccr with
    n := fn, z := Config.freeBit s.draws, v := Config.freeBit (s.draws + 1), c := Config.freeBit (s.draws + 2) }
  unfold checkBound
  rw [Exec.drawBit_bind, Exec.drawBit_bind, Exec.drawBit_bind]
  cases hneg : v.slt 0 with
  | true => exact ⟨codes true, s.draws + 3, rfl, fun _ => rfl, nofun, rfl⟩
  | false =>
    cases hover : b.slt v with
    | true => exact ⟨codes false, s.draws + 3, rfl, nofun, fun _ _ => rfl, rfl⟩
    | false => exact ⟨codes (Config.freeBit (s.draws + 3)), s.draws + 4, rfl, nofun, nofun, rfl⟩

/-- CHK of a bound that is read: the value stands in a data register the operand does not move. -/
theorem chk_of_body {sz : Size} {ea : Ea} {dn : Reg} {s1 : State} {b v : BitVec sz.bits}
    (hexec : exec i s = complete i (do
      let b ← readEa sz 0 ea
      let v ← getD sz dn
      checkBound v b) s)
    (ht : s.traceFlow = false) (hb : readEa sz 0 ea s = .ok b s1) (hv : lowPart sz (s.dreg dn) = v) :
    Kept s s1 (steppedRegs ea) [] ∧ ∃ f n, f.x = s.ccr.x ∧ (decide (v.toInt < 0) = true → f.n = true)
      ∧ (decide (v.toInt < 0) = false → decide (b.toInt < v.toInt) = true → f.n = false)
      ∧ (let u := (withDraws n s1).setCcr f
         if decide (v.toInt < 0) || decide (b.toInt < v.toInt) then Traps i s u 6 else exec i s = .next (past i s u)) := by
  have heff := readEa_inv hb
  obtain ⟨f, n, hx, hneg, hover, hrun⟩ := checkBound_run v b s1
  have hslt : v.slt 0 = decide (v.toInt < 0) := by simp [BitVec.slt]
  have hbody : (do
      let b ← readEa sz 0 ea
      let v ← getD sz dn
      checkBound v b : Exec Done) s = checkBound v b s1 := by
    refine (Exec.bind_ok s hb _).trans ((Exec.getD_bind s1 sz dn _).trans ?_)
    rw [heff.dreg, hv]
  have hbound : b.slt v = decide (b.toInt < v.toInt) := rfl
  rw [hslt] at hneg hover hrun
  rw [hbound] at hover hrun
  refine ⟨heff.kept, f, n, hx.trans (by rw [heff.ccr]), hneg, hover, ?_⟩
  rw [hrun] at hbody
  split
  · next h => exact traps_of_body hexec ht (hbody.trans (if_pos h))
  · next h => exact next_past hexec (hbody.trans (if_neg h)) (traceAll_of_flow ht)

/-- TRAPcc and TRAPV: the trap or the next instruction, as a condition of the codes says. -/
theorem trapsIf_of_body {c : Ccr → Bool} {m : State} (hexec : exec i s = complete i (do
      let f ← getFlags
      if c f then throw (.trap 7 true) else return .seq) s) (ht : s.traceFlow = false) (hm : m = s) :
    if c s.ccr then Traps i s m 7 else exec i s = .next (past i s m) := by
  subst hm
  have hbody := Exec.getFlags_bind m fun f => if c f then throw (.trap 7 true) else (return .seq : Exec Done)
  rw [Exec.ite_run] at hbody
  split
  · next h => exact traps_of_body hexec ht (hbody.trans (if_pos h))
  · next h => exact next_past hexec (hbody.trans (if_neg h)) (traceAll_of_flow ht)

/-- Settles O38: the body raises the trap or is done, by a condition of the codes or by the bounds. -/
theorem conditionalTraps : Obligations.ConditionalTraps := by
  unfold Obligations.ConditionalTraps
  exact fun s ht => ⟨fun c op => trapsIf_of_body (c := condHolds c) rfl ht rfl, trapsIf_of_body (c := Ccr.v) rfl ht rfl,
    fun dn ea s1 v hv => chk_of_body (sz := .word) rfl ht hv rfl,
    fun dn ea s1 v hv => chk_of_body (sz := .long) rfl ht hv (lowPart_long _)⟩

end Sys2Proof.Machine
end


section
/-! PROOF. Steps: which instruction runs, what a step without one does, and waiting. -/

namespace Sys2Proof.Machine

open Sys2Proof Sys2Proof.Claim

variable {s t u : State} {i : Instr} {vec : BitVec 8} {fmt : BitVec 4} {p pc0 : Long} {n : Nat} {P : State → Prop}

/-! ## The step of a processor that runs an instruction -/

theorem compareLevel_below (h : ¬ srMask s.sr < s.ipl) : compareLevel s = s := by
  unfold compareLevel
  rw [if_neg]
  rw [Bool.and_eq_true, decide_eq_true_iff]
  exact fun hb => h hb.2

theorem levelToTake_none (h : s.pending = none) : levelToTake s = (none, s) := by
  unfold levelToTake
  rw [h]

/-- Nothing is pending and no request is above the mask: a running processor runs an instruction. -/
theorem stepActive_running (hr : s.run = .running) (hp : s.pending = none) (hm : ¬ srMask s.sr < s.ipl) :
    stepActive s = runInstruction s := by
  unfold stepActive
  simp only [compareLevel_below hm, levelToTake_none hp, hr]

/-- A stopped one waits (60_exceptions R590). -/
theorem stepActive_stopped (hr : s.run = .stopped) (hp : s.pending = none) (hm : ¬ srMask s.sr < s.ipl) :
    stepActive s = .next s := by
  unfold stepActive
  simp only [compareLevel_below hm, levelToTake_none hp, hr]

theorem step_runs (h : Runs s) : step s = runInstruction s := by
  obtain ⟨hrun, hp, hm, ht, -⟩ := h
  unfold step cycle
  simp only [hrun, ht, Bool.false_eq_true, if_false, stepActive_running hrun hp hm]

/-- What the words at an even PC decode to. -/
def decodedAt (s : State) : Decoded := decode (fetchWords (beginFetch s) (beginFetch s).pc maxWords).1

theorem runInstruction_ok (h : s.pc.getLsbD 0 = false) (hd : decodedAt s = .ok i) :
    runInstruction s = runDecoded i (beginFetch s) := by
  unfold decodedAt at hd
  unfold runInstruction
  rw [if_neg (by rw [h]; decide)]
  simp only [hd]

theorem runInstruction_illegal (h : s.pc.getLsbD 0 = false) (hd : decodedAt s = .illegal)
    (hm : (beginFetch s).movemEa = none) : runInstruction s = takePre (beginFetch s) (beginFetch s) 4 := by
  unfold decodedAt at hd
  unfold runInstruction
  rw [if_neg (by rw [h]; decide)]
  simp only [hd, hm, Option.isSome_none, Bool.false_eq_true, if_false]

theorem runInstruction_truncated (h : s.pc.getLsbD 0 = false) (hd : decodedAt s = .truncated) :
    runInstruction s = runCut (fetchWords (beginFetch s) (beginFetch s).pc maxWords).1
      (fetchStopped (fetchWords (beginFetch s) (beginFetch s).pc maxWords).2) (beginFetch s) := by
  unfold decodedAt at hd
  unfold runInstruction
  rw [if_neg (by rw [h]; decide)]
  simp only [hd]

theorem beginFetch_movemEa (s : State) : (beginFetch s).movemEa = s.movemEa := by
  obtain ⟨n, h⟩ := beginFetch_state s
  rw [h]

theorem beginFetch_pc (s : State) : (beginFetch s).pc = s.pc := by
  obtain ⟨n, h⟩ := beginFetch_state s
  rw [h]

theorem beginFetch_entersAlike (s : State) : EntersAlike s (beginFetch s) := by
  obtain ⟨n, h⟩ := beginFetch_state s
  rw [h]
  exact entersAlike_draws s n

theorem beginFetch_outputs (s : State) : (beginFetch s).outputs = s.outputs := by
  obtain ⟨n, h⟩ := beginFetch_state s
  rw [h]

/-- Settles O50: nothing is pending and the PC is even, so the step fetches, decodes and executes. -/
theorem stepRunsDecoded : Obligations.StepRunsDecoded := by
  unfold Obligations.StepRunsDecoded
  refine fun s i h hpc => ⟨fun hdec => ?_, fun hdev hlag => ?_⟩
  · rw [step_runs h, runInstruction_ok hpc hdec]
    have hm : (beginFetch s).movemEa = none := (beginFetch_movemEa s).trans h.2.2.2.2
    simp only [runDecoded, hm, Option.isSome_none, Bool.false_and, Bool.false_eq_true, if_false]
  · unfold beginFetch
    rw [if_neg]
    unfold freeFetch
    rw [hdev, Bool.false_or, List.any_eq_true]
    rintro ⟨a, ha, hl⟩
    rw [hlag a ha] at hl
    cases hl

/-! ## Waiting (60_exceptions R562, R590, R591) -/

theorem compareLevel_of_none (hp : s.pending = none) :
    compareLevel s = { s with pending := if srMask s.sr < s.ipl then some s.ipl else none } := by
  by_cases hm : srMask s.sr < s.ipl
  · simp [compareLevel, hp, hm]
  · rw [compareLevel_below hm, if_neg hm, ← hp]

theorem hostLevel_eq (hp : s.pending = none) (l : BitVec 3) : hostLevel s l = { s with
    iplPrev := s.ipl
    ipl := l
    pending := if srMask s.sr < l ∨ l = 7 ∧ s.ipl ≠ 7 then some l else none } := by
  let u : State := { s with iplPrev := s.ipl, ipl := l }
  have hc := compareLevel_of_none (s := u) hp
  have hnew : hostLevel s l = if l == 7 && s.ipl != 7 then { compareLevel u with pending := some 7 } else compareLevel u := rfl
  by_cases h7 : l = 7 ∧ s.ipl ≠ 7
  · obtain ⟨rfl, hi⟩ := h7
    rw [hnew, if_pos (by simpa using hi), hc, if_pos (show srMask s.sr < 7 ∨ (7 : BitVec 3) = 7 ∧ s.ipl ≠ 7 from .inr ⟨rfl, hi⟩)]
  · rw [hnew, if_neg (by simpa using h7), hc]
    simp only [h7, or_false]
    rfl

theorem step_stopped (hr : s.run = .stopped) (hp : s.pending = none) (hm : ¬ srMask s.sr < s.ipl) :
    step s = if srT1 s.sr && srT0 s.sr then .refused .reservedTraceMode else .next s := by
  unfold step cycle
  simp only [hr, stepActive_stopped hr hp hm]

theorem Entered.andThen_ok {e : Entered} {f : State → Entered} (h : e.andThen f = .ok t) :
    ∃ u, e = .ok u ∧ f u = .ok t := by
  cases e with
  | ok u => exact ⟨u, rfl, h⟩
  | fault f t => cases h
  | odd t a => cases h
  | refused r => cases h

theorem WriteEffect.movemEa (h : WriteEffect s t) : t.movemEa = s.movemEa := by
  obtain ⟨m, r, b, n, rfl, -⟩ := h
  rfl

theorem stackFrame_movemEa {fs : List Field} (h : stackFrame s fs = .ok t) : t.movemEa = s.movemEa := by
  have hsp (v : Long) : (s.setSp v).movemEa = s.movemEa := by simp
  unfold stackFrame at h
  simp only at h
  split at h
  · cases h
  · split at h
    · cases h
    · split at h
      · cases h
        exact (WriteEffect.runStores _ _).movemEa.trans (hsp _)
      · cases h

theorem jumpVector_movemEa (h : jumpVector s vec = .ok t) : t.movemEa = s.movemEa := by
  obtain ⟨b, n, hb⟩ := readBus_state s 5 .long (vectorAddress s vec)
  unfold jumpVector at h
  simp only at h
  split at h
  · cases h
  · split at h
    · cases h
    · split at h
      · cases h
      · next v u hu =>
        obtain rfl : u = _ := (congrArg Prod.snd hu).symm.trans hb
        split at h
        · cases h
        · cases h
          rfl

theorem enter_movemEa {extra : List Field} (h : enter s vec fmt p extra = .ok t) : t.movemEa = none := by
  obtain ⟨u, hu, ht⟩ := Entered.andThen_ok h
  rw [jumpVector_movemEa ht, stackFrame_movemEa hu]

theorem interruptFrames_movemEa {l : BitVec 3} (h : interruptFrames s l = .ok t) : t.movemEa = none := by
  have hbegin : (interruptBegin s l).movemEa = none := by simp [interruptBegin]
  unfold interruptFrames at h
  simp only at h
  split at h
  · obtain ⟨u, hu, ht⟩ := Entered.andThen_ok h
    rw [stackFrame_movemEa ht, stackFrame_movemEa hu, hbegin]
  · rw [stackFrame_movemEa h, hbegin]

/-- A processor that runs after an exception is at its handler: a double bus fault would have halted it. -/
theorem Entered.orHalt_running {e : Entered} (h : e.orHalt s = .next t) (hr : t.run = .running) : e = .ok t := by
  cases e with
  | ok u =>
    cases h
    rfl
  | fault f u =>
    cases h
    cases hr
  | odd u a =>
    cases h
    cases hr
  | refused r => cases h

theorem orErrors_movemEa {e : Entered} {k : Continuation} (he : ∀ t, e = .ok t → t.movemEa = none)
    (h : e.orErrors s p pc0 k = .next t) (hr : t.run = .running) : t.movemEa = none := by
  cases e with
  | ok u =>
    cases h
    exact he _ rfl
  | refused r => cases h
  | fault f u => exact enter_movemEa (Entered.orHalt_running (e := enter _ _ _ _ _) h hr)
  | odd u a => exact enter_movemEa (Entered.orHalt_running (e := enter _ _ _ _ _) h hr)

theorem takeInterrupt_movemEa {l : BitVec 3} (h : takeInterrupt s l = .next t) (hr : t.run = .running) :
    t.movemEa = none := by
  refine orErrors_movemEa (fun t hu => ?_) h hr
  obtain ⟨v, hv, hj⟩ := Entered.andThen_ok hu
  rw [jumpVector_movemEa hj, interruptFrames_movemEa hv]

/-- Settles O49: a step of a stopped or halted processor changes nothing, and whichever exception an interrupt ends in, no
restored address of a MOVEM is left. -/
theorem waiting : Obligations.Waiting := by
  unfold Obligations.Waiting
  refine fun s => ⟨hostLevel_eq, fun hr => ?_, step_stopped, fun l t hi ht hr => ?_⟩
  · unfold step cycle
    rw [hr]
  · exact takeInterrupt_movemEa ((step_interrupted hi).symm.trans ht) hr

end Sys2Proof.Machine
end


section
/-! PROOF. The access-error frame (60_exceptions R519 to R533) read field by field, and steps without an instruction. -/

namespace Sys2Proof.Machine

open Sys2Proof Sys2Proof.Claim

variable {s t u : State} {i : Instr} {p pc0 : Long} {m : Nat} {P : State → Prop}
variable {f : AccessFault} {k : Continuation} {owed : List AccessFault}

/-! ## The fields of an access-error frame -/

theorem peek_wordField {a : Long} {v : Word} (h : peek t 5 .word a = (wordField v).v.setWidth 16) :
    peek t 5 .word a = v := by
  rw [h]
  simp [wordField]

theorem peek_longField {a v : Long} (h : peek t 5 .long a = (longField v).v.setWidth 32) : peek t 5 .long a = v :=
  h.trans (BitVec.setWidth_eq v)

/-- What stands in slot `i` of the writeback status, address and data fields, where no line is owed. -/
def slotAddr (m : Nat) (owed : List AccessFault) (i j : Nat) : Long :=
  (slotWrite m owed i).elim (Config.freeLong j) AccessFault.addr

def slotData (m : Nat) (owed : List AccessFault) (i j : Nat) : Long :=
  (slotWrite m owed i).elim (Config.freeLong j) (registerAligned (Config.freeLong j))

/-- An access-error frame of an access that is no line, field by field. -/
structure AccessFrame (t : State) (m : Nat) (f : AccessFault) (k : Continuation) (owed : List AccessFault) : Prop where
  ea : peek t 5 .long (t.sp + 8) = frameEa (m + 1) k
  status : peek t 5 .word (t.sp + 0xC) = specialStatus (m + 2) f k
  status3 : peek t 5 .word (t.sp + 0xE) = slotStatus (m + 6) (slotWrite m owed 3)
  status2 : peek t 5 .word (t.sp + 0x10) = slotStatus (m + 7) (slotWrite m owed 2)
  status1 : peek t 5 .word (t.sp + 0x12) = slotStatus (m + 8) (slotWrite m owed 1)
  addr : peek t 5 .long (t.sp + 0x14) = f.addr
  addr3 : peek t 5 .long (t.sp + 0x18) = slotAddr m owed 3 (m + 9)
  data3 : peek t 5 .long (t.sp + 0x1C) = slotData m owed 3 (m + 10)
  addr2 : peek t 5 .long (t.sp + 0x20) = slotAddr m owed 2 (m + 11)
  data2 : peek t 5 .long (t.sp + 0x24) = slotData m owed 2 (m + 12)
  addr1 : peek t 5 .long (t.sp + 0x28) = slotAddr m owed 1 (m + 13)
  data1 : peek t 5 .long (t.sp + 0x2C)
    = (slotWrite m owed 1).elim (Config.freeLong (m + 14)) (memoryAligned (Config.freeLong (m + 14)))

theorem fieldsAt_cons {a : Long} {g : Field} {gs : List Field} (h : FieldsAt t a (g :: gs)) :
    peek t 5 g.sz a = g.v.setWidth g.sz.bits ∧ FieldsAt t (a + BitVec.ofNat 32 g.sz.bytes) gs := h

theorem accessFrame_of_fields (hl : f.line = none) (h : FieldsAt t (t.sp + 8) (accessFields m f k owed)) :
    AccessFrame t m f k owed := by
  unfold accessFields at h
  simp only [hl, ite_self, Option.isSome_none, Bool.false_eq_true, if_false] at h
  obtain ⟨h1, h⟩ := fieldsAt_cons h
  obtain ⟨h2, h⟩ := fieldsAt_cons h
  obtain ⟨h3, h⟩ := fieldsAt_cons h
  obtain ⟨h4, h⟩ := fieldsAt_cons h
  obtain ⟨h5, h⟩ := fieldsAt_cons h
  obtain ⟨h6, h⟩ := fieldsAt_cons h
  obtain ⟨h7, h⟩ := fieldsAt_cons h
  obtain ⟨h8, h⟩ := fieldsAt_cons h
  obtain ⟨h9, h⟩ := fieldsAt_cons h
  obtain ⟨h10, h⟩ := fieldsAt_cons h
  obtain ⟨h11, h⟩ := fieldsAt_cons h
  obtain ⟨h12, -⟩ := fieldsAt_cons h
  simp only [wordField, longField, Size.bytes, BitVec.add_assoc] at h2 h3 h4 h5 h6 h7 h8 h9 h10 h11 h12
  exact ⟨peek_longField h1, peek_wordField h2, peek_wordField h3, peek_wordField h4, peek_wordField h5,
    peek_longField h6, peek_longField h7, peek_longField h8, peek_longField h9, peek_longField h10, peek_longField h11,
    peek_longField h12⟩

/-- The bits of a special status word from its parts (60_exceptions R520). -/
theorem specialStatus_bits (b1 b2 b3 b4 cu ct cm lk r : Bool) (sz tt : BitVec 2) (tm : BitVec 3) {v : Word}
    (hv : v = bit b1 ++ bit cu ++ bit ct ++ bit cm ++ bit b2 ++ bit b3 ++ bit lk ++ bit r ++ bit b4 ++ sz ++ tt ++ tm) :
    v.getLsbD 14 = cu ∧ v.getLsbD 13 = ct ∧ v.getLsbD 12 = cm ∧ v.getLsbD 9 = lk ∧ v.getLsbD 8 = r
      ∧ (v.extractLsb' 5 2 : BitVec 2) = sz ∧ (v.extractLsb' 3 2 : BitVec 2) = tt
      ∧ (v.extractLsb' 0 3 : BitVec 3) = tm := by
  have last {k : Nat} (x : BitVec k) (b : Bool) : (x ++ bit b).getLsbD 0 = b := by
    rw [BitVec.getLsbD_append]
    cases b <;> rfl
  rw [hv]
  refine ⟨?_, ?_, ?_, ?_, ?_, ?_, ?_, BitVec.extractLsb'_append_eq_right⟩ <;>
    simp (disch := decide) only [getLsbD_append_ge, extract_append_ge]
  · exact last _ _
  · exact last _ _
  · exact last _ _
  · exact last _ _
  · exact last _ _
  · exact BitVec.extractLsb'_append_eq_right
  · exact BitVec.extractLsb'_append_eq_right

/-- The special status word of an access without a continuation (60_exceptions R520). -/
theorem statusWord_specialStatus (m : Nat) (hlock : f.locked = false) (htt : f.tt = 0) :
    StatusWord (specialStatus m f .none) f.read f.size f.tm := by
  obtain ⟨h14, h13, h12, h9, h8, hsize, ht, htm⟩ := specialStatus_bits _ _ _ _ _ _ _ _ _ _ _ _
    (rfl : specialStatus m f .none = _)
  exact ⟨h14, h13, h12, h9.trans hlock, h8, hsize, ht.trans htt, htm⟩

/-- Without an owed write no slot is valid (60_exceptions R525). -/
theorem slotWrite_nil (m i : Nat) : slotWrite m [] i = none := by
  simp [slotWrite]

theorem slotStatus_none (m : Nat) : (slotStatus m none).getLsbD 7 = false := by
  unfold slotStatus
  simp (disch := decide) only [getLsbD_append_ge]
  rfl

/-! ## Steps without an instruction -/

theorem stepTakes_of_taken {vec : BitVec 8} {fmt : BitVec 4} {n : Nat} (h : Taken (step s) u vec fmt p n P) :
    StepTakes s u vec fmt p n P := by
  obtain ⟨t, ht, he, -, hp⟩ := h
  exact ⟨t, ht, he, hp⟩

/-- Nothing comes before the first word of an instruction (log 48). -/
theorem runCut_nil {stop : Exec Empty} {e : Abort} {v : State} (hm : s.movemEa = none) (hs : stop s = .error e v) :
    runCut [] stop s = abort s s.pc e v := by
  have hfirst : beginning [] = some (.ori .byte 0 (.dn 0)) := by decide
  have hearly : earlyReads (.ori .byte 0 (.dn 0)) 0 s = .ok () s := rfl
  unfold runCut runPartly
  simp only [hm, hfirst, Option.isSome_none, Bool.false_eq_true, if_false, List.length_nil]
  rw [Exec.bind_ok s hearly, hs]

/-- A first word whose fetch fails leaves no words. -/
theorem fetchWords_fault {a : Long} (h : busErrorAt s s.codeFc a false = true) :
    fetchWords s a maxWords = ([], some (.fault a)) := by
  have hw : fetchWord s a = .inr (.fault a) := by
    unfold fetchWord
    simp only [h, Bool.true_or, if_true]
  unfold maxWords fetchWords
  rw [hw]

/-- Settles O51: the PC is checked, the words are fetched and decoded, and each case ends in its exception. -/
theorem stepWithoutInstruction : Obligations.StepWithoutInstruction := by
  unfold Obligations.StepWithoutInstruction
  refine fun s h => ⟨fun hodd hc => ?_, fun heven hdec hc => ?_, fun heven hf hc => ?_⟩
  · refine stepTakes_of_taken ?_
    rw [step_runs h, runInstruction, if_pos hodd]
    exact taken_addressError s.pc s.pc hc
  · refine stepTakes_of_taken ?_
    have hm : (beginFetch s).movemEa = none := (beginFetch_movemEa s).trans h.2.2.2.2
    have hb := beginFetch_entersAlike s
    have hd : decodedAt s = .illegal := by rwa [decodedAt, beginFetch_pc]
    rw [step_runs h, runInstruction_illegal heven hd hm, ← beginFetch_pc s]
    exact (taken_pre (beginFetch s) (hb.canEnter hc)).congr hb (beginFetch_outputs s)
  · refine stepTakes_of_taken ?_
    have hm : (beginFetch s).movemEa = none := (beginFetch_movemEa s).trans h.2.2.2.2
    have hb := beginFetch_entersAlike s
    have hfc : (beginFetch s).codeFc = s.codeFc := by
      unfold State.codeFc State.super
      rw [hb.sr]
    have hf' : busErrorAt (beginFetch s) (beginFetch s).codeFc (beginFetch s).pc false = true := by
      rw [hb.access.busErrorAt, hfc, beginFetch_pc]
      exact hf
    have hw := fetchWords_fault hf'
    have hd : decodedAt s = .truncated := by
      rw [decodedAt, hw]
      rfl
    have hstep : step s = takeAccessError (beginFetch s) (beginFetch s).pc
        (fetchFault (beginFetch s) (beginFetch s).pc) .none [] := by
      rw [step_runs h, runInstruction_truncated heven hd, hw]
      exact runCut_nil (stop := fetchStopped (some (.fault (beginFetch s).pc))) hm rfl
    rw [hstep, beginFetch_pc]
    refine ((taken_accessError _ _ _ _ (hb.canEnter hc)).congr hb (beginFetch_outputs s)).mono fun t ht => ?_
    have hframe := accessFrame_of_fields rfl ht
    rw [hframe.addr, hframe.status, ← hfc]
    exact ⟨rfl, statusWord_specialStatus _ rfl rfl⟩

end Sys2Proof.Machine
end


section
/-! PROOF. RTE (60_exceptions R580 to R588): what its loop does with one frame, then the frames it returns through. -/

namespace Sys2Proof.Machine

open Sys2Proof Sys2Proof.Claim

variable {s t u v : State}

/-! ## One frame -/

/-- What RTE does with a frame once its SR, PC and format are read. -/
def frameBody (n : Nat) (sp : Long) (sr : Word) (pc : Long) (format : Nat) : Exec Done :=
  match format with
  | 0 => popFrame sp 8 sr pc
  | 1 => do
    change fun s => s.setSp (sp + 8)
    loadSr sr
    returnLoop n
  | 2 => popFrame sp 12 sr pc
  | 3 => popFrame sp 12 sr pc
  | 4 => popFrame sp 16 sr pc
  | 7 => returnAccessError sp sr pc
  | _ => throw (.pre 14)

theorem toNat_format (v : Word) : (v.extractLsb' 12 4 : BitVec 4).toNat = v.toNat / 4096 := by
  rw [BitVec.extractLsb'_toNat, Nat.shiftRight_eq_div_pow]
  exact Nat.mod_eq_of_lt (by omega)

/-- A readable frame is read; only records of the caches change before its format decides. -/
theorem returnLoop_frame (n : Nat) (h : Recorded s v) (hr : Readable s s.dataFc s.sp 8) :
    ∃ t, Recorded s t ∧ returnLoop (n + 1) v = frameBody n s.sp (frameSr s) (framePc s) (frameFormat s) t := by
  have hsp : v.sp = s.sp := by
    obtain ⟨r, -, rfl⟩ := h
    rfl
  obtain ⟨v1, h1, hsr⟩ := h.readMem (sz := .word) (a := s.sp) (hr.part 0 (by simp) (by decide))
  obtain ⟨v2, h2, hpc⟩ := h1.readMem (sz := .long) (a := s.sp + 2) (hr.part 2 rfl (by decide))
  obtain ⟨v3, h3, hfv⟩ := h2.readMem (sz := .word) (a := s.sp + 6) (hr.part 6 rfl (by decide))
  refine ⟨v3, h3, ?_⟩
  rw [returnLoop, Exec.look_bind, hsp, Exec.bind_ok v hsr, Exec.bind_ok v1 hpc, Exec.bind_ok v2 hfv, toNat_format]
  rfl

/-- SR is loaded and the stack pointer moved when the frame's SR is a legal mode (93 U1). -/
theorem popFrame_run {sp n pc : Long} {sr : Word} (hsr : (sr.getLsbD 15 && sr.getLsbD 14) = false) (s : State) :
    popFrame sp n sr pc s = .ok (.jump pc) (withSr (sr &&& 0xF71F) (s.setSp (sp + n))) := by
  unfold popFrame
  rw [Exec.change_bind, Exec.bind_ok _ ((loadSr_run _ _).trans (if_neg (by rw [srT1, srT0, hsr]; decide)))]
  rfl

/-- Records are no part of what popping a frame changes. -/
theorem withSr_setSp_records (l : CacheRecords) (x : Word) (a : Long) (s : State) :
    withSr x ((withRecords l s).setSp a) = withRecords l (withSr x (s.setSp a)) := by
  rw [withRecords_setSp]
  rfl

theorem framePopped_records (l : CacheRecords) (s : State) (n : Long) :
    framePopped (withRecords l s) n = withRecords l (framePopped s n) := by
  have hsr : frameSr (withRecords l s) = frameSr s := peek_congr rfl rfl _ _ _
  unfold framePopped
  rw [hsr]
  exact withSr_setSp_records l _ _ s

/-- A throwaway frame leads to the frame on the stack that is active then (60_exceptions R582). -/
theorem returnLoop_throwaway (n : Nat) (h : Recorded s v) (hf : FrameReadable s 8) (h1 : frameFormat s = 1) :
    ∃ t, Recorded (framePopped s 8) t ∧ returnLoop (n + 1) v = returnLoop n t := by
  obtain ⟨t, ⟨r, hr, rfl⟩, hrun⟩ := returnLoop_frame n h hf.1
  have hstale : (framePopped s 8).staleData = s.staleData := by simp [framePopped, withSr]
  refine ⟨withRecords r (framePopped s 8), ⟨r, by rw [hstale]; exact hr, rfl⟩, hrun.trans ?_⟩
  rw [h1]
  refine (Exec.change_bind _ _ _).trans ?_
  rw [Exec.bind_ok _ ((loadSr_run _ _).trans (if_neg (by rw [srT1, srT0, hf.2]; decide))), ← framePopped_records]
  unfold framePopped
  rw [show frameSr (withRecords r s) = frameSr s from peek_congr rfl rfl _ _ _]
  rfl

/-- Behind `k` throwaway frames RTE examines the frame they lead to. -/
theorem returnLoop_unwinds {k n : Nat} (h : Recorded s v) (hu : Unwinds k s u) :
    ∃ t, Recorded u t ∧ returnLoop (k + n) v = returnLoop n t := by
  induction k generalizing s v with
  | zero =>
    obtain rfl : u = s := hu
    exact ⟨v, h, by rw [Nat.zero_add]⟩
  | succ k ih =>
    obtain ⟨hf, h1, hrest⟩ := hu
    obtain ⟨t, ht, hrun⟩ := returnLoop_throwaway (k + n) h hf h1
    obtain ⟨w, hw, hrun'⟩ := ih ht hrest
    exact ⟨w, hw, by rw [Nat.succ_add, hrun, hrun']⟩

/-- The body of RTE. -/
def rteBody : Exec Done := needSupervisor >>= fun _ => returnLoop returnFuel

theorem exec_rte (s : State) : exec .rte s = complete .rte rteBody s := rfl

/-- In supervisor mode RTE comes to the frame that the throwaway frames lead to. -/
theorem rteBody_unwinds {k : Nat} (hs : s.super = true) (hk : k ≤ 2 ^ 103) (hu : Unwinds k s u)
    (hr : Readable u u.dataFc u.sp 8) :
    ∃ t n, Recorded u t ∧ rteBody s = frameBody n u.sp (frameSr u) (framePc u) (frameFormat u) t := by
  obtain ⟨n, hn⟩ : ∃ n, returnFuel = k + (n + 1) := ⟨2 ^ 103 - k, by unfold returnFuel; omega⟩
  obtain ⟨v, hv, hrun⟩ := returnLoop_unwinds (n := n + 1) (Recorded.refl s) hu
  obtain ⟨t, ht, hframe⟩ := returnLoop_frame n hv hr
  refine ⟨t, n, ht, (needSupervisor_super hs _).trans ?_⟩
  rw [hn, hrun, hframe]

/-- A frame without a continuation is popped. -/
theorem popFrame_framePopped {n : Long} {t : State} (h : Recorded u t)
    (hsr : ((frameSr u).getLsbD 15 && (frameSr u).getLsbD 14) = false) :
    ∃ r : CacheRecords, r.staleData ⊆ u.staleData
      ∧ popFrame u.sp n (frameSr u) (framePc u) t = .ok (.jump (framePc u)) (framePopped (withRecords r u) n) := by
  obtain ⟨r, hr, rfl⟩ := h
  refine ⟨r, hr, (popFrame_run hsr _).trans ?_⟩
  rw [framePopped_records, withSr_setSp_records]
  rfl

/-! ## The access-error frame -/

/-- What RTE does with an access-error frame once its EA and special status word are read. -/
def accessErrorBody (sp : Long) (sr : Word) (pc ea : Long) (ssw : Word) : Exec Done :=
  if ssw.getLsbD 14 then
    if ssw.getLsbD 12 then refuse .rteContinuation
    else pendingException sp 11 sr pc ea
  else if ssw.getLsbD 13 then
    if ssw.getLsbD 12 then refuse .rteContinuation
    else pendingException sp 9 sr pc ea
  else if ssw.getLsbD 12 then do
    let d ← popFrame sp 60 sr pc
    change fun s => { s with movemEa := some ea }
    return d
  else popFrame sp 60 sr pc

theorem readInternal_ok {sz : Size} {a : Long} {x : BitVec sz.bits} (h : readMem sz a s = .ok x t) :
    readInternal sz a s = .ok x t := by
  unfold readInternal
  rw [h]

theorem returnAccessError_run (sr : Word) (pc : Long) (h : Recorded u v) (hr : Readable u u.dataFc u.sp 14) :
    ∃ t, Recorded u t ∧ returnAccessError u.sp sr pc v
      = accessErrorBody u.sp sr pc (peek u u.dataFc .long (u.sp + 8)) (peek u u.dataFc .word (u.sp + 0xC)) t := by
  obtain ⟨v1, h1, hea⟩ := h.readMem (sz := .long) (a := u.sp + 8) (hr.part 8 rfl (by decide))
  obtain ⟨v2, h2, hssw⟩ := h1.readMem (sz := .word) (a := u.sp + 0xC) (hr.part 12 rfl (by decide))
  refine ⟨v2, h2, ?_⟩
  rw [returnAccessError, Exec.bind_ok v (readInternal_ok hea), Exec.bind_ok v1 (readInternal_ok hssw)]
  rfl

/-- Settles O44: the throwaway frames are followed by induction on their number, and the last frame is popped. -/
theorem returnFromException : Obligations.ReturnFromException := by
  unfold Obligations.ReturnFromException
  intro s u k hs ht hk hu hf he
  obtain ⟨t, n, hrec, hbody⟩ := rteBody_unwinds hs hk hu hf.1
  have pops {m : Long} {w : State} (hw : Recorded u w) (hrun : rteBody s = popFrame u.sp m (frameSr u) (framePc u) w) :
      ∃ r, exec .rte s = .next (jumped (framePc u) (framePopped (withRecords r u) m)) := by
    obtain ⟨r, -, hpop⟩ := popFrame_framePopped (n := m) hw hf.2
    exact ⟨r, next_jumped (exec_rte s) (hrun.trans hpop) ht he⟩
  refine ⟨fun f hm hfmt => ?_, fun h7 hf14 hbits => ?_⟩
  · rw [hfmt] at hbody
    simp only [List.mem_cons, List.not_mem_nil, or_false] at hm
    obtain rfl | rfl | rfl | rfl := hm <;> exact pops hrec hbody
  · rw [h7] at hbody
    obtain ⟨w, hw, haccess⟩ := returnAccessError_run (frameSr u) (framePc u) hrec hf14.1
    refine pops hw (hbody.trans (haccess.trans ?_))
    unfold accessErrorBody
    rw [hbits 14 (by decide), hbits 13 (by decide), hbits 12 (by decide)]
    rfl

end Sys2Proof.Machine
end


section
/-! PROOF. RTE of an access-error frame (60_exceptions R583, R586): the continuations. -/

namespace Sys2Proof.Machine

open Sys2Proof Sys2Proof.Claim

variable {s t u v : State}

theorem dataFc_of_super (hs : s.super = true) : s.dataFc = 5 := by
  unfold State.dataFc
  rw [hs]
  rfl

/-- The fields of a pending exception are written where they can be. -/
theorem moveFrame_ok {a : Long} {fs : List Field} (hfc : s.dataFc = 5) (hw : Writable s 5 a (fieldBytes fs)) :
    moveFrame a fs s = .ok () ((fieldStores a fs).foldl Store.apply s) := by
  have hcycle (b : Long) : (fieldStores b fs).map (fun w => { w with c := normalCycle s.dataFc }) = fieldStores b fs := by
    rw [hfc]
    induction fs generalizing b with
    | nil => rfl
    | cons f rest ih => exact congrArg (List.cons _) (ih (hw.part 0 (by simp) (by rw [fieldBytes_cons]; omega)) _)
  have hf := fieldStores_fine fs a _ a 0 hw (by simp) (by omega)
  have hnone : (fieldStores a fs).find? (Store.fails s) = none := by
    rw [List.find?_eq_none]
    intro w hm
    simp [(hf w hm).1]
  have hstale : (fieldStores a fs).any (Store.stale s) = false := by
    rw [List.any_eq_false]
    intro w hm
    simp [(hf w hm).2.1]
  unfold moveFrame
  simp only [hcycle, hnone, hstale, runStores_ok hf, Bool.false_eq_true, if_false]

/-- What the fields of a pending exception at `a` leave. -/
structure FieldsStored (s t : State) (b : Long) (fs : List Field) : Prop where
  d : t.d = s.d
  a : t.a = s.a
  usp : t.usp = s.usp
  isp : t.isp = s.isp
  msp : t.msp = s.msp
  sr : t.sr = s.sr
  run : t.run = s.run
  outputs : t.outputs = s.outputs
  control : KeptControl s t
  access : SameAccess s t
  fields : FieldsAt t b fs
  memory : ∀ fc x, memKey s fc x ∉ keysAt s 5 b (fieldBytes fs) → byteAt t fc x = byteAt s fc x
  other : ∀ x, (∀ j < 4, ∀ k < fieldBytes fs, x + BitVec.ofNat 32 j ≠ b + BitVec.ofNat 32 k) →
    peek t 5 .long x = peek s 5 .long x

theorem fieldsStored (s : State) (a : Long) {fs : List Field} (h : fieldBytes fs ≤ 2 ^ 32) :
    FieldsStored s ((fieldStores a fs).foldl Store.apply s) a fs := by
  obtain ⟨h1, h2, h3, h4, h5, h6, -, h8, h9, -, -⟩ := stores_registers (fieldStores a fs) s
  exact ⟨h1, h2, h3, h4, h5, h6, h8, h9, stores_kept _ s, SameAccess.stores s _, fieldsAt_stores fs s a h,
    fun _ _ hx => byteAt_fields_other fs s a hx, fun x hx => peek_fields_other (sz := .long) fs s a hx⟩

/-- The fields of a pending exception (60_exceptions R586). -/
def pendingFields (sr : Word) (pc ea : Long) (vec : BitVec 8) : List Field :=
  [wordField sr, longField pc, wordField (formatWord 2 vec), longField ea]

/-- What RTE leaves that takes a pending exception with vector `vec` (60_exceptions R586; log 34). -/
structure PendingTaken (s t : State) (vec : BitVec 8) (x : Word) (pc ea : Long) : Prop where
  sr : t.sr = srException (x &&& 0xF71F)
  pointers : if srM s.sr then t.msp = s.sp + 0x30 ∧ t.isp = s.isp else t.isp = s.sp + 0x30 ∧ t.msp = s.msp
  d : t.d = s.d
  a : t.a = s.a
  usp : t.usp = s.usp
  control : KeptControl (withSr (srException (x &&& 0xF71F)) s) t
  run : t.run = s.run
  outputs : t.outputs = s.outputs
  memory : ∀ fc a, memKey s fc a ∉ keysAt s 5 (s.sp + 0x30) 12 → byteAt t fc a = byteAt s fc a
  fields : FieldsAt t (s.sp + 0x30) (pendingFields x pc ea vec)

theorem KeptControl.withSr (h : KeptControl s t) (x : Word) : KeptControl (Machine.withSr x s) (Machine.withSr x t) :=
  { h with
    pending := by
      change (if t.pending = none ∧ srMask x < t.ipl then some t.ipl else t.pending) = _
      rw [h.pending, h.ipl]
      rfl }

theorem pendingException_run {vec : BitVec 8} {sr : Word} {pc ea : Long} (hs : s.super = true) (h : Recorded s v)
    (hw : Writable s 5 (s.sp + 0x30) 12) (hr : Readable s 5 (vectorAddress s vec) 4)
    (hd : ∀ j < 4, ∀ k < 12, vectorAddress s vec + BitVec.ofNat 32 j ≠ s.sp + 0x30 + BitVec.ofNat 32 k) :
    ∃ t, pendingException s.sp vec sr pc ea v = .ok (.jump (peek s 5 .long (vectorAddress s vec))) t
      ∧ PendingTaken s t vec sr pc ea := by
  obtain ⟨r, hstale, rfl⟩ := h
  let v := withRecords r s
  have hrec : Recorded s v := ⟨r, hstale, rfl⟩
  let fs := pendingFields sr pc ea vec
  let a := s.sp + 0x30
  let w := (fieldStores a fs).foldl Store.apply v
  have hmove : moveFrame a fs v = .ok () w := moveFrame_ok (dataFc_of_super hs) (hrec.access.writable hw)
  have hst : FieldsStored v w a fs := fieldsStored v a (show (12 : Nat) ≤ 2 ^ 32 by decide)
  have hacc : SameAccess s (w.setSp a) := (hrec.access.trans hst.access).trans (SameAccess.setSp w a)
  have hvec : vectorAddress w vec = vectorAddress s vec := by
    unfold vectorAddress
    rw [hst.control.vbr]
    rfl
  have hpeek : peek (w.setSp a) 5 .long (vectorAddress s vec) = peek s 5 .long (vectorAddress s vec) :=
    (peek_congr (State.setSp_mem w a) (State.setSp_platform w a) 5 .long _).trans
      ((hst.other _ hd).trans (peek_congr rfl rfl 5 .long _))
  obtain ⟨x, ⟨r', hstale', rfl⟩, hread⟩ := (Recorded.refl (w.setSp a)).readCycle (c := normalCycle 5) (sz := .long)
    (a := vectorAddress s vec) ((hacc.readFaults _ _ _ _).trans hr.1) (hacc.staleAccess hr.2.1)
    (by rw [hacc.platform]; exact hr.2.2)
  refine ⟨withSr (srException (sr &&& 0xF71F)) (withRecords r' (w.setSp a)), ?_, ?_⟩
  · unfold pendingException
    refine (Exec.bind_ok v hmove _).trans ?_
    rw [Exec.look_bind, hvec, Exec.change_bind, Exec.bind_ok _ hread, Exec.change_bind, putSr_withSr]
    exact congrArg (fun p => EStateM.Result.ok (Done.jump p) _) hpeek
  · have hsup : w.super = true := by
      unfold State.super
      rw [hst.sr]
      exact hs
    have hm : srM w.sr = srM s.sr := by rw [hst.sr]; rfl
    constructor
    case sr => rfl
    case pointers =>
      change if srM s.sr then (w.setSp a).msp = a ∧ (w.setSp a).isp = s.isp
        else (w.setSp a).isp = a ∧ (w.setSp a).msp = s.msp
      rw [State.setSp_eq, hsup, hm]
      cases srM s.sr
      · exact ⟨rfl, hst.msp⟩
      · exact ⟨rfl, hst.isp⟩
    case d => exact (State.setSp_d w a).trans hst.d
    case a => exact (State.setSp_a w a).trans hst.a
    case usp =>
      change (w.setSp a).usp = s.usp
      rw [State.setSp_eq, hsup]
      exact hst.usp
    case control =>
      have hkept : KeptControl s (withRecords r' (w.setSp a)) :=
        ((hrec.kept.control.trans hst.control).trans (Kept.setSp w a).control).trans (Kept.withRecords _ r').control
      exact hkept.withSr _
    case run => exact (State.setSp_run w a).trans hst.run
    case outputs => exact (State.setSp_outputs w a).trans hst.outputs
    case memory =>
      intro fc b hb
      exact (byteAt_congr (State.setSp_mem w a) (State.setSp_platform w a) fc b).trans
        ((hst.memory fc b hb).trans (byteAt_congr rfl rfl fc b))
    case fields =>
      exact FieldsAt.congr (s := w) (fun sz b => peek_congr (State.setSp_mem w a) (State.setSp_platform w a) 5 sz b)
        hst.fields

/-- RTE examines the frame at the active stack pointer. -/
theorem rteBody_frame (hs : s.super = true) (hr : Readable s s.dataFc s.sp 8) :
    ∃ t n, Recorded s t ∧ rteBody s = frameBody n s.sp (frameSr s) (framePc s) (frameFormat s) t :=
  rteBody_unwinds (k := 0) hs (Nat.zero_le _) rfl hr

/-- With a continuation RTE comes to the pending exception or refuses (60_exceptions R586, 93 U2). -/
theorem accessErrorBody_continues {sp pc ea : Long} {sr ssw : Word} (h : (ssw.getLsbD 14 || ssw.getLsbD 13) = true) :
    accessErrorBody sp sr pc ea ssw = if ssw.getLsbD 12 then refuse .rteContinuation
      else pendingException sp (if ssw.getLsbD 14 then 11 else 9) sr pc ea := by
  unfold accessErrorBody
  cases h14 : ssw.getLsbD 14 with
  | true => rfl
  | false =>
    rw [h14, Bool.false_or] at h
    rw [h]
    rfl

/-- Without one it pops the frame, with CM after the address is restored (60_exceptions R521). -/
theorem accessErrorBody_pops {sp pc ea : Long} {sr ssw : Word} (h14 : ssw.getLsbD 14 = false)
    (h13 : ssw.getLsbD 13 = false) (hsr : (sr.getLsbD 15 && sr.getLsbD 14) = false) (s : State) :
    accessErrorBody sp sr pc ea ssw s = .ok (.jump pc) { withSr (sr &&& 0xF71F) (s.setSp (sp + 60)) with
      movemEa := if ssw.getLsbD 12 then some ea else s.movemEa } := by
  have hpop := popFrame_run (sp := sp) (n := 60) (pc := pc) hsr s
  unfold accessErrorBody
  rw [h14, h13]
  cases ssw.getLsbD 12 with
  | true => exact (Exec.bind_ok s hpop _).trans (Exec.change_bind _ _ _)
  | false =>
    have hm : (s.setSp (sp + 60)).movemEa = s.movemEa := State.setSp_movemEa s _
    refine hpop.trans ?_
    rw [if_neg (by decide), ← hm]
    rfl

/-- A frame of no format is a format error (48 R398). -/
theorem frameBody_other {format : Nat} (h : ∀ f ∈ [0, 1, 2, 3, 4, 7], format ≠ f) (n : Nat) (sp pc : Long) (sr : Word)
    (s : State) : frameBody n sp sr pc format s = .error (.pre 14) s := by
  unfold frameBody
  split
  · exact absurd rfl (h 0 (by decide))
  · exact absurd rfl (h 1 (by decide))
  · exact absurd rfl (h 2 (by decide))
  · exact absurd rfl (h 3 (by decide))
  · exact absurd rfl (h 4 (by decide))
  · exact absurd rfl (h 7 (by decide))
  · rfl

theorem Recorded.entersAlike (h : Recorded s u) : EntersAlike s u := by
  obtain ⟨r, hr, rfl⟩ := h
  exact ReadEffect.entersAlike ⟨r, s.bus, s.draws, hr, rfl⟩

theorem Recorded.outputs (h : Recorded s u) : u.outputs = s.outputs := by
  obtain ⟨r, -, rfl⟩ := h
  rfl

/-- Settles O45: the frame is read, its continuation bits decide, and a pending exception is taken in its six-word frame. -/
theorem returnFromAccessError : Obligations.ReturnFromAccessError := by
  unfold Obligations.ReturnFromAccessError
  intro s hs ht hr14
  have hfc := dataFc_of_super hs
  have hr : Readable s s.dataFc s.sp 14 := by rwa [hfc]
  obtain ⟨t, n, hrec, hbody⟩ := rteBody_frame hs (hr.part 0 (by simp) (by decide))
  rw [frameFormat, frameSr, framePc, hfc] at hbody
  have access (h7 : (peek s 5 .word (s.sp + 6)).toNat / 4096 = 7) : ∃ v, Recorded s v ∧ rteBody s
      = accessErrorBody s.sp (peek s 5 .word s.sp) (peek s 5 .long (s.sp + 2)) (peek s 5 .long (s.sp + 8))
        (peek s 5 .word (s.sp + 0xC)) v := by
    obtain ⟨v, hv, hrun⟩ := returnAccessError_run (peek s 5 .word s.sp) (peek s 5 .long (s.sp + 2)) hrec hr
    rw [hfc] at hrun
    rw [h7] at hbody
    exact ⟨v, hv, hbody.trans hrun⟩
  refine ⟨fun h7 hsr hpc hcu hct => ?_, fun h7 hc hm => ?_, fun h7 hc hm hw hv hd he => ?_, fun hf hc => ?_⟩
  · obtain ⟨v, ⟨l, -, rfl⟩, hrun⟩ := access h7
    exact ⟨l, next_jumped (exec_rte s) (hrun.trans (accessErrorBody_pops hcu hct hsr _)) ht hpc⟩
  · obtain ⟨v, -, hrun⟩ := access h7
    rw [accessErrorBody_continues hc, hm] at hrun
    exact next_refused (exec_rte s) hrun
  · obtain ⟨v, hv', hrun⟩ := access h7
    rw [accessErrorBody_continues hc, hm] at hrun
    obtain ⟨w, hpend, hw'⟩ := pendingException_run (sr := peek s 5 .word s.sp) (pc := peek s 5 .long (s.sp + 2))
      (ea := peek s 5 .long (s.sp + 8)) hs hv' hw hv hd
    exact ⟨jumped _ w, next_jumped (exec_rte s) (hrun.trans hpend) ht he, rfl, hw'.sr, hw'.pointers, hw'.d, hw'.a, hw'.usp,
      hw'.control.trans (by constructor <;> rfl), hw'.run, hw'.outputs, hw'.memory, hw'.fields.congr fun _ _ => rfl⟩
  · rw [frameBody_other hf] at hbody
    have htaken := (taken_pre (s.undone t) (hrec.entersAlike.canEnter hc)).congr hrec.entersAlike hrec.outputs
    exact takes_of_exec ((exec_rte s).trans (complete_error hbody)) htaken

end Sys2Proof.Machine
end


section
/-! PROOF. Odd targets: the address error after a change of flow (47 R350, 60_exceptions R536). -/

namespace Sys2Proof.Machine

open Sys2Proof Sys2Proof.Claim

variable {s t u v : State} {i : Instr} {p : Long}

/-- A body that goes on at an odd address, in a state that differs in records at most, is an address error. -/
theorem oddTarget_of_body {body : Exec Done} (hexec : exec i s = complete i body s) (hbody : body s = .ok (.jump p) v)
    (hp : p.getLsbD 0 = true) (hv : Recorded u v) : OddTarget i s u p := by
  intro hc
  have htaken := taken_addressError s.pc p (hv.entersAlike.canEnter hc)
  exact takes_of_exec (hexec.trans (complete_odd hbody hp)) (htaken.congr hv.entersAlike hv.outputs)

/-- A body that finds its target odd before it goes on. -/
theorem oddTarget_of_throw {body : Exec Done} (hexec : exec i s = complete i body s)
    (hbody : body s = .error (.address p) u) : OddTarget i s u p := fun hc =>
  takes_of_exec (hexec.trans (complete_error hbody)) (taken_addressError s.pc p hc)

/-- Records beside a moved stack pointer. -/
theorem recorded_setSp {l : CacheRecords} (hl : l.staleData ⊆ s.staleData) (a : Long) :
    Recorded (s.setSp a) ((withRecords l s).setSp a) :=
  ⟨l, by rwa [State.setSp_staleData], withRecords_setSp s l a⟩

theorem bcc_odd {c : Cond} {d : BranchDisp} (h : (s.pc + 2 + BranchDisp.value d).getLsbD 0 = true) :
    OddTarget (.bcc c d) s s (s.pc + 2 + BranchDisp.value d) := by
  refine oddTarget_of_throw rfl ((Exec.look_bind s _ _).trans ((Exec.getFlags_bind s _).trans ?_))
  rw [if_pos (show (branchTarget s (BranchDisp.value d)).getLsbD 0 = true from h)]
  rfl

/-- DBcc with an odd target: refused unless it branches (93 U13). -/
theorem dbcc_odd (c : Cond) (dn : Reg) (d : Word) (h : (s.pc + 2 + sext d).getLsbD 0 = true) :
    if condHolds c s.ccr || lowPart .word (s.dreg dn) == 0 then exec (.dbcc c dn d) s = .refused .dbccOddNotTaken
    else OddTarget (.dbcc c dn d) s (counted dn s) (s.pc + 2 + sext d) := by
  cases hc : condHolds c s.ccr with
  | true =>
    have hbody := dbccBody_holds hc dn d
    rw [if_pos h] at hbody
    exact next_refused (exec_dbcc c dn d s) hbody
  | false =>
    have hbody := dbccBody_counts hc dn d
    rw [if_pos h] at hbody
    by_cases hz : lowPart .word (s.dreg dn) = 0
    · rw [if_pos hz] at hbody
      rw [hz]
      exact next_refused (exec_dbcc c dn d s) hbody
    · rw [if_neg hz] at hbody
      rw [Bool.false_or, if_neg (by rwa [beq_iff_eq])]
      exact oddTarget_of_body (exec_dbcc c dn d s) hbody h (Recorded.refl _)

/-- Settles O41: each body goes on at its target with its pushes and pops done, and finds it odd there. -/
theorem oddTargets : Obligations.OddTargets := by
  unfold Obligations.OddTargets
  refine fun s => ⟨fun d h => ⟨?_, fun c => bcc_odd h, fun hw => ?_⟩, dbcc_odd, fun ea s1 p ha h => ⟨?_, fun hw => ?_⟩,
    fun hr h => ⟨?_, fun d => ?_⟩, fun h => ⟨fun hr => ?_, fun hs hr hsr hf => ?_⟩⟩
  · exact oddTarget_of_body rfl rfl h (Recorded.refl s)
  · exact oddTarget_of_body rfl ((Exec.look_bind s _ _).trans ((Exec.look_bind s _ _).trans (pushLong_ok hw))) h
      (Recorded.refl _)
  · exact oddTarget_of_body rfl (Exec.bind_ok s ha _) h (Recorded.refl _)
  · have hpc : nextPc (.jsr ea) s1 = nextPc (.jsr ea) s := by rw [nextPc, (eaAddress_inv ha).pc, nextPc]
    refine oddTarget_of_body rfl ((Exec.bind_ok s ha _).trans ((Exec.look_bind s1 _ _).trans ?_)) h (Recorded.refl _)
    rw [hpc]
    exact pushLong_ok_of (eaAddress_inv ha).dataFc hw
  · obtain ⟨l, hl, hpop⟩ := popLong_records hr
    exact oddTarget_of_body rfl (Exec.bind_ok s hpop _) h (recorded_setSp hl _)
  · obtain ⟨l, hl, hpop⟩ := popLong_records hr
    refine oddTarget_of_body rfl ((Exec.bind_ok s hpop _).trans (Exec.change_bind _ _ _)) h ?_
    rw [State.sp_setSp, State.setSp_setSp]
    exact recorded_setSp hl _
  · obtain ⟨l, hl, hpop⟩ := rtr_body_run hr
    obtain ⟨r, hr', he⟩ := recorded_setSp hl (s.sp + 6)
    refine oddTarget_of_body rfl hpop h ⟨r, hr', ?_⟩
    rw [he]
    rfl
  · obtain ⟨t, n, hrec, hbody⟩ := rteBody_frame hs hr
    obtain ⟨r, hl, hpop⟩ := popFrame_framePopped (n := 8) hrec hsr
    rw [show frameFormat s = 0 from hf] at hbody
    have hstale : (framePopped s 8).staleData = s.staleData := State.setSp_staleData s _
    have hpopped : Recorded (framePopped s 8) (framePopped (withRecords r s) 8) :=
      ⟨r, by rwa [hstale], framePopped_records r s 8⟩
    exact oddTarget_of_body (exec_rte s) (hbody.trans hpop) h hpopped

end Sys2Proof.Machine
end


section
/-! PROOF. Traced instructions (60_exceptions R552 to R557). -/

namespace Sys2Proof.Machine

open Sys2Proof Sys2Proof.Claim

variable {s t u v : State} {i : Instr} {p : Long}

/-- An instruction ends in the trace exception of the state it leaves, with its own address. -/
def Traced (i : Instr) (s u : State) : Prop :=
  CanEnter u 9 12 → Takes i s u 9 2 u.pc 12 fun t => peek t 5 .long (t.sp + 8) = s.pc

theorem traced_of_exec (hexec : exec i s = takeTrace v s.pc) (hv : Recorded u v) : Traced i s u := by
  intro hc
  have hpc : v.pc = u.pc := by
    obtain ⟨r, -, rfl⟩ := hv
    rfl
  have htaken := taken_trace s.pc (hv.entersAlike.canEnter hc)
  rw [hpc] at htaken
  exact takes_of_exec hexec (htaken.congr hv.entersAlike hv.outputs)

theorem traceIf_true (pc0 : Long) (s : State) : traceIf true pc0 s = takeTrace s pc0 := rfl

/-- One that falls through, with T1. -/
theorem traced_seq {body : Exec Done} (hexec : exec i s = complete i body s) (hbody : body s = .ok .seq u)
    (ht : s.traceAll = true) : Traced i s (past i s u) := by
  refine traced_of_exec (v := past i s u) ?_ (Recorded.refl _)
  rw [hexec, complete_ok hbody, finish, ht, traceIf_true]
  rfl

/-- One that goes on at an even address, with T1 or T0. -/
theorem traced_jump {body : Exec Done} (hexec : exec i s = complete i body s) (hbody : body s = .ok (.jump p) v)
    (ht : s.traceFlow = true) (hp : p.getLsbD 0 = false) (hv : Recorded u v) : Traced i s (jumped p u) := by
  obtain ⟨r, hr, rfl⟩ := hv
  refine traced_of_exec (v := jumped p (withRecords r u)) ?_ ⟨{ r with stalePipe := [] }, hr, rfl⟩
  rw [hexec, complete_ok hbody, finish, if_neg (by rw [hp]; decide), ht, traceIf_true]
  rfl

/-- One that writes SR and is done, with T1 or T0 before it. -/
theorem traced_loadSr {body : Exec Done} {d : Done} {x : Word} (hexec : exec i s = complete i body s)
    (hbody : body s = (do loadSr x; return d : Exec Done) u) (hd : d = .sr ∨ d = .stop) (ht : s.traceFlow = true)
    (hx : (x.getLsbD 15 && x.getLsbD 14) = false) : Traced i s (jumped (nextPc i s) (withSr (x &&& 0xF71F) u)) := by
  rw [loadSr_then, if_neg (by rw [srT1, srT0, hx]; decide)] at hbody
  refine traced_of_exec ?_ (Recorded.refl _)
  rw [hexec, complete_ok hbody]
  obtain rfl | rfl := hd
  · rw [finish, ht, traceIf_true]
    rfl
  · rw [finish, if_pos ht]
    rfl

/-- The frame of an exception taken in supervisor mode lies below the active stack pointer. -/
theorem frameAt_entered {vec : BitVec 8} {fmt : BitVec 4} {n : Nat} (h : EnteredFrom s t vec fmt p n) (m : Nat) :
    frameAt t m = t.sp - BitVec.ofNat 32 m := by
  have hs : (entryState t).sp = t.sp := by
    unfold entryState State.sp State.super
    simp only
    rw [h.sr, srException_srS, srException_srS, srException_srM]
  rw [frameAt, hs]

/-- The part of a range from byte `j` on that a vector keeps clear of. -/
theorem clear_part {x b : Long} {m k : Nat} (j : Nat) (h : ∀ a < 4, ∀ k < m, x + BitVec.ofNat 32 a ≠ b + BitVec.ofNat 32 k)
    (hj : j + k ≤ m) : ∀ a < 4, ∀ l < k, x + BitVec.ofNat 32 a ≠ b + BitVec.ofNat 32 j + BitVec.ofNat 32 l := by
  intro a ha l hl
  rw [BitVec.add_assoc, ← BitVec.ofNat_add]
  exact h a ha (j + l) (by omega)

/-- Two frames one below the other: the trace exception of an exception just entered (60_exceptions R556). -/
theorem traced_entered {vec : BitVec 8} {fmt : BitVec 4} {pc0 : Long} (hw : Writable s 5 (frameAt s 20) 20)
    (hvec : Readable s 5 (vectorAddress s vec) 4 ∧ (peek s 5 .long (vectorAddress s vec)).getLsbD 0 = false
      ∧ ∀ j < 4, ∀ k < 20, vectorAddress s vec + BitVec.ofNat 32 j ≠ frameAt s 20 + BitVec.ofNat 32 k)
    (h9 : Readable s 5 (vectorAddress s 9) 4 ∧ (peek s 5 .long (vectorAddress s 9)).getLsbD 0 = false
      ∧ ∀ j < 4, ∀ k < 20, vectorAddress s 9 + BitVec.ofNat 32 j ≠ frameAt s 20 + BitVec.ofNat 32 k) :
    ∃ u, enter s vec fmt p [] = .ok u ∧ EnteredFrom s u vec fmt p 8
      ∧ Taken (takeTrace u pc0) u 9 2 u.pc 12 fun t => peek t 5 .long (t.sp + 8) = pc0 := by
  have hupper : frameAt s 8 = frameAt s 20 + BitVec.ofNat 32 12 := by
    unfold frameAt
    bv_omega
  have hc : CanEnter s vec 8 := by
    rw [CanEnter, hupper]
    exact ⟨hw.part 12 rfl (by decide), hvec.1, clear_part 12 hvec.2.2 (by decide), hvec.2.1⟩
  obtain ⟨u, henter, hu, -, -, -, -, hacc, hother⟩ :=
    enter_ok (fmt := fmt) (p := p) (extra := []) (n := 8) rfl (by decide) hc
  have hlower : frameAt u 12 = frameAt s 20 := by
    rw [frameAt_entered hu, hu.sp]
    unfold frameAt
    bv_omega
  have hv9 : vectorAddress u 9 = vectorAddress s 9 := by
    unfold vectorAddress
    rw [hu.control.vbr]
  have hpeek : peek u 5 .long (vectorAddress s 9) = peek s 5 .long (vectorAddress s 9) := by
    refine hother _ ?_
    rw [hupper]
    exact clear_part 12 h9.2.2 (by decide)
  refine ⟨u, henter, hu, taken_trace pc0 ?_⟩
  rw [CanEnter, hlower, hv9, hpeek]
  refine ⟨(hacc.writable hw).part 0 (by simp) (by decide), hacc.readable h9.1, fun j hj k hk => ?_, h9.2.1⟩
  exact h9.2.2 j hj k (by omega)

/-- Settles O48: each body completes, and the end of a traced instruction takes the trace exception. -/
theorem trace : Obligations.Trace := by
  unfold Obligations.Trace
  intro s
  refine ⟨fun ht => ⟨?_, fun dn d => ?_, fun dn r => ?_, fun sz ea s1 l h hc => ?_⟩, fun ht =>
    ⟨fun d he => ⟨?_, fun hw => ?_⟩, fun ea s1 p h he => ⟨?_, fun hw => ?_⟩, fun hr he => ?_, fun hs hf h0 he => ?_,
      fun ea s1 v h hs hv => ?_, fun v => ⟨fun hs hv => ?_, fun hs hv => ?_, fun hs hv => ?_, fun hs hv => ?_⟩,
      fun n hw hvec h9 => ?_⟩⟩
  · exact traced_seq rfl rfl ht
  · have hbody : (do putD .long dn (sext d); setFlags (logicFlags (sext d)); return .seq : Exec Done) s
        = .ok .seq ((s.setDreg dn (sext d)).setCcr (logicFlags (sext d) s.ccr)) := rfl
    exact traced_seq rfl hbody ht
  · have hread : readEa .long 0 (.dn r) s = .ok (s.dreg r) s := congrArg (EStateM.Result.ok · s) (lowPart_long _)
    have hbody : eaToD .long dn (.dn r) (fun s d => d + s) addFlags s = .ok .seq
        ((s.setCcr (addFlags (s.dreg r) (s.dreg dn) (s.dreg dn + s.dreg r) s.ccr)).setDreg dn (s.dreg dn + s.dreg r)) :=
      (Exec.bind_ok s hread _).trans ((Exec.getD_bind_long s dn _).trans rfl)
    exact traced_seq rfl hbody ht
  · exact traced_seq rfl (clr_body_ok h hc) ht
  · exact traced_jump rfl rfl ht he (Recorded.refl s)
  · exact traced_jump rfl ((Exec.look_bind s _ _).trans ((Exec.look_bind s _ _).trans (pushLong_ok hw))) ht he
      (Recorded.refl _)
  · exact traced_jump rfl (Exec.bind_ok s h _) ht he (Recorded.refl _)
  · have hpc : nextPc (.jsr ea) s1 = nextPc (.jsr ea) s := by rw [nextPc, (eaAddress_inv h).pc, nextPc]
    refine traced_jump rfl ((Exec.bind_ok s h _).trans ((Exec.look_bind s1 _ _).trans ?_)) ht he (Recorded.refl _)
    rw [hpc]
    exact pushLong_ok_of (eaAddress_inv h).dataFc hw
  · obtain ⟨l, hl, hpop⟩ := popLong_records hr
    exact traced_jump rfl (Exec.bind_ok s hpop _) ht he (recorded_setSp hl _)
  · obtain ⟨w, n, hrec, hbody⟩ := rteBody_frame hs hf.1
    obtain ⟨r, hl, hpop⟩ := popFrame_framePopped (n := 8) hrec hf.2
    rw [h0] at hbody
    have hstale : (framePopped s 8).staleData = s.staleData := State.setSp_staleData s _
    have hpopped : Recorded (framePopped s 8) (framePopped (withRecords r s) 8) :=
      ⟨r, by rwa [hstale], framePopped_records r s 8⟩
    exact traced_jump (exec_rte s) (hbody.trans hpop) ht he hpopped
  · exact traced_loadSr rfl ((needSupervisor_super hs _).trans (Exec.bind_ok s h _)) (.inl rfl) ht hv
  · exact traced_loadSr rfl (needSupervisor_super hs _) (.inl rfl) ht hv
  · exact traced_loadSr rfl (needSupervisor_super hs _) (.inl rfl) ht hv
  · exact traced_loadSr rfl (needSupervisor_super hs _) (.inl rfl) ht hv
  · exact traced_loadSr rfl (needSupervisor_super hs _) (.inr rfl) ht hv
  · obtain ⟨u, henter, hu, htaken⟩ := traced_entered (pc0 := s.pc) hw hvec h9
    refine ⟨u, hu, takes_of_exec ?_ htaken⟩
    have htrap : takeTrap s s (nextPc (.trap n) s) (32 + n.setWidth 8) false = takeTrace u s.pc := by
      unfold takeTrap
      simp only [Bool.false_eq_true, if_false, henter, ht, traceIf_true]
    exact htrap

end Sys2Proof.Machine
end


section
/-! PROOF. The double bus fault (60_exceptions R535): where a frame cannot be written the processor halts. -/

namespace Sys2Proof.Machine

open Sys2Proof Sys2Proof.Claim

variable {s t u v : State} {i : Instr} {p pc0 : Long} {vec : BitVec 8} {fmt : BitVec 4} {extra : List Field}

/-! ## A frame that cannot be written -/

/-- The eight bytes below the supervisor stack pointer cannot be written. -/
def NoStack (s : State) : Prop := writeFaults s 5 (frameAt s 8) 8 = true

theorem EntersAlike.noStack (h : EntersAlike s u) (hn : NoStack s) : NoStack u := by
  unfold NoStack at *
  rw [h.frameAt, h.access.writeFaults]
  exact hn

/-- Of fields that cannot all be written there is one that cannot. -/
theorem fieldStores_fails (fs : List Field) {a : Long} (h : writeFaults s 5 a (fieldBytes fs) = true) :
    ∃ w ∈ fieldStores a fs, w.fails s = true := by
  induction fs generalizing a with
  | nil => cases h
  | cons f rest ih =>
    rw [fieldBytes_cons, writeFaults_iff] at h
    obtain ⟨k, hk, hfail⟩ := h
    by_cases hlow : k < f.sz.bytes
    · exact ⟨_, List.mem_cons_self, (writeFaults_iff s 5 a f.sz.bytes).mpr ⟨k, hlow, hfail⟩⟩
    · have hrest : writeFaults s 5 (a + BitVec.ofNat 32 f.sz.bytes) (fieldBytes rest) = true := by
        refine (writeFaults_iff ..).mpr ⟨k - f.sz.bytes, by omega, ?_⟩
        rwa [BitVec.add_assoc, ← BitVec.ofNat_add, show f.sz.bytes + (k - f.sz.bytes) = k by omega]
      obtain ⟨w, hw, hwf⟩ := ih hrest
      exact ⟨w, List.mem_cons_of_mem _ hw, hwf⟩

theorem stackFrame_faults {fs : List Field}
    (h : writeFaults s 5 (s.sp - BitVec.ofNat 32 (fieldBytes fs)) (fieldBytes fs) = true) :
    ∃ f, stackFrame s fs = .fault f s := by
  obtain ⟨w, hw, hf⟩ := fieldStores_fails fs h
  obtain ⟨x, hx⟩ := Option.isSome_iff_exists.mp (List.find?_isSome.mpr ⟨w, hw, hf⟩)
  refine ⟨x.fault, ?_⟩
  unfold stackFrame
  simp only [hx]

/-- The common fields come last on the stack, so no frame can be written. -/
theorem stackFrame_noStack {fs : List Field} (h : writeFaults s 5 (s.sp - 8) 8 = true) (hn : 8 ≤ fieldBytes fs) :
    ∃ f, stackFrame s fs = .fault f s := by
  obtain ⟨k, hk, hfail⟩ := (writeFaults_iff ..).mp h
  obtain ⟨e, he⟩ := Nat.exists_eq_add_of_le hn
  refine stackFrame_faults ((writeFaults_iff ..).mpr ⟨e + k, by omega, ?_⟩)
  have hat : s.sp - BitVec.ofNat 32 (fieldBytes fs) + BitVec.ofNat 32 (e + k) = s.sp - 8 + BitVec.ofNat 32 k := by
    rw [he]
    bv_omega
  rwa [hat]

theorem enter_noStack (h : NoStack s) (vec : BitVec 8) (fmt : BitVec 4) (p : Long) (extra : List Field) :
    ∃ f, enter s vec fmt p extra = .fault f (entryState s) := by
  have hw : writeFaults (entryState s) 5 ((entryState s).sp - 8) 8 = true :=
    ((SameAccess.entryState s).writeFaults _ _ _).trans h
  obtain ⟨f, hf⟩ := stackFrame_noStack (fs := commonFields s.sr p fmt vec ++ extra) hw (by
    rw [fieldBytes_append]
    exact Nat.le_add_right _ _)
  refine ⟨f, ?_⟩
  unfold enter
  change (stackFrame (entryState s) _).andThen _ = _
  rw [hf]
  rfl

/-! ## What halts -/

/-- The state, halted. -/
def halted (s : State) : State := { s with run := .halted }

theorem takeAccessError_noStack (h : NoStack s) (p : Long) (f : AccessFault) (k : Continuation) (owed : List AccessFault) :
    takeAccessError s p f k owed = .next (halted s) := by
  have hd : NoStack { s with draws := s.draws + frameDraws } := (entersAlike_draws s _).noStack h
  obtain ⟨g, hg⟩ := enter_noStack hd 2 7 p (accessFields s.draws f k owed)
  unfold takeAccessError
  rw [hg]
  rfl

theorem takeAddressError_noStack (h : NoStack s) (pc0 a : Long) : takeAddressError s pc0 a = .next (halted s) := by
  obtain ⟨g, hg⟩ := enter_noStack h 3 2 pc0 [longField (a &&& 0xFFFFFFFE)]
  unfold takeAddressError
  rw [hg]
  rfl

/-- An exception that cannot be stacked becomes an access error that cannot be stacked either. -/
theorem orErrors_noStack {e : Entered} {f : AccessFault} {k : Continuation} (he : e = .fault f t)
    (h : NoStack (s.undone t)) : e.orErrors s p pc0 k = .next (halted (s.undone t)) := by
  rw [he]
  exact takeAccessError_noStack h _ _ _ _

theorem entersAlike_undone (s t : State) : EntersAlike s (s.undone t) :=
  ⟨⟨rfl, rfl, rfl, rfl, rfl, rfl, fun _ _ h => h⟩, rfl, rfl, rfl, rfl, rfl, rfl, rfl, rfl, by constructor <;> rfl⟩

theorem takePre_noStack {before : State} (h : NoStack s) (hb : NoStack before) (vec : BitVec 8) :
    takePre before s vec = .next (halted (before.undone s)) := by
  obtain ⟨f, hf⟩ := enter_noStack h vec 0 before.pc []
  exact orErrors_noStack (t := entryState s) hf ((entersAlike_undone _ _).noStack hb)

theorem takeTrap_noStack (h : NoStack s) (pcn : Long) (vec : BitVec 8) (pointer : Bool) :
    takeTrap s s pcn vec pointer = .next (halted s) := by
  have key {fmt : BitVec 4} {extra : List Field} {f : AccessFault} (hf : enter s vec fmt pcn extra = .fault f (entryState s)) :
      (enter s vec fmt pcn extra).orErrors s s.pc s.pc .none = .next (halted s) :=
    orErrors_noStack (t := entryState s) hf ((entersAlike_undone s (entryState s)).noStack h)
  unfold takeTrap
  cases pointer with
  | true =>
    obtain ⟨f, hf⟩ := enter_noStack h vec 2 pcn [longField s.pc]
    have := key hf
    simp only [if_true, hf] at this ⊢
    exact this
  | false =>
    obtain ⟨f, hf⟩ := enter_noStack h vec 0 pcn []
    have := key hf
    simp only [Bool.false_eq_true, if_false, hf] at this ⊢
    exact this

theorem takeTrace_noStack (h : NoStack s) (pc0 : Long) : takeTrace s pc0 = .next (halted s) := by
  obtain ⟨f, hf⟩ := enter_noStack h 9 2 s.pc [longField pc0]
  exact orErrors_noStack (t := entryState s) hf ((entersAlike_undone s (entryState s)).noStack h)

theorem halts_pre {body : Exec Done} (h : NoStack s) (hexec : exec i s = complete i body s)
    (hbody : body s = .error (.pre vec) s) : exec i s = .next (halted s) := by
  rw [hexec, complete_error hbody]
  exact takePre_noStack h ((entersAlike_undone s s).noStack h) vec

theorem halts_trap {body : Exec Done} {pointer : Bool} (h : NoStack s) (hexec : exec i s = complete i body s)
    (hbody : body s = .error (.trap vec pointer) s) : exec i s = .next (halted s) := by
  rw [hexec, complete_error hbody]
  exact takeTrap_noStack h _ vec pointer

theorem halts_user {f : Unit → Exec Done} (h : NoStack s) (hu : s.super = false)
    (hexec : exec i s = complete i (needSupervisor >>= f) s) : exec i s = .next (halted s) :=
  halts_pre h hexec (needSupervisor_user hu f)

/-- TST of an operand that cannot be read: the access error of the read. -/
theorem tst_fault {sz : Size} {ea : Ea} {s1 : State} {a : Long} (h : operand sz 0 ea s = .ok (.mem a) s1)
    (hf : readFaults s1 false s.dataFc a sz.bytes = true) : exec (.tst sz ea) s
      = takeAccessError (s.undone s1) s.pc (readFault (normalCycle s.dataFc) sz a) .none [] := by
  have hread : readEa sz 0 ea s = .error (.restart (readFault (normalCycle s.dataFc) sz a)) s1 := by
    have hm := readMem_fault (s := s1) (sz := sz) (a := a) (by rwa [(operand_inv h).dataFc])
    rw [(operand_inv h).dataFc] at hm
    exact (Exec.bind_ok s h _).trans hm
  have hexec : exec (.tst sz ea) s = complete (.tst sz ea) (readEa sz 0 ea >>= fun v => do
    setFlags (logicFlags v)
    return .seq) s := rfl
  rw [hexec, complete_error (Exec.bind_error s hread _)]
  rfl

/-- The bytes an interrupt's frame needs. -/
theorem noStack_interruptBegin {l : BitVec 3} (hl : s.ipl = l) (h : NoStack s) :
    writeFaults (interruptBegin s l) 5 ((interruptBegin s l).sp - 8) 8 = true := by
  have hsp : (interruptBegin s l).sp = (entryState s).sp := by
    rw [interruptBegin_eq hl]
    unfold entryState State.sp State.super
    simp only [srS_interruptSr, srM_interruptSr, srException_srS, srException_srM]
  rw [hsp, (SameAccess.interruptBegin hl).writeFaults]
  exact h

theorem takeInterrupt_noStack {l : BitVec 3} (hl : s.ipl = l) (h : NoStack s) : takeInterrupt s l
    = .next { s with run := .halted, outputs := s.outputs ++ [.interruptAck l] } := by
  obtain ⟨f, hf⟩ := stackFrame_noStack (fs := commonFields s.sr s.pc 0 (acknowledge s l)) (noStack_interruptBegin hl h)
    (Nat.le_refl 8)
  have hframes : interruptFrames s l = .fault f (interruptBegin s l) := by
    unfold interruptFrames
    simp only [hf]
    split <;> rfl
  have hn : NoStack (State.undone { s with run := .running } (interruptBegin s l)) :=
    (SameAccess.writeFaults (s := s) ⟨rfl, rfl, rfl, rfl, rfl, rfl, fun _ _ h => h⟩ 5 _ 8).trans h
  have htake : takeInterrupt s l = .next (halted (State.undone { s with run := .running } (interruptBegin s l))) := by
    unfold takeInterrupt
    rw [hframes]
    exact orErrors_noStack (t := interruptBegin s l) rfl hn
  rw [htake, interruptBegin_eq hl]
  rfl

/-- Settles O43: neither the frame of the exception nor the one of the access error after it can be stacked. -/
theorem doubleBusFault : Obligations.DoubleBusFault := by
  unfold Obligations.DoubleBusFault
  intro s h
  have pre {i : Instr} {vec : BitVec 8} {body : Exec Done} := halts_pre (i := i) (vec := vec) (body := body) h
  have trap {i : Instr} {vec : BitVec 8} {b : Bool} {body : Exec Done} :=
    halts_trap (i := i) (vec := vec) (pointer := b) (body := body) h
  refine ⟨pre rfl rfl, fun w => pre rfl rfl, fun w => pre rfl rfl, fun n => trap rfl rfl, fun hv => ?_, fun c op hc => ?_,
    fun hu => ?_, fun ea s1 p ha hp hf => ?_, fun sz ea s1 a ha hf => ?_, fun ht => ?_, fun hs hr hf => ?_, fun l hi => ?_⟩
  · exact trap rfl ((Exec.getFlags_bind s _).trans ((Exec.ite_run _ _ _ _).trans (if_pos hv)))
  · exact trap rfl ((Exec.getFlags_bind s _).trans ((Exec.ite_run _ _ _ _).trans (if_pos hc)))
  · have user {i : Instr} {f : Unit → Exec Done} := halts_user (i := i) (f := f) h hu
    have movec {i : Instr} {code : BitVec 12} {f : Unit → Exec Done} (hexec : exec i s = complete i (checkControl code >>= f) s) :=
      pre hexec (Exec.bind_error s (checkControl_user code hu) f)
    exact ⟨user rfl, user rfl, fun v => ⟨user rfl, user rfl, user rfl, user rfl⟩, fun ea => ⟨user rfl, user rfl⟩,
      fun an => ⟨user rfl, user rfl⟩, fun rn code => ⟨movec rfl, movec rfl⟩, fun sz m rn ea => user rfl,
      fun sel scope an => ⟨user rfl, user rfl⟩⟩
  · have hbody : (eaAddress 4 0 ea >>= fun t => return .jump t : Exec Done) s = .ok (.jump p) s1 := Exec.bind_ok s ha _
    have hexec : exec (.jmp ea) s = complete (.jmp ea) (eaAddress 4 0 ea >>= fun t => return .jump t) s := rfl
    rw [hexec, complete_odd hbody hp]
    exact takeAddressError_noStack hf _ _
  · refine ⟨s1.bus, s1.draws, ?_⟩
    rw [tst_fault ha hf, takeAccessError_noStack ((entersAlike_undone s s1).noStack h)]
    unfold State.undone
    rw [(operand_inv ha).kept.outputs]
    rfl
  · have hexec : exec .nop s = complete .nop (pure .seq) s := rfl
    have hbody : (pure .seq : Exec Done) s = .ok .seq s := rfl
    rw [hexec, complete_ok hbody, finish, ht, traceIf_true]
    exact takeTrace_noStack ((entersAlike_pc s _).noStack h) _
  · obtain ⟨t, n, hrec, hbody⟩ := rteBody_frame hs ((dataFc_of_super hs).symm ▸ hr)
    rw [frameBody_other (by rw [frameFormat, dataFc_of_super hs]; exact hf)] at hbody
    rw [exec_rte, complete_error hbody]
    refine (takePre_noStack (hrec.entersAlike.noStack h) ((entersAlike_undone s t).noStack h) 14).trans ?_
    obtain ⟨r, -, rfl⟩ := hrec
    rfl
  · rw [step_interrupted hi, takeInterrupt_noStack hi.2.2.1 h]

end Sys2Proof.Machine
end


section
/-! PROOF. The writeback slots of an access-error frame (60_exceptions R525 to R529, log 15). -/

namespace Sys2Proof.Machine

open Sys2Proof Sys2Proof.Claim

variable {s t u v : State} {m : Nat} {f g : AccessFault} {k : Continuation} {owed : List AccessFault}

/-! ## Which slot records which write -/

/-- The slots are taken in some order. -/
theorem slotOrder_perm (m : Nat) : ∃ j k l, slotOrder m = [j, k, l] ∧ [j, k, l].Perm [1, 2, 3] := by
  have hslot : slotOf m = 1 ∨ slotOf m = 2 ∨ slotOf m = 3 := by
    unfold slotOf
    split
    · exact .inl rfl
    · exact .inr (.inl rfl)
    · exact .inr (.inr rfl)
  unfold slotOrder
  obtain h | h | h := hslot <;> rw [h] <;> cases Config.freeBit (m + 7)
  · exact ⟨1, 3, 2, rfl, by decide⟩
  · exact ⟨1, 2, 3, rfl, by decide⟩
  · exact ⟨2, 3, 1, rfl, by decide⟩
  · exact ⟨2, 1, 3, rfl, by decide⟩
  · exact ⟨3, 2, 1, rfl, by decide⟩
  · exact ⟨3, 1, 2, rfl, by decide⟩

theorem slots_distinct {j k l : Nat} (h : [j, k, l].Perm [1, 2, 3]) : j ≠ k ∧ j ≠ l ∧ k ≠ l := by
  have hn : [j, k, l].Nodup := h.nodup_iff.mpr (by decide)
  simpa [and_assoc] using hn

/-- One owed write is in the first slot of the order, and the other two are free. -/
theorem slotWrite_one {j k l : Nat} (h : slotOrder m = [j, k, l]) (hp : [j, k, l].Perm [1, 2, 3]) :
    slotWrite m [f] j = some f ∧ slotWrite m [f] k = none ∧ slotWrite m [f] l = none := by
  obtain ⟨hjk, hjl, -⟩ := slots_distinct hp
  simp [slotWrite, h, hjk, hjl]

/-- Two owed writes are in the first two. -/
theorem slotWrite_two {j k l : Nat} (h : slotOrder m = [j, k, l]) (hp : [j, k, l].Perm [1, 2, 3]) :
    slotWrite m [f, g] j = some f ∧ slotWrite m [f, g] k = some g ∧ slotWrite m [f, g] l = none := by
  obtain ⟨hjk, hjl, hkl⟩ := slots_distinct hp
  simp [slotWrite, h, hjk, hjl, hkl]

/-! ## What a slot holds -/

theorem slotStatus_some (m : Nat) (sz : Size) (fc : BitVec 3) (a : Long) (v : BitVec sz.bits) :
    slotStatus m (some (writeFault (normalCycle fc) sz a v))
      = 0x80 ||| ((ssize sz).setWidth 16 <<< 5) ||| fc.setWidth 16 := by
  have key : ∀ (z : BitVec 2) (fc : BitVec 3), ((0 : BitVec 8) ++ bit true ++ (z ++ (0 : BitVec 2) ++ fc : BitVec 7) : Word)
      = 0x80 ||| (z.setWidth 16 <<< 5) ||| fc.setWidth 16 := by decide
  exact key (ssize sz) fc

theorem setWidth_withLow (old : Long) {sz : Size} (v : BitVec sz.bits) : (withLow old sz v).setWidth sz.bits = v := by
  have key {n : Nat} (h : BitVec n) {l : Nat} (w : BitVec l) : (h ++ w).setWidth l = w := by
    apply BitVec.eq_of_getLsbD_eq
    intro i hi
    rw [BitVec.getLsbD_setWidth, BitVec.getLsbD_append, if_pos hi, decide_eq_true hi, Bool.true_and]
  cases sz with
  | byte => exact key _ v
  | word => exact key _ v
  | long => exact BitVec.setWidth_eq v

/-- Data in a register keep junk above the operand (60_exceptions R527). -/
theorem registerAligned_writeFault (junk : Long) (fc : BitVec 3) (sz : Size) (a : Long) (v : BitVec sz.bits) :
    registerAligned junk (writeFault (normalCycle fc) sz a v) = withLow junk sz v := by
  have hback := setWidth_back v
  cases sz with
  | byte => exact congrArg (withLow junk .byte) hback
  | word => exact congrArg (withLow junk .word) hback
  | long => exact hback

/-- Where a byte of a long word stands that is turned by bytes. -/
theorem extract_rotateRight (x : Long) {r k : Nat} (hr : r < 4) (hk : k < 4) :
    ((x.rotateRight (8 * r)).extractLsb' (24 - 8 * ((r + k) % 4)) 8 : Byte) = x.extractLsb' (24 - 8 * k) 8 := by
  apply BitVec.eq_of_getLsbD_eq
  intro i hi
  have hmod : 8 * r % 32 = 8 * r := Nat.mod_eq_of_lt (by omega)
  rw [BitVec.getLsbD_extractLsb', BitVec.getLsbD_extractLsb', BitVec.getLsbD_rotateRight, hmod]
  by_cases hw : r + k < 4
  · rw [Nat.mod_eq_of_lt hw, decide_eq_true (show 24 - 8 * (r + k) + i < 32 - 8 * r by omega), cond_true,
      show 8 * r + (24 - 8 * (r + k) + i) = 24 - 8 * k + i by omega]
  · rw [show (r + k) % 4 = r + k - 4 by omega, decide_eq_false (show ¬ 24 - 8 * (r + k - 4) + i < 32 - 8 * r by omega),
      cond_false, decide_eq_true (show 24 - 8 * (r + k - 4) + i < 32 by omega), Bool.true_and,
      show 24 - 8 * (r + k - 4) + i - (32 - 8 * r) = 24 - 8 * k + i by omega]

/-- Data on the bus before they are turned into their lanes (60_exceptions R529). -/
theorem memoryAligned_writeFault (junk : Long) (fc : BitVec 3) (sz : Size) (a : Long) (v : BitVec sz.bits) :
    ∃ x : Long, memoryAligned junk (writeFault (normalCycle fc) sz a v) = x.rotateRight (8 * (a.toNat % 4))
      ∧ ∀ k < sz.bytes, (x.extractLsb' (24 - 8 * k) 8 : Byte) = v.extractLsb' (8 * (sz.bytes - 1 - k)) 8 := by
  have hlow : (a.extractLsb' 0 2 : BitVec 2).toNat = a.toNat % 4 := by
    rw [BitVec.extractLsb'_toNat, Nat.shiftRight_zero]
  have hback := setWidth_back v
  cases sz with
  | byte =>
    refine ⟨v ++ (junk.extractLsb' 0 24 : BitVec 24), ?_, fun k hk => ?_⟩
    · exact hlow ▸ congrArg (fun x : Byte => (x ++ (junk.extractLsb' 0 24 : BitVec 24)).rotateRight
        (8 * (a.extractLsb' 0 2 : BitVec 2).toNat)) hback
    · obtain rfl : k = 0 := Nat.lt_one_iff.mp hk
      exact extract_append_ge v _ (by decide)
  | word =>
    refine ⟨v ++ (junk.extractLsb' 0 16 : BitVec 16), ?_, fun k hk => ?_⟩
    · exact hlow ▸ congrArg (fun x : Word => (x ++ (junk.extractLsb' 0 16 : BitVec 16)).rotateRight
        (8 * (a.extractLsb' 0 2 : BitVec 2).toNat)) hback
    · have hk2 : k < 2 := hk
      refine (extract_append_ge v _ (by omega)).trans ?_
      rw [show 24 - 8 * k - 16 = 8 * (Size.word.bytes - 1 - k) by simp only [Size.bytes]; omega]
  | long =>
    refine ⟨v, ?_, fun k hk => ?_⟩
    · exact hlow ▸ congrArg (fun x : Long => x.rotateRight (8 * (a.extractLsb' 0 2 : BitVec 2).toNat)) hback
    · have hk4 : k < 4 := hk
      rw [show 24 - 8 * k = 8 * (Size.long.bytes - 1 - k) by simp only [Size.bytes]; omega]

theorem slotHolds_of {fc : BitVec 3} {sz : Size} {a : Long} {v : BitVec sz.bits} {j : Nat} (h : AccessFrame t m f k owed)
    (hj : j = 1 ∨ j = 2 ∨ j = 3) (hw : slotWrite m owed j = some (writeFault (normalCycle fc) sz a v)) :
    SlotHolds t fc j sz a v := by
  obtain rfl | rfl | rfl := hj
  · obtain ⟨x, hx, hbytes⟩ := memoryAligned_writeFault (Config.freeLong (m + 14)) fc sz a v
    refine ⟨⟨?_, ?_⟩, fun k hk => ?_⟩
    · rw [h.addr1, slotAddr, hw]
      rfl
    · rw [h.status1, hw, slotStatus_some]
    · have hk4 : k < 4 := Nat.lt_of_lt_of_le hk (by cases sz <;> decide)
      rw [h.data1, hw, Option.elim_some, hx, ← hbytes k hk, ← Nat.mod_add_mod,
        extract_rotateRight x (Nat.mod_lt _ (by decide)) hk4]
  · refine ⟨⟨?_, ?_⟩, ?_⟩
    · rw [h.addr2, slotAddr, hw]
      rfl
    · rw [h.status2, hw, slotStatus_some]
    · rw [h.data2, slotData, hw, Option.elim_some, registerAligned_writeFault, setWidth_withLow]
  · refine ⟨⟨?_, ?_⟩, ?_⟩
    · rw [h.addr3, slotAddr, hw]
      rfl
    · rw [h.status3, hw, slotStatus_some]
    · rw [h.data3, slotData, hw, Option.elim_some, registerAligned_writeFault, setWidth_withLow]

theorem slotFree_of {j : Nat} (h : AccessFrame t m f k owed) (hj : j = 1 ∨ j = 2 ∨ j = 3)
    (hw : slotWrite m owed j = none) : SlotFree t j := by
  unfold SlotFree
  obtain rfl | rfl | rfl := hj
  · exact (congrArg (BitVec.getLsbD · 7) h.status1).trans (by rw [hw]; exact slotStatus_none _)
  · exact (congrArg (BitVec.getLsbD · 7) h.status2).trans (by rw [hw]; exact slotStatus_none _)
  · exact (congrArg (BitVec.getLsbD · 7) h.status3).trans (by rw [hw]; exact slotStatus_none _)

theorem slots_range {j k l : Nat} (h : [j, k, l].Perm [1, 2, 3]) :
    (j = 1 ∨ j = 2 ∨ j = 3) ∧ (k = 1 ∨ k = 2 ∨ k = 3) ∧ (l = 1 ∨ l = 2 ∨ l = 3) := by
  have key (x : Nat) (hx : x ∈ [j, k, l]) : x = 1 ∨ x = 2 ∨ x = 3 := by
    simpa using h.subset hx
  exact ⟨key j (by simp), key k (by simp), key l (by simp)⟩

end Sys2Proof.Machine
end


section
/-! PROOF. Access errors of operand reads and writes (60_exceptions R519 to R529). -/

namespace Sys2Proof.Machine

open Sys2Proof Sys2Proof.Claim

variable {s t u v : State} {i : Instr} {sz : Size} {own : Nat} {ea : Ea} {a : Long}

/-! ## Reads -/

theorem readLoc_fault {s1 : State} {a : Long} (hfc : s1.dataFc = s.dataFc)
    (hf : readFaults s1 false s.dataFc a sz.bytes = true) :
    readLoc sz (.mem a) s1 = .error (.restart (readFault (normalCycle s.dataFc) sz a)) s1 := by
  have hm := readMem_fault (s := s1) (sz := sz) (a := a) (by rwa [hfc])
  rw [hfc] at hm
  exact hm

/-- An instruction that stops where the read of its operand stops. -/
theorem readFaults_of_body {body : Exec Done} (hexec : ∀ s, exec i s = complete i body s)
    (hbody : ∀ {s s1 : State} {l : Loc} {e : Abort}, operand sz own ea s = .ok l s1 → readLoc sz l s1 = .error e s1 →
      body s = .error e s1) : ReadFaults i sz own ea := by
  intro s s1 a ha hf hc
  have hop := operand_inv ha
  have hu := entersAlike_undone s s1
  have hrun : exec i s
      = takeAccessError (s.undone s1) s.pc (readFault (normalCycle s.dataFc) sz a) .none [] := by
    rw [hexec, complete_error (hbody ha (readLoc_fault hop.dataFc hf))]
    rfl
  refine takes_of_exec hrun (((taken_accessError _ _ _ _ (hu.canEnter hc)).congr hu hop.kept.outputs).mono fun t ht => ?_)
  have hframe := accessFrame_of_fields rfl ht
  have hfree {x : Word} {n j : Nat} (hx : x = slotStatus n (slotWrite (s.undone s1).draws [] j)) : x.getLsbD 7 = false := by
    rw [hx, slotWrite_nil, slotStatus_none]
  refine ⟨hframe.addr, ?_, fun o ho => ?_⟩
  · rw [hframe.status]
    exact statusWord_specialStatus _ rfl rfl
  · simp only [List.mem_cons, List.not_mem_nil, or_false] at ho
    obtain rfl | rfl | rfl := ho
    · exact hfree hframe.status3
    · exact hfree hframe.status2
    · exact hfree hframe.status1

theorem readEa_error {e : Abort} {l : Loc} {s1 : State} (h : operand sz own ea s = .ok l s1)
    (he : readLoc sz l s1 = .error e s1) : readEa sz own ea s = .error e s1 := (Exec.bind_ok s h _).trans he

theorem rmwEa_error {e : Abort} {l : Loc} {s1 : State} (h : operand sz own ea s = .ok l s1)
    (he : readLoc sz l s1 = .error e s1) (f : BitVec sz.bits → Exec (BitVec sz.bits)) :
    rmwEa sz own ea f s = .error e s1 := (Exec.bind_ok s h _).trans (Exec.bind_error s1 he _)

/-- An instruction that begins with the read of its operand. -/
theorem readFaults_of_readEa {f : BitVec sz.bits → Exec Done}
    (hexec : ∀ s, exec i s = complete i (readEa sz own ea >>= f) s) : ReadFaults i sz own ea :=
  readFaults_of_body hexec fun h he => Exec.bind_error _ (readEa_error h he) f

/-- One that reads, modifies and writes it. -/
theorem readFaults_of_rmwEa {f : BitVec sz.bits → Exec (BitVec sz.bits)}
    (hexec : ∀ s, exec i s = complete i (rmwEa sz own ea f) s) : ReadFaults i sz own ea :=
  readFaults_of_body hexec fun h he => rmwEa_error h he f

/-! ## Writes -/

theorem canEnter_setCcr {vec : BitVec 8} {n : Nat} (f : Ccr) (h : CanEnter s vec n) : CanEnter (s.setCcr f) vec n := by
  have hm : srM (s.setCcr f).sr = srM s.sr := srM_srWithCcr s.sr f
  have hframe : frameAt (s.setCcr f) n = frameAt s n := by
    unfold frameAt entryState State.sp State.super
    simp only [srException_srS, srException_srM, hm]
    rfl
  obtain ⟨hw, hr, hd, he⟩ := h
  rw [CanEnter, hframe]
  exact ⟨(SameAccess.setCcr s f).writable hw, (SameAccess.setCcr s f).readable hr, hd,
    (congrArg (BitVec.getLsbD · 0) (peek_congr rfl rfl 5 .long _)).trans he⟩

/-- An instruction that ends in a write that fails, not traced. -/
theorem taken_write {body : Exec Done} {v : BitVec sz.bits} (hexec : exec i s = complete i body s)
    (ht : s.traceAll = false) (hc : CanEnter u 2 60)
    (hbody : body s = .error (.write (writeFault (normalCycle s.dataFc) sz a v) [] .seq) u) :
    Takes i s u 2 7 (nextPc i s) 60 fun t =>
      peek t 5 .long (t.sp + 0x14) = a ∧ StatusWord (peek t 5 .word (t.sp + 0xC)) false (ssize sz) s.dataFc
        ∧ ∃ j k l, [j, k, l].Perm [1, 2, 3] ∧ SlotHolds t s.dataFc j sz a v ∧ SlotFree t k ∧ SlotFree t l := by
  let f := writeFault (normalCycle s.dataFc) sz a v
  have hrun : exec i s = takeAccessError u (nextPc i s) f .none [f] := by
    have htraced : Done.seq.traced s = false := ht
    rw [hexec, complete_error hbody, abort, htraced]
    rfl
  refine takes_of_exec hrun ((taken_accessError _ _ _ _ hc).mono fun t ht => ?_)
  have hframe := accessFrame_of_fields rfl ht
  obtain ⟨j, k, l, horder, hp⟩ := slotOrder_perm u.draws
  obtain ⟨hj, hk, hl⟩ := slots_range hp
  obtain ⟨wj, wk, wl⟩ := slotWrite_one (f := f) horder hp
  refine ⟨hframe.addr, ?_, j, k, l, hp, slotHolds_of hframe hj wj, slotFree_of hframe hk wk, slotFree_of hframe hl wl⟩
  rw [hframe.status]
  exact statusWord_specialStatus _ rfl rfl

/-- The place that cannot be written, where the last act of a body is a write to it. -/
theorem writeFaults_of_body {body : Exec Done} {val : State → BitVec sz.bits} {done : State → State → State}
    (hexec : ∀ s, exec i s = complete i body s)
    (hcan : ∀ s s1, CanEnter s1 2 60 → CanEnter (done s s1) 2 60)
    (hbody : ∀ {s s1 : State} {a : Long}, operand sz 0 ea s = .ok (.mem a) s1 →
      body s = writeMem sz a (val s) .seq (done s s1))
    (hacc : ∀ s s1, SameAccess s1 (done s s1) ∧ (done s s1).dataFc = s1.dataFc) : WriteFaults i sz ea val done := by
  intro s s1 a ht ha hf hc
  have hfc : (done s s1).dataFc = s.dataFc := (hacc s s1).2.trans (operand_inv ha).dataFc
  refine taken_write (hexec s) ht (hcan s s1 hc) ((hbody ha).trans ?_)
  have hw := writeMem_fault (s := done s s1) (sz := sz) (a := a) (v := val s) (d := .seq)
    (by rw [hfc, (hacc s s1).1.writeFaults]; exact hf)
  rw [hfc] at hw
  exact hw

/-- An operand written without a change of the codes. -/
theorem writeFaults_of_writeEa {body : Exec Done} {val : State → BitVec sz.bits}
    (hexec : ∀ s, exec i s = complete i body s) (hbody : ∀ s, body s = writeEa sz 0 ea (val s) s) :
    WriteFaults i sz ea val (fun _ s1 => s1) :=
  writeFaults_of_body hexec (fun _ _ h => h) (fun {s _ _} h => (hbody s).trans (Exec.bind_ok s h _))
    fun _ s1 => ⟨SameAccess.refl s1, rfl⟩

theorem clr_writeFaults (sz : Size) (ea : Ea) : WriteFaults (.clr sz ea) sz ea (fun _ => 0)
    (fun s s1 => s1.setCcr { x := s.ccr.x, n := false, z := true, v := false, c := false }) := by
  refine writeFaults_of_body (fun _ => rfl) (fun s s1 h => canEnter_setCcr _ h) (fun {s s1 a} h => ?_)
    fun s s1 => ⟨SameAccess.setCcr s1 _, State.dataFc_setCcr s1 _⟩
  refine (Exec.bind_ok s h _).trans ((Exec.setFlags_bind s1 _ _).trans ?_)
  rw [(operand_inv h).ccr]
  rfl

/-- Two stores that both fail are both owed (60_exceptions R519). -/
theorem storeAll_two_fault {w x : Store} {d : Done} (hw : w.fails s = true) (hx : x.fails s = true)
    (hl : w.c.locked = false) (hl' : x.c.locked = false) :
    storeAll [w, x] d s = .error (.write w.fault [x.fault] d) s := by
  simp [storeAll, runStores, Store.run_fails, hw, hx, hl, hl']

theorem movep_writeFaults {dx ay : Reg} {d : Word} (ht : s.traceAll = false)
    (h1 : writeFaults s s.dataFc (s.areg ay + sext d) 1 = true)
    (h2 : writeFaults s s.dataFc (s.areg ay + sext d + 2) 1 = true) (hc : CanEnter s 2 60) :
    Takes (.movep .wordToMem dx ay d) s s 2 7 (nextPc (.movep .wordToMem dx ay d) s) 60 fun t =>
      peek t 5 .long (t.sp + 0x14) = s.areg ay + sext d ∧ StatusWord (peek t 5 .word (t.sp + 0xC)) false 1 s.dataFc
        ∧ ∃ j k l, [j, k, l].Perm [1, 2, 3]
          ∧ SlotHolds t s.dataFc j .byte (s.areg ay + sext d) ((s.dreg dx).extractLsb' 8 8)
          ∧ SlotHolds t s.dataFc k .byte (s.areg ay + sext d + 2) ((s.dreg dx).extractLsb' 0 8) ∧ SlotFree t l := by
  let f := writeFault (normalCycle s.dataFc) .byte (s.areg ay + sext d) ((s.dreg dx).extractLsb' 8 8)
  let g := writeFault (normalCycle s.dataFc) .byte (s.areg ay + sext d + 2) ((s.dreg dx).extractLsb' 0 8)
  have hfault (b : Long) (v : Byte) : (movepByte s b v).fault = writeFault (normalCycle s.dataFc) .byte b v :=
    congrArg (writeFault (normalCycle s.dataFc) .byte b) (setWidth_back (sz := .byte) v)
  have hbody := storeAll_two_fault (w := movepByte s (s.areg ay + sext d) ((s.dreg dx).extractLsb' 8 8))
    (x := movepByte s (s.areg ay + sext d + 2) ((s.dreg dx).extractLsb' 0 8)) (d := .seq) h1 h2 rfl rfl
  rw [hfault, hfault] at hbody
  obtain ⟨body, hexec, hstores⟩ : ∃ body : Exec Done,
      exec (.movep .wordToMem dx ay d) s = complete (.movep .wordToMem dx ay d) body s
      ∧ body s = storeAll [movepByte s (s.areg ay + sext d) ((lowPart .long (s.dreg dx)).extractLsb' 8 8),
        movepByte s (s.areg ay + sext d + 2) ((lowPart .long (s.dreg dx)).extractLsb' 0 8)] .seq s := ⟨_, rfl, rfl⟩
  rw [lowPart_long, hbody] at hstores
  have hrun : exec (.movep .wordToMem dx ay d) s
      = takeAccessError s (nextPc (.movep .wordToMem dx ay d) s) f .none [f, g] := by
    have htraced : Done.seq.traced s = false := ht
    rw [hexec, complete_error hstores, abort, htraced]
    rfl
  refine takes_of_exec hrun ((taken_accessError _ _ _ _ hc).mono fun t ht => ?_)
  have hframe := accessFrame_of_fields rfl ht
  obtain ⟨j, k, l, horder, hp⟩ := slotOrder_perm s.draws
  obtain ⟨hj, hk, hl⟩ := slots_range hp
  obtain ⟨wj, wk, wl⟩ := slotWrite_two (f := f) (g := g) horder hp
  refine ⟨hframe.addr, ?_, j, k, l, hp, slotHolds_of hframe hj wj, slotHolds_of hframe hk wk, slotFree_of hframe hl wl⟩
  rw [hframe.status]
  exact statusWord_specialStatus _ rfl rfl

/-- Settles O42: a read that fails abandons the body, a write that fails ends it, and the frame is read field by field. -/
theorem accessErrors : Obligations.AccessErrors := by
  unfold Obligations.AccessErrors
  refine ⟨fun sz ea => ⟨⟨?_, ?_, fun imm => ⟨?_, ?_⟩, fun dst => ?_⟩, fun dn => ⟨?_, ?_⟩, clr_writeFaults sz ea, fun c => ?_, ?_⟩,
    fun s dx ay d ht h1 h2 hc => movep_writeFaults ht h1 h2 hc⟩
  · exact readFaults_of_readEa fun _ => rfl
  · exact readFaults_of_rmwEa fun _ => rfl
  · exact readFaults_of_readEa fun _ => rfl
  · exact readFaults_of_rmwEa fun _ => rfl
  · exact readFaults_of_readEa fun _ => rfl
  · exact readFaults_of_readEa fun _ => rfl
  · exact readFaults_of_readEa fun _ => rfl
  · exact writeFaults_of_writeEa (fun _ => rfl) fun s => Exec.getFlags_bind s _
  · refine writeFaults_of_writeEa (fun _ => rfl) fun s => (Exec.getFlags_bind s _).trans ?_
    rw [ccr_bits_setWidth]

end Sys2Proof.Machine
end


section
/-! PROOF. Floating-point words (48 R412, 60_exceptions R545). -/

namespace Sys2Proof.Machine

open Sys2Proof Sys2Proof.Claim

variable {s t u v : State} {p : Long} {w : BitVec 9} {ws : List Word} {stop : Option FetchStop} {sh : Config.FpShape}

/-! ## The body by its cases -/

/-- A legal floating-point word once all its words are there. -/
def fpUnimplemented (w : BitVec 9) (ws : List Word) (stop : Option FetchStop) (sh : Config.FpShape) : Exec Done := do
  let p ← look fun s => s.pc + BitVec.ofNat 32 sh.bytes
  let ea ← match sh.memory with
    | none => pure 0
    | some b => fpAddress w ws stop b
  throw (.fp p ea)

/-- What a floating-point word does once its words are fetched. -/
def fpBody (w : BitVec 9) (r : List Word × Option FetchStop) : Exec Done :=
  if 6 ≤ (w.extractLsb' 6 3).toNat then throw (.pre 11)
  else if r.1.length < 1 + fpOwnWords w then fetchStopped r.2
  else match Config.fpLegal r.1 with
  | none => throw (.pre 11)
  | some sh =>
    if r.2.isSome && decide (2 * r.1.length < sh.bytes) then
      if sh.memory.isSome then fpMissing w r.1 r.2 else fetchStopped r.2
    else fpUnimplemented w r.1 r.2 sh

theorem exec_fpLine (w : BitVec 9) (s : State) :
    exec (.fpLine w) s = complete (.fpLine w) (look (fun s => fetchWords s s.pc maxWords) >>= fpBody w) s := rfl

theorem fpLine_run (w : BitVec 9) (s : State) :
    (look (fun s => fetchWords s s.pc maxWords) >>= fpBody w) s = fpBody w (fetchWords s s.pc maxWords) s :=
  Exec.look_bind s _ _

theorem fpGroup (w : BitVec 9) : (w.extractLsb' 6 3 : BitVec 3).toNat = w.toNat / 64 := by
  rw [BitVec.extractLsb'_toNat, Nat.shiftRight_eq_div_pow]
  exact Nat.mod_eq_of_lt (by omega)

theorem fpOwn (w : BitVec 9) : 1 + fpOwnWords w = if w.toNat / 64 < 2 then 2 else 1 := by
  unfold fpOwnWords
  rw [fpGroup]
  split <;> rfl

theorem fpBody_line (h : 6 ≤ w.toNat / 64) (r : List Word × Option FetchStop) : fpBody w r = throw (.pre 11) := by
  unfold fpBody
  rw [if_pos (by rw [fpGroup]; exact h)]

theorem fpBody_cut (h : w.toNat / 64 < 6) (hl : ws.length < 1 + fpOwnWords w) :
    fpBody w (ws, stop) = fetchStopped stop := by
  unfold fpBody
  rw [if_neg (by rw [fpGroup]; omega), if_pos hl]

theorem fpBody_illegal (h : w.toNat / 64 < 6) (hl : 1 + fpOwnWords w ≤ ws.length) (hn : Config.fpLegal ws = none) :
    fpBody w (ws, stop) = throw (.pre 11) := by
  unfold fpBody
  rw [if_neg (by rw [fpGroup]; omega), if_neg (by simpa using hl)]
  simp only [hn]

theorem fpBody_legal (h : w.toNat / 64 < 6) (hl : 1 + fpOwnWords w ≤ ws.length) (hn : Config.fpLegal ws = some sh)
    (hall : sh.bytes ≤ 2 * ws.length ∨ stop = none) : fpBody w (ws, stop) = fpUnimplemented w ws stop sh := by
  have hcut : (stop.isSome && decide (2 * ws.length < sh.bytes)) = false := by
    obtain hb | rfl := hall
    · rw [decide_eq_false (by omega), Bool.and_false]
    · rfl
  unfold fpBody
  rw [if_neg (by rw [fpGroup]; omega), if_neg (by simpa using hl)]
  simp only [hn, hcut, Bool.false_eq_true, if_false]

theorem fpUnimplemented_none (h : sh.memory = none) :
    fpUnimplemented w ws stop sh s = .error (.fp (s.pc + BitVec.ofNat 32 sh.bytes) 0) s := by
  unfold fpUnimplemented
  rw [Exec.look_bind, h]
  rfl

/-- An operand whose address is computed is no register and no immediate, so the address field takes it. -/
theorem fpUnimplemented_some {n : Nat} {ea : Ea} {a : Long} (h : sh.memory = some n) (hea : fpOperand w ws = .ok ea)
    (ha : eaAddress n (fpOwnWords w) ea s = .ok a t) :
    fpUnimplemented w ws stop sh s = .error (.fp (s.pc + BitVec.ofNat 32 sh.bytes) a) t := by
  have haddr : fpAddress w ws stop n s = .ok a t := by
    unfold fpAddress
    rw [hea]
    cases ea with
    | dn r => cases ha
    | an r => cases ha
    | imm v => cases ha
    | ind r => exact ha
    | postInc r => exact ha
    | preDec r => exact ha
    | disp r d => exact ha
    | idx r x => exact ha
    | absW d => exact ha
    | absL d => exact ha
    | pcDisp d => exact ha
    | pcIdx x => exact ha
  unfold fpUnimplemented
  rw [Exec.look_bind, h]
  exact Exec.bind_ok s haddr _

/-! ## The exceptions -/

theorem fieldsAt_longs {x y : Long} (h : FieldsAt t (t.sp + 8) [longField x, longField y]) :
    peek t 5 .long (t.sp + 8) = x ∧ peek t 5 .long (t.sp + 12) = y := by
  obtain ⟨hx, hy, -⟩ := h
  refine ⟨hx.trans (BitVec.setWidth_eq x), ?_⟩
  have hat : t.sp + 8 + BitVec.ofNat 32 4 = t.sp + 12 := by rw [BitVec.add_assoc]; rfl
  rw [← hat]
  exact hy.trans (BitVec.setWidth_eq y)

theorem taken_fp (before : State) (p ea : Long) (hc : CanEnter u 11 16) :
    Taken (takeFp before u p ea) u 11 4 p 16 fun t =>
      peek t 5 .long (t.sp + 8) = ea ∧ peek t 5 .long (t.sp + 12) = before.pc := by
  have h := taken_enter (o := takeFp before u p ea) (fun t ht => Entered.orErrors_of_ok ht)
    (show 8 + fieldBytes [longField ea, longField before.pc] = 16 from rfl) (by decide) hc
  exact h.mono fun _ => fieldsAt_longs

/-- A vector that cannot be read is found after the frame is written. -/
theorem enter_vectorFault {vec : BitVec 8} {fmt : BitVec 4} {extra : List Field} {n : Nat}
    (hn : 8 + fieldBytes extra = n) (h32 : n ≤ 2 ^ 32) (hw : Writable s 5 (frameAt s n) n)
    (hf : readFaults s false 5 (vectorAddress s vec) 4 = true) :
    ∃ u, u.outputs = s.outputs
      ∧ enter s vec fmt p extra = .fault (readFault (normalCycle 5) .long (vectorAddress s vec)) u := by
  have hb : fieldBytes (commonFields s.sr p fmt vec ++ extra) = n := by
    rw [fieldBytes_append]
    exact hn
  have ha := SameAccess.entryState s
  obtain ⟨u, hs, hu⟩ := stackFrame_stacked (s := entryState s) (a := frameAt s n)
    (fs := commonFields s.sr p fmt vec ++ extra) (entryState_super s)
    (by rw [hb]; rfl) (by rw [hb]; exact ha.writable hw) (by rw [hb]; exact h32)
  have hv : vectorAddress u vec = vectorAddress s vec := by
    unfold vectorAddress
    rw [hu.control.vbr]
    rfl
  have hf' : readFaults u false 5 (vectorAddress u vec) 4 = true := by
    rw [hv, (ha.trans hu.access).readFaults]
    exact hf
  refine ⟨u, hu.outputs, ?_⟩
  unfold enter
  change (stackFrame (entryState s) _).andThen _ = _
  rw [hs]
  change jumpVector u vec = _
  unfold jumpVector
  simp only [hv]
  exact if_pos (hv ▸ hf')

theorem fpLine_pre {vec : BitVec 8} (hbody : fpBody w (fetchWords s s.pc maxWords) = throw (.pre vec))
    (hc : CanEnter s vec 8) : Takes (.fpLine w) s s vec 0 s.pc 8 fun _ => True := by
  refine takes_pre (exec_fpLine w s) ?_ hc
  rw [fpLine_run, hbody]
  rfl

theorem fpLine_takesFp {ea : Long} (hbody : fpBody w (fetchWords s s.pc maxWords) s = .error (.fp p ea) u)
    (hc : CanEnter u 11 16) : Takes (.fpLine w) s u 11 4 p 16 fun t =>
      peek t 5 .long (t.sp + 8) = ea ∧ peek t 5 .long (t.sp + 12) = s.pc := by
  refine takes_of_exec ?_ (taken_fp s p ea hc)
  rw [exec_fpLine, complete_error ((fpLine_run w s).trans hbody)]
  rfl

/-- The vector of an unimplemented instruction cannot be read (log 43). -/
theorem fpLine_vectorFault (hbody : fpBody w (fetchWords s s.pc maxWords) s = .error (.fp p 0) s)
    (hw : Writable s 5 (frameAt s 16) 16) (hf : readFaults s false 5 (vectorAddress s 11) 4 = true)
    (hc : CanEnter s 2 60) : Takes (.fpLine w) s s 2 7 p 60 fun t =>
      peek t 5 .long (t.sp + 0x14) = vectorAddress s 11 ∧ peek t 5 .long (t.sp + 8) = 0
        ∧ (peek t 5 .word (t.sp + 0xC)).getLsbD 14 = true := by
  obtain ⟨u, hout, henter⟩ := enter_vectorFault (fmt := 4) (p := p) (extra := [longField 0, longField s.pc])
    (n := 16) rfl (by decide) hw hf
  have hu := entersAlike_undone s u
  have hrun : exec (.fpLine w) s
      = takeAccessError (s.undone u) p (readFault (normalCycle 5) .long (vectorAddress s 11)) (.fp 0) [] := by
    rw [exec_fpLine, complete_error ((fpLine_run w s).trans hbody), abort, takeFp, henter]
    rfl
  refine takes_of_exec hrun (((taken_accessError _ _ _ _ (hu.canEnter hc)).congr hu hout).mono fun t ht => ?_)
  have hframe := accessFrame_of_fields rfl ht
  refine ⟨hframe.addr, hframe.ea, ?_⟩
  rw [hframe.status]
  exact (specialStatus_bits _ _ _ _ true _ _ _ _ _ _ _ (rfl : specialStatus _ _ (.fp 0) = _)).1

/-- A word that cannot be fetched (60_exceptions R531). -/
theorem fpLine_fetchFault {a : Long} (hbody : fpBody w (fetchWords s s.pc maxWords) = fetchStopped (some (.fault a)))
    (hc : CanEnter s 2 60) : Takes (.fpLine w) s s 2 7 s.pc 60 fun t => peek t 5 .long (t.sp + 0x14) = a := by
  have hrun : exec (.fpLine w) s = takeAccessError s s.pc (fetchFault s a) .none [] := by
    rw [exec_fpLine, complete_error (e := .restart (fetchFault s a)) (t := s)]
    · rfl
    · rw [fpLine_run, hbody]
      rfl
  refine takes_of_exec hrun ((taken_accessError _ _ _ _ hc).mono fun t ht => ?_)
  exact (accessFrame_of_fields rfl ht).addr

/-- The modes without extension words. -/
theorem fpOperand_simple {w : BitVec 9} {ws : List Word} :
    (w.extractLsb' 3 3 = (2 : BitVec 3) → fpOperand w ws = .ok (.ind (w.extractLsb' 0 3)))
    ∧ (w.extractLsb' 3 3 = (3 : BitVec 3) → fpOperand w ws = .ok (.postInc (w.extractLsb' 0 3)))
    ∧ (w.extractLsb' 3 3 = (4 : BitVec 3) → fpOperand w ws = .ok (.preDec (w.extractLsb' 0 3))) := by
  refine ⟨fun h => ?_, fun h => ?_, fun h => ?_⟩ <;>
  · unfold fpOperand
    rw [h]
    rfl

/-- Settles O37: the word's group, the words fetched and the answer of `fp_legal` decide which exception the body raises. -/
theorem floatingPointWords : Obligations.FloatingPointWords := by
  unfold Obligations.FloatingPointWords
  intro s w
  refine ⟨fun h hc => fpLine_pre (fpBody_line h _) hc, fun h hl => ?_, fun a h hl hstop hc => ?_⟩
  · rw [← fpOwn] at hl
    cases hn : Config.fpLegal (fetchWords s s.pc maxWords).1 with
    | none => exact fun hc => fpLine_pre (fpBody_illegal h hl hn) hc
    | some sh =>
      intro hall
      have hbody : fpBody w (fetchWords s s.pc maxWords)
          = fpUnimplemented w (fetchWords s s.pc maxWords).1 (fetchWords s s.pc maxWords).2 sh := fpBody_legal h hl hn hall
      refine ⟨fun hm => ⟨fun hc => ?_, fun hw hf hc => ?_⟩, fun n hm => ⟨fun ea a s1 hea ha hc => ?_, fpOperand_simple⟩⟩
      · exact fpLine_takesFp (by rw [hbody, fpUnimplemented_none hm]) hc
      · exact fpLine_vectorFault (by rw [hbody, fpUnimplemented_none hm]) hw hf hc
      · rw [← fpOwn, Nat.add_sub_cancel_left] at ha
        exact fpLine_takesFp (by rw [hbody, fpUnimplemented_some hm hea ha]) hc
  · rw [← fpOwn] at hl
    refine fpLine_fetchFault ?_ hc
    rw [← hstop]
    exact fpBody_cut h hl

end Sys2Proof.Machine
end


section
/-! PROOF. Decimal arithmetic, PACK and UNPK (46_bcd). -/

namespace Sys2Proof.Machine

open Sys2Proof Sys2Proof.Claim

variable {s t u : State} {i : Instr}

/-! ## Digits (46 R340, R341) -/

theorem toNat_high (b : Byte) : (b.extractLsb' 4 4 : BitVec 4).toNat = b.toNat / 16 := by
  rw [BitVec.extractLsb'_toNat, Nat.shiftRight_eq_div_pow]
  exact Nat.mod_eq_of_lt (by omega)

theorem toNat_low (b : Byte) : (b.extractLsb' 0 4 : BitVec 4).toNat = b.toNat % 16 := by
  rw [BitVec.extractLsb'_toNat, Nat.shiftRight_zero]

theorem isBcd_iff (b : Byte) : isBcd b = true ↔ isDecimal b := by
  unfold isBcd isDecimal
  rw [toNat_high, toNat_low, Bool.and_eq_true, decide_eq_true_iff, decide_eq_true_iff]

theorem bcdValue_eq (b : Byte) : bcdValue b = decimalValue b := by
  unfold bcdValue decimalValue
  rw [toNat_high, toNat_low, Nat.mul_comm]

/-- The two digits of a number below 100. -/
theorem toBcd_spec {k : Nat} (h : k < 100) : isDecimal (toBcd k) ∧ decimalValue (toBcd k) = k := by
  have key : ∀ k < 100, ((toBcd k).toNat / 16 < 10 ∧ (toBcd k).toNat % 16 < 10)
      ∧ (toBcd k).toNat / 16 * 10 + (toBcd k).toNat % 16 = k := by decide
  exact key k h

theorem extend_eq (f : Ccr) : f.extend = f.x.toNat := by
  unfold Ccr.extend
  cases f.x <;> rfl

/-- The result of a decimal operation, whatever is drawn. -/
theorem bcdResult_run (ok : Bool) (e : Int) (s : State) : ∃ (r : Byte) (f : Ccr) (n : Nat), f.z = (s.ccr.z && r == 0)
    ∧ (ok = true → r = toBcd (e % 100).toNat ∧ f.x = f.c ∧ f.c = (decide (e < 0) || decide (99 < e)))
    ∧ bcdResult ok e s = .ok r ((withDraws n s).setCcr f) := by
  cases ok with
  | true => exact ⟨_, _, s.draws + 2, rfl, fun _ => ⟨rfl, rfl, rfl⟩, rfl⟩
  | false => exact ⟨_, _, s.draws + 5, rfl, nofun, rfl⟩

/-- It is the decimal result of the claims, in a state with the codes of `s`. -/
theorem bcdResult_decimal {ok : Bool} {p : Prop} {s2 : State} (hok : p → ok = true) (hccr : s2.ccr = s.ccr) (e : Int) :
    ∃ r f n, DecimalResult s p e r f ∧ bcdResult ok e s2 = .ok r ((withDraws n s2).setCcr f) := by
  obtain ⟨r, f, n, hz, hdec, hrun⟩ := bcdResult_run ok e s2
  refine ⟨r, f, n, ⟨by rw [hz, hccr], fun hp => ?_⟩, hrun⟩
  obtain ⟨rfl, hx, hc⟩ := hdec (hok hp)
  obtain ⟨hd, hv⟩ := toBcd_spec (k := (e % 100).toNat) (by omega)
  refine ⟨hd, ?_, hx, ?_⟩
  · rw [hv]
    omega
  · rw [hc, ← Bool.decide_or, decide_eq_decide]
    omega

/-! ## ABCD and SBCD -/

theorem isBcd_pair {v d : Byte} (h : isDecimal v ∧ isDecimal d) : (isBcd v && isBcd d) = true := by
  rw [Bool.and_eq_true, isBcd_iff, isBcd_iff]
  exact h

/-- A state with drawn values and other codes. -/
theorem sameAccess_drawn (n : Nat) (f : Ccr) (s : State) : SameAccess s ((withDraws n s).setCcr f) :=
  (SameAccess.withDraws s n).trans (SameAccess.setCcr _ f)

theorem kept_drawn (n : Nat) (f : Ccr) (s : State) : Kept s ((withDraws n s).setCcr f) [] [] :=
  ((Kept.withDraws s n).trans (Kept.setCcr _ f)).mono (by simp) (by simp)

theorem dataFc_drawn (n : Nat) (f : Ccr) (s : State) : ((withDraws n s).setCcr f).dataFc = s.dataFc := by
  rw [State.dataFc_setCcr]
  rfl

theorem decimalPair_of_exec {mk : Bool → Reg → Reg → Instr} {g : Int → Int → Int → Int}
    (hexec : ∀ mem x y s, exec (mk mem x y) s = complete (mk mem x y) (decimal mem x y g) s) : DecimalPair mk g := by
  intro x y s ht
  refine ⟨?_, fun s1 s2 v d hv hd hw => ?_⟩
  · obtain ⟨r, f, n, hdec, hrun⟩ := bcdResult_decimal (s := s) (s2 := s) isBcd_pair rfl
      (g (decimalValue (lowPart .byte (s.dreg y))) (decimalValue (lowPart .byte (s.dreg x))) s.ccr.x.toNat)
    refine ⟨r, f, n, hdec, next_past (hexec false x y s) ?_ ht, Kept.past ?_⟩
    · unfold decimal
      rw [Exec.getFlags_bind, if_neg (by decide), Exec.getD_bind_byte, Exec.getD_bind_byte, bcdValue_eq, bcdValue_eq,
        extend_eq, Exec.bind_ok s hrun]
      rfl
    · exact ((kept_drawn n f s).trans (Kept.setDreg _ x _)).mono (by simp) (by simp)
  · have hop := readEa_inv hv
    have hrd := readMem_effect hd
    have hfc : s2.dataFc = s.dataFc := by rw [hrd.dataFc, State.dataFc_setAreg, hop.dataFc]
    have hccr : s2.ccr = s.ccr := by rw [hrd.ccr, State.ccr_setAreg, hop.ccr]
    obtain ⟨r, f, n, hdec, hrun⟩ := bcdResult_decimal (s := s) (s2 := s2) (isBcd_pair (v := v) (d := d)) hccr
      (g (decimalValue v) (decimalValue d) s.ccr.x.toNat)
    have hfc' : ((withDraws n s2).setCcr f).dataFc = s.dataFc := (dataFc_drawn n f s2).trans hfc
    have hw' := (sameAccess_drawn n f s2).writable hw
    refine ⟨r, f, n, hdec, next_past (hexec true x y s) ?_ ht, Kept.past ?_⟩
    · have hpre : preDecrement .byte x s1 = .ok (s1.areg x - stepOf 1 x) (s1.setAreg x (s1.areg x - stepOf 1 x)) := rfl
      have hwrite := writeMem_ok (sz := .byte) (s := (withDraws n s2).setCcr f) (a := s1.areg x - stepOf 1 x) (v := r)
        (d := .seq) (by rw [hfc']; exact hw'.1) (by rw [hfc']; exact hw'.2.1) (by rw [hfc']; exact hw'.2.2)
      rw [hfc'] at hwrite
      unfold decimal
      rw [Exec.getFlags_bind, if_pos rfl]
      refine (Exec.bind_ok s hv _).trans ((Exec.bind_ok s1 hpre _).trans ((Exec.bind_ok _ hd _).trans ?_))
      rw [bcdValue_eq, bcdValue_eq, extend_eq]
      exact (Exec.bind_ok s2 hrun _).trans hwrite
    · have hp := Kept.poke ((withDraws n s2).setCcr f) s.dataFc .byte (s1.areg x - stepOf 1 x) r
      have h := hop.kept.trans ((Kept.setAreg s1 x _).trans (hrd.kept.trans ((kept_drawn n f s2).trans hp)))
      have hplat : ((withDraws n s2).setCcr f).platform = s.platform := by
        rw [(sameAccess_drawn n f s2).platform, hrd.access.platform, State.setAreg_platform, hop.access.platform]
      rw [keysAt_congr hplat] at h
      exact h.mono (by simp [steppedRegs]) (by simp [Size.bytes])

/-- Settles O19: the digits of the exact value modulo 100, or a free byte. -/
theorem decimalArithmetic : Obligations.DecimalArithmetic := by
  unfold Obligations.DecimalArithmetic
  refine ⟨decimalPair_of_exec fun _ _ _ _ => rfl, decimalPair_of_exec fun _ _ _ _ => rfl,
    fun ea s s1 s2 l d ht hl hd hc => ?_⟩
  have hop : OperandEffect 1 ea s s2 := (operand_inv hl).read (readLoc_inv hd)
  obtain ⟨r, f, n, hdec, hrun⟩ := bcdResult_decimal (s := s) (s2 := s2) (isBcd_iff d).mpr hop.ccr
    (0 - decimalValue d - s.ccr.x.toNat)
  refine ⟨r, f, n, hdec, next_past rfl ?_ ht, Kept.past ?_⟩
  · refine rmwEa_ok hl hd ((Exec.getFlags_bind s2 _).trans ?_)
      (hc.congr (sameAccess_drawn n f s2) (dataFc_drawn n f s2))
    rw [bcdValue_eq, extend_eq, hop.ccr]
    exact hrun
  · have hkeys : placeKeys ((withDraws n s2).setCcr f) .byte l = placeKeys s .byte l :=
      placeKeys_congr ((sameAccess_drawn n f s2).platform.trans hop.access.platform)
        ((dataFc_drawn n f s2).trans hop.dataFc)
    have h := hop.kept.trans ((kept_drawn n f s2).trans (Kept.stored _ .byte l r))
    rw [hkeys] at h
    exact h.mono (by simp) (by simp)

/-! ## PACK and UNPK (46 R344, R345) -/

theorem toNat_append_nibble {n : Nat} (x : BitVec n) (y : BitVec 4) : (x ++ y).toNat = x.toNat * 16 + y.toNat := by
  rw [BitVec.toNat_append, ← Nat.shiftLeft_add_eq_or_of_lt y.isLt, Nat.shiftLeft_eq]

theorem packed_eq (w : Word) : packed w = packedByte w := by
  apply BitVec.eq_of_toNat_eq
  unfold packed packedByte
  rw [toNat_append_nibble, BitVec.extractLsb'_toNat, BitVec.extractLsb'_toNat, Nat.shiftRight_eq_div_pow,
    Nat.shiftRight_zero, BitVec.toNat_ofNat]
  omega

theorem unpacked_eq (b : Byte) : unpacked b = unpackedWord b := by
  apply BitVec.eq_of_toNat_eq
  unfold unpacked unpackedWord
  rw [toNat_append_nibble, toNat_append_nibble, toNat_append_nibble, toNat_high, toNat_low, BitVec.toNat_ofNat]
  simp only [BitVec.ofNat_eq_ofNat, BitVec.toNat_ofNat]
  omega

theorem moveDown_run (r : Reg) (n : Long) (s : State) :
    moveDown r n s = .ok (s.areg r - n) (s.setAreg r (s.areg r - n)) := rfl

/-- The registers and codes once both registers are moved and the result is stored. -/
theorem packMemory_completes {body : Exec Done} {sz : Size} {x y : Reg} {a k : Long} {v : BitVec sz.bits}
    (hexec : exec i s = complete i body s) (ht : s.traceAll = false) (hu : Recorded (s.setAreg y a) u)
    (hbody : body s = .ok .seq (poke (u.setAreg x (u.areg x - k)) s.dataFc sz (u.areg x - k) v)) :
    Completes i s [aNum x, aNum y] (keysAt s s.dataFc ((if x = y then a else s.areg x) - k) sz.bytes) (fun t =>
      peek t s.dataFc sz ((if x = y then a else s.areg x) - k) = v ∧ t.areg x = (if x = y then a else s.areg x) - k
        ∧ (x ≠ y → t.areg y = a) ∧ t.ccr = s.ccr) := by
  obtain ⟨r, -, rfl⟩ := hu
  have hx : (withRecords r (s.setAreg y a)).areg x = if x = y then a else s.areg x := by
    change (s.setAreg y a).areg x = _
    split
    · next h => rw [h, State.areg_setAreg]
    · next h => exact State.areg_setAreg_ne s h a
  rw [hx] at hbody
  generalize hb : (if x = y then a else s.areg x) - k = b at hbody ⊢
  have hplat : ((withRecords r (s.setAreg y a)).setAreg x b).platform = s.platform := by
    rw [State.setAreg_platform]
    exact State.setAreg_platform s y a
  refine ⟨_, next_past hexec hbody ht, rfl, Kept.past ?_, ?_, ?_, fun hne => ?_, ?_⟩
  · have h := ((Kept.setAreg s y a).trans (Kept.withRecords _ r)).trans
      ((Kept.setAreg _ x b).trans (Kept.poke _ s.dataFc sz b v))
    rw [keysAt_congr hplat] at h
    exact h.mono (by simp) (by simp)
  · exact (peek_congr rfl rfl _ _ _).trans (peek_poke_same _ _ _ _ _)
  · exact (State.areg_pc _ x _).trans ((State.areg_poke ..).trans (State.areg_setAreg ..))
  · refine (State.areg_pc _ y _).trans ((State.areg_poke ..).trans ((State.areg_setAreg_ne _ hne.symm _).trans ?_))
    exact State.areg_setAreg s y a
  · rw [past_ccr, State.ccr_poke, State.ccr_setAreg]
    exact State.ccr_setAreg s y a

/-- Two bytes stored side by side are a word. -/
theorem storeAll_word {fc : BitVec 3} {b : Long} {w : Word} {d : Done} (hw : Writable s fc b 2) :
    storeAll [{ c := normalCycle fc, sz := .byte, a := b, v := (w.extractLsb' 8 8 : Byte).setWidth 32 },
      { c := normalCycle fc, sz := .byte, a := b + 1, v := (w.extractLsb' 0 8 : Byte).setWidth 32 }] d s
    = .ok d (poke s fc .word b w) := by
  have h := storeAll_byteStores (s := s) (fc := fc) (d := d)
    (l := [(b, (w.extractLsb' 8 8 : Byte)), (b + 1, (w.extractLsb' 0 8 : Byte))]) (by
      intro p hp
      simp only [List.mem_cons, List.not_mem_nil, or_false] at hp
      obtain rfl | rfl := hp
      · exact hw.part 0 (by simp) (by decide)
      · exact hw.part 1 rfl (by decide))
  have hfold : (byteStores fc [(b, (w.extractLsb' 8 8 : Byte)), (b + 1, (w.extractLsb' 0 8 : Byte))]).foldl Store.apply s
      = poke s fc .word b w := by
    simp only [byteStores, List.map_cons, List.map_nil, List.foldl_cons, List.foldl_nil, apply_byteStore]
    rfl
  rw [hfold] at h
  exact h

theorem packForm_ok {x y : Reg} (hx : x ≠ 7) (hy : y ≠ 7) (m : Exec Done) : packForm true x y m = m := by
  unfold packForm
  rw [if_neg]
  simpa using And.intro hx hy

theorem packForm_refused {x y : Reg} (h : x = 7 ∨ y = 7) (m : Exec Done) : packForm true x y m = refuse .packA7 := by
  unfold packForm
  rw [if_pos]
  simpa using h

/-- An operand below a register that moves down to it is read as before. -/
theorem readMem_moved {sz : Size} {y : Reg} {a b : Long} {u : State} (hu : Recorded (s.setAreg y a) u)
    (hr : Readable s s.dataFc b sz.bytes) :
    ∃ w, Recorded (s.setAreg y a) w ∧ readMem sz b u = .ok (peek s s.dataFc sz b) w := by
  have hfc : (s.setAreg y a).dataFc = s.dataFc := State.dataFc_setAreg s y a
  have hp : peek (s.setAreg y a) s.dataFc sz b = peek s s.dataFc sz b :=
    peek_congr (State.setAreg_mem s y a) (State.setAreg_platform s y a) _ _ _
  obtain ⟨w, hw, hread⟩ := hu.readMem (by rw [hfc]; exact (SameAccess.setAreg s y a).readable hr)
  rw [hfc, hp] at hread
  exact ⟨w, hw, hread⟩

/-- A store where the second register has moved down. -/
theorem writable_moved {x y : Reg} {a k : Long} {n : Nat} {u : State} (hu : Recorded (s.setAreg y a) u)
    (hw : Writable s s.dataFc ((if x = y then a else s.areg x) - k) n) :
    Writable (u.setAreg x (u.areg x - k)) s.dataFc (u.areg x - k) n
      ∧ (u.setAreg x (u.areg x - k)).dataFc = s.dataFc := by
  have hacc := ((SameAccess.setAreg s y a).trans hu.access).trans (SameAccess.setAreg u x (u.areg x - k))
  obtain ⟨r, -, rfl⟩ := hu
  have hx : (withRecords r (s.setAreg y a)).areg x = if x = y then a else s.areg x := by
    change (s.setAreg y a).areg x = _
    split
    · next h => rw [h, State.areg_setAreg]
    · next h => exact State.areg_setAreg_ne s h a
  rw [← hx] at hw
  exact ⟨hacc.writable hw, (State.dataFc_setAreg _ x _).trans (State.dataFc_setAreg s y a)⟩

theorem pack_memory {x y : Reg} {adj : Word} (hx : x ≠ 7) (hy : y ≠ 7) (ht : s.traceAll = false)
    (hr : Readable s s.dataFc (s.areg y - 2) 2)
    (hw : Writable s s.dataFc ((if x = y then s.areg y - 2 else s.areg x) - 1) 1) :
    Completes (.pack true x y adj) s [aNum x, aNum y]
      (keysAt s s.dataFc ((if x = y then s.areg y - 2 else s.areg x) - 1) 1) (fun t =>
        peek t s.dataFc .byte ((if x = y then s.areg y - 2 else s.areg x) - 1)
            = packedByte (peek s s.dataFc .word (s.areg y - 2) + adj)
          ∧ t.areg x = (if x = y then s.areg y - 2 else s.areg x) - 1 ∧ (x ≠ y → t.areg y = s.areg y - 2)
          ∧ t.ccr = s.ccr) := by
  obtain ⟨v, hv, hhigh⟩ := readMem_moved (sz := .byte) (b := s.areg y - 2)
    (Recorded.refl (s.setAreg y (s.areg y - 2))) (hr.part 0 (by simp) (by decide))
  obtain ⟨u, hu, hlow⟩ := readMem_moved (sz := .byte) (b := s.areg y - 2 + 1) hv (hr.part 1 rfl (by decide))
  obtain ⟨hwu, hfc⟩ := writable_moved (x := x) hu hw
  have hwrite := writeMem_ok (sz := .byte) (s := u.setAreg x (u.areg x - 1)) (a := u.areg x - 1)
    (v := packedByte (peek s s.dataFc .word (s.areg y - 2) + adj)) (d := .seq)
    (by rw [hfc]; exact hwu.1) (by rw [hfc]; exact hwu.2.1) (by rw [hfc]; exact hwu.2.2)
  rw [hfc] at hwrite
  refine packMemory_completes (sz := .byte) (k := 1) rfl ht hu ?_
  rw [packForm_ok hx hy, if_pos rfl]
  refine (Exec.bind_ok s (moveDown_run y 2 s) _).trans ((Exec.bind_ok _ hhigh _).trans ((Exec.bind_ok v hlow _).trans
    ((Exec.bind_ok u (moveDown_run x 1 u) _).trans ?_)))
  rw [packed_eq]
  exact hwrite

theorem unpk_memory {x y : Reg} {adj : Word} (hx : x ≠ 7) (hy : y ≠ 7) (ht : s.traceAll = false)
    (hr : Readable s s.dataFc (s.areg y - 1) 1)
    (hw : Writable s s.dataFc ((if x = y then s.areg y - 1 else s.areg x) - 2) 2) :
    Completes (.unpk true x y adj) s [aNum x, aNum y]
      (keysAt s s.dataFc ((if x = y then s.areg y - 1 else s.areg x) - 2) 2) (fun t =>
        peek t s.dataFc .word ((if x = y then s.areg y - 1 else s.areg x) - 2)
            = unpackedWord (byteAt s s.dataFc (s.areg y - 1)) + adj
          ∧ t.areg x = (if x = y then s.areg y - 1 else s.areg x) - 2 ∧ (x ≠ y → t.areg y = s.areg y - 1)
          ∧ t.ccr = s.ccr) := by
  obtain ⟨u, hu, hread⟩ := readMem_moved (sz := .byte) (Recorded.refl (s.setAreg y (s.areg y - 1))) hr
  obtain ⟨hwu, hfc⟩ := writable_moved (x := x) hu hw
  have hwrite := storeAll_word (w := unpackedWord (byteAt s s.dataFc (s.areg y - 1)) + adj) (d := .seq) hwu
  refine packMemory_completes (sz := .word) (k := 2) rfl ht hu ?_
  rw [packForm_ok hx hy, if_pos rfl]
  refine (Exec.bind_ok s (moveDown_run y 1 s) _).trans ((Exec.bind_ok _ hread _).trans
    ((Exec.bind_ok u (moveDown_run x 2 u) _).trans ((Exec.look_bind _ _ _).trans ?_)))
  rw [unpacked_eq, hfc]
  exact hwrite

/-- Settles O20: the register forms work on the low parts, the memory forms move the source register down, then the other. -/
theorem packAndUnpack : Obligations.PackAndUnpack := by
  unfold Obligations.PackAndUnpack
  refine fun x y adj => ⟨?_, ?_, fun s => ⟨fun h7 => ⟨?_, ?_⟩, fun hx hy ht => ⟨fun hr hw => ?_, fun hr hw => ?_⟩⟩⟩
  · refine registers_of_body (body := do
      let v ← getD .word y
      putD .byte x (packed (v + adj))
      return .seq) (fun _ => rfl) (fun s => ?_) fun s => Kept.setDreg s x _
    rw [← packed_eq]
    rfl
  · refine registers_of_body (body := do
      let v ← getD .byte y
      putD .word x (unpacked v + adj)
      return .seq) (fun _ => rfl) (fun s => ?_) fun s => Kept.setDreg s x _
    rw [← unpacked_eq]
    rfl
  · exact next_refused rfl (by rw [packForm_refused h7]; rfl)
  · exact next_refused rfl (by rw [packForm_refused h7]; rfl)
  · exact pack_memory hx hy ht hr hw
  · exact unpk_memory hx hy ht hr hw

end Sys2Proof.Machine
end


section
/-! PROOF. CMP2 and CHK2 (41 R248, 48 R404). -/

namespace Sys2Proof.Machine

open Sys2Proof Sys2Proof.Claim

variable {s t u : State} {i : Instr}

/-! ## Bounds -/

/-- A value between bounds in order, as numbers without sign, is not outside. -/
theorem outside_false_of_ule {n : Nat} {v lo hi : BitVec n} (hv : lo.ule v = true) (hh : v.ule hi = true) :
    (hi - lo).ult (v - lo) = false := by
  rw [BitVec.ule_iff_toNat_le] at hv hh
  rw [Bool.eq_false_iff, ne_eq, BitVec.ult_iff_toNat_lt, BitVec.toNat_sub_of_le (by rw [BitVec.le_def]; omega),
    BitVec.toNat_sub_of_le (by rw [BitVec.le_def]; exact hv)]
  omega

/-- The difference of numbers with sign in order, read without sign. -/
theorem toNat_sub_of_sle {n : Nat} {x y : BitVec n} (h : y.sle x = true) : ((x - y).toNat : Int) = x.toInt - y.toInt := by
  have h1 : y.toInt ≤ x.toInt := by simpa [BitVec.sle_eq_decide] using h
  have h2 := BitVec.two_mul_toInt_lt (x := x)
  have h3 := BitVec.le_two_mul_toInt (x := y)
  have hwide : x.toInt - y.toInt < (2 : Int) ^ n := by omega
  have hmod : ((x - y).toNat : Int) = (x - y).toInt % (2 ^ n : Nat) := by
    rw [BitVec.toInt_eq_toNat_bmod, Int.bmod_emod]
    exact (Int.emod_eq_of_lt (by omega) (by exact_mod_cast (x - y).isLt)).symm
  rw [hmod, BitVec.toInt_sub, Int.bmod_emod]
  exact Int.emod_eq_of_lt (by omega) (by exact_mod_cast hwide)

theorem outside_false_of_sle {n : Nat} {v lo hi : BitVec n} (hv : lo.sle v = true) (hh : v.sle hi = true) :
    (hi - lo).ult (v - lo) = false := by
  have hl : lo.sle hi = true := by
    simp only [BitVec.sle_eq_decide, decide_eq_true_eq] at hv hh ⊢
    omega
  have h1 := toNat_sub_of_sle hv
  have h2 := toNat_sub_of_sle hl
  have h3 : v.toInt ≤ hi.toInt := by simpa [BitVec.sle_eq_decide] using hh
  rw [Bool.eq_false_iff, ne_eq, BitVec.ult_iff_toNat_lt]
  omega

/-- What the claim asks of the codes of a comparison with bounds. -/
def BoundCodes (s : State) {n : Nat} (v lo hi : BitVec n) (f : Ccr) : Prop :=
  f.x = s.ccr.x ∧ f.z = (v == lo || v == hi) ∧ (lo.sle hi || lo.ule hi → f.c = (hi - lo).ult (v - lo))

/-- The codes of the comparison with bounds, whatever is drawn. -/
theorem boundFlags_run {n : Nat} (v lo hi : BitVec n) (s : State) : ∃ (f : Ccr) (k : Nat),
    BoundCodes s v lo hi f ∧ boundFlags v lo hi s = .ok () ((withDraws k s).setCcr f) := by
  unfold boundFlags
  rw [Exec.drawBit_bind, Exec.drawBit_bind]
  generalize Config.freeBit s.draws = fn
  generalize Config.freeBit _ = fv
  by_cases h : (lo.sle hi || lo.ule hi) = true
  · refine ⟨{ s.ccr with n := fn, z := v == lo || v == hi, v := fv, c := (hi - lo).ult (v - lo) }, s.draws + 2,
      ⟨rfl, rfl, fun _ => rfl⟩, ?_⟩
    simp only [h, if_true]
    rfl
  · refine ⟨{ s.ccr with n := fn, z := v == lo || v == hi, v := fv, c := Config.freeBit (s.draws + 2) }, s.draws + 3,
      ⟨rfl, rfl, fun hc => absurd hc h⟩, ?_⟩
    simp only [h]
    rfl

/-- The codes of CMP2 and CHK2: an address register is compared in 32 bits. -/
def CompareCodes (s : State) (sz : Size) (rn : GReg) (r : Long) (lo hi : BitVec sz.bits) (f : Ccr) : Prop :=
  if rn.getLsbD 3 then BoundCodes s r (sext lo) (sext hi) f else BoundCodes s (lowPart sz r) lo hi f

/-- The register lies between the bounds. -/
def Between (sz : Size) (rn : GReg) (r : Long) (lo hi : BitVec sz.bits) : Prop :=
  if rn.getLsbD 3 then (sext lo : Long).sle (sext hi) ∧ (sext lo : Long).sle r ∧ r.sle (sext hi)
  else lo.ule hi ∧ lo.ule (lowPart sz r) ∧ (lowPart sz r).ule hi

theorem CompareCodes.inside {sz : Size} {rn : GReg} {r : Long} {lo hi : BitVec sz.bits} {f : Ccr}
    (h : CompareCodes s sz rn r lo hi f) (hb : Between sz rn r lo hi) : f.c = false := by
  unfold CompareCodes at h
  unfold Between at hb
  split at h
  · next ha =>
    rw [if_pos ha] at hb
    obtain ⟨hle, hl, hh⟩ := hb
    rw [h.2.2 (by rw [hle, Bool.true_or])]
    exact outside_false_of_sle hl hh
  · next ha =>
    rw [if_neg ha] at hb
    obtain ⟨hle, hl, hh⟩ := hb
    rw [h.2.2 (by rw [hle, Bool.or_true])]
    exact outside_false_of_ule hl hh

/-- The comparison once both bounds are read. -/
theorem compareBounds_run {sz : Size} {rn : GReg} {ea : Ea} {a : Long} {lo hi : BitVec sz.bits} {s1 s2 s3 : State}
    (ha : eaAddress sz.bytes 1 ea s = .ok a s1) (hlo : readMem sz a s1 = .ok lo s2)
    (hhi : readMem sz (a + BitVec.ofNat 32 sz.bytes) s2 = .ok hi s3) : ∃ f k,
    CompareCodes s3 sz rn (s3.greg rn) lo hi f ∧ compareBounds sz rn ea s = .ok () ((withDraws k s3).setCcr f) := by
  have hread : compareBounds sz rn ea s = (if rn.getLsbD 3 then boundFlags (s3.greg rn) (sext lo) (sext hi)
      else boundFlags (lowPart sz (s3.greg rn)) lo hi) s3 :=
    (Exec.bind_ok s ha _).trans ((Exec.bind_ok s1 hlo _).trans ((Exec.bind_ok s2 hhi _).trans (Exec.look_bind ..)))
  rw [hread]
  unfold CompareCodes
  split
  · exact boundFlags_run ..
  · exact boundFlags_run ..

/-- Settles O26: the comparison, and the trap of CHK2 with C set. -/
theorem bounds : Obligations.Bounds := by
  unfold Obligations.Bounds
  intro s s1 s2 s3 sz rn ea a lo hi ht ha hlo hhi
  obtain ⟨f, k, hf, hrun⟩ := compareBounds_run (rn := rn) ha hlo hhi
  have hop : OperandEffect sz.bytes ea s s3 := ((eaAddress_inv ha).read (readMem_effect hlo)).read (readMem_effect hhi)
  have hkept : Kept s ((withDraws k s3).setCcr f) (steppedRegs ea) [] :=
    (hop.kept.trans (kept_drawn k f s3)).mono (by simp) (by simp)
  have hright : CompareCodes s sz rn (s3.greg rn) lo hi f := by
    unfold CompareCodes BoundCodes at hf ⊢
    rwa [hop.ccr] at hf
  have hchk : (do
      compareBounds sz rn ea
      let g ← getFlags
      if g.c then throw (.trap 6 true) else return Done.seq : Exec Done) s
      = (if f.c then throw (.trap 6 true) else return Done.seq : Exec Done) ((withDraws k s3).setCcr f) := by
    refine (Exec.bind_ok s hrun _).trans ((Exec.getFlags_bind ..).trans ?_)
    rw [State.ccr_setCcr]
  have hfall : f.c = false → exec (.chk2 sz rn ea) s = .next (past (.chk2 sz rn ea) s ((withDraws k s3).setCcr f)) := by
    intro hc
    refine next_past rfl (hchk.trans ?_) ht
    rw [hc]
    rfl
  refine ⟨fun hin => ?_, f, k, hright, next_past rfl ((Exec.bind_ok s hrun _).trans rfl) ht, hfall, fun hc hflow => ?_,
    hkept.past⟩
  · have hc := hright.inside hin
    refine ⟨_, hfall hc, rfl, hkept.past, ?_⟩
    simpa only [past_ccr, State.ccr_setCcr] using hc
  · refine traps_of_body rfl hflow (hchk.trans ?_)
    rw [hc]
    rfl

end Sys2Proof.Machine
end


section
/-! PROOF. Operands stored side by side, and MOVE16 (40 R209). -/

namespace Sys2Proof.Machine

open Sys2Proof Sys2Proof.Claim

variable {s t u : State} {i : Instr} {fc : BitVec 3} {sz : Size}

/-! ## Stores of operands of one size -/

/-- Operands stored in order, each at its address. -/
def pokes (fc : BitVec 3) (sz : Size) (l : List (Long × BitVec sz.bits)) (s : State) : State :=
  l.foldl (fun s p => poke s fc sz p.1 p.2) s

theorem pokes_cons (p : Long × BitVec sz.bits) (l : List (Long × BitVec sz.bits)) (s : State) :
    pokes fc sz (p :: l) s = pokes fc sz l (poke s fc sz p.1 p.2) := rfl

theorem pokes_kept (l : List (Long × BitVec sz.bits)) (s : State) :
    Kept s (pokes fc sz l s) [] (l.flatMap fun p => keysAt s fc p.1 sz.bytes) := by
  induction l generalizing s with
  | nil => exact Kept.refl s
  | cons p rest ih =>
    have h := ih (poke s fc sz p.1 p.2)
    simp only [keysAt_congr (poke_platform s fc sz p.1 p.2)] at h
    rw [pokes_cons]
    refine ((Kept.poke s fc sz p.1 p.2).trans h).mono (by simp) fun k hk => ?_
    simpa only [List.flatMap_cons, List.mem_append, or_comm] using hk

/-- Stores touch no register, no code and no restored address. -/
theorem pokes_registers (l : List (Long × BitVec sz.bits)) (s : State) :
    (∀ n, (pokes fc sz l s).greg n = s.greg n) ∧ (pokes fc sz l s).ccr = s.ccr
      ∧ (pokes fc sz l s).dataFc = s.dataFc ∧ (pokes fc sz l s).movemEa = s.movemEa := by
  induction l generalizing s with
  | nil => exact ⟨fun _ => rfl, rfl, rfl, rfl⟩
  | cons p rest ih =>
    obtain ⟨hg, hc, hf, hm⟩ := ih (poke s fc sz p.1 p.2)
    exact ⟨fun n => (hg n).trans ((Kept.poke s fc sz p.1 p.2).reg n (by simp)), hc.trans (State.ccr_poke ..),
      hf.trans (State.dataFc_poke ..), hm.trans (poke_movemEa ..)⟩

theorem byteAt_poke_addr {a b : Long} (v : BitVec sz.bits) (h : b ∉ addrsOf a sz.bytes) :
    byteAt (poke s fc sz a v) fc b = byteAt s fc b :=
  byteAt_poke_other s v fun k hk he => h (mem_addrsOf.mpr ⟨k, hk, by simpa using he.symm⟩)

theorem byteAt_pokes_other (l : List (Long × BitVec sz.bits)) (s : State) {b : Long}
    (h : ∀ p ∈ l, b ∉ addrsOf p.1 sz.bytes) : byteAt (pokes fc sz l s) fc b = byteAt s fc b := by
  induction l generalizing s with
  | nil => rfl
  | cons p rest ih =>
    rw [pokes_cons, ih _ fun q hq => h q (List.mem_cons_of_mem _ hq), byteAt_poke_addr _ (h p (List.mem_cons_self ..))]

/-- Operands stored apart from one another are there. -/
theorem peek_pokes (l : List (Long × BitVec sz.bits)) (s : State)
    (hl : l.Pairwise fun p q => ∀ x ∈ addrsOf p.1 sz.bytes, x ∉ addrsOf q.1 sz.bytes) {p : Long × BitVec sz.bits}
    (hp : p ∈ l) : peek (pokes fc sz l s) fc sz p.1 = p.2 := by
  induction l generalizing s with
  | nil => cases hp
  | cons q rest ih =>
    rw [List.pairwise_cons] at hl
    rw [pokes_cons]
    rcases List.mem_cons.mp hp with rfl | hp
    · rw [peek_congr_bytes fun k hk => byteAt_pokes_other rest _ fun r hr => hl.1 r hr _ (mem_addrsOf.mpr ⟨k, hk, rfl⟩),
        peek_poke_same]
    · exact ih _ hl.2 hp

/-! ## Side by side -/

/-- Values with their addresses, one after another from `a` up. -/
def upward (sz : Size) (a : Long) (vs : List (BitVec sz.bits)) : List (Long × BitVec sz.bits) :=
  vs.mapIdx fun j v => (a + BitVec.ofNat 32 (j * sz.bytes), v)

theorem upward_cons (a : Long) (v : BitVec sz.bits) (vs : List (BitVec sz.bits)) :
    upward sz a (v :: vs) = (a, v) :: upward sz (a + BitVec.ofNat 32 sz.bytes) vs := by
  unfold upward
  rw [List.mapIdx_cons]
  congr 1
  · simp
  · congr 1
    funext j v
    rw [add_ofNat_add, Nat.add_mul, Nat.one_mul, Nat.add_comm]

theorem addrsOf_upward (a : Long) {j n : Nat} (hj : j < n) :
    addrsOf (a + BitVec.ofNat 32 (j * sz.bytes)) sz.bytes ⊆ addrsOf a (n * sz.bytes) := fun x hx => by
  obtain ⟨k, hk, rfl⟩ := mem_addrsOf.mp hx
  refine mem_addrsOf.mpr ⟨j * sz.bytes + k, ?_, (add_ofNat_add ..).symm⟩
  have := Nat.mul_le_mul_right sz.bytes (show j + 1 ≤ n from hj)
  rw [Nat.add_mul] at this
  omega

theorem upward_apart (a : Long) (vs : List (BitVec sz.bits)) (hn : vs.length * sz.bytes ≤ 2 ^ 32) :
    (upward sz a vs).Pairwise fun p q => ∀ x ∈ addrsOf p.1 sz.bytes, x ∉ addrsOf q.1 sz.bytes := by
  rw [List.pairwise_iff_getElem]
  intro j k hj hk hjk x hx hx'
  simp only [upward, List.length_mapIdx] at hj hk
  simp only [upward, List.getElem_mapIdx] at hx hx'
  obtain ⟨b, hb, rfl⟩ := mem_addrsOf.mp hx
  obtain ⟨c, hc, he⟩ := mem_addrsOf.mp hx'
  rw [add_ofNat_add, add_ofNat_add] at he
  have h1 := Nat.mul_le_mul_right sz.bytes (show j + 1 ≤ k from hjk)
  have h2 := Nat.mul_le_mul_right sz.bytes (show k + 1 ≤ vs.length from hk)
  rw [Nat.add_mul] at h1 h2
  exact addr_ne (by omega) (by omega) (by omega) he

/-- Each value of those stored side by side. -/
theorem peek_upward {a : Long} {vs : List (BitVec sz.bits)} (hn : vs.length * sz.bytes ≤ 2 ^ 32) {j : Nat}
    {v : BitVec sz.bits} (hv : vs[j]? = some v) :
    peek (pokes fc sz (upward sz a vs) s) fc sz (a + BitVec.ofNat 32 (j * sz.bytes)) = v :=
  peek_pokes (p := (a + BitVec.ofNat 32 (j * sz.bytes), v)) _ s (upward_apart a vs hn) (List.mem_of_getElem? (i := j) (by
    rw [upward, List.getElem?_mapIdx, hv]
    rfl))

/-- Values stored side by side change the bytes of the range only. -/
theorem upward_kept (a : Long) (vs : List (BitVec sz.bits)) (s : State) :
    Kept s (pokes fc sz (upward sz a vs) s) [] (keysAt s fc a (vs.length * sz.bytes)) := by
  refine (pokes_kept _ s).mono (by simp) fun k hk => ?_
  obtain ⟨p, hp, hk⟩ := List.mem_flatMap.mp hk
  obtain ⟨j, hj, rfl⟩ := List.mem_mapIdx.mp hp
  obtain ⟨x, hx, rfl⟩ := List.mem_map.mp hk
  exact List.mem_map_of_mem (addrsOf_upward a hj hx)

/-! ## MOVE16 -/

theorem readLine_ok {a : Long} (h : Readable s s.dataFc a 16) :
    ∃ t, Recorded s t ∧ readLine a s = .ok (peekLine s s.dataFc a) t := by
  obtain ⟨hf, hs, hd⟩ := h
  refine ⟨_, ⟨_, afterRead_staleData s s.dataFc a 16, afterRead_eq s _ _ _⟩, ?_⟩
  unfold readLine
  rw [hf, hs, hd, if_neg Bool.false_ne_true, if_neg Bool.false_ne_true, if_neg Bool.false_ne_true]

/-- The long words of a line. -/
def lineLongs (v : Vector Long 4) : List Long := [v[0], v[1], v[2], v[3]]

theorem pokes_four (a v0 v1 v2 v3 : Long) : pokes fc .long (upward .long a [v0, v1, v2, v3]) s
    = poke (poke (poke (poke s fc .long a v0) fc .long (a + 4) v1) fc .long (a + 8) v2) fc .long (a + 12) v3 := by
  have h8 : a + 4 + 4 = a + 8 := by rw [BitVec.add_assoc]; rfl
  have h12 : a + 8 + 4 = a + 12 := by rw [BitVec.add_assoc]; rfl
  rw [upward_cons, upward_cons, upward_cons, upward_cons]
  change poke (poke (poke (poke s fc .long a v0) fc .long (a + 4) v1) fc .long (a + 4 + 4) v2) fc .long (a + 4 + 4 + 4) v3
    = _
  rw [h8, h12]

theorem writeLine_ok {a : Long} {v : Vector Long 4} {d : Done} (h : Writable s s.dataFc a 16) :
    writeLine a v d s = .ok d (pokes s.dataFc .long (upward .long a (lineLongs v)) s) := by
  obtain ⟨hf, hs, hd⟩ := h
  unfold writeLine lineLongs
  rw [pokes_four]
  simp only [hf, hs, writeBus_mem hd, Bool.false_eq_true, if_false, if_true]

/-- A byte that is the same because the long word around it is. -/
theorem byteAt_of_peek {a b : Long} {n k : Nat} (hk : k < 4 * n)
    (h : ∀ j < n, peek t fc .long (a + BitVec.ofNat 32 (j * 4)) = peek s fc .long (b + BitVec.ofNat 32 (j * 4))) :
    byteAt t fc (a + BitVec.ofNat 32 k) = byteAt s fc (b + BitVec.ofNat 32 k) := by
  have hsplit : k = k / 4 * 4 + k % 4 := (Nat.div_add_mod' k 4).symm
  have hm : k % 4 < Size.long.bytes := Nat.mod_lt _ (by decide)
  rw [hsplit, ← add_ofNat_add, ← add_ofNat_add, ← extractLsb'_peek t fc .long _ hm, ← extractLsb'_peek s fc .long _ hm,
    h (k / 4) (by omega)]

theorem peekLine_getElem? (s : State) (fc : BitVec 3) (b : Long) {j : Nat} (hj : j < 4) :
    (lineLongs (peekLine s fc b))[j]? = some (peek s fc .long (b + BitVec.ofNat 32 (j * 4))) := by
  have h0 : b + BitVec.ofNat 32 (0 * 4) = b := by simp
  match j, hj with
  | 0, _ => rw [h0]; rfl
  | 1, _ => rfl
  | 2, _ => rfl
  | 3, _ => rfl

/-- The long words of a line after it is stored. -/
theorem peek_line {a b : Long} {j : Nat} (hj : j < 4) :
    peek (pokes fc .long (upward .long a (lineLongs (peekLine s fc b))) t) fc .long (a + BitVec.ofNat 32 (j * 4))
      = peek s fc .long (b + BitVec.ofNat 32 (j * 4)) :=
  peek_upward (sz := .long) (vs := lineLongs (peekLine s fc b)) (show 4 * 4 ≤ 2 ^ 32 by decide) (peekLine_getElem? s fc b hj)

theorem greg_past (i : Instr) (s t : State) (n : GReg) : (past i s t).greg n = t.greg n := rfl

/-- What moving address registers on leaves. -/
def MovesOn (regs : List GReg) (f : State → State) : Prop :=
  ∀ u, Kept u (f u) regs [] ∧ SameAccess u (f u) ∧ (f u).ccr = u.ccr ∧ (f u).dataFc = u.dataFc

/-- A line read, registers moved on, the line written. -/
theorem copiesLine_completes {body : Exec Done} {f : State → State} {regs : List GReg} {src dst : Long}
    {P : State → Prop} (hexec : exec i s = complete i body s) (ht : s.traceAll = false)
    (hbody : ∀ v u, readLine src s = .ok v u → body s = writeLine dst v .seq (f u)) (hf : MovesOn regs f)
    (hP : ∀ u t, Recorded s u → (∀ n, t.greg n = (f u).greg n) → P t)
    (hr : Readable s s.dataFc src 16) (hw : Writable s s.dataFc dst 16) :
    Completes i s regs (keysAt s s.dataFc dst 16) (fun t => t.ccr = s.ccr ∧ P t ∧ ∀ k < 16,
      byteAt t s.dataFc (dst + BitVec.ofNat 32 k) = byteAt s s.dataFc (src + BitVec.ofNat 32 k)) := by
  obtain ⟨u, hu, hread⟩ := readLine_ok hr
  obtain ⟨hkept, hacc, hccr, hfc⟩ := hf u
  have hfc' : (f u).dataFc = s.dataFc := by
    rw [hfc]
    obtain ⟨r, -, rfl⟩ := hu
    rfl
  have hrun := hbody _ u hread
  rw [writeLine_ok (by rw [hfc']; exact (hu.access.trans hacc).writable hw), hfc'] at hrun
  obtain ⟨hgreg, hcodes, -⟩ := pokes_registers (fc := s.dataFc) (sz := .long) (upward .long dst
    (lineLongs (peekLine s s.dataFc src))) (f u)
  have hstores := upward_kept (fc := s.dataFc) (sz := .long) dst (lineLongs (peekLine s s.dataFc src)) (f u)
  rw [keysAt_congr (hu.access.trans hacc).platform] at hstores
  have hkeys : (lineLongs (peekLine s s.dataFc src)).length * Size.long.bytes = 16 := rfl
  have hbytes : ∀ k < 16, byteAt (pokes s.dataFc .long (upward .long dst (lineLongs (peekLine s s.dataFc src))) (f u))
      s.dataFc (dst + BitVec.ofNat 32 k) = byteAt s s.dataFc (src + BitVec.ofNat 32 k) :=
    fun k hk => byteAt_of_peek (n := 4) hk fun j hj => peek_line hj
  rw [hkeys] at hstores
  generalize pokes s.dataFc .long (upward .long dst (lineLongs (peekLine s s.dataFc src))) (f u) = w at *
  refine ⟨_, next_past hexec hrun ht, rfl, Kept.past ((hu.kept.trans (hkept.trans hstores)).mono (by simp) (by simp)), ?_,
    hP u _ hu fun n => (greg_past ..).trans (hgreg n),
    fun k hk => (byteAt_congr rfl rfl _ _).trans (hbytes k hk)⟩
  rw [past_ccr, hcodes, hccr]
  obtain ⟨r, -, rfl⟩ := hu
  rfl

theorem movesOn_none : MovesOn [] id := fun u => ⟨Kept.refl u, SameAccess.refl u, rfl, rfl⟩

theorem movesOn_one (r : Reg) (a : Long) : MovesOn [aNum r] fun u => u.setAreg r a := fun u =>
  ⟨Kept.setAreg u r a, SameAccess.setAreg u r a, State.ccr_setAreg .., State.dataFc_setAreg ..⟩

theorem movesOn_two (x y : Reg) (a b : Long) : MovesOn [aNum x, aNum y] fun u => (u.setAreg x a).setAreg y b := fun u =>
  ⟨((movesOn_one x a u).1.trans (movesOn_one y b _).1).mono (by simp) (by simp),
    (movesOn_one x a u).2.1.trans (movesOn_one y b _).2.1, by simp, by simp⟩

/-- Settles O30: one line is read, the registers of the postincrement modes move on, the line is written. -/
theorem move16 : Obligations.Move16 := by
  unfold Obligations.Move16
  refine fun s ht => ⟨fun ay addr => ⟨?_, ?_, ?_, ?_⟩, fun ax ay => ⟨fun hne => ?_, fun heq => ?_⟩⟩
  · refine copiesLine_completes rfl ht (fun v u h => ?_) (movesOn_one ay (s.areg ay + 16)) fun u t _ hg => ?_
    · exact Exec.bind_ok s h _
    · rw [← greg_aNum, hg, greg_aNum, State.areg_setAreg]
  · refine copiesLine_completes rfl ht (fun v u h => ?_) (movesOn_one ay (s.areg ay + 16)) fun u t _ hg => ?_
    · exact Exec.bind_ok s h _
    · rw [← greg_aNum, hg, greg_aNum, State.areg_setAreg]
  · exact copiesLine_completes rfl ht (fun v u h => Exec.bind_ok s h _) movesOn_none fun _ _ _ _ => trivial
  · exact copiesLine_completes rfl ht (fun v u h => Exec.bind_ok s h _) movesOn_none fun _ _ _ _ => trivial
  · refine copiesLine_completes rfl ht (fun v u h => ?_) (movesOn_two ax ay (s.areg ax + 16) (s.areg ay + 16))
      fun u t _ hg => ?_
    · rw [if_neg (by simpa using hne)]
      exact Exec.bind_ok s h _
    · constructor
      · rw [← greg_aNum, hg, greg_aNum, State.areg_setAreg_ne _ hne, State.areg_setAreg]
      · rw [← greg_aNum, hg, greg_aNum, State.areg_setAreg]
  · refine next_refused (u := s) rfl ?_
    rw [if_pos (by simpa using heq)]
    rfl

end Sys2Proof.Machine
end


section
/-! PROOF. TAS, CAS and CAS2 (49 R430 to R432). -/

namespace Sys2Proof.Machine

open Sys2Proof Sys2Proof.Claim

variable {s s1 t u : State} {i : Instr} {fc : BitVec 3} {sz : Size} {a : Long}

/-! ## The accesses of a locked sequence -/

theorem lockedRead_ok (h : Lockable s1 fc a sz.bytes) (hu : Recorded s1 u) :
    ∃ t, Recorded s1 t ∧ readCycle (lockedCycle fc) sz a u = .ok (peek s1 fc sz a) t := by
  obtain ⟨hf, -, hs, hd⟩ := h
  rw [Bool.or_eq_false_iff] at hd
  exact hu.readCycle (c := lockedCycle fc) hf hs hd.1

theorem lockedStore_ok {v : BitVec sz.bits} {d : Done} (h : Writable s fc a sz.bytes) :
    store (lockedCycle fc) sz a v d s = .ok d (poke s fc sz a v) := store_ok (c := lockedCycle fc) h.1 h.2.1 h.2.2

theorem sameAccess_coded {l : CacheRecords} (hl : l.staleData ⊆ s.staleData) (f : Ccr) :
    SameAccess s ((withRecords l s).setCcr f) :=
  (SameAccess.withRecords hl).trans (SameAccess.setCcr _ f)

theorem kept_coded (l : CacheRecords) (f : Ccr) (s : State) : Kept s ((withRecords l s).setCcr f) [] [] :=
  ((Kept.withRecords s l).trans (Kept.setCcr _ f)).mono (by simp) (by simp)

/-! ## TAS and CAS -/

/-- The body of TAS on an operand in memory. -/
def tasMemory (ea : Ea) : Exec Done := do
  let a ← eaAddress 1 0 ea
  let c ← look fun s => lockedCycle s.dataFc
  let v ← readCycle c .byte a
  setFlags (logicFlags v)
  store c .byte a (v ||| 0x80) .seq

theorem exec_tas_memory {ea : Ea} (h : ∀ r, ea ≠ .dn r) (s : State) :
    exec (.tas ea) s = complete (.tas ea) (tasMemory ea) s := by
  cases ea with
  | dn r => exact absurd rfl (h r)
  | _ => rfl

/-- What an operand read in a locked sequence leaves, from the state where its address is known. -/
theorem lockedOperand_ok {bytes : Nat} {ea : Ea} (hop : OperandEffect bytes ea s s1)
    (hl : Lockable s1 s.dataFc a sz.bytes) :
    ∃ l : CacheRecords, l.staleData ⊆ s1.staleData
      ∧ readCycle (lockedCycle s.dataFc) sz a s1 = .ok (peek s s.dataFc sz a) (withRecords l s1) := by
  obtain ⟨t, ⟨l, hsub, rfl⟩, hread⟩ := lockedRead_ok hl (Recorded.refl s1)
  rw [peek_congr hop.mem hop.access.platform] at hread
  exact ⟨l, hsub, hread⟩

/-- What stays when a locked operand is stored. -/
theorem lockedStored_kept {bytes : Nat} {ea : Ea} {regs : List GReg} (hop : OperandEffect bytes ea s s1)
    (l : CacheRecords) (f : Ccr) (ht : Kept ((withRecords l s1).setCcr f) t regs []) (hp : t.platform = s.platform)
    (v : BitVec sz.bits) : Kept s (poke t s.dataFc sz a v) (regs ++ steppedRegs ea) (keysAt s s.dataFc a sz.bytes) := by
  have h := hop.kept.trans ((kept_coded l f s1).trans (ht.trans (Kept.poke t s.dataFc sz a v)))
  rw [keysAt_congr hp] at h
  exact h.mono (by simp) (by simp)

theorem tas_memory_completes {ea : Ea} (ht : s.traceAll = false) (hne : ∀ r, ea ≠ .dn r)
    (ha : eaAddress 1 0 ea s = .ok a s1) (hl : Lockable s1 s.dataFc a 1) :
    ∃ l, exec (.tas ea) s = .next (past (.tas ea) s (poke ((withRecords l s1).setCcr (logicFlags (byteAt s s.dataFc a) s.ccr))
        s.dataFc .byte a (byteAt s s.dataFc a ||| 0x80)))
      ∧ Kept s (past (.tas ea) s (poke ((withRecords l s1).setCcr (logicFlags (byteAt s s.dataFc a) s.ccr))
        s.dataFc .byte a (byteAt s s.dataFc a ||| 0x80))) (steppedRegs ea) (keysAt s s.dataFc a 1) := by
  have hop := eaAddress_inv ha
  obtain ⟨l, hsub, hread⟩ := lockedOperand_ok (sz := .byte) hop hl
  have hacc := sameAccess_coded hsub (logicFlags (byteAt s s.dataFc a) s.ccr)
  refine ⟨l, next_past (exec_tas_memory hne s) ?_ ht, Kept.past (lockedStored_kept (sz := .byte) (regs := []) hop l _
    (Kept.refl _) (hacc.platform.trans hop.access.platform) _)⟩
  refine (Exec.bind_ok s ha _).trans ((Exec.look_bind ..).trans ?_)
  rw [hop.dataFc]
  refine (Exec.bind_ok s1 hread _).trans ((Exec.setFlags_bind ..).trans ?_)
  have hc : (withRecords l s1).ccr = s.ccr := hop.ccr
  rw [hc]
  exact lockedStore_ok (sz := .byte) (hacc.writable hl.2)

theorem cas_completes {dc du : Reg} {ea : Ea} (ht : s.traceAll = false) (ha : eaAddress sz.bytes 1 ea s = .ok a s1)
    (hl : Lockable s1 s.dataFc a sz.bytes) :
    ∃ l, (let d := peek s s.dataFc sz a
      let c := lowPart sz (s.dreg dc)
      let u := (withRecords l s1).setCcr (cmpFlags c d (d - c) s.ccr)
      let t := past (.cas sz dc du ea) s (if d = c then poke u s.dataFc sz a (lowPart sz (s.dreg du))
        else poke (u.setDreg dc (withLow (s.dreg dc) sz d)) s.dataFc sz a d)
      exec (.cas sz dc du ea) s = .next t
      ∧ Kept s t (dNum dc :: steppedRegs ea) (keysAt s s.dataFc a sz.bytes)) := by
  have hop := eaAddress_inv ha
  obtain ⟨l, hsub, hread⟩ := lockedOperand_ok hop hl
  refine ⟨l, ?_⟩
  intro d c u
  have hacc : SameAccess s1 u := sameAccess_coded hsub _
  have hdreg : ∀ r, u.dreg r = s.dreg r := fun r => (State.dreg_setCcr ..).trans (hop.dreg r)
  have hbody : ∃ body : Exec Done, exec (.cas sz dc du ea) s = complete (.cas sz dc du ea) body s
      ∧ body s = (if d - c = 0 then (do
          let v ← getD sz du
          store (lockedCycle s.dataFc) sz a v .seq)
        else (do
          putD sz dc d
          store (lockedCycle s.dataFc) sz a d .seq) : Exec Done) u := by
    refine ⟨_, rfl, (Exec.bind_ok s ha _).trans ((Exec.look_bind ..).trans ?_)⟩
    rw [hop.dataFc]
    refine (Exec.bind_ok s1 hread _).trans ((Exec.getD_bind ..).trans ((Exec.setFlags_bind ..).trans ?_))
    have hc : (withRecords l s1).ccr = s.ccr := hop.ccr
    have hd : (withRecords l s1).dreg dc = s.dreg dc := hop.dreg dc
    rw [hc, hd]
  obtain ⟨body, hexec, hbody⟩ := hbody
  by_cases heq : d = c
  · rw [if_pos (by rw [heq]; exact BitVec.sub_self c)] at hbody
    intro t
    have ht' : t = past (.cas sz dc du ea) s (poke u s.dataFc sz a (lowPart sz (s.dreg du))) :=
      congrArg (past (.cas sz dc du ea) s) (if_pos heq)
    rw [ht']
    refine ⟨next_past hexec (hbody.trans ((Exec.getD_bind ..).trans ?_)) ht, Kept.past ?_⟩
    · rw [hdreg]
      exact lockedStore_ok (hacc.writable hl.2)
    · exact (lockedStored_kept (regs := []) hop l _ (Kept.refl _) (hacc.platform.trans hop.access.platform) _).mono
        (by simp) (by simp)
  · rw [if_neg (by rwa [sub_eq_zero])] at hbody
    intro t
    have ht' : t = past (.cas sz dc du ea) s (poke (u.setDreg dc (withLow (s.dreg dc) sz d)) s.dataFc sz a d) :=
      congrArg (past (.cas sz dc du ea) s) (if_neg heq)
    rw [ht']
    have hacc' := hacc.trans (SameAccess.setDreg u dc (withLow (s.dreg dc) sz d))
    refine ⟨next_past hexec (hbody.trans ((Exec.putD_bind ..).trans ?_)) ht, Kept.past ?_⟩
    · rw [hdreg]
      exact lockedStore_ok (hacc'.writable hl.2)
    · exact (lockedStored_kept hop l _ (Kept.setDreg u dc _) (hacc'.platform.trans hop.access.platform) _).mono
        (by simp) (by simp)

/-! ## CAS2 -/

theorem storeAll_locked_two {a1 a2 : Long} {v1 v2 : BitVec sz.bits} {d : Done} (h1 : Writable s fc a1 sz.bytes)
    (h2 : Writable s fc a2 sz.bytes) :
    storeAll [{ c := lockedCycle fc, sz := sz, a := a1, v := v1.setWidth 32 },
      { c := lockedCycle fc, sz := sz, a := a2, v := v2.setWidth 32 }] d s
    = .ok d (poke (poke s fc sz a1 v1) fc sz a2 v2) := by
  rw [storeAll_ok]
  · simp only [List.foldl_cons, List.foldl_nil, Store.apply, setWidth_back]
    rfl
  · intro w hw
    simp only [List.mem_cons, List.not_mem_nil, or_false] at hw
    obtain rfl | rfl := hw
    · exact h1
    · exact h2

/-- What CAS2 does once both operands are read and compared. -/
def cas2Ends (sz : Size) (fc : BitVec 3) (o1 o2 : Cas2Operand) (a1 a2 : Long) (d1 d2 : BitVec sz.bits)
    (same : Prop) [Decidable same] : Exec Done :=
  if same then do
    let u1 ← getD sz o1.du
    let u2 ← getD sz o2.du
    storeAll [{ c := lockedCycle fc, sz := sz, a := a1, v := u1.setWidth 32 },
      { c := lockedCycle fc, sz := sz, a := a2, v := u2.setWidth 32 }] .seq
  else do
    putD sz o1.dc d1
    putD sz o2.dc d2
    store (lockedCycle fc) sz a1 d1 .seq

theorem cas2_body {sz : SizeWL} {o1 o2 : Cas2Operand} (hne : o1.dc ≠ o2.dc)
    (h1 : Lockable s s.dataFc (s.greg o1.rn) sz.size.bytes) (h2 : Lockable s s.dataFc (s.greg o2.rn) sz.size.bytes)
    {d1 d2 c1 c2 : BitVec sz.size.bits} (hd1 : peek s s.dataFc sz.size (s.greg o1.rn) = d1)
    (hd2 : peek s s.dataFc sz.size (s.greg o2.rn) = d2) (hc1 : lowPart sz.size (s.dreg o1.dc) = c1)
    (hc2 : lowPart sz.size (s.dreg o2.dc) = c2) :
    ∃ l : CacheRecords, l.staleData ⊆ s.staleData ∧ ∃ body : Exec Done,
      exec (.cas2 sz o1 o2) s = complete (.cas2 sz o1 o2) body s
      ∧ body s = cas2Ends sz.size s.dataFc o1 o2 (s.greg o1.rn) (s.greg o2.rn) d1 d2 (d1 = c1 ∧ d2 = c2)
        ((withRecords l s).setCcr (if d1 = c1 then cmpFlags c2 d2 (d2 - c2) s.ccr else cmpFlags c1 d1 (d1 - c1) s.ccr)) := by
  obtain ⟨t, ht, hread1⟩ := lockedRead_ok h1 (Recorded.refl s)
  obtain ⟨u, ⟨l, hl, rfl⟩, hread2⟩ := lockedRead_ok h2 ht
  rw [hd1] at hread1
  rw [hd2] at hread2
  refine ⟨l, hl, _, rfl, ?_⟩
  rw [if_neg (by simpa using hne)]
  refine (Exec.look_bind ..).trans ((Exec.look_bind ..).trans ((Exec.look_bind ..).trans ((Exec.bind_ok s hread1 _).trans
    ((Exec.bind_ok t hread2 _).trans ((Exec.getD_bind ..).trans ((Exec.getD_bind ..).trans
      ((Exec.setFlags_bind ..).trans ?_)))))))
  have hg1 : lowPart sz.size ((withRecords l s).dreg o1.dc) = c1 := hc1
  have hg2 : lowPart sz.size ((withRecords l s).dreg o2.dc) = c2 := hc2
  have hcc : (withRecords l s).ccr = s.ccr := rfl
  rw [hg1, hg2, hcc]
  have e1 : d1 - c1 = 0#sz.size.bits ↔ d1 = c1 := sub_eq_zero
  have e2 : d2 - c2 = 0#sz.size.bits ↔ d2 = c2 := sub_eq_zero
  have hcodes : (if d1 = c1 then cmpFlags c2 d2 (d2 - c2) else cmpFlags c1 d1 (d1 - c1)) s.ccr
      = if d1 = c1 then cmpFlags c2 d2 (d2 - c2) s.ccr else cmpFlags c1 d1 (d1 - c1) s.ccr := ite_apply ..
  simp only [BitVec.ofNat_eq_ofNat, e1, e2]
  rw [hcodes]
  rfl

/-- The state CAS2 leaves but for the PC, from the one `u` in which it compares. -/
def cas2Result (sz : Size) (fc : BitVec 3) (o1 o2 : Cas2Operand) (a1 a2 : Long) (d1 d2 : BitVec sz.bits) (s u : State)
    (same : Prop) [Decidable same] : State :=
  if same then poke (poke u fc sz a1 (lowPart sz (s.dreg o1.du))) fc sz a2 (lowPart sz (s.dreg o2.du))
  else poke ((u.setDreg o1.dc (withLow (s.dreg o1.dc) sz d1)).setDreg o2.dc (withLow (s.dreg o2.dc) sz d2)) fc sz a1 d1

theorem cas2Ends_ok {o1 o2 : Cas2Operand} {a1 a2 : Long} {d1 d2 : BitVec sz.bits} {same : Prop} [Decidable same]
    (hne : o1.dc ≠ o2.dc) (hacc : SameAccess s u) (hd : ∀ r, u.dreg r = s.dreg r) (h1 : Writable s fc a1 sz.bytes)
    (h2 : Writable s fc a2 sz.bytes) :
    cas2Ends sz fc o1 o2 a1 a2 d1 d2 same u = .ok .seq (cas2Result sz fc o1 o2 a1 a2 d1 d2 s u same)
      ∧ Kept u (cas2Result sz fc o1 o2 a1 a2 d1 d2 s u same) [dNum o1.dc, dNum o2.dc]
        (keysAt s fc a1 sz.bytes ++ keysAt s fc a2 sz.bytes) := by
  have hp := hacc.platform
  unfold cas2Ends cas2Result
  split
  · constructor
    · refine (Exec.getD_bind ..).trans ((Exec.getD_bind ..).trans ?_)
      rw [hd, hd]
      exact storeAll_locked_two (hacc.writable h1) (hacc.writable h2)
    · have h := (Kept.poke u fc sz a1 (lowPart sz (s.dreg o1.du))).trans
        (Kept.poke _ fc sz a2 (lowPart sz (s.dreg o2.du)))
      rw [keysAt_congr hp, keysAt_congr ((poke_platform ..).trans hp)] at h
      exact h.mono (by simp) (by simp [List.Subset.refl])
  · have hd2 : (u.setDreg o1.dc (withLow (s.dreg o1.dc) sz d1)).dreg o2.dc = s.dreg o2.dc :=
      (State.dreg_setDreg_ne _ (Ne.symm hne) _).trans (hd _)
    have hacc' := hacc.trans ((SameAccess.setDreg u o1.dc (withLow (s.dreg o1.dc) sz d1)).trans
      (SameAccess.setDreg _ o2.dc (withLow (s.dreg o2.dc) sz d2)))
    constructor
    · refine (Exec.putD_bind ..).trans ((Exec.putD_bind ..).trans ?_)
      rw [hd, hd2]
      exact lockedStore_ok (hacc'.writable h1)
    · have h := ((Kept.setDreg u o1.dc (withLow (s.dreg o1.dc) sz d1)).trans
        (Kept.setDreg _ o2.dc (withLow (s.dreg o2.dc) sz d2))).trans (Kept.poke _ fc sz a1 d1)
      rw [keysAt_congr hacc'.platform] at h
      exact h.mono (by simp) (fun k hk => by simpa using Or.inl hk)

/-- Settles O34: the operands are read in the locked sequence, compared, and stored or loaded. -/
theorem lockedOperations : Obligations.LockedOperations := by
  unfold Obligations.LockedOperations
  refine fun s ht => ⟨fun r => ?_, fun ea s1 a hne ha hl => tas_memory_completes ht hne ha hl,
    fun sz dc du ea s1 a ha hl => cas_completes ht ha hl, fun sz o1 o2 => ⟨fun heq => ?_, fun hne h1 h2 => ?_⟩⟩
  · exact registers_of_body (fun _ => rfl) (fun _ => rfl) fun s => Kept.dregCodes ..
  · refine next_refused (u := s) rfl ?_
    rw [if_pos (by simpa using heq)]
    rfl
  · obtain ⟨l, hl, body, hexec, hbody⟩ := cas2_body hne h1 h2 rfl rfl rfl rfl
    refine ⟨l, ?_⟩
    intro a1 a2 d1 d2 c1 c2 codes u
    obtain ⟨hrun, hkept⟩ := cas2Ends_ok (u := u) (o1 := o1) (o2 := o2) (d1 := d1) (d2 := d2)
      (same := d1 = c1 ∧ d2 = c2) hne (sameAccess_coded hl codes) (fun r => State.dreg_setCcr ..) h1.2 h2.2
    exact ⟨next_past hexec (hbody.trans hrun) ht, Kept.past (((kept_coded l codes s).trans hkept).mono (by simp)
      (List.append_subset.mpr ⟨List.nil_subset _, List.Subset.refl _⟩))⟩

end Sys2Proof.Machine
end


section
/-! PROOF. MOVEM (40 R204, R205). -/

namespace Sys2Proof.Machine

open Sys2Proof Sys2Proof.Claim

variable {s s1 t u : State} {i : Instr} {fc : BitVec 3} {sz : Size} {a b : Long}

/-! ## The selected registers -/

theorem rank_le (sel : Nat → Bool) (n : Nat) : rank sel n ≤ n := by
  have h := List.length_filter_le sel (List.range n)
  rwa [List.length_range] at h

/-- The place of a selected number among the selected ones. -/
theorem filter_range_getElem? {sel : Nat → Bool} {i n : Nat} (hi : i < n) (h : sel i = true) :
    ((List.range n).filter sel)[rank sel i]? = some i := by
  induction n with
  | zero => omega
  | succ n ih =>
    rw [List.range_succ, List.filter_append]
    rcases Nat.lt_succ_iff_lt_or_eq.mp hi with hlt | rfl
    · have := ih hlt
      rw [List.getElem?_append_left (List.getElem?_eq_some_iff.mp this).1, this]
    · refine (List.getElem?_append_right (le_refl _)).trans ?_
      simp [h]

theorem selected_getElem? {sel : Nat → Bool} {i : Nat} (hi : i < 16) (h : sel i = true) :
    (selected sel)[rank sel i]? = some (BitVec.ofNat 4 i) := by
  rw [selected, List.getElem?_map, filter_range_getElem? hi h]
  rfl

theorem selected_length (sel : Nat → Bool) : (selected sel).length = rank sel 16 := List.length_map ..

theorem selected_nodup (sel : Nat → Bool) : (selected sel).Nodup := by
  refine List.Nodup.map_on (fun x hx y hy h => ?_) (List.nodup_range.filter sel)
  have hx := List.mem_range.mp (List.mem_filter.mp hx).1
  have hy := List.mem_range.mp (List.mem_filter.mp hy).1
  have := congrArg BitVec.toNat h
  simp only [BitVec.toNat_ofNat] at this
  omega

/-- The reversed mask names the registers from the last to the first. -/
theorem maskRegsReversed_eq (mask : Word) :
    maskRegsReversed mask = (selected fun i => mask.getLsbD (15 - i)).reverse := by
  have hrange : (List.range 16).reverse = (List.range 16).map fun i => 15 - i := by decide
  unfold maskRegsReversed selected
  rw [← List.map_reverse, ← List.filter_reverse, hrange, List.filter_map, List.map_map]
  refine congrArg (List.map _) (List.filter_congr fun i hi => ?_)
  have := List.mem_range.mp hi
  simp only [Function.comp_apply]
  rw [show 15 - (15 - i) = i by omega]

/-! ## The address -/

/-- The state in which a MOVEM computes its address: the one an RTE restored serves one instruction. -/
def forgotten (s : State) : State := { s with movemEa := none }

theorem forgotten_kept (s : State) : Kept s (forgotten s) [] [] := Kept.own s s.pc s.records s.bus s.draws none

theorem stepped_movemEa (bytes : Nat) (e : Ea) (s : State) : (stepped bytes e s).movemEa = s.movemEa := by
  cases e <;> simp [stepped]

theorem OperandEffect.movemEa {bytes : Nat} {e : Ea} (h : OperandEffect bytes e s t) : t.movemEa = s.movemEa := by
  obtain ⟨r, b, n, -, rfl⟩ := h
  exact stepped_movemEa bytes e s

theorem movemAddress_run {ea : Ea} (h : MovemAddress sz ea s s1 a) :
    movemAddress sz ea s = .ok a s1 ∧ OperandEffect sz.bytes ea (forgotten s) s1 := by
  have saved : ∀ b : Long, stepped sz.bytes ea (forgotten s) = forgotten s → a = b ∧ s1 = forgotten s →
      (.ok b (forgotten s) : EStateM.Result Abort State Long) = .ok a s1
        ∧ OperandEffect sz.bytes ea (forgotten s) s1 := fun b hst hb => by
    obtain ⟨rfl, rfl⟩ := hb
    exact ⟨rfl, .of_stepped hst.symm⟩
  have fresh : eaAddress sz.bytes 1 ea (forgotten s) = .ok a s1 → eaAddress sz.bytes 1 ea (forgotten s) = .ok a s1
      ∧ OperandEffect sz.bytes ea (forgotten s) s1 := fun he => ⟨he, eaAddress_inv he⟩
  unfold MovemAddress at h
  unfold movemAddress
  rw [Exec.look_bind, Exec.change_bind]
  cases hs : s.movemEa with
  | none =>
    rw [hs] at h
    exact fresh h
  | some b =>
    rw [hs] at h
    cases ea with
    | idx r x => exact saved b rfl h
    | pcDisp d => exact saved b rfl h
    | pcIdx x => exact saved b rfl h
    | _ => exact fresh h

/-! ## Stores -/

theorem Writable.rest {n : Nat} (h : Writable s fc a ((n + 1) * sz.bytes)) :
    Writable s fc a sz.bytes ∧ Writable s fc (a + BitVec.ofNat 32 sz.bytes) (n * sz.bytes) := by
  rw [Nat.add_mul, Nat.one_mul] at h
  exact ⟨h.part 0 (by simp) (by omega), h.part sz.bytes rfl (by omega)⟩

theorem movemWrite_ok {ea : Long} {v : BitVec sz.bits} (h : Writable s s.dataFc a sz.bytes) :
    movemWrite ea sz a v s = .ok () (poke s s.dataFc sz a v) := by
  unfold movemWrite
  rw [writeMem_ok h.1 h.2.1 h.2.2]

theorem greg_poke (v : BitVec sz.bits) (s : State) (n : GReg) : (poke s fc sz a v).greg n = s.greg n :=
  (Kept.poke s fc sz a v).reg n (by simp)

theorem movemStore_run (ea : Long) (regs : List GReg) (a : Long) (s : State)
    (h : Writable s s.dataFc a (regs.length * sz.bytes)) :
    movemStore ea sz regs a s
      = .ok () (pokes s.dataFc sz (upward sz a (regs.map fun r => lowPart sz (s.greg r))) s) := by
  induction regs generalizing a s with
  | nil => rfl
  | cons r rest ih =>
    obtain ⟨hfirst, hrest⟩ := Writable.rest h
    have hfc := State.dataFc_poke (s := s) s.dataFc sz a (lowPart sz (s.greg r))
    have hih := ih (a + BitVec.ofNat 32 sz.bytes) (poke s s.dataFc sz a (lowPart sz (s.greg r)))
      (by rw [hfc]; exact (SameAccess.poke ..).writable hrest)
    rw [hfc] at hih
    simp only [greg_poke] at hih
    refine (Exec.look_bind ..).trans ((Exec.bind_ok s (movemWrite_ok hfirst) _).trans (hih.trans ?_))
    rw [List.map_cons, upward_cons, pokes_cons]

theorem upward_concat (a : Long) (vs : List (BitVec sz.bits)) (v : BitVec sz.bits) :
    upward sz a (vs ++ [v]) = upward sz a vs ++ [(a + BitVec.ofNat 32 (vs.length * sz.bytes), v)] :=
  List.mapIdx_concat

/-- The value of a register that -(An) stores: the base register less the operand size. -/
def downValue (sz : Size) (base : GReg) (s : State) (r : GReg) : BitVec sz.bits :=
  lowPart sz (s.greg r - if r == base then BitVec.ofNat 32 sz.bytes else 0)

theorem sub_succ_mul (a : Long) (n k : Nat) :
    a - BitVec.ofNat 32 ((n + 1) * k) = a - BitVec.ofNat 32 k - BitVec.ofNat 32 (n * k) := by
  rw [Nat.add_mul, Nat.one_mul, BitVec.ofNat_add, sub_sub, add_comm]

theorem movemStoreDown_run (ea : Long) (base : GReg) (regs : List GReg) (a : Long) (s : State)
    (h : Writable s s.dataFc (a - BitVec.ofNat 32 (regs.length * sz.bytes)) (regs.length * sz.bytes)) :
    movemStoreDown ea sz base regs a s = .ok (a - BitVec.ofNat 32 (regs.length * sz.bytes))
      (pokes s.dataFc sz (upward sz (a - BitVec.ofNat 32 (regs.length * sz.bytes))
        (regs.reverse.map (downValue sz base s))).reverse s) := by
  induction regs generalizing a s with
  | nil =>
    have h0 : a - BitVec.ofNat 32 (([] : List GReg).length * sz.bytes) = a := by simp
    rw [h0]
    rfl
  | cons r rest ih =>
    rw [List.length_cons, sub_succ_mul] at h ⊢
    generalize hc : a - BitVec.ofNat 32 sz.bytes = c at h ⊢
    have hback : c - BitVec.ofNat 32 (rest.length * sz.bytes) + BitVec.ofNat 32 (rest.length * sz.bytes) = c :=
      BitVec.sub_add_cancel ..
    have hfirst : Writable s s.dataFc c sz.bytes :=
      h.part (rest.length * sz.bytes) hback.symm (by rw [Nat.add_mul]; omega)
    have hrest : Writable s s.dataFc (c - BitVec.ofNat 32 (rest.length * sz.bytes)) (rest.length * sz.bytes) :=
      h.part 0 (by simp) (by rw [Nat.add_mul]; omega)
    have hfc := State.dataFc_poke (s := s) s.dataFc sz c (downValue sz base s r)
    have hih := ih c (poke s s.dataFc sz c (downValue sz base s r))
      (by rw [hfc]; exact (SameAccess.poke ..).writable hrest)
    have hval : downValue sz base (poke s s.dataFc sz c (downValue sz base s r)) = downValue sz base s := by
      funext q
      unfold downValue
      rw [greg_poke]
    rw [hfc, hval] at hih
    have hfirst' := movemWrite_ok (ea := ea) (v := downValue sz base s r) hfirst
    rw [← hc] at hfirst'
    refine (Exec.look_bind ..).trans ((Exec.bind_ok s hfirst' _).trans ?_)
    rw [hc, hih, List.reverse_cons, List.map_append, List.map_singleton, upward_concat, List.reverse_concat, pokes_cons,
      List.length_map, List.length_reverse, hback]

/-- The values of registers stored side by side, and what else is kept. -/
theorem storedUp {regs : List GReg} {f : GReg → BitVec sz.bits} {j : Nat} {r : GReg} (hn : regs.length ≤ 16)
    (hr : regs[j]? = some r) :
    peek (pokes fc sz (upward sz a (regs.map f)) s) fc sz (a + BitVec.ofNat 32 (j * sz.bytes)) = f r
      ∧ peek (pokes fc sz (upward sz a (regs.map f)).reverse s) fc sz (a + BitVec.ofNat 32 (j * sz.bytes)) = f r := by
  have hlen : (regs.map f).length * sz.bytes ≤ 2 ^ 32 := by
    rw [List.length_map]
    calc regs.length * sz.bytes
      _ ≤ 16 * 4 := Nat.mul_le_mul hn (by cases sz <;> decide)
      _ ≤ 2 ^ 32 := by decide
  have hv : (regs.map f)[j]? = some (f r) := by rw [List.getElem?_map, hr]; rfl
  have hmem : (a + BitVec.ofNat 32 (j * sz.bytes), f r) ∈ upward sz a (regs.map f) :=
    List.mem_of_getElem? (i := j) (by rw [upward, List.getElem?_mapIdx, hv]; rfl)
  refine ⟨peek_upward hlen hv, peek_pokes _ s ?_ (List.mem_reverse.mpr hmem)⟩
  exact List.pairwise_reverse.mpr ((upward_apart a _ hlen).imp fun h x hx hx' => h x hx' hx)

theorem storedDown_kept (a : Long) (vs : List (BitVec sz.bits)) (s : State) :
    Kept s (pokes fc sz (upward sz a vs).reverse s) [] (keysAt s fc a (vs.length * sz.bytes)) := by
  refine (pokes_kept _ s).mono (by simp) fun k hk => ?_
  obtain ⟨p, hp, hk⟩ := List.mem_flatMap.mp hk
  obtain ⟨j, hj, rfl⟩ := List.mem_mapIdx.mp (List.mem_reverse.mp hp)
  obtain ⟨x, hx, rfl⟩ := List.mem_map.mp hk
  exact List.mem_map_of_mem (addrsOf_upward a hj hx)

/-- The body of a MOVEM to memory upward. -/
def movemStoreBody (sz : Size) (mask : Word) (ea : Ea) : Exec Done := do
  let a ← movemAddress sz ea
  movemStore a sz (maskRegs mask) a
  return .seq

theorem exec_movemToMem {sz : SizeWL} {mask : Word} {ea : Ea} (h : ∀ r, ea ≠ .preDec r) (s : State) :
    exec (.movemToMem sz mask ea) s = complete (.movemToMem sz mask ea) (movemStoreBody sz.size mask ea) s := by
  cases ea with
  | preDec r => exact absurd rfl (h r)
  | _ => rfl

theorem movemStores_completes {sz : SizeWL} {mask : Word} {ea : Ea} (ht : s.traceAll = false) (hne : ∀ r, ea ≠ .preDec r)
    (ha : MovemAddress sz.size ea s s1 a)
    (hw : Writable s1 s.dataFc a (rank mask.getLsbD 16 * sz.size.bytes)) :
    Completes (.movemToMem sz mask ea) s (steppedRegs ea) (keysAt s s.dataFc a (rank mask.getLsbD 16 * sz.size.bytes))
      (fun t => t.ccr = s.ccr ∧ t.movemEa = none ∧ ∀ i < 16, mask.getLsbD i = true →
        peek t s.dataFc sz.size (a + BitVec.ofNat 32 (rank mask.getLsbD i * sz.size.bytes))
          = lowPart sz.size (s1.greg (BitVec.ofNat 4 i))) := by
  obtain ⟨hrun, hop⟩ := movemAddress_run ha
  have hfc : s1.dataFc = s.dataFc := hop.dataFc
  have hlen : (selected mask.getLsbD).length = rank mask.getLsbD 16 := selected_length _
  have hstore := movemStore_run (sz := sz.size) a (selected mask.getLsbD) a s1 (by rw [hlen, hfc]; exact hw)
  rw [hfc] at hstore
  have hkept := upward_kept (fc := s.dataFc) a ((selected mask.getLsbD).map fun r => lowPart sz.size (s1.greg r)) s1
  have hbytes : ∀ i < 16, mask.getLsbD i = true → _ := fun i hi hm =>
    (storedUp (fc := s.dataFc) (a := a) (s := s1) (f := fun r => lowPart sz.size (s1.greg r))
      (hlen ▸ rank_le _ 16) (selected_getElem? hi hm)).1
  obtain ⟨-, hccr, -, hmov⟩ := pokes_registers (fc := s.dataFc)
    (upward sz.size a ((selected mask.getLsbD).map fun r => lowPart sz.size (s1.greg r))) s1
  rw [List.length_map, hlen, keysAt_congr (s := s) hop.access.platform] at hkept
  generalize pokes s.dataFc sz.size _ s1 = w at *
  refine ⟨_, next_past (exec_movemToMem hne s) (t := w) ?_ ht, rfl,
    (((forgotten_kept s).trans (hop.kept.trans hkept)).mono (by simp) (by simp)).past, ?_, ?_,
    fun i hi hm => (peek_congr rfl rfl _ _ _).trans (hbytes i hi hm)⟩
  · exact (Exec.bind_ok s hrun _).trans (Exec.bind_ok s1 hstore _)
  · exact hccr.trans hop.ccr
  · exact hmov.trans hop.movemEa

theorem movemStoresDown_completes {sz : SizeWL} {mask : Word} {r : Reg} (ht : s.traceAll = false)
    (ha : s.areg r - BitVec.ofNat 32 (rank (fun i => mask.getLsbD (15 - i)) 16 * sz.size.bytes) = a)
    (hw : Writable s s.dataFc a (rank (fun i => mask.getLsbD (15 - i)) 16 * sz.size.bytes)) :
    Completes (.movemToMem sz mask (.preDec r)) s [aNum r]
      (keysAt s s.dataFc a (rank (fun i => mask.getLsbD (15 - i)) 16 * sz.size.bytes)) (fun t =>
        t.ccr = s.ccr ∧ t.areg r = a ∧ ∀ i < 16, mask.getLsbD (15 - i) = true →
          peek t s.dataFc sz.size (a + BitVec.ofNat 32 (rank (fun i => mask.getLsbD (15 - i)) i * sz.size.bytes))
            = lowPart sz.size (s.greg (BitVec.ofNat 4 i)
              - if BitVec.ofNat 4 i = aNum r then BitVec.ofNat 32 sz.size.bytes else 0)) := by
  generalize hsel : (fun i => mask.getLsbD (15 - i)) = sel at *
  have hregs : maskRegsReversed mask = (selected sel).reverse := by rw [← hsel]; exact maskRegsReversed_eq mask
  have hlen : (selected sel).reverse.length = rank sel 16 := (List.length_reverse ..).trans (selected_length _)
  have hstore := movemStoreDown_run (sz := sz.size) (s.areg r) (aNum r) (selected sel).reverse (s.areg r) (forgotten s)
    (by rw [hlen, ha]; exact hw)
  rw [hlen, ha, List.reverse_reverse] at hstore
  have hkept := storedDown_kept (fc := s.dataFc) a ((selected sel).map (downValue sz.size (aNum r) (forgotten s)))
    (forgotten s)
  have hbytes : ∀ i < 16, sel i = true → _ := fun i hi hm =>
    (storedUp (fc := s.dataFc) (a := a) (s := forgotten s) (f := downValue sz.size (aNum r) (forgotten s))
      ((selected_length sel).symm ▸ rank_le _ 16) (selected_getElem? hi hm)).2
  obtain ⟨-, hccr, -⟩ := pokes_registers (fc := s.dataFc)
    (upward sz.size a ((selected sel).map (downValue sz.size (aNum r) (forgotten s)))).reverse (forgotten s)
  rw [List.length_map, selected_length, keysAt_congr (s := s) (t := forgotten s) rfl] at hkept
  change movemStoreDown (s.areg r) sz.size (aNum r) (selected sel).reverse (s.areg r) (forgotten s)
    = .ok a (pokes s.dataFc sz.size _ (forgotten s)) at hstore
  generalize pokes s.dataFc sz.size _ (forgotten s) = w at *
  have hmov := Kept.setAreg w r a
  refine ⟨_, next_past (t := w.setAreg r a) rfl ?_ ht, rfl,
    (((forgotten_kept s).trans (hkept.trans hmov)).mono (by simp) (by simp)).past, ?_, ?_, fun i hi hm => ?_⟩
  · rw [← hregs] at hstore
    exact (Exec.change_bind s _ _).trans ((Exec.getA_bind ..).trans ((Exec.bind_ok (forgotten s) hstore _).trans
      (Exec.putA_bind ..)))
  · exact (State.ccr_setAreg ..).trans hccr
  · exact State.areg_setAreg ..
  · have hi' : sel i = true := by rw [← hsel]; exact hm
    refine (peek_congr (State.setAreg_mem w r a) (State.setAreg_platform w r a) _ _ _).trans ((hbytes i hi hi').trans ?_)
    unfold downValue
    simp only [beq_iff_eq]
    rfl

/-- Settles O27: the selected registers are stored one after another, and the base register moves below them. -/
theorem movemStores : Obligations.MovemStores := by
  unfold Obligations.MovemStores
  exact fun s sz mask ht => ⟨fun ea s1 a hne ha hw => movemStores_completes ht hne ha hw,
    fun r hw => movemStoresDown_completes ht rfl hw⟩

/-! ## Loads -/

theorem movemRead_ok {ea : Long} (h : Readable s s.dataFc a sz.bytes) :
    ∃ t, Recorded s t ∧ movemRead ea sz a s = .ok (peek s s.dataFc sz a) t := by
  obtain ⟨t, ht, hread⟩ := (Recorded.refl s).readMem h
  refine ⟨t, ht, ?_⟩
  unfold movemRead
  rw [hread]

/-- The register that takes its value when every read is done. -/
def heldRegs : Option GReg → Option Long → List GReg
  | some r, some _ => [r]
  | _, _ => []

/-- What loading the registers `regs` from `a` up leaves; `base` takes the value `held` or the one it is loaded with. -/
structure Loaded (sz : Size) (base : Option GReg) (held : Option Long) (regs : List GReg) (a : Long) (s t : State) :
    Prop where
  kept : Kept s t (heldRegs base held ++ regs) []
  ccr : t.ccr = s.ccr
  movemEa : t.movemEa = s.movemEa
  loaded : ∀ j r, regs[j]? = some r → t.greg r = sext (peek s s.dataFc sz (a + BitVec.ofNat 32 (j * sz.bytes)))
  held : ∀ r v, base = some r → held = some v → r ∉ regs → t.greg r = v

theorem Readable.rest {n : Nat} (h : Readable s fc a ((n + 1) * sz.bytes)) :
    Readable s fc a sz.bytes ∧ Readable s fc (a + BitVec.ofNat 32 sz.bytes) (n * sz.bytes) := by
  rw [Nat.add_mul, Nat.one_mul] at h
  exact ⟨h.part 0 (by simp) (by omega), h.part sz.bytes rfl (by omega)⟩

theorem loaded_nil (sz : Size) (base : Option GReg) (held : Option Long) (a : Long) (ea : Long) (s : State) :
    ∃ t, movemLoad ea sz base [] a held s = .ok a t ∧ Loaded sz base held [] a s t := by
  cases base with
  | none => exact ⟨s, rfl, (Kept.refl s).mono (by simp) (by simp), rfl, rfl, nofun, nofun⟩
  | some r =>
    cases held with
    | none => exact ⟨s, rfl, (Kept.refl s).mono (by simp) (by simp), rfl, rfl, nofun, nofun⟩
    | some v =>
      refine ⟨s.setGreg r v, rfl, Kept.setGreg s r v, State.ccr_setGreg .., State.setGreg_movemEa .., nofun, ?_⟩
      rintro _ _ ⟨⟩ ⟨⟩ -
      exact State.greg_setGreg ..

theorem upward_step (a : Long) (j k : Nat) :
    a + BitVec.ofNat 32 k + BitVec.ofNat 32 (j * k) = a + BitVec.ofNat 32 ((j + 1) * k) := by
  rw [add_ofNat_add, Nat.add_mul, Nat.one_mul, Nat.add_comm]

theorem SameAccess.setGreg (s : State) (n : GReg) (v : Long) : SameAccess s (s.setGreg n v) := by
  rcases greg_cases n with ⟨m, rfl⟩ | ⟨m, rfl⟩
  · rw [setGreg_dNum]
    exact SameAccess.setDreg s m v
  · rw [setGreg_aNum]
    exact SameAccess.setAreg s m v

/-- The first register is loaded, then the rest in a state `u` that reads as `s` does; the register takes its value now, or
waits for the end as the base does. -/
theorem Loaded.cons {base : Option GReg} {held held' : Option Long} {r : GReg} {rest : List GReg}
    (h : Loaded sz base held' rest (a + BitVec.ofNat 32 sz.bytes) u t) (hr : r ∉ rest) (hfc : u.dataFc = s.dataFc)
    (hmem : u.mem = s.mem) (hp : u.platform = s.platform) (hccr : u.ccr = s.ccr) (hm : u.movemEa = s.movemEa)
    (hkept : Kept s u [r] [])
    (hfirst : base = some r ∧ held' = some (sext (peek s s.dataFc sz a))
      ∨ base ≠ some r ∧ held' = held ∧ u.greg r = sext (peek s s.dataFc sz a)) :
    Loaded sz base held (r :: rest) a s t := by
  have hpeek : ∀ x, peek u u.dataFc sz x = peek s s.dataFc sz x := fun x => by
    rw [hfc]
    exact peek_congr hmem hp _ _ _
  refine ⟨?_, h.ccr.trans hccr, h.movemEa.trans hm, fun j q hq => ?_, fun q v hb hh hq => ?_⟩
  · refine (hkept.trans h.kept).mono (fun q hq => ?_) (by simp)
    rcases List.mem_append.mp hq with hq | hq
    · simp only [List.mem_singleton] at hq
      simp [hq]
    · rcases List.mem_append.mp hq with hq | hq
      · rcases hfirst with ⟨rfl, rfl⟩ | ⟨-, rfl, -⟩
        · simp only [heldRegs, List.mem_singleton] at hq
          simp [hq]
        · simp [hq]
      · simp [hq]
  · cases j with
    | zero =>
      obtain rfl : r = q := by simpa using hq
      have h0 : a + BitVec.ofNat 32 (0 * sz.bytes) = a := by simp
      rw [h0]
      rcases hfirst with ⟨hb, hh⟩ | ⟨hb, rfl, hg⟩
      · exact h.held r _ hb hh hr
      · rw [h.kept.reg r ?_, hg]
        intro hmem
        rcases List.mem_append.mp hmem with hmem | hmem
        · cases base with
          | none => cases hmem
          | some b =>
            cases held' with
            | none => cases hmem
            | some v => exact hb (by rw [List.mem_singleton.mp hmem])
        · exact hr hmem
    | succ j =>
      rw [h.loaded j q (by simpa using hq), hpeek, upward_step]
  · have hq' : q ≠ r ∧ q ∉ rest := by simpa using hq
    rcases hfirst with ⟨hb', -⟩ | ⟨-, rfl, -⟩
    · rw [hb] at hb'
      exact absurd (Option.some.inj hb') hq'.1
    · exact h.held q v hb hh hq'.2

theorem movemLoad_run (ea : Long) (base : Option GReg) (regs : List GReg) (hn : regs.Nodup) (a : Long)
    (held : Option Long) (s : State) (h : Readable s s.dataFc a (regs.length * sz.bytes)) :
    ∃ t, movemLoad ea sz base regs a held s = .ok (a + BitVec.ofNat 32 (regs.length * sz.bytes)) t
      ∧ Loaded sz base held regs a s t := by
  induction regs generalizing a held s with
  | nil =>
    have h0 : a + BitVec.ofNat 32 (([] : List GReg).length * sz.bytes) = a := by simp
    rw [h0]
    exact loaded_nil sz base held a ea s
  | cons r rest ih =>
    rw [List.nodup_cons] at hn
    obtain ⟨hfirst, hrest⟩ := Readable.rest h
    obtain ⟨u, hu, hread⟩ := movemRead_ok (ea := ea) hfirst
    have hacc := hu.access
    have hk := hu.kept
    have hug : u.dataFc = s.dataFc ∧ u.mem = s.mem ∧ u.ccr = s.ccr ∧ u.movemEa = s.movemEa := by
      obtain ⟨l, -, rfl⟩ := hu
      exact ⟨rfl, rfl, rfl, rfl⟩
    obtain ⟨hfc, hmem, hccr, hm⟩ := hug
    rw [List.length_cons, ← upward_step]
    by_cases hb : base = some r
    · obtain ⟨t, hrun, hload⟩ := ih hn.2 (a + BitVec.ofNat 32 sz.bytes) (some (sext (peek s s.dataFc sz a))) u
        (by rw [hfc]; exact hacc.readable hrest)
      refine ⟨t, (Exec.bind_ok s hread _).trans ?_, hload.cons hn.1 hfc hmem hacc.platform hccr hm
        (hk.mono (by simp) (by simp)) (.inl ⟨hb, rfl⟩)⟩
      rw [if_pos (by rw [hb]; exact beq_self_eq_true _)]
      exact hrun
    · have hset := SameAccess.setGreg u r (sext (peek s s.dataFc sz a))
      obtain ⟨t, hrun, hload⟩ := ih hn.2 (a + BitVec.ofNat 32 sz.bytes) held (u.setGreg r (sext (peek s s.dataFc sz a)))
        (by rw [State.dataFc_setGreg, hfc]; exact (hacc.trans hset).readable hrest)
      refine ⟨t, (Exec.bind_ok s hread _).trans ?_, hload.cons hn.1 ((State.dataFc_setGreg ..).trans hfc)
        ((State.setGreg_mem ..).trans hmem) ((State.setGreg_platform ..).trans hacc.platform)
        ((State.ccr_setGreg ..).trans hccr) ((State.setGreg_movemEa ..).trans hm)
        ((hk.trans (Kept.setGreg u r _)).mono (by simp) (by simp)) (.inr ⟨hb, rfl, State.greg_setGreg ..⟩)⟩
      rw [if_neg (by simpa using hb)]
      exact (Exec.change_bind u _ _).trans hrun

/-- The body of a MOVEM from memory but for (An)+. -/
def movemLoadBody (sz : Size) (mask : Word) (ea : Ea) : Exec Done := do
  let a ← movemAddress sz ea
  let _ ← movemLoad a sz (movemBase ea) (maskRegs mask) a none
  return .seq

theorem exec_movemToReg {sz : SizeWL} {mask : Word} {ea : Ea} (h : ∀ r, ea ≠ .postInc r) (s : State) :
    exec (.movemToReg sz mask ea) s = complete (.movemToReg sz mask ea) (movemLoadBody sz.size mask ea) s := by
  cases ea with
  | postInc r => exact absurd rfl (h r)
  | _ => rfl

theorem movemLoads_postInc {sz : SizeWL} {mask : Word} {r : Reg} (ht : s.traceAll = false)
    (hr : Readable s s.dataFc (s.areg r) (rank mask.getLsbD 16 * sz.size.bytes)) :
    Completes (.movemToReg sz mask (.postInc r)) s (selected mask.getLsbD ++ [aNum r]) [] (fun t =>
      t.ccr = s.ccr ∧ t.movemEa = none
      ∧ t.areg r = s.areg r + BitVec.ofNat 32 (rank mask.getLsbD 16 * sz.size.bytes)
      ∧ ∀ i < 16, mask.getLsbD i = true → BitVec.ofNat 4 i ≠ aNum r → t.greg (BitVec.ofNat 4 i)
        = sext (peek s s.dataFc sz.size (s.areg r + BitVec.ofNat 32 (rank mask.getLsbD i * sz.size.bytes)))) := by
  have hlen : (selected mask.getLsbD).length = rank mask.getLsbD 16 := selected_length _
  obtain ⟨t, hrun, hload⟩ := movemLoad_run (sz := sz.size) (s.areg r) (some (aNum r)) (selected mask.getLsbD)
    (selected_nodup _) (s.areg r) none (forgotten s) (by rw [hlen]; exact hr)
  rw [hlen] at hrun
  have hset := Kept.setAreg t r (s.areg r + BitVec.ofNat 32 (rank mask.getLsbD 16 * sz.size.bytes))
  refine ⟨_, next_past rfl (t := t.setAreg r (s.areg r + BitVec.ofNat 32 (rank mask.getLsbD 16 * sz.size.bytes))) ?_ ht,
    rfl, (((forgotten_kept s).trans (hload.kept.trans hset)).mono (by simp [heldRegs]) (by simp)).past, ?_, ?_, ?_,
    fun i hi hm hne => ?_⟩
  · exact (Exec.change_bind s _ _).trans ((Exec.getA_bind ..).trans ((Exec.bind_ok (forgotten s) hrun _).trans
      (Exec.putA_bind ..)))
  · exact (State.ccr_setAreg ..).trans hload.ccr
  · exact (State.setAreg_movemEa ..).trans hload.movemEa
  · exact State.areg_setAreg ..
  · exact (greg_past ..).trans ((hset.reg _ (by simpa using hne)).trans
      (hload.loaded _ _ (selected_getElem? hi hm)))

theorem movemLoads_completes {sz : SizeWL} {mask : Word} {ea : Ea} (ht : s.traceAll = false) (hne : ∀ r, ea ≠ .postInc r)
    (ha : MovemAddress sz.size ea s s1 a)
    (hr : Readable s1 s.dataFc a (rank mask.getLsbD 16 * sz.size.bytes)) :
    Completes (.movemToReg sz mask ea) s (selected mask.getLsbD ++ steppedRegs ea) [] (fun t =>
      t.ccr = s.ccr ∧ t.movemEa = none ∧ ∀ i < 16, mask.getLsbD i = true → t.greg (BitVec.ofNat 4 i)
        = sext (peek s s.dataFc sz.size (a + BitVec.ofNat 32 (rank mask.getLsbD i * sz.size.bytes)))) := by
  obtain ⟨haddr, hop⟩ := movemAddress_run ha
  have hfc : s1.dataFc = s.dataFc := hop.dataFc
  have hlen : (selected mask.getLsbD).length = rank mask.getLsbD 16 := selected_length _
  obtain ⟨t, hrun, hload⟩ := movemLoad_run (sz := sz.size) a (movemBase ea) (selected mask.getLsbD)
    (selected_nodup _) a none s1 (by rw [hlen, hfc]; exact hr)
  have hheld : heldRegs (movemBase ea) none = [] := by cases movemBase ea <;> rfl
  have hkept := hload.kept
  rw [hheld] at hkept
  refine ⟨_, next_past (exec_movemToReg hne s) ((Exec.bind_ok s haddr _).trans (Exec.bind_ok s1 hrun _)) ht, rfl,
    (((forgotten_kept s).trans (hop.kept.trans hkept)).mono (by simp) (by simp)).past, ?_, ?_, fun i hi hm => ?_⟩
  · exact hload.ccr.trans hop.ccr
  · exact hload.movemEa.trans hop.movemEa
  · refine (greg_past ..).trans ((hload.loaded _ _ (selected_getElem? hi hm)).trans ?_)
    rw [hfc, peek_congr (s := s) hop.mem hop.access.platform]

/-- Settles O28: the selected registers are loaded one after another; (An)+ moves its register behind the last. -/
theorem movemLoads : Obligations.MovemLoads := by
  unfold Obligations.MovemLoads
  intro s s1 sz mask ea a ht hinc haddr n hr
  by_cases h : ∃ r, ea = .postInc r
  · obtain ⟨r, rfl⟩ := h
    obtain ⟨rfl, rfl⟩ := hinc r rfl
    obtain ⟨t, hrun, hpc, hkept, hccr, hmov, hareg, hload⟩ := movemLoads_postInc ht hr
    refine ⟨t, hrun, hpc, hkept, hccr, hmov, ?_, fun i hi hm hne => hload i hi hm (hne r rfl)⟩
    rintro _ ⟨⟩
    exact hareg
  · have hne : ∀ r, ea ≠ .postInc r := fun r hr => h ⟨r, hr⟩
    obtain ⟨t, hrun, hpc, hkept, hccr, hmov, hload⟩ := movemLoads_completes ht hne (haddr hne) hr
    exact ⟨t, hrun, hpc, hkept, hccr, hmov, fun r hr => absurd hr (hne r), fun i hi hm _ => hload i hi hm⟩

end Sys2Proof.Machine
end


section
/-! PROOF. The bits of a bit field (45 R320): in a value with the field on top, in a register, and in the bytes of memory. -/

namespace Sys2Proof.Machine

open Sys2Proof Sys2Proof.Claim

variable {s t u : State} {i : Instr} {fc : BitVec 3} {sz : Size} {a : Long}

/-! ## Fields in values -/

theorem getMsbD_eq {n : Nat} (x : BitVec n) {j : Nat} (h : j < n) : x.getMsbD j = x.getLsbD (n - 1 - j) := by
  rw [BitVec.getMsbD_eq_getLsbD, decide_eq_true h, Bool.true_and]

theorem HasBits.unique {w : Nat} {v v' : Long} {bits : Nat → Bool} (h : HasBits w v bits) (h' : HasBits w v' bits) :
    v = v' := by
  apply BitVec.eq_of_getLsbD_eq
  intro j _
  by_cases hj : j < w
  · have h1 := h.1 (w - 1 - j) (by omega)
    have h2 := h'.1 (w - 1 - j) (by omega)
    rw [show w - 1 - (w - 1 - j) = j by omega] at h1 h2
    rw [h1, h2]
  · rw [h.2 j (by omega), h'.2 j (by omega)]

/-- The top bits of a value are the bits of a field. -/
theorem topBits_hasBits {k w : Nat} (v : BitVec k) (hw : w ≤ 32) (hk : w ≤ k) {bits : Nat → Bool}
    (h : ∀ j < w, v.getMsbD j = bits j) : HasBits w (topBits v w) bits := by
  constructor
  · intro j hj
    have hb := h j hj
    rw [getMsbD_eq v (by omega)] at hb
    rw [← hb, topBits, BitVec.getLsbD_setWidth, decide_eq_true (by omega), Bool.true_and, BitVec.getLsbD_ushiftRight]
    congr 1
    omega
  · intro j hj
    rw [topBits, BitVec.getLsbD_setWidth, BitVec.getLsbD_ushiftRight, BitVec.getLsbD_of_ge _ _ (by omega), Bool.and_false]

/-- A value with another field on top. -/
theorem getMsbD_withTopBits {k w : Nat} (v : BitVec k) (field : Long) (hw : w ≤ 32) (hk : w ≤ k) {j : Nat} (hj : j < k) :
    (withTopBits v w field).getMsbD j = if j < w then field.getLsbD (w - 1 - j) else v.getMsbD j := by
  rw [getMsbD_eq _ hj, getMsbD_eq _ hj, withTopBits, BitVec.getLsbD_or, BitVec.getLsbD_and, BitVec.getLsbD_shiftLeft,
    BitVec.getLsbD_ushiftRight, BitVec.getLsbD_allOnes, BitVec.getLsbD_setWidth]
  split
  · next h =>
    rw [decide_eq_true (show k - 1 - j < k by omega), decide_eq_false (show ¬ k - 1 - j < k - w by omega),
      decide_eq_true (show k - 1 - j - (k - w) < k by omega), decide_eq_false (show ¬ w + (k - 1 - j) < k by omega)]
    simp only [Bool.not_false, Bool.true_and, Bool.and_false, Bool.or_false]
    congr 1
    omega
  · next h =>
    rw [decide_eq_true (show k - 1 - j < k - w by omega), decide_eq_true (show w + (k - 1 - j) < k by omega)]
    simp

/-- A field replaced where the value was rotated to bring it on top. -/
theorem getMsbD_replaced {k w r : Nat} (v : BitVec k) (field : Long) (hw : w ≤ 32) (hk : w ≤ k) (hr : r < k) {m : Nat}
    (hm : m < k) : ((withTopBits (v.rotateLeft r) w field).rotateRight r).getMsbD m
      = if (m + k - r) % k < w then field.getLsbD (w - 1 - (m + k - r) % k) else v.getMsbD m := by
  have hj : (m + k - r) % k < k := Nat.mod_lt _ (by omega)
  have hplace : (if m < r % k then (k + m - r % k) % k else m - r % k) = (m + k - r) % k := by
    rw [Nat.mod_eq_of_lt hr]
    split
    · rw [Nat.add_comm k m]
    · rw [show m + k - r = m - r + k by omega, Nat.add_mod_right, Nat.mod_eq_of_lt (by omega)]
  have hback : (r + (m + k - r) % k) % k = m := by
    rw [Nat.add_mod_mod, show r + (m + k - r) = m + k by omega, Nat.add_mod_right, Nat.mod_eq_of_lt hm]
  rw [BitVec.getMsbD_rotateRight, decide_eq_true hm, Bool.true_and]
  have hcase : (if m < r % k then (withTopBits (v.rotateLeft r) w field).getMsbD ((k + m - r % k) % k)
      else (withTopBits (v.rotateLeft r) w field).getMsbD (m - r % k))
      = (withTopBits (v.rotateLeft r) w field).getMsbD ((m + k - r) % k) := by
    rw [← hplace]
    split <;> rfl
  refine hcase.trans ?_
  rw [getMsbD_withTopBits _ _ hw hk hj, BitVec.getMsbD_rotateLeft, decide_eq_true hj, Bool.true_and, hback]

theorem getLsbD_lowBits {w j : Nat} (v : Long) (hw : w ≤ 32) :
    (lowBits w v).getLsbD j = (decide (j < w) && v.getLsbD j) := by
  rw [lowBits, BitVec.getLsbD_and, BitVec.getLsbD_ushiftRight, BitVec.getLsbD_allOnes, Bool.and_comm]
  congr 1
  rw [decide_eq_decide]
  omega

theorem lowBits_hasBits {w : Nat} (v : Long) (hw : w ≤ 32) : HasBits w (lowBits w v) fun j => v.getLsbD (w - 1 - j) := by
  constructor
  · intro j hj
    rw [getLsbD_lowBits v hw, decide_eq_true (by omega), Bool.true_and]
  · intro j hj
    rw [getLsbD_lowBits v hw, decide_eq_false (by omega), Bool.false_and]

/-! ## Offset and width -/

theorem fieldWidth_bounds (s : State) (bf : BitField) : 0 < fieldWidth s bf ∧ fieldWidth s bf ≤ 32 := by
  have key : ∀ n < 33, 0 < (if n = 0 then 32 else n) ∧ (if n = 0 then 32 else n) ≤ 32 := by decide
  unfold fieldWidth
  cases bf.width with
  | imm v => exact key v.toNat (v.isLt.trans (by decide))
  | reg r => exact key ((s.dreg r).toNat % 32) ((Nat.mod_lt _ (by decide)).trans (by decide))

theorem bfWidth_eq (s : State) (bf : BitField) : bfWidth s bf.width = fieldWidth s bf := rfl

theorem bfOffset_toInt (s : State) (bf : BitField) : (bfOffset s bf.offset).toInt = fieldOffset s bf := by
  unfold bfOffset fieldOffset
  cases bf.offset with
  | imm v =>
    have hv := v.isLt
    change (v.setWidth 32 : Long).toInt = (v.toNat : Int)
    rw [BitVec.toInt_eq_toNat_of_lt, BitVec.toNat_setWidth_of_le (by decide)]
    rw [BitVec.toNat_setWidth_of_le (by decide)]
    omega
  | reg r => rfl

/-- The offset modulo a power of two is that of the register as a number without sign. -/
theorem bfOffset_mod (s : State) (bf : BitField) {m : Nat} (hm : m ∣ 2 ^ 32) :
    (fieldOffset s bf % m).toNat = (bfOffset s bf.offset).toNat % m := by
  rw [← bfOffset_toInt, BitVec.toInt_eq_toNat_bmod, Int.bmod_def]
  have h : ∀ x y : Int, (m : Int) ∣ y → (x - y) % m = x % m := fun x y hy => by
    rw [Int.sub_emod, Int.emod_eq_zero_of_dvd hy, sub_zero, Int.emod_emod_of_dvd _ (dvd_refl _)]
  have hm' : (m : Int) ∣ (2 ^ 32 : Nat) := Int.natCast_dvd_natCast.mpr hm
  split
  · rw [Int.emod_emod_of_dvd _ hm', ← Int.natCast_emod, Int.toNat_natCast]
  · rw [h _ _ hm', Int.emod_emod_of_dvd _ hm', ← Int.natCast_emod, Int.toNat_natCast]

theorem fieldBase_eq (s : State) (bf : BitField) (a : Long) :
    a + (bfOffset s bf.offset).sshiftRight 3 = fieldBase s bf a := by
  unfold fieldBase BitVec.sshiftRight
  rw [bfOffset_toInt, Int.shiftRight_eq_div_pow]
  rfl

theorem firstBit_eq (s : State) (bf : BitField) : (bfOffset s bf.offset).toNat % 8 = firstBit s bf :=
  (bfOffset_mod s bf (m := 8) (by decide)).symm

theorem firstBit_lt (s : State) (bf : BitField) : firstBit s bf < 8 := by
  rw [← firstBit_eq]
  exact Nat.mod_lt _ (by decide)

end Sys2Proof.Machine
end


section
/-! PROOF. Bit fields read (45 R320 to R324). -/

namespace Sys2Proof.Machine

open Sys2Proof Sys2Proof.Claim

variable {s s1 t u : State} {i : Instr} {fc : BitVec 3} {sz : Size} {a : Long} {bf : BitField} {ea : Ea}

/-! ## The bytes of a field -/

theorem memoryBit_eq (s : State) (a : Long) (k : Nat) :
    memoryBit s a k = (byteAt s s.dataFc (a + BitVec.ofNat 32 (k / 8))).getMsbD (k % 8) := by
  rw [getMsbD_eq _ (Nat.mod_lt _ (by decide))]
  rfl

theorem memoryBit_add (s : State) (a : Long) (j k : Nat) :
    memoryBit s (a + BitVec.ofNat 32 j) k = memoryBit s a (8 * j + k) := by
  rw [memoryBit_eq, memoryBit_eq, add_ofNat_add, Nat.mul_add_mod, Nat.mul_add_div (by decide)]

theorem memoryBit_congr (hm : t.mem = s.mem) (hp : t.platform = s.platform) (hf : t.dataFc = s.dataFc) (a : Long) (k : Nat) :
    memoryBit t a k = memoryBit s a k := by
  unfold memoryBit
  rw [hf, byteAt_congr hm hp]

/-- The bits of an operand are those of its bytes. -/
theorem getMsbD_peek (s : State) (sz : Size) (a : Long) {k : Nat} (hk : k < sz.bits) :
    (peek s s.dataFc sz a).getMsbD k = memoryBit s a k := by
  have hbits : sz.bits = 8 * sz.bytes := by cases sz <;> rfl
  have hbyte := extractLsb'_peek s s.dataFc sz a (k := k / 8) (by omega)
  rw [memoryBit_eq, ← hbyte, getMsbD_eq _ hk, getMsbD_eq _ (Nat.mod_lt _ (by decide)), BitVec.getLsbD_extractLsb',
    decide_eq_true (by omega), Bool.true_and]
  congr 1
  omega

theorem getMsbD_append_low {m n j : Nat} (x : BitVec m) (y : BitVec n) (h : j < m) : (x ++ y).getMsbD j = x.getMsbD j := by
  rw [BitVec.getMsbD_append, if_neg (by omega)]

theorem getMsbD_append_high {m n j : Nat} (x : BitVec m) (y : BitVec n) (h : m ≤ j) :
    (x ++ y).getMsbD j = y.getMsbD (j - m) := by
  rw [BitVec.getMsbD_append, if_pos h]

/-- Two operands side by side. -/
theorem getMsbD_peek_append (s : State) (sz sz' : Size) (a b : Long) (hb : b = a + BitVec.ofNat 32 sz.bytes) {k : Nat}
    (hk : k < sz.bits + sz'.bits) :
    (peek s s.dataFc sz a ++ peek s s.dataFc sz' b).getMsbD k = memoryBit s a k := by
  have hbits : sz.bits = 8 * sz.bytes := by cases sz <;> rfl
  by_cases h : k < sz.bits
  · rw [getMsbD_append_low _ _ h, getMsbD_peek s sz a h]
  · rw [getMsbD_append_high _ _ (by omega), getMsbD_peek s sz' b (by omega), hb, memoryBit_add]
    congr 1
    omega

/-- What reading the bytes of a field gives. -/
theorem readSpan_ok {n : Nat} (hn : 1 ≤ n ∧ n ≤ 5) (hr : Readable s s.dataFc a n) :
    ∃ (v : BitVec 40) (t : State), Recorded s t ∧ readSpan n a s = .ok v t ∧ ∀ k < 8 * n, v.getMsbD k = memoryBit s a k := by
  have one (sz : Size) (b : Long) (u : State) (hu : Recorded s u) (hb : Readable s s.dataFc b sz.bytes) :=
    hu.readMem (sz := sz) hb
  obtain rfl | rfl | rfl | rfl | rfl : n = 1 ∨ n = 2 ∨ n = 3 ∨ n = 4 ∨ n = 5 := by omega
  · obtain ⟨t, ht, hread⟩ := one .byte a s (Recorded.refl s) hr
    refine ⟨_, t, ht, Exec.bind_ok s hread _, fun k hk => ?_⟩
    exact (getMsbD_append_low (m := 8) _ _ hk).trans (getMsbD_peek s .byte a hk)
  · obtain ⟨t, ht, hread⟩ := one .word a s (Recorded.refl s) hr
    refine ⟨_, t, ht, Exec.bind_ok s hread _, fun k hk => ?_⟩
    exact (getMsbD_append_low (m := 16) _ _ hk).trans (getMsbD_peek s .word a hk)
  · obtain ⟨u, hu, hread⟩ := one .word a s (Recorded.refl s) (hr.part 0 (by simp) (by decide))
    obtain ⟨t, ht, hread'⟩ := one .byte (a + 2) u hu (hr.part 2 rfl (by decide))
    refine ⟨_, t, ht, (Exec.bind_ok s hread _).trans (Exec.bind_ok u hread' _), fun k hk => ?_⟩
    exact (getMsbD_append_low (m := 24) _ _ hk).trans (getMsbD_peek_append s .word .byte a _ rfl hk)
  · obtain ⟨t, ht, hread⟩ := one .long a s (Recorded.refl s) hr
    refine ⟨_, t, ht, Exec.bind_ok s hread _, fun k hk => ?_⟩
    exact (getMsbD_append_low (m := 32) _ _ hk).trans (getMsbD_peek s .long a hk)
  · obtain ⟨u, hu, hread⟩ := one .long a s (Recorded.refl s) (hr.part 0 (by simp) (by decide))
    obtain ⟨t, ht, hread'⟩ := one .byte (a + 4) u hu (hr.part 4 rfl (by decide))
    refine ⟨_, t, ht, (Exec.bind_ok s hread _).trans (Exec.bind_ok u hread' _), fun k hk => ?_⟩
    exact getMsbD_peek_append s .long .byte a _ rfl hk

/-! ## The field found -/

theorem registerBit_lt (o : Int) (j : Nat) : registerBit o j < 32 := by
  unfold registerBit
  omega

/-- The field in a register, as found. -/
theorem findField_register {r : Reg} {bits : Nat → Bool} {v : Long}
    (hb : ∀ j, bits j = (s.dreg r).getLsbD (registerBit (fieldOffset s bf) j)) (hv : HasBits (fieldWidth s bf) v bits) :
    findField bf (.dn r) s = .ok ⟨v, fieldWidth s bf, bfOffset s bf.offset &&& 31,
      ((s.dreg r).rotateLeft (fieldOffset s bf % 32).toNat).setWidth 40, .dreg r⟩ s := by
  have hmod : (bfOffset s bf.offset &&& 31 : Long).toNat = (fieldOffset s bf % 32).toNat := by
    have h := bfOffset_mod s bf (m := 32) (by decide)
    rw [show ((32 : Nat) : Int) = 32 from rfl] at h
    rw [h, BitVec.toNat_and]
    exact Nat.and_two_pow_sub_one_eq_mod _ 5
  have hfield : topBits ((s.dreg r).rotateLeft (fieldOffset s bf % 32).toNat) (fieldWidth s bf) = v := by
    refine HasBits.unique (topBits_hasBits _ (fieldWidth_bounds s bf).2 (fieldWidth_bounds s bf).2 fun j hj => ?_) hv
    have hj' := (fieldWidth_bounds s bf).2
    rw [BitVec.getMsbD_rotateLeft, decide_eq_true (by omega), Bool.true_and, getMsbD_eq _ (Nat.mod_lt _ (by decide)), hb]
    unfold registerBit
    congr 1
    omega
  rw [← hfield, ← hmod]
  exact (Exec.look_bind s _ _).trans ((Exec.look_bind s _ _).trans ((Exec.getD_bind_long ..).trans rfl))

theorem findField_memory_run (h : ∀ r, ea ≠ .dn r) (s : State) : findField bf ea s = (do
    let a ← eaAddress 1 1 ea
    let v ← readSpan (fieldSpan (firstBit s bf) (fieldWidth s bf)) (fieldBase s bf a)
    return { field := topBits (v <<< firstBit s bf) (fieldWidth s bf), width := fieldWidth s bf,
             offset := bfOffset s bf.offset, bits := v, place := .mem (fieldBase s bf a) } : Exec Found) s := by
  unfold findField
  rw [Exec.look_bind, Exec.look_bind, bfWidth_eq]
  cases ea with
  | dn r => exact absurd rfl (h r)
  | _ => simp only [fieldBase_eq, firstBit_eq]

theorem fieldIs_memory {bits : Nat → Bool} (h : ∀ r, ea ≠ .dn r) : FieldIs s s1 bf ea bits ↔
    ∃ a, eaAddress 1 1 ea s = .ok a s1 ∧ Readable s1 s.dataFc (fieldBase s bf a) (fieldBytesIn s bf)
      ∧ ∀ j, bits j = memoryBit s (fieldBase s bf a) (firstBit s bf + j) := by
  cases ea with
  | dn r => exact absurd rfl (h r)
  | _ => exact Iff.rfl

theorem fieldBytesIn_bounds (s : State) (bf : BitField) : 1 ≤ fieldBytesIn s bf ∧ fieldBytesIn s bf ≤ 5
    ∧ firstBit s bf + fieldWidth s bf ≤ 8 * fieldBytesIn s bf := by
  have h1 := fieldWidth_bounds s bf
  have h2 := firstBit_lt s bf
  unfold fieldBytesIn
  omega

/-- The field in memory, as found: the value that holds it has the bits of memory. -/
theorem findField_memory {bits : Nat → Bool} {v : Long} (hne : ∀ r, ea ≠ .dn r) (ha : eaAddress 1 1 ea s = .ok a s1)
    (hr : Readable s1 s.dataFc (fieldBase s bf a) (fieldBytesIn s bf))
    (hb : ∀ j, bits j = memoryBit s (fieldBase s bf a) (firstBit s bf + j)) (hv : HasBits (fieldWidth s bf) v bits) :
    ∃ (x : BitVec 40) (t : State), Recorded s1 t
      ∧ (∀ k < 8 * fieldBytesIn s bf, x.getMsbD k = memoryBit s (fieldBase s bf a) k)
      ∧ findField bf ea s = .ok ⟨v, fieldWidth s bf, bfOffset s bf.offset, x,
          .mem (fieldBase s bf a)⟩ t := by
  have hop := eaAddress_inv ha
  obtain ⟨hn1, hn5, hspan⟩ := fieldBytesIn_bounds s bf
  have hw := fieldWidth_bounds s bf
  obtain ⟨x, t, ht, hread, hx⟩ := readSpan_ok ⟨hn1, hn5⟩ (s := s1) (by rw [hop.dataFc]; exact hr)
  have hbits : ∀ k < 8 * fieldBytesIn s bf, x.getMsbD k = memoryBit s (fieldBase s bf a) k := fun k hk =>
    (hx k hk).trans (memoryBit_congr hop.mem hop.access.platform hop.dataFc _ _)
  have hfield : topBits (x <<< firstBit s bf) (fieldWidth s bf) = v := by
    refine HasBits.unique (topBits_hasBits (k := 40) _ hw.2 (by omega) fun j hj => ?_) hv
    rw [BitVec.getMsbD_shiftLeft, hbits _ (by omega), hb, Nat.add_comm]
  refine ⟨x, t, ht, hbits, (findField_memory_run hne s).trans ?_⟩
  rw [← hfield]
  exact (Exec.bind_ok s ha _).trans (Exec.bind_ok s1 hread _)

/-- The offset as BFFFO uses it: modulo 32 in a register. -/
def usedOffset (s : State) (bf : BitField) : Ea → Int
  | .dn _ => fieldOffset s bf % 32
  | _ => fieldOffset s bf

/-- Wherever the field is, it is found with its value, its width and its offset. -/
theorem findField_ok {bits : Nat → Bool} {v : Long} (hf : FieldIs s s1 bf ea bits) (hv : HasBits (fieldWidth s bf) v bits) :
    ∃ (x : Found) (t : State), OperandEffect 1 ea s t ∧ findField bf ea s = .ok x t ∧ x.field = v
      ∧ x.width = fieldWidth s bf ∧ x.offset = BitVec.ofInt 32 (usedOffset s bf ea) := by
  by_cases h : ∃ r, ea = .dn r
  · obtain ⟨r, rfl⟩ := h
    obtain ⟨hs, hb⟩ := hf
    subst s1
    refine ⟨_, s, .of_stepped rfl, findField_register hb hv, rfl, rfl, ?_⟩
    change (bfOffset s bf.offset &&& 31 : Long) = BitVec.ofInt 32 (fieldOffset s bf % 32)
    have h := bfOffset_mod s bf (m := 32) (by decide)
    apply BitVec.eq_of_toNat_eq
    rw [BitVec.toNat_and, BitVec.toNat_ofInt]
    refine (Nat.and_two_pow_sub_one_eq_mod _ 5).trans (h.symm.trans ?_)
    have hlt : (0 : Int) ≤ fieldOffset s bf % 32 := Int.emod_nonneg _ (by decide)
    rw [Int.emod_eq_of_lt hlt (by omega)]
    rfl
  · have hne : ∀ r, ea ≠ .dn r := fun r hr => h ⟨r, hr⟩
    obtain ⟨a, ha, hr, hb⟩ := (fieldIs_memory hne).mp hf
    obtain ⟨x, t, ht, -, hrun⟩ := findField_memory hne ha hr hb hv
    refine ⟨_, t, ?_, hrun, rfl, rfl, ?_⟩
    · obtain ⟨l, hl, rfl⟩ := ht
      exact (eaAddress_inv ha).read ⟨l, s1.bus, s1.draws, hl, rfl⟩
    · have hu : usedOffset s bf ea = fieldOffset s bf := by
        cases ea with
        | dn r => exact absurd rfl (hne r)
        | _ => rfl
      rw [hu, ← bfOffset_toInt, BitVec.ofInt_toInt]

/-! ## BFTST, BFEXTU, BFEXTS, BFFFO (45 R321 to R324) -/

theorem fieldFlags_eq (w : Nat) (v : Long) (f : Ccr) : fieldFlags w v f = codesOf w v f := rfl

/-- A field is a number below two to its width. -/
theorem toNat_lt_of_hasBits {w : Nat} {v : Long} {bits : Nat → Bool} (h : HasBits w v bits) : v.toNat < 2 ^ w :=
  Nat.lt_pow_two_of_testBit _ fun j hj => h.2 j hj

/-- A field sign-extended. -/
theorem signedField_toInt {w : Nat} {v : Long} {bits : Nat → Bool} (h : HasBits w v bits) (hw : 0 < w ∧ w ≤ 32) {x : Found}
    (hx : x.field = v ∧ x.width = w) :
    (signedField x).toInt = if v.getLsbD (w - 1) then (v.toNat : Int) - 2 ^ w else v.toNat := by
  obtain ⟨rfl, rfl⟩ := hx
  have hlt := toNat_lt_of_hasBits h
  obtain ⟨m, hm⟩ := Nat.exists_eq_add_of_le hw.2
  have hpow : (2 : Int) ^ 32 = 2 ^ x.width * 2 ^ m := by rw [← pow_add, ← hm]
  have hnat : (x.field <<< m).toNat = x.field.toNat * 2 ^ m := by
    rw [BitVec.toNat_shiftLeft, Nat.shiftLeft_eq]
    refine Nat.mod_eq_of_lt ?_
    calc x.field.toNat * 2 ^ m
      _ < 2 ^ x.width * 2 ^ m := Nat.mul_lt_mul_of_pos_right hlt (Nat.two_pow_pos m)
      _ = 2 ^ 32 := by rw [← pow_add, ← hm]
  have hmsb : (x.field <<< m).msb = x.field.getLsbD (x.width - 1) := by
    rw [BitVec.msb, BitVec.getMsbD_shiftLeft, getMsbD_eq _ (by omega)]
    congr 1
    omega
  have hpos : (2 : Int) ^ m ≠ 0 := by positivity
  unfold signedField
  rw [show 32 - x.width = m by omega, BitVec.toInt_sshiftRight, Int.shiftRight_eq_div_pow, BitVec.toInt_eq_msb_cond, hmsb,
    hnat]
  push_cast
  split
  · rw [show (4294967296 : Int) = 2 ^ x.width * 2 ^ m from hpow, ← sub_mul, Int.mul_ediv_cancel _ hpos]
  · rw [Int.mul_ediv_cancel _ hpos]

/-- The first one of a field, counted from its most significant bit. -/
theorem firstOne_spec {w : Nat} {v : Long} {bits : Nat → Bool} (h : HasBits w v bits) :
    (∀ j < firstOne w v, bits j = false) ∧ (firstOne w v = w ∨ firstOne w v < w ∧ bits (firstOne w v) = true) := by
  unfold firstOne
  cases hf : (List.range w).find? fun i => v.getLsbD (w - 1 - i) with
  | none =>
    rw [List.find?_eq_none] at hf
    refine ⟨fun j hj => ?_, .inl rfl⟩
    have hj : j < w := hj
    rw [← h.1 j hj]
    simpa using hf j (List.mem_range.mpr hj)
  | some k =>
    obtain ⟨hk, hlt, hbefore⟩ := List.find?_range_eq_some.mp hf
    have hkw : k < w := List.mem_range.mp hlt
    refine ⟨fun j hj => ?_, .inr ⟨hkw, ?_⟩⟩
    · have hj : j < k := hj
      rw [← h.1 j (by omega)]
      simpa using hbefore j hj
    · change bits k = true
      rw [← h.1 k hkw]
      exact hk

/-- A register loaded from a field. -/
theorem extractField_completes {mk : Reg → BitField → Ea → Instr} {f : Found → Long}
    (hexec : ∀ dn bf ea s, exec (mk dn bf ea) s = complete (mk dn bf ea) (extractField dn bf ea f) s)
    {bits : Nat → Bool} {v : Long} {dn : Reg} (ht : s.traceAll = false) (hf : FieldIs s s1 bf ea bits)
    (hv : HasBits (fieldWidth s bf) v bits) : ∃ x : Found, x.field = v ∧ x.width = fieldWidth s bf
      ∧ x.offset = BitVec.ofInt 32 (usedOffset s bf ea)
      ∧ Completes (mk dn bf ea) s (dNum dn :: steppedRegs ea) [] (fun t =>
        t.ccr = codesOf (fieldWidth s bf) v s.ccr ∧ t.dreg dn = f x) := by
  obtain ⟨x, t, hop, hrun, hxv, hxw, hxo⟩ := findField_ok hf hv
  refine ⟨x, hxv, hxw, hxo, _, next_past (hexec dn bf ea s) ((Exec.bind_ok s hrun _).trans rfl) ht, rfl, Kept.past ?_, ?_,
    ?_⟩
  · exact (hop.kept.trans ((Kept.setCcr t _).trans (Kept.setDreg _ dn _))).mono (by simp) (by simp)
  · rw [past_ccr, State.ccr_setDreg, State.ccr_setCcr, fieldFlags_eq, hop.ccr, hxv, hxw]
  · rw [past_dreg, State.dreg_setDreg]
    rfl

/-- Settles O17: the field is found wherever it is; the codes and the register are those of its value. -/
theorem bitFieldReads : Obligations.BitFieldReads := by
  unfold Obligations.BitFieldReads
  intro s s1 dn bf ea bits v ht hf hv
  refine ⟨?_, ?_, ?_, ?_⟩
  · obtain ⟨x, t, hop, hrun, hxv, hxw, -⟩ := findField_ok hf hv
    refine ⟨_, next_past rfl ((Exec.bind_ok s hrun _).trans rfl) ht, rfl,
      Kept.past ((hop.kept.trans (Kept.setCcr t _)).mono (by simp) (by simp)), ?_⟩
    refine (State.ccr_setCcr ..).trans ?_
    rw [fieldFlags_eq, hop.ccr, hxv, hxw]
  · obtain ⟨x, hxv, -, -, h⟩ := extractField_completes (mk := .bfextu) (fun _ _ _ _ => rfl) ht hf hv
    rw [hxv] at h
    exact h
  · obtain ⟨x, hxv, hxw, -, t, hrun, hpc, hkept, hccr, hd⟩ :=
      extractField_completes (mk := .bfexts) (fun _ _ _ _ => rfl) ht hf hv
    refine ⟨t, hrun, hpc, hkept, hccr, ?_⟩
    rw [hd, signedField_toInt hv (fieldWidth_bounds s bf) ⟨hxv, hxw⟩]
  · obtain ⟨x, hxv, hxw, hxo, t, hrun, hpc, hkept, hccr, hd⟩ :=
      extractField_completes (mk := .bfffo) (fun _ _ _ _ => rfl) ht hf hv
    obtain ⟨hzero, hend⟩ := firstOne_spec hv
    refine ⟨t, hrun, hpc, hkept, hccr, firstOne (fieldWidth s bf) v, hzero, hend, ?_⟩
    rw [hd, hxv, hxw, hxo, BitVec.ofInt_add, BitVec.ofInt_natCast]
    rfl

end Sys2Proof.Machine
end


section
/-! PROOF. Bit fields written (45 R325 to R328). -/

namespace Sys2Proof.Machine

open Sys2Proof Sys2Proof.Claim

variable {s s1 t u : State} {i : Instr} {fc : BitVec 3} {sz : Size} {a : Long} {bf : BitField} {ea : Ea}

/-! ## The bytes of a field written back -/

theorem apply_store (s : State) (fc : BitVec 3) (a : Long) (v : BitVec sz.bits) :
    Store.apply s { c := normalCycle fc, sz := sz, a := a, v := v.setWidth 32 } = poke s fc sz a v := by
  have h := setWidth_back v
  unfold Store.apply
  exact congrArg (poke s fc sz a) h

/-- The first word of a field, stored. -/
theorem apply_spanWord (v : BitVec 40) (s : State) :
    Store.apply s { c := normalCycle fc, sz := .word, a := a, v := (v.extractLsb' 24 16 : Word).setWidth 32 }
      = pokeByte (pokeByte s fc a (v.extractLsb' 32 8)) fc (a + 1) (v.extractLsb' 24 8) := by
  refine (apply_store (sz := .word) s fc a (v.extractLsb' 24 16)).trans ?_
  change pokeByte (pokeByte s fc a ((v.extractLsb' 24 16).extractLsb' 8 8)) fc (a + 1)
    ((v.extractLsb' 24 16).extractLsb' 0 8) = _
  rw [extract_extract v (by decide), extract_extract v (by decide)]

/-- The first long word of a field, stored. -/
theorem apply_spanLong (v : BitVec 40) (s : State) :
    Store.apply s { c := normalCycle fc, sz := .long, a := a, v := v.extractLsb' 8 32 }
      = pokeByte (pokeByte (pokeByte (pokeByte s fc a (v.extractLsb' 32 8)) fc (a + 1) (v.extractLsb' 24 8))
        fc (a + 2) (v.extractLsb' 16 8)) fc (a + 3) (v.extractLsb' 8 8) := by
  have h := apply_store (sz := .long) s fc a (v.extractLsb' 8 32)
  rw [BitVec.setWidth_eq] at h
  refine h.trans ?_
  change pokeByte (pokeByte (pokeByte (pokeByte s fc a ((v.extractLsb' 8 32).extractLsb' 24 8)) fc (a + 1)
    ((v.extractLsb' 8 32).extractLsb' 16 8)) fc (a + 2) ((v.extractLsb' 8 32).extractLsb' 8 8)) fc (a + 3)
    ((v.extractLsb' 8 32).extractLsb' 0 8) = _
  rw [extract_extract v (by decide), extract_extract v (by decide), extract_extract v (by decide),
    extract_extract v (by decide)]

/-- The first `n` bytes of a value with their addresses. -/
def spanBytes (n : Nat) (a : Long) (v : BitVec 40) : List (Long × Byte) :=
  (List.range n).map fun j => (a + BitVec.ofNat 32 j, v.extractLsb' (32 - 8 * j) 8)

/-- The stores of a field write its bytes. -/
theorem spanStores_foldl {n : Nat} (hn : 1 ≤ n ∧ n ≤ 5) (v : BitVec 40) (s : State) :
    (spanStores (normalCycle fc) n a v).foldl Store.apply s
      = (byteStores fc (spanBytes n a v)).foldl Store.apply s := by
  have h0 : a + BitVec.ofNat 32 0 = a := by simp
  obtain rfl | rfl | rfl | rfl | rfl : n = 1 ∨ n = 2 ∨ n = 3 ∨ n = 4 ∨ n = 5 := by omega
  all_goals
    simp only [spanBytes, byteStores, List.range_succ, List.range_zero, List.nil_append, List.cons_append,
      List.map_cons, List.map_nil, List.foldl_cons, List.foldl_nil, h0, apply_byteStore, spanStores]
  · rw [apply_spanWord]
    rfl
  · rw [apply_spanWord]
    rfl
  · rw [apply_spanLong]
    rfl
  · rw [apply_spanLong]
    rfl

/-- The stores of a field that can be written are done. -/
theorem storeAll_span {n : Nat} (hn : 1 ≤ n ∧ n ≤ 5) (v : BitVec 40) (hw : Writable s fc a n) :
    storeAll (spanStores (normalCycle fc) n a v) .seq s
      = .ok .seq ((byteStores fc (spanBytes n a v)).foldl Store.apply s) := by
  rw [← spanStores_foldl hn v s]
  refine storeAll_ok fun w h => ?_
  have part (j k : Nat) (b : Long) (hb : b = a + BitVec.ofNat 32 j) (hj : j + k ≤ n) : Writable s fc b k := hw.part j hb hj
  obtain rfl | rfl | rfl | rfl | rfl : n = 1 ∨ n = 2 ∨ n = 3 ∨ n = 4 ∨ n = 5 := by omega
  all_goals simp only [spanStores, List.mem_cons, List.not_mem_nil, or_false] at h
  · rw [h]
    exact hw
  · rw [h]
    exact hw
  · rcases h with rfl | rfl
    · exact part 0 2 a (by simp) (by decide)
    · exact part 2 1 (a + 2) rfl (by decide)
  · rw [h]
    exact hw
  · rcases h with rfl | rfl
    · exact part 0 4 a (by simp) (by decide)
    · exact part 4 1 (a + 4) rfl (by decide)

theorem dataFc_byteStores (l : List (Long × Byte)) (s : State) :
    ((byteStores fc l).foldl Store.apply s).dataFc = s.dataFc := by
  unfold State.dataFc State.super
  rw [(stores_registers _ s).2.2.2.2.2.1]

/-- The bits of the bytes written. -/
theorem memoryBit_span {n : Nat} (hn : 1 ≤ n ∧ n ≤ 5) (v : BitVec 40) {k : Nat} (hk : k < 8 * n) :
    memoryBit ((byteStores s.dataFc (spanBytes n a v)).foldl Store.apply s) a k = v.getMsbD k := by
  have hmem : (a + BitVec.ofNat 32 (k / 8), (v.extractLsb' (32 - 8 * (k / 8)) 8 : Byte)) ∈ spanBytes n a v :=
    List.mem_map_of_mem (f := fun j => (a + BitVec.ofNat 32 j, (v.extractLsb' (32 - 8 * j) 8 : Byte)))
      (List.mem_range.mpr (by omega))
  have hapart : (spanBytes n a v).Pairwise fun p q => p.1 ≠ q.1 := by
    rw [spanBytes, List.pairwise_map]
    refine List.nodup_range.imp_of_mem fun {i j} hi hj hij => addr_ne ?_ ?_ hij
    · have := List.mem_range.mp hi; omega
    · have := List.mem_range.mp hj; omega
  have hbyte := byteAt_byteStores s.dataFc (spanBytes n a v) s hapart hmem
  rw [memoryBit_eq, dataFc_byteStores, hbyte, getMsbD_eq _ (Nat.mod_lt _ (by decide)), getMsbD_eq _ (by omega),
    BitVec.getLsbD_extractLsb', decide_eq_true (by omega), Bool.true_and]
  congr 1
  omega

/-- What else is as before where the bytes of a field are written. -/
theorem span_kept (n : Nat) (v : BitVec 40) (s : State) :
    Kept s ((byteStores fc (spanBytes n a v)).foldl Store.apply s) [] (keysAt s fc a n)
      ∧ ((byteStores fc (spanBytes n a v)).foldl Store.apply s).ccr = s.ccr := by
  refine ⟨(Kept.byteStores fc (spanBytes n a v) s).mono (by simp) fun k hk => ?_, ?_⟩
  · obtain ⟨p, hp, rfl⟩ := List.mem_map.mp hk
    obtain ⟨j, hj, rfl⟩ := List.mem_map.mp hp
    exact mem_keysAt (List.mem_range.mp hj)
  · unfold State.ccr
    rw [(stores_registers _ s).2.2.2.2.2.1]

/-! ## The field put back -/

/-- A field put back in a register. -/
theorem putField_register {r : Reg} {w : Nat} {v f : Long} {o : Long} {q : Nat} (ho : o.toNat = q) (x : Long) :
    putField ⟨v, w, o, (x.rotateLeft q).setWidth 40, .dreg r⟩ f s
      = .ok .seq (s.setDreg r ((withTopBits (x.rotateLeft q) w f).rotateRight q)) := by
  have hback : ((x.rotateLeft q).setWidth 40 : BitVec 40).setWidth 32 = x.rotateLeft q := by
    rw [BitVec.setWidth_setWidth_of_le _ (by decide), BitVec.setWidth_eq]
  unfold putField
  dsimp only
  rw [ho, hback]
  rfl

/-- A field put back in memory. -/
theorem putField_memory {bits : BitVec 40} {w bo : Nat} {v f o : Long} (ho : o.toNat % 8 = bo)
    (hn : 1 ≤ fieldSpan bo w ∧ fieldSpan bo w ≤ 5) (hw : Writable s s.dataFc a (fieldSpan bo w)) :
    putField ⟨v, w, o, bits, .mem a⟩ f s = .ok .seq ((byteStores s.dataFc (spanBytes (fieldSpan bo w) a
      ((withTopBits (bits.rotateLeft bo) w f).rotateRight bo))).foldl Store.apply s) := by
  unfold putField
  dsimp only
  rw [Exec.look_bind, ho]
  exact storeAll_span hn _ hw

/-- A field put back: the bits of the field are the new ones, the bits around it those of before. -/
theorem replaced_memoryBit {x : BitVec 40} {w bo n m : Nat} {f : Long} {old new : Nat → Bool}
    (hw : w ≤ 32) (hbo : bo < 8) (hn : n ≤ 5) (hspan : bo + w ≤ 8 * n) (hm : m < 8 * n)
    (hold : ∀ k < 8 * n, x.getMsbD k = old k) (hnew : ∀ j < w, f.getLsbD (w - 1 - j) = new j) :
    ((withTopBits (x.rotateLeft bo) w f).rotateRight bo).getMsbD m
      = if bo ≤ m ∧ m < bo + w then new (m - bo) else old m := by
  rw [getMsbD_replaced x f hw (by omega) (by omega) (by omega)]
  by_cases hin : bo ≤ m ∧ m < bo + w
  · have hj : (m + 40 - bo) % 40 = m - bo := by omega
    rw [if_pos hin, hj, if_pos (by omega), hnew _ (by omega)]
  · rw [if_neg hin, if_neg (by omega), hold m hm]

/-- A register whose field was replaced. -/
theorem replaced_registerBit {x f : Long} {w q : Nat} {o : Int} {new : Nat → Bool} (hw : w ≤ 32) (hq : (o % 32).toNat = q)
    (hnew : ∀ j < w, f.getLsbD (w - 1 - j) = new j) :
    (∀ j < w, ((withTopBits (x.rotateLeft q) w f).rotateRight q).getLsbD (registerBit o j) = new j)
    ∧ ∀ k < 32, (∀ j < w, k ≠ registerBit o j) →
      ((withTopBits (x.rotateLeft q) w f).rotateRight q).getLsbD k = x.getLsbD k := by
  have place : ∀ k < 32, ((withTopBits (x.rotateLeft q) w f).rotateRight q).getLsbD k
      = if (31 - k + 32 - q) % 32 < w then f.getLsbD (w - 1 - (31 - k + 32 - q) % 32) else x.getLsbD k := fun k hk => by
    have h := getMsbD_replaced (m := 31 - k) x f hw hw (show q < 32 by omega) (by omega)
    rw [getMsbD_eq _ (by omega), getMsbD_eq _ (by omega), show 32 - 1 - (31 - k) = k by omega] at h
    exact h
  refine ⟨fun j hj => ?_, fun k hk hne => ?_⟩
  · have hindex : (31 - registerBit o j + 32 - q) % 32 = j := by
      unfold registerBit
      omega
    rw [place _ (registerBit_lt o j), hindex, if_pos hj, hnew j hj]
  · rw [place k hk, if_neg]
    intro hj
    refine hne _ hj ?_
    unfold registerBit
    omega

/-! ## BFCHG, BFCLR, BFSET, BFINS (45 R325 to R328) -/

/-- A body that finds the field, sets codes and puts `f` back. -/
def PutsBack (i : BitField → Ea → Instr) (s : State) (bf : BitField) (ea : Ea) (v code f : Long) : Prop :=
  ∃ body : Exec Done, exec (i bf ea) s = complete (i bf ea) body s ∧
    ∀ x t, findField bf ea s = .ok x t → x.field = v → x.width = fieldWidth s bf → OperandEffect 1 ea s t →
      body s = putField x f (t.setCcr (codesOf (fieldWidth s bf) code s.ccr))

theorem givesField_register {mk : BitField → Ea → Instr} {r : Reg} {v code f : Long} {bits new : Nat → Bool}
    (ht : s.traceAll = false) (hb : ∀ j, bits j = (s.dreg r).getLsbD (registerBit (fieldOffset s bf) j))
    (hv : HasBits (fieldWidth s bf) v bits) (hbody : PutsBack mk s bf (.dn r) v code f)
    (hnew : ∀ j < fieldWidth s bf, f.getLsbD (fieldWidth s bf - 1 - j) = new j) :
    GivesField mk s s bf (.dn r) code new := by
  obtain ⟨body, hexec, hrun⟩ := hbody
  have hmod : (bfOffset s bf.offset &&& 31 : Long).toNat = (fieldOffset s bf % 32).toNat := by
    rw [show (32 : Int) = ((32 : Nat) : Int) from rfl, bfOffset_mod s bf (m := 32) (by decide), BitVec.toNat_and]
    exact Nat.and_two_pow_sub_one_eq_mod _ 5
  have hrun := hrun _ _ (findField_register hb hv) rfl rfl (.of_stepped rfl)
  rw [putField_register hmod] at hrun
  obtain ⟨hin, hout⟩ := replaced_registerBit (x := s.dreg r) (fieldWidth_bounds s bf).2 rfl hnew
  refine ⟨_, next_past hexec hrun ht, rfl, Kept.past (((Kept.setCcr s _).trans (Kept.setDreg _ r _)).mono (by simp)
    (by simp)), ?_, ?_, ?_⟩
  · rw [past_ccr, State.ccr_setDreg, State.ccr_setCcr]
  · rw [past_dreg, State.dreg_setDreg]
    exact hin
  · rw [past_dreg, State.dreg_setDreg]
    exact hout

theorem givesField_memory {mk : BitField → Ea → Instr} {v code f : Long} {bits new : Nat → Bool}
    (ht : s.traceAll = false) (hne : ∀ r, ea ≠ .dn r) (ha : eaAddress 1 1 ea s = .ok a s1)
    (hw : Writable s1 s.dataFc (fieldBase s bf a) (fieldBytesIn s bf)) (hf : FieldIs s s1 bf ea bits)
    (hv : HasBits (fieldWidth s bf) v bits) (hbody : PutsBack mk s bf ea v code f)
    (hnew : ∀ j < fieldWidth s bf, f.getLsbD (fieldWidth s bf - 1 - j) = new j) :
    Completes (mk bf ea) s (steppedRegs ea) (keysAt s s.dataFc (fieldBase s bf a) (fieldBytesIn s bf)) (fun t =>
      t.ccr = codesOf (fieldWidth s bf) code s.ccr
      ∧ ∀ k < 8 * fieldBytesIn s bf, memoryBit t (fieldBase s bf a) k =
        if firstBit s bf ≤ k ∧ k < firstBit s bf + fieldWidth s bf then new (k - firstBit s bf)
        else memoryBit s (fieldBase s bf a) k) := by
  obtain ⟨body, hexec, hrun⟩ := hbody
  obtain ⟨b, hb, hr, hbits⟩ := (fieldIs_memory hne).mp hf
  obtain rfl : a = b := by
    rw [ha] at hb
    injection hb
  obtain ⟨hn1, hn5, hspan⟩ := fieldBytesIn_bounds s bf
  obtain ⟨x, t, hrec, hx, hfind⟩ := findField_memory hne ha hr hbits hv
  have hop : OperandEffect 1 ea s t := by
    obtain ⟨l, hl, rfl⟩ := hrec
    exact (eaAddress_inv ha).read ⟨l, s1.bus, s1.draws, hl, rfl⟩
  have hrun := hrun _ _ hfind rfl rfl hop
  generalize hu : t.setCcr (codesOf (fieldWidth s bf) code s.ccr) = u at hrun
  have hacc : SameAccess s1 u := by
    rw [← hu]
    exact hrec.access.trans (SameAccess.setCcr ..)
  have hfc : u.dataFc = s.dataFc := by rw [← hu, State.dataFc_setCcr, hop.dataFc]
  have hplat : u.platform = s.platform := by rw [hacc.platform, (eaAddress_inv ha).access.platform]
  have hkept : Kept s u (steppedRegs ea) [] := by
    rw [← hu]
    exact (hop.kept.trans (Kept.setCcr t _)).mono (by simp) (by simp)
  rw [putField_memory (firstBit_eq s bf) ⟨hn1, hn5⟩ (by rw [hfc]; exact hacc.writable hw)] at hrun
  obtain ⟨hstored, hccr⟩ := span_kept (fc := u.dataFc) (a := fieldBase s bf a)
    (fieldSpan (firstBit s bf) (fieldWidth s bf))
    ((withTopBits (x.rotateLeft (firstBit s bf)) (fieldWidth s bf) f).rotateRight (firstBit s bf)) u
  rw [keysAt_congr hplat, hfc] at hstored
  refine ⟨_, next_past hexec hrun ht, rfl, Kept.past ((hkept.trans (by rw [hfc]; exact hstored)).mono (by simp) ?_), ?_,
    fun k hk => ?_⟩
  · exact List.append_subset.mpr ⟨List.nil_subset _, List.Subset.refl _⟩
  · rw [past_ccr, hccr, ← hu, State.ccr_setCcr]
  · refine (memoryBit_congr rfl rfl rfl _ _).trans ((memoryBit_span ⟨hn1, hn5⟩ _ hk).trans ?_)
    exact replaced_memoryBit (fieldWidth_bounds s bf).2 (firstBit_lt s bf) hn5 hspan hk hx hnew

/-- Wherever the field is, putting it back gives it its new bits. -/
theorem givesField_of_body {mk : BitField → Ea → Instr} {v code f : Long} {bits new : Nat → Bool}
    (ht : s.traceAll = false) (hf : FieldIs s s1 bf ea bits) (hv : HasBits (fieldWidth s bf) v bits)
    (hbody : PutsBack mk s bf ea v code f)
    (hnew : ∀ j < fieldWidth s bf, f.getLsbD (fieldWidth s bf - 1 - j) = new j) :
    GivesField mk s s1 bf ea code new := by
  cases ea with
  | dn r =>
    obtain ⟨hs, hb⟩ := hf
    subst s1
    exact givesField_register ht hb hv hbody hnew
  | _ => exact fun a ha hw => givesField_memory ht nofun ha hw hf hv hbody hnew

theorem putsBack_modify {mk : BitField → Ea → Instr} {g : Long → Long}
    (hexec : ∀ bf ea s, exec (mk bf ea) s = complete (mk bf ea) (modifyField bf ea g) s) (s : State) (bf : BitField)
    (ea : Ea) (v : Long) : PutsBack mk s bf ea v v (lowBits (fieldWidth s bf) (g v)) := by
  refine ⟨_, hexec bf ea s, fun x t hrun hv hw hop => ?_⟩
  refine (Exec.bind_ok s hrun _).trans ((Exec.setFlags_bind ..).trans ?_)
  rw [fieldFlags_eq, hop.ccr, hv, hw]

theorem putsBack_insert (dn : Reg) (s : State) (bf : BitField) (ea : Ea) (v : Long) :
    PutsBack (.bfins dn) s bf ea v (lowBits (fieldWidth s bf) (s.dreg dn)) (lowBits (fieldWidth s bf) (s.dreg dn)) := by
  refine ⟨_, rfl, fun x t hrun hv hw hop => ?_⟩
  refine (Exec.bind_ok s hrun _).trans ((Exec.getD_bind_long ..).trans ((Exec.setFlags_bind ..).trans ?_))
  rw [fieldFlags_eq, hop.ccr, hop.dreg, hw]

/-- The bits of a field that takes the low bits of a value. -/
theorem getLsbD_lowBits_field {w j : Nat} (v : Long) (hw : w ≤ 32) (hj : j < w) :
    (lowBits w v).getLsbD (w - 1 - j) = v.getLsbD (w - 1 - j) := by
  rw [getLsbD_lowBits v hw, decide_eq_true (by omega), Bool.true_and]

/-- Settles O18: the field is found, its bits replaced and the bytes or the register it lies in written back. -/
theorem bitFieldWrites : Obligations.BitFieldWrites := by
  unfold Obligations.BitFieldWrites
  intro s s1 dn bf ea bits v ht hf hv
  have hw := (fieldWidth_bounds s bf).2
  refine ⟨?_, ?_, ?_, fun u hu => ?_⟩
  · refine givesField_of_body ht hf hv (putsBack_modify (fun _ _ _ => rfl) s bf ea v) fun j hj => ?_
    rw [getLsbD_lowBits_field _ hw hj, BitVec.getLsbD_not, decide_eq_true (by omega), Bool.true_and, hv.1 j hj]
  · refine givesField_of_body ht hf hv (putsBack_modify (fun _ _ _ => rfl) s bf ea v) fun j hj => ?_
    rw [getLsbD_lowBits_field _ hw hj]
    exact BitVec.getLsbD_zero
  · refine givesField_of_body ht hf hv (putsBack_modify (fun _ _ _ => rfl) s bf ea v) fun j hj => ?_
    rw [getLsbD_lowBits_field _ hw hj]
    have hones : (0xFFFFFFFF : Long) = BitVec.allOnes 32 := rfl
    rw [hones, BitVec.getLsbD_allOnes, decide_eq_true (by omega)]
  · obtain rfl : u = lowBits (fieldWidth s bf) (s.dreg dn) := HasBits.unique hu (lowBits_hasBits _ hw)
    exact givesField_of_body ht hf hv (putsBack_insert dn s bf ea v) fun j hj => getLsbD_lowBits_field _ hw hj

end Sys2Proof.Machine
end


section
/-! PROOF. CINV and CPUSH (49 R435 to R437). -/

namespace Sys2Proof.Machine

open Sys2Proof Sys2Proof.Claim

variable {s t u : State} {scope : CacheScope} {a : Long} {sel : CacheSel}

/-! ## States that differ in their caches and in memory -/

/-- A state with the memory, the caches and the draws of another. -/
def recached (t s : State) : State :=
  { withRecords t.records s with mem := t.mem, dcache := t.dcache, icache := t.icache, purged := t.purged, draws := t.draws }

/-- Caches are in no frame; memory may change at the keys given. -/
theorem Kept.of_recached {keys : List Nat} (ht : t = recached t s)
    (h : ∀ k, k ∉ keys → Memory.get t.mem k = Memory.get s.mem k) : Kept s t [] keys := by
  rw [ht]
  constructor
  case control => constructor <;> rfl
  case reg =>
    intro i _
    rcases greg_cases i with ⟨m, rfl⟩ | ⟨m, rfl⟩
    · rw [greg_dNum, greg_dNum]
      rfl
    · rw [greg_aNum, greg_aNum]
      rfl
  case memory => exact fun fc a hk => h _ hk
  all_goals (intros; rfl)

/-! ## The keys of what memory holds of dirty bytes -/

theorem heldBytes_keys {n : Nat} {m l : List Host.Cell} {c : Host.Cell} (h : c ∈ heldBytes n m l) :
    c.1 ∈ l.map fun d => d.1 := by
  obtain ⟨k, hk, rfl⟩ := List.mem_map.mp h
  obtain ⟨d, hd, hdk⟩ := mem_keysOf hk
  exact List.mem_map.mpr ⟨d, hd, hdk⟩

/-- The keys of the dirty bytes in a scope. -/
theorem keys_filter (l : List Host.Cell) (p : Nat → Bool) :
    (l.filter fun c => p c.1).map (fun c => c.1) = (l.map fun c => c.1).filter p := by
  rw [List.filter_map]
  rfl

/-- The dirty bytes of a scope. -/
def hits (s : State) (scope : CacheScope) (a : Long) : List Host.Cell := s.dirty.filter fun c => inScope scope a c.1

theorem hits_keys (s : State) (scope : CacheScope) (a : Long) :
    (hits s scope a).map (fun c => c.1) = (s.dirty.map fun c => c.1).filter (inScope scope a) :=
  keys_filter s.dirty (inScope scope a)

/-- Memory changes at dirty bytes of the scope only, to a value it may have held. -/
theorem invalidateData_kept (s : State) (scope : CacheScope) (a : Long) :
    Kept s (invalidateData s scope a) [] ((s.dirty.map fun c => c.1).filter (inScope scope a)) := by
  refine Kept.of_recached rfl fun k hk => ?_
  rw [← hits_keys] at hk
  change Memory.get (if seesCache s then putAll s.mem (heldBytes s.draws s.mem (hits s scope a)) else s.mem) k = _
  split
  · exact Memory.get_putAll_of_not_mem _ _ fun c hc he => hk (he ▸ heldBytes_keys hc)
  · rfl

theorem invalidateInstr_kept (s : State) (scope : CacheScope) (a : Long) : Kept s (invalidateInstr s scope a) [] [] :=
  Kept.of_recached rfl fun _ _ => rfl

/-! ## Pushes that all reach memory -/

/-- Every push reaches memory: no TEA, no device and no read-only memory. -/
structure PushesReach (s : State) : Prop where
  tea : ∀ l, pushFails s l = false
  devices : s.platform.devices = []
  roms : s.platform.roms = []
  cells : s.romCells = []

theorem touches_nil (fc : BitVec 3) (a : Long) (n : Nat) : touches [] fc a n = false :=
  List.any_eq_false.mpr fun _ _ => Bool.false_ne_true

theorem PushesReach.linesAway (h : PushesReach s) (hit : List Host.Cell) : linesAway s hit = [] := by
  unfold Machine.linesAway
  split
  · rfl
  · refine List.filter_eq_nil_iff.mpr fun l _ => ?_
    rw [h.tea, h.devices, touches_nil]
    exact Bool.false_ne_true

theorem PushesReach.romHeld (h : PushesReach s) (hit : List Host.Cell) : romHeld s hit = [] := by
  unfold Machine.romHeld
  rw [h.cells]
  rfl

theorem PushesReach.romKey (h : PushesReach s) (k : Nat) : romKey s k = false := by
  unfold Machine.romKey
  rw [h.roms]
  exact touches_nil _ _ _

/-- Memory once the dirty bytes `hit` are pushed: with the cache in use the program saw them before. -/
theorem PushesReach.pushedMemory (h : PushesReach s) (hit : List Host.Cell) :
    pushedMemory s hit = if seesCache s then s.mem else putAll s.mem hit := by
  have hrom : (hit.filter fun c => Machine.romKey s c.1) = [] :=
    List.filter_eq_nil_iff.mpr fun c _ => by rw [h.romKey]; exact Bool.false_ne_true
  have hram : (hit.filter fun c => !Machine.romKey s c.1) = hit :=
    List.filter_eq_self.mpr fun c _ => by rw [h.romKey]; rfl
  unfold Machine.pushedMemory
  rw [h.romHeld, hrom, hram]
  simp only [List.filter_nil, List.append_nil]
  rfl

theorem withPowerOn_known (h : s.dcache ≠ .unknown) (scope : CacheScope) (a : Long) : withPowerOn s scope a = s := by
  unfold withPowerOn
  rw [if_neg (by simpa using h)]

theorem seesCache_known (h : s.dcache ≠ .unknown) : seesCache s = dcacheOn s := by
  unfold seesCache
  rw [show (s.dcache != .unknown) = true from by simpa using h, Bool.and_true]

/-- CPUSH changes no byte the program sees through the cache in use. -/
theorem pushData_kept (h : PushesReach s) (hd : s.dcache ≠ .unknown) (scope : CacheScope) (a : Long) :
    Kept s (pushData s scope a) [] (if dcacheOn s then [] else (s.dirty.map fun c => c.1).filter (inScope scope a)) := by
  refine Kept.of_recached rfl fun k hk => ?_
  rw [← hits_keys] at hk
  change Memory.get (pushedMemory s (hits s scope a)) k = _
  rw [h.pushedMemory, seesCache_known hd]
  split
  · rfl
  · next hoff =>
    rw [if_neg hoff] at hk
    exact Memory.get_putAll_of_not_mem _ _ fun c hc he => hk (he ▸ List.mem_map_of_mem (f := fun c : Host.Cell => c.1) hc)

/-! ## CINV and CPUSH -/

/-- What the invalidation in the instruction cache leaves, where the selector names it. -/
def instrPart (sel : CacheSel) (scope : CacheScope) (a : Long) (s : State) : State :=
  if selectsInstr sel then invalidateInstr s scope a else s

theorem instrPart_kept (sel : CacheSel) (scope : CacheScope) (a : Long) (s : State) :
    Kept s (instrPart sel scope a s) [] [] := by
  unfold instrPart
  split
  · exact invalidateInstr_kept s scope a
  · exact Kept.refl s

theorem instrPart_same (sel : CacheSel) (scope : CacheScope) (a : Long) (s : State) :
    (instrPart sel scope a s).ccr = s.ccr ∧ (instrPart sel scope a s).dirty = s.dirty
      ∧ (instrPart sel scope a s).mem = s.mem := by
  unfold instrPart
  split <;> exact ⟨rfl, rfl, rfl⟩

/-- Invalidating all lines leaves the instruction cache known and without old bytes. -/
theorem instrPart_all (h : selectsInstr sel = true) (a : Long) (s : State) :
    (instrPart sel .all a s).icache ≠ .unknown ∧ (instrPart sel .all a s).staleInstr = [] := by
  unfold instrPart
  rw [if_pos h]
  constructor
  · change (if icacheOn s then CacheState.live else .empty) ≠ .unknown
    split <;> exact nofun
  · exact List.filter_eq_nil_iff.mpr fun k _ => Bool.false_ne_true

/-- What CINV and CPUSH ask of the caches. -/
def Cleaned (s : State) (sel : CacheSel) (scope : CacheScope) (a : Long) (t : State) : Prop :=
  t.ccr = s.ccr
  ∧ (selectsData sel = true → ∀ c, c ∈ t.dirty ↔ c ∈ s.dirty ∧ inScope scope a c.1 = false)
  ∧ (selectsData sel = false → t.dirty = s.dirty ∧ t.mem = s.mem)
  ∧ (selectsInstr sel = true → scope = .all → t.icache ≠ .unknown ∧ t.staleInstr = [])

/-- The data part `u`, then the instruction part. -/
theorem cleaned_instrPart (hccr : u.ccr = s.ccr)
    (hdata : selectsData sel = true → u.dirty = s.dirty.filter fun c => !inScope scope a c.1)
    (hnone : selectsData sel = false → u = s) (i : Instr) :
    Cleaned s sel scope a (past i s (instrPart sel scope a u)) := by
  obtain ⟨hc, hd, hm⟩ := instrPart_same sel scope a u
  refine ⟨hc.trans hccr, fun h c => ?_, fun h => ?_, fun h hall => ?_⟩
  · rw [show (past i s (instrPart sel scope a u)).dirty = u.dirty from hd, hdata h, List.mem_filter, Bool.not_eq_true']
  · rw [show (past i s (instrPart sel scope a u)).dirty = u.dirty from hd, past_mem, hm, hnone h]
    exact ⟨rfl, rfl⟩
  · subst hall
    exact instrPart_all h a u

theorem cinv_completes {an : Reg} (hs : s.super = true) (ht : s.traceAll = false) :
    Completes (.cinv sel scope an) s [] ((s.dirty.map fun c => c.1).filter (inScope scope (s.areg an)))
      (Cleaned s sel scope (s.areg an)) := by
  obtain ⟨body, hexec, hbody⟩ : ∃ body : Exec Done, exec (.cinv sel scope an) s = complete (.cinv sel scope an) body s
      ∧ body s = .ok .seq (instrPart sel scope (s.areg an)
        (if selectsData sel then invalidateData s scope (s.areg an) else s)) := by
    refine ⟨_, rfl, (needSupervisor_super hs _).trans ((Exec.getA_bind ..).trans ?_)⟩
    cases sel <;> rfl
  refine ⟨_, next_past hexec hbody ht, rfl, Kept.past ?_, cleaned_instrPart ?_ (fun h => ?_) (fun h => ?_) _⟩
  · have hi := instrPart_kept sel scope (s.areg an)
    split
    · exact ((invalidateData_kept s scope (s.areg an)).trans (hi _)).mono (by simp) (by simp)
    · exact (hi s).mono (by simp) (by simp)
  · split <;> rfl
  · rw [if_pos h]
    rfl
  · rw [if_neg (by rw [h]; exact Bool.false_ne_true)]

theorem pushCaches_run (h : PushesReach s) (hd : selectsData sel = true → s.dcache ≠ .unknown) (scope : CacheScope)
    (a : Long) : pushCaches (selectsData sel) (selectsInstr sel) scope a s
      = .ok () (instrPart sel scope a (if selectsData sel then pushData s scope a else s)) := by
  unfold pushCaches
  cases hsel : selectsData sel with
  | false => rfl
  | true =>
    dsimp only
    rw [if_pos rfl, withPowerOn_known (hd hsel), h.linesAway]
    rfl

theorem cpush_completes {an : Reg} (hs : s.super = true) (ht : s.traceAll = false) (h : PushesReach s)
    (hd : selectsData sel = true → s.dcache ≠ .unknown) :
    Completes (.cpush sel scope an) s []
      (if dcacheOn s then [] else (s.dirty.map fun c => c.1).filter (inScope scope (s.areg an)))
      fun t => Cleaned s sel scope (s.areg an) t ∧ (dcacheOn s = false → selectsData sel = true →
        ∀ c ∈ s.dirty, inScope scope (s.areg an) c.1 = true → (∀ e ∈ s.dirty, e.1 = c.1 → e = c) →
          Memory.get t.mem c.1 = c.2) := by
  have hbody := (needSupervisor_super hs (fun _ => (getA an >>= fun a => pushCaches (selectsData sel) (selectsInstr sel)
    scope a >>= fun _ => return Done.seq : Exec Done))).trans ((Exec.getA_bind ..).trans
      (Exec.bind_ok s (pushCaches_run h hd scope (s.areg an)) _))
  refine ⟨_, next_past rfl hbody ht, rfl, Kept.past ?_, cleaned_instrPart ?_ (fun h => ?_) (fun h => ?_) _, ?_⟩
  · have hi := instrPart_kept sel scope (s.areg an)
    cases hsel : selectsData sel with
    | true => exact ((pushData_kept h (hd hsel) scope (s.areg an)).trans (hi _)).mono (by simp) (by simp)
    | false => exact (hi s).mono (by simp) (by simp)
  · split <;> rfl
  · rw [if_pos h]
    rfl
  · rw [if_neg (by rw [h]; exact Bool.false_ne_true)]
  · intro hoff hsel c hc hin huniq
    rw [past_mem, (instrPart_same ..).2.2, if_pos hsel]
    change Memory.get (pushedMemory s (hits s scope (s.areg an))) c.1 = c.2
    rw [h.pushedMemory, seesCache_known (hd hsel), hoff, if_neg Bool.false_ne_true]
    exact Memory.get_putAll_of_unique _ (List.mem_filter.mpr ⟨hc, hin⟩) fun e he => huniq e (List.mem_filter.mp he).1

/-- Settles O35: lines of the scope leave the caches named; with every push reaching memory, memory takes what they hold. -/
theorem cacheMaintenance : Obligations.CacheMaintenance := by
  unfold Obligations.CacheMaintenance
  exact fun s sel scope an hs ht => ⟨cinv_completes hs ht, fun htea hdev hroms hcells hd =>
    cpush_completes hs ht ⟨htea, hdev, hroms, hcells⟩ hd⟩

end Sys2Proof.Machine
end
